-- ==== Sys2Proof/Word.lean ====
section
/-! DEFINITION. The word types of the EW-M900 and the plainest facts about them (R4, R30). -/

namespace Sys2Proof

/-- A scalar value of the C and A engines: 64 bits. -/
abbrev Word64 := BitVec 64
/-- An instruction word, and a memory word of 32 bits. -/
abbrev Word32 := BitVec 32
/-- A byte of memory. -/
abbrev Byte := BitVec 8
/-- The contents of one vector register, one bank row or one delay slot: 2,048 bits. -/
abbrev Row := BitVec 2048

end Sys2Proof
end

