-- ==== Sys2Proof/Syntax.lean ====
section
/-! DEFINITION. The instructions: one constructor for each row of the opcode table. The first part are the
instruction words of R43, R46, R48 and R49; the second part are the events the part performs between words
(they have no encoding). -/

namespace Sys2Proof

/-- The four token bits of a word (R30): pop-prev, pop-next, push-prev, push-next. -/
structure Tok where
  pp : Bool
  pn : Bool
  hp : Bool
  hn : Bool
  deriving DecidableEq, Repr

/-- The four engines, by the TAG of R30. -/
inductive Engine | c | a | v | m
  deriving DecidableEq, Repr

/-- A 5-bit source field of the C and A engines (R38): a crema entry or a named register. -/
inductive Src
  | b (i : Fin 16)
  | r (i : Fin 16)
  deriving DecidableEq, Repr

/-- A 5-bit destination field of the C and A engines (R38): the crema alone, or a named register as well. -/
inductive Dst
  | drop
  | reg (i : Fin 16)
  deriving DecidableEq, Repr

/-- A clock name k0 to k15. -/
abbrev Clk := Fin 16
/-- A mask register name m0 to m7. -/
abbrev MaskReg := Fin 8
/-- A vector register name before rotation (R47). -/
abbrev VReg := Fin 32
/-- A data queue number as a field holds it. -/
abbrev QNum := Fin 32

/-- The format codes of R57. -/
inductive Fmt
  | raw | int4 | uint4 | int8 | uint8 | int16 | int32 | fp4 | e4m3 | e5m2 | bf16 | fp16 | fp32 | e3m5 | bool | int64
  deriving DecidableEq, Repr

/-- The scopes of R42. -/
inductive Scope | eng | cel | twn | clu | prt | dev | dom | sys
  deriving DecidableEq, Repr

/-- The access sizes of stores and queue accesses (R46). -/
inductive Size | b | h | w | d
  deriving DecidableEq, Repr

/-- The load forms of R46. -/
inductive LdKind | b | h | w | d | bs | hs | ws
  deriving DecidableEq, Repr

/-- The comparisons of C major 0x02 (R43). -/
inductive CmpOp | eq | ne | lt | ltu | le | leu
  deriving DecidableEq, Repr

/-- The widths of sext and zext (R119). -/
inductive ExtWidth | w8 | w16 | w32
  deriving DecidableEq, Repr

/-- The read-modify-write operations of A major 0x20 but for compare-and-swap (R322). -/
inductive AmoOp | add | and | or | xor | min | max | minu | maxu | xchg | fadd
  deriving DecidableEq, Repr

/-- The operations of `ared` (R323). -/
inductive RedOp | add | fadd | min | max | minu | maxu
  deriving DecidableEq, Repr

/-- The atomic extension of R45, but for its comparand. -/
structure AmoExt where
  scope : Scope
  acq : Bool
  rel : Bool
  sc : Bool
  wide : Bool
  cls : Fin 16
  deriving DecidableEq, Repr

/-- The rounding modes of the vector extension (R47). -/
inductive Rm | ne | tz | dn | up
  deriving DecidableEq, Repr

/-- The vector extension of R47. -/
structure VX where
  m : MaskReg
  msk : Bool
  z : Bool
  rm : Rm
  ns : Bool
  idx : Fin 64
  fmt : Fmt
  deriving DecidableEq, Repr

/-- The vector comparisons of V major 0x03. -/
inductive VCmpOp | eq | ne | lt | le
  deriving DecidableEq, Repr

/-- The reductions of V major 0x07. -/
inductive VRedOp | add | max | min
  deriving DecidableEq, Repr


/-- The register files that R110 protects. -/
inductive RegFile | cremaC | cremaA | sreg | areg | vreg | mask | clk | delay | tmpl | window
  deriving DecidableEq, Repr

/-- A word that the tamper reads (R112, R273): a 32-bit word of a register of a cell, or its tags (no word number), a 64-bit
word of a scratchpad, a 32-bit word of the accumulators, a 64-bit word of the weight stores. -/
inductive TamperPlace
  | reg (ctx cell : Nat) (f : RegFile) (i : Nat) (w : Option Nat)
  | spad (ctx cell w : Nat)
  | acc (ctx cell w : Nat)
  | weight (w : Nat)
  deriving DecidableEq, Repr

/-- What a device asks of another's memory (R384, R385): `line` is masked bytes of one line; `check` asks whether a line may be
written and is lost, before a publication (R270, log entry 122). -/
inductive PeerOp
  | read (size : Nat)
  | write (bytes : List Byte)
  | line (mask : BitVec 64) (data : BitVec 512)
  | atomic (op : Option AmoOp) (wide : Bool) (b cmp : Word64)
  | check
  deriving DecidableEq, Repr

/-- Top-k candidates of a collective: their format, each one's value and global index (R348). -/
structure Candidates where
  fmt : Fmt
  list : List (Word32 × Nat)
  deriving DecidableEq, Repr

/-- Candidates at a router, and the device that they go on to, none where the collective ends here (R348, log entry 106). -/
structure Offer where
  dest : Option Nat
  cands : Candidates
  deriving DecidableEq, Repr

/-- What a packet of a flow carries (R345, R384, R387): a barrier arrival or release of a gang, a reduction update, a request to
this device's memory and its answers, top-k candidates of a format, an acknowledgement. `dev` and `ctx` are the device and
the context that send, `gang` the gang of the context; an arrival of generation 0 says that its instance has retired (R337). An
answer names the address that was asked for, and the owner of a line that was lost; `done` says that a write is accepted (log entry
122). The body of a packet whose request has ended with its peer is `void` (R390). -/
inductive Payload
  | arrival (key gang bar gen dev ctx : Nat)
  | release (key gang bar gen : Nat)
  | update (dev owner gang pa : Nat) (zero : Bool) (op : AmoOp) (wide : Bool) (b : Word64)
  | request (dev owner pa : Nat) (zero : Bool) (req : PeerOp)
  | data (pa : Nat) (bytes : List Byte) (lost : Option Nat)
  | done (pa : Nat) (lost : Option Nat)
  | poisoned (owner line : Nat)
  | refusal
  | candidates (ctx id k : Nat) (l : Candidates)
  | ack (flow seq : Nat)
  | void
  deriving DecidableEq, Repr

/-- The settings of a configuration blob (R395): PLIM, the device number, the domain, the disabled cells, the partitions
with their columns and SAFEPTMAX, and the partition of each bound function. -/
structure BlobData where
  plim : Nat
  device : Nat
  domain : Nat
  disabled : List Nat
  parts : List (Nat × List Nat × Nat)
  bindings : List (Nat × Nat)
  bytes : List Byte
  deriving DecidableEq, Repr

/-- A signature with the public key that signed, 384 bytes each (R394, log entry 119). -/
structure Signature where
  key : List Byte
  sig : List Byte
  deriving DecidableEq, Repr

/-- A response of the store: the request's nonce, the store's write count and the tag over both (R397, log entry 120). -/
structure StoreAnswer where
  nonce : Nat
  count : Nat
  tag : List Byte
  deriving DecidableEq, Repr

/-- The instructions of the EW-M900. A word's first argument is its token bits. -/
inductive Instr
  -- C words, R43
  | add (t : Tok) (d : Dst) (a b : Src)
  | sub (t : Tok) (d : Dst) (a b : Src)
  | and (t : Tok) (d : Dst) (a b : Src)
  | or (t : Tok) (d : Dst) (a b : Src)
  | xor (t : Tok) (d : Dst) (a b : Src)
  | andn (t : Tok) (d : Dst) (a b : Src)
  | shl (t : Tok) (d : Dst) (a b : Src)
  | shr (t : Tok) (d : Dst) (a b : Src)
  | sar (t : Tok) (d : Dst) (a b : Src)
  | rotl (t : Tok) (d : Dst) (a b : Src)
  | min (t : Tok) (d : Dst) (a b : Src)
  | minu (t : Tok) (d : Dst) (a b : Src)
  | max (t : Tok) (d : Dst) (a b : Src)
  | maxu (t : Tok) (d : Dst) (a b : Src)
  | sel (t : Tok) (d : Dst) (a b c : Src)
  | mul (t : Tok) (d : Dst) (a b : Src)
  | mulhs (t : Tok) (d : Dst) (a b : Src)
  | mulhu (t : Tok) (d : Dst) (a b : Src)
  | div (t : Tok) (d : Dst) (a b : Src)
  | divu (t : Tok) (d : Dst) (a b : Src)
  | rem (t : Tok) (d : Dst) (a b : Src)
  | remu (t : Tok) (d : Dst) (a b : Src)
  | clz (t : Tok) (d : Dst) (a : Src)
  | ctz (t : Tok) (d : Dst) (a : Src)
  | popc (t : Tok) (d : Dst) (a : Src)
  | sext (t : Tok) (d : Dst) (a : Src) (w : ExtWidth)
  | zext (t : Tok) (d : Dst) (a : Src) (w : ExtWidth)
  | cmp (t : Tok) (f : CmpOp) (d : Dst) (a b : Src)
  | addi (t : Tok) (d : Dst) (a : Src) (imm : BitVec 9)
  | addiExt (t : Tok) (d : Dst) (a : Src) (imm : BitVec 38)
  | li (t : Tok) (d : Dst) (imm : BitVec 14)
  | liExt (t : Tok) (d : Dst) (imm : BitVec 43)
  | lih (t : Tok) (d : Dst) (a : Src) (hi : BitVec 21)
  | keep (t : Tok) (n b : Fin 16)
  | take (t : Tok) (n : Fin 16)
  | br (t : Tok) (off : BitVec 19)
  | bz (t : Tok) (a : Src) (off : BitVec 14)
  | bnz (t : Tok) (a : Src) (off : BitVec 14)
  | call (t : Tok) (off : BitVec 19)
  | jr (t : Tok) (a : Src)
  | ret (t : Tok)
  | loop (t : Tok) (a : Src) (off : BitVec 14)
  | bksel (t : Tok) (a : Src) (g : Fin 256)
  | xbrk (t : Tok) (off : BitVec 19)
  | clkon (t : Tok) (kd kp : Clk) (b : Src)
  | clkoff (t : Tok) (kd kp : Clk) (b : Src)
  | clkrd (t : Tok) (d : Dst) (k : Clk)
  | when_ (t : Tok) (d : Dst) (a : Src) (k : Clk)
  | merge (t : Tok) (d : Dst) (a b : Src)
  | cur (t : Tok) (d : Dst) (a : Src) (k : Clk)
  | dly (t : Tok) (d : Dst) (a : Src) (slot : Fin 64)
  | iend (t : Tok)
  | tsrd (t : Tok) (d : Dst)
  | lrpat (t : Tok) (a : Src) (f : Fin 32) (b : Src)
  | lrarm (t : Tok) (d : Dst) (a : Src) (afterCommit : Bool)
  | lrdrop (t : Tok) (a : Src)
  | texit (t : Tok)
  | twset (t : Tok) (tw : Fin 8) (a : Src)
  | twget (t : Tok) (d : Dst) (tw : Fin 8)
  | twxchg (t : Tok) (d : Dst) (tw : Fin 8) (a : Src)
  | licacq (t : Tok)
  | licrel (t : Tok)
  | barv (t : Tok) (id : Fin 32) (scope : Scope)
  | bwait (t : Tok) (id : Fin 32)
  | bpoll (t : Tok) (d : Dst) (id : Fin 32)
  | bkal (t : Tok) (d : Dst) (a : Src)
  | bkfr (t : Tok) (a b : Src)
  | tmpl (t : Tok) (n : Fin 64) (a : Src)
  | srd (t : Tok) (d : Dst) (sr : Fin 1024)
  | swr (t : Tok) (sr : Fin 1024) (a : Src)
  | nop (t : Tok)
  | trap (t : Tok) (code : BitVec 8)
  | brkp (t : Tok)
  -- A words, R46
  | aadd (t : Tok) (d : Dst) (a b : Src)
  | asub (t : Tok) (d : Dst) (a b : Src)
  | ashl (t : Tok) (d : Dst) (a b : Src)
  | amadd (t : Tok) (d : Dst) (a b c : Src)
  | aaddi (t : Tok) (d : Dst) (a : Src) (imm : BitVec 9)
  | aaddiExt (t : Tok) (d : Dst) (a : Src) (imm : BitVec 38)
  | ali (t : Tok) (d : Dst) (imm : BitVec 14)
  | aliExt (t : Tok) (d : Dst) (imm : BitVec 43)
  | aKeep (t : Tok) (n b : Fin 16)
  | aTake (t : Tok) (n : Fin 16)
  | abr (t : Tok) (off : BitVec 19)
  | abz (t : Tok) (a : Src) (off : BitVec 14)
  | abnz (t : Tok) (a : Src) (off : BitVec 14)
  | aloop (t : Tok) (a : Src) (off : BitVec 14)
  | ld (t : Tok) (k : LdKind) (d : Dst) (a : Src) (cls : Fin 16)
  | ldExt (t : Tok) (k : LdKind) (d : Dst) (a : Src) (cls : Fin 16) (off : BitVec 29)
  | st (t : Tok) (z : Size) (b a : Src) (cls : Fin 16)
  | stExt (t : Tok) (z : Size) (b a : Src) (cls : Fin 16) (off : BitVec 29)
  | qld (t : Tok) (z : Size) (q : QNum) (a : Src) (cls : Fin 16)
  | qldExt (t : Tok) (z : Size) (q : QNum) (a : Src) (cls : Fin 16) (off : BitVec 29)
  | qst (t : Tok) (z : Size) (q : QNum) (a : Src) (cls : Fin 16)
  | qstExt (t : Tok) (z : Size) (q : QNum) (a : Src) (cls : Fin 16) (off : BitVec 29)
  | pat (t : Tok) (q : QNum) (a : Src) (cls : Fin 16)
  | gth (t : Tok) (z : Size) (q : QNum) (a : Src) (cls : Fin 16) (qi : QNum)
  | sct (t : Tok) (z : Size) (q : QNum) (a : Src) (cls : Fin 16) (qi : QNum)
  | cpy (t : Tok) (d s n : Src) (cls : Fin 16)
  | cpyw (t : Tok) (cls : Fin 16)
  | wst (t : Tok) (o s n : Src)
  | pref (t : Tok) (a : Src)
  | prefExt (t : Tok) (a : Src) (off : BitVec 29)
  | fcls (t : Tok) (mask : BitVec 16) (scope : Scope)
  | fsc (t : Tok)
  | amo (t : Tok) (op : AmoOp) (d : Dst) (a b : Src) (x : AmoExt)
  | amoCas (t : Tok) (d : Dst) (a b cmp : Src) (x : AmoExt)
  | ared (t : Tok) (op : RedOp) (a b : Src) (x : AmoExt)
  | qpush (t : Tok) (q : QNum) (a : Src)
  | qpop (t : Tok) (d : Dst) (q : QNum) (k : Clk)
  -- V words, R48
  | vadd (t : Tok) (d a b : VReg)
  | vaddExt (t : Tok) (d a b : VReg) (x : VX)
  | vsub (t : Tok) (d a b : VReg)
  | vsubExt (t : Tok) (d a b : VReg) (x : VX)
  | vmul (t : Tok) (d a b : VReg)
  | vmulExt (t : Tok) (d a b : VReg) (x : VX)
  | vmin (t : Tok) (d a b : VReg)
  | vminExt (t : Tok) (d a b : VReg) (x : VX)
  | vmax (t : Tok) (d a b : VReg)
  | vmaxExt (t : Tok) (d a b : VReg) (x : VX)
  | vabs (t : Tok) (d a : VReg)
  | vabsExt (t : Tok) (d a : VReg) (x : VX)
  | vneg (t : Tok) (d a : VReg)
  | vnegExt (t : Tok) (d a : VReg) (x : VX)
  | vfma (t : Tok) (d a b : VReg)
  | vfmaExt (t : Tok) (d a b : VReg) (x : VX)
  | vfms (t : Tok) (d a b : VReg)
  | vfmsExt (t : Tok) (d a b : VReg) (x : VX)
  | vfnma (t : Tok) (d a b : VReg)
  | vfnmaExt (t : Tok) (d a b : VReg) (x : VX)
  | vrcp (t : Tok) (d a : VReg)
  | vrcpExt (t : Tok) (d a : VReg) (x : VX)
  | vrsq (t : Tok) (d a : VReg)
  | vrsqExt (t : Tok) (d a : VReg) (x : VX)
  | vexp2 (t : Tok) (d a : VReg)
  | vexp2Ext (t : Tok) (d a : VReg) (x : VX)
  | vlog2 (t : Tok) (d a : VReg)
  | vlog2Ext (t : Tok) (d a : VReg) (x : VX)
  | vtanh (t : Tok) (d a : VReg)
  | vtanhExt (t : Tok) (d a : VReg) (x : VX)
  | vcmp (t : Tok) (f : VCmpOp) (md : MaskReg) (a b : VReg)
  | vcmpExt (t : Tok) (f : VCmpOp) (md : MaskReg) (a b : VReg) (x : VX)
  | vand (t : Tok) (d a b : VReg)
  | vandExt (t : Tok) (d a b : VReg) (x : VX)
  | vor (t : Tok) (d a b : VReg)
  | vorExt (t : Tok) (d a b : VReg) (x : VX)
  | vxor (t : Tok) (d a b : VReg)
  | vxorExt (t : Tok) (d a b : VReg) (x : VX)
  | vnot (t : Tok) (d a : VReg)
  | vnotExt (t : Tok) (d a : VReg) (x : VX)
  | vshl (t : Tok) (d a b : VReg)
  | vshlExt (t : Tok) (d a b : VReg) (x : VX)
  | vshr (t : Tok) (d a b : VReg)
  | vshrExt (t : Tok) (d a b : VReg) (x : VX)
  | vsar (t : Tok) (d a b : VReg)
  | vsarExt (t : Tok) (d a b : VReg) (x : VX)
  | vsel (t : Tok) (ma : MaskReg) (d a b : VReg)
  | vshuf (t : Tok) (d a b : VReg)
  | vshufExt (t : Tok) (d a b : VReg) (x : VX)
  | vperm (t : Tok) (d a b : VReg)
  | vpermExt (t : Tok) (d a b : VReg) (x : VX)
  | vrot (t : Tok) (d a : VReg) (x : VX)
  | vbcast (t : Tok) (d a : VReg) (x : VX)
  | vred (t : Tok) (f : VRedOp) (d a : VReg)
  | vredExt (t : Tok) (f : VRedOp) (d a : VReg) (x : VX)
  | vscan (t : Tok) (d a : VReg)
  | vscanExt (t : Tok) (d a : VReg) (x : VX)
  | vtopk (t : Tok) (d a : VReg) (x : VX)
  | vsort (t : Tok) (asc : Bool) (d a : VReg)
  | vsortExt (t : Tok) (asc : Bool) (d a : VReg) (x : VX)
  | vcvt (t : Tok) (d a : VReg) (x : VX)
  | vpack (t : Tok) (d a b : VReg) (x : VX)
  | vunpk (t : Tok) (d a : VReg) (x : VX)
  | vunpk4 (t : Tok) (d a : VReg) (x : VX)
  | vsat (t : Tok) (d a : VReg) (x : VX)
  | vld (t : Tok) (v : VReg) (row : BitVec 12)
  | vst (t : Tok) (v : VReg) (row : BitVec 12)
  | vpop (t : Tok) (d : VReg) (q : QNum) (k : Clk)
  | vpush (t : Tok) (q : QNum) (s : VReg)
  | vmov (t : Tok) (d a : VReg)
  | vmovExt (t : Tok) (d a : VReg) (x : VX)
  | vmovs (t : Tok) (d : VReg) (q : QNum) (n : Fin 64)
  | vext (t : Tok) (q : QNum) (a : VReg) (n : Fin 64)
  | mand (t : Tok) (md ma mb : MaskReg)
  | mor (t : Tok) (md ma mb : MaskReg)
  | mnot (t : Tok) (md ma : MaskReg)
  | mpop (t : Tok) (q : QNum) (ma : MaskReg)
  | mset (t : Tok) (md : MaskReg) (n : Fin 128)
  | vrb (t : Tok) (base sizeM1 : Fin 32)
  | vloop (t : Tok) (off : BitVec 14)
  | vfmt (t : Tok) (d : VReg) (f : Fmt)
  | vwhen (t : Tok) (d a : VReg) (k : Clk)
  | vmerge (t : Tok) (d a b : VReg)
  | vdly (t : Tok) (d a : VReg) (slot : Fin 64)
  | vacc (t : Tok) (d : VReg) (bank : Fin 128) (row : Fin 8)
  | vaccw (t : Tok) (s : VReg) (bank : Fin 128) (row : Fin 8)
  | vbr (t : Tok) (ma : MaskReg) (none_ : Bool) (off : BitVec 15)
  -- M words, R49
  | mexec (t : Tok) (n : Fin 64) (sel : Fin 8) (val : BitVec 16)
  | mexecExt (t : Tok) (n : Fin 64) (sel : Fin 8) (val : BitVec 16) (sel2 : Fin 8) (val2 : BitVec 16)
  -- events between words
  | pairedRendezvous (ctx cell : Nat)
  | matrixCommandComplete (ctx cell : Nat)
  | twxchgRendezvous (ctx cell : Nat)
  | twinAbandon (ctx cell : Nat)
  | licenceGrant (ctx cell : Nat)
  | leaseExpiry (ctx cell : Nat)
  | licencePass (ctx cell : Nat)
  | firstClaimTimeout (ctx cell : Nat)
  | streamElement (ctx cell id : Nat)
  | copyUnit (ctx cell id : Nat)
  | loadDataReturn (ctx cell id : Nat)
  | scratchpadRefetch (ctx cell : Nat)
  | atomicPerform (ctx cell id : Nat)
  | reductionPerform (n : Nat)
  | scSlot (ctx cell : Nat)
  | commit (id : Nat)
  | instantOverrun (ctx cell : Nat)
  | checkerMismatch (ctx cell : Nat) (e : Engine)
  | tamperRead (place : TamperPlace) (double : Bool)
  | patrolRead (line : Nat) (fails : Bool)
  | refreshWindow
  | baristaVisit (part : Nat)
  | placementStall (part : Nat)
  | groupPrepared (gid : Nat)
  | instStart (ctx inst : Nat)
  | hostNop (part : Nat)
  | load (part : Nat)
  | launch (part : Nat)
  | argumentReadDone (part : Nat) (ok : Bool)
  | cancel (part : Nat)
  | unload (part : Nat)
  | ringResume (part : Nat)
  | doorbell (fn ring : Nat) (v : Word32)
  | ringEnable (fn ring : Nat)
  | ringOverrunClear (fn ring : Nat)
  | completionReadPointer (fn : Nat) (v : Word32)
  | invalidate (fn : Nat) (v : Word64)
  | invalidateDone (fn : Nat)
  | repair (v : Word64)
  | repairDone
  | setup (fn slot : Nat)
  | fetch (fn slot : Nat)
  | fetchDone (part : Nat)
  | park (fn slot : Nat)
  | parkDone (part : Nat)
  | switch (fn slot : Nat)
  | switchDue (part : Nat)
  | halt (fn slot : Nat)
  | haltDue (part : Nat)
  | roleFlipDone (part : Nat)
  | ctxResume (fn slot : Nat)
  | ctxEnd (fn slot : Nat)
  | attest (fn slot cidx : Nat)
  | keywrap (fn slot cidx : Nat)
  | seal (fn slot cidx : Nat)
  | sealDone (part : Nat)
  | restore (fn slot cidx : Nat)
  | ctrquote (fn slot cidx : Nat)
  | ctrfree (fn slot cidx : Nat)
  | storeResponse (part : Nat) (r : StoreAnswer)
  | retrain (port : Nat)
  | linkTrained (port lanes peer : Nat) (full : Bool)
  | trainingTimeout (port : Nat)
  | linkLoss (port : Nat)
  | packetArrival (flow seq : Nat) (body : Payload)
  | retransmit (flow seq : Nat)
  | peerRequest (dev owner pa : Nat) (zero : Bool) (req : PeerOp)
  | peerRefusal (ctx cell id : Nat)
  | peerUnreachable (dev : Nat)
  | hostMemAccess (off size : Nat) (data : Option (List Byte))
  | gather (n : Nat) (dest : Option Nat)
  | multicast (n cell : Nat)
  | combine (n m : Nat)
  | filter (ctx id k : Nat) (f : Offer)
  | arbiterGrant
  | thermalSample (cluster temp : Nat)
  | thermalLevelFall (cluster : Nat)
  | powerUp
  | bootgo (image : List Byte)
  | blob (b : BlobData) (g : Signature)
  | vfEnable (n : Nat)
  | timeSync (d : Int)
  | timeJoin (ref time : Nat)
  | referenceLost (ref : Nat)
  | lifetimeUpdate
  | powerDown
  | registerWrite (fn off : Nat) (v : Word64)
  | powerLoss
  | directWritePerformed (ctx cell id : Nat)
  | arrayFree (ctx cell id : Nat)
  | wstUnitWritten (ctx cell id : Nat)
  | loadDone (part : Nat)
  | restoreDone (part : Nat)
  | firmwareVerifyDone (g : Signature)
  deriving DecidableEq, Repr

end Sys2Proof
end

