-- ==== Sys2Proof/Machine/Float.lean ====
section
/-! DEFINITION. Number formats and arithmetic (R57 to R84): decoding elements to exact values, rounding, conversion, the
element operations and the functions of the vector engine, and the dot products of the matrix array. -/

namespace Sys2Proof.Machine

open Sys2Proof

/-- An exact value: NaN, an infinity, or a signed multiple of a power of two (a zero keeps its sign). -/
inductive FVal
  | nan
  | inf (neg : Bool)
  | fin (neg : Bool) (n : Nat) (e : Int)
  deriving DecidableEq, Repr

/-- Element widths of R57. -/
def fmtWidth : Fmt → Nat
  | .raw | .int32 | .fp32 | .bool => 32
  | .int4 | .uint4 | .fp4 => 4
  | .int8 | .uint8 | .e4m3 | .e5m2 | .e3m5 => 8
  | .int16 | .bf16 | .fp16 => 16
  | .int64 => 64

/-- Elements in a vector register (R57). -/
def fmtCount (f : Fmt) : Nat := 2048 / fmtWidth f

/-- The arithmetic float formats of R57. -/
def isArithFloat : Fmt → Bool
  | .bf16 | .fp16 | .fp32 => true
  | _ => false

/-- The arithmetic integer formats of R57. -/
def isArithInt : Fmt → Bool
  | .int8 | .uint8 | .int16 | .int32 => true
  | _ => false

def isArith (f : Fmt) : Bool := isArithFloat f || isArithInt f

def isInt : Fmt → Bool
  | .int4 | .uint4 | .int8 | .uint8 | .int16 | .int32 | .int64 => true
  | _ => false

def isSigned : Fmt → Bool
  | .int4 | .int8 | .int16 | .int32 | .int64 => true
  | _ => false

/-- Fraction bits of a float format (R62 to R66). -/
def fracBits : Fmt → Nat
  | .fp32 => 23 | .fp16 => 10 | .bf16 => 7 | .e4m3 => 3 | .e5m2 => 2 | .e3m5 => 5 | .fp4 => 1 | _ => 0

/-- Exponent bits of a float format. -/
def expBits : Fmt → Nat
  | .fp32 | .bf16 => 8 | .fp16 | .e5m2 => 5 | .e4m3 => 4 | .e3m5 => 3 | .fp4 => 2 | _ => 0

/-- Exponent bias of a float format. -/
def expBias : Fmt → Int
  | .fp32 | .bf16 => 127 | .fp16 | .e5m2 => 15 | .e4m3 => 7 | .e3m5 => 3 | .fp4 => 1 | _ => 0

/-- The formats with infinities. -/
def hasInf : Fmt → Bool
  | .fp32 | .fp16 | .bf16 | .e5m2 => true
  | _ => false

/-- The exponent of the last place of a subnormal. -/
def lastPlace (f : Fmt) : Int := 1 - expBias f - fracBits f

/-- The exact value of the code of a float format (R62 to R66). -/
def floatVal (f : Fmt) (code : Nat) : FVal :=
  let p := fracBits f
  let x := expBits f
  let frac := code % 2 ^ p
  let ex := code / 2 ^ p % 2 ^ x
  let neg := f != .e3m5 && code / 2 ^ (p + x) % 2 == 1
  if hasInf f && ex == 2 ^ x - 1 then (if frac = 0 then .inf neg else .nan)
  else if (f == .e4m3 && ex == 15 && frac == 7) || (f == .e3m5 && code % 256 == 255) then .nan
  else if ex = 0 then .fin neg frac (lastPlace f)
  else .fin neg (2 ^ p + frac) (ex - expBias f - p)

/-- The signed reading of the low `w` bits. -/
def signedOf (w v : Nat) : Int := if v % 2 ^ w < 2 ^ (w - 1) then (v % 2 ^ w : Nat) else (v % 2 ^ w : Nat) - (2 ^ w : Nat)

/-- An integer as an exact value; zero is positive (R71). -/
def intVal (v : Int) : FVal := .fin (decide (v < 0)) v.natAbs 0

/-- The exact value of an element (R59, R62 to R66); RAW and BOOL have none and are not converted. -/
def elemVal (f : Fmt) (code : Nat) : FVal :=
  if isInt f then intVal (if isSigned f then signedOf (fmtWidth f) code else (code % 2 ^ fmtWidth f : Nat))
  else floatVal f code

/-- The integer nearest to n / 2^k in the mode: `neg` is the sign of the value (R70). -/
def roundShift (rm : Rm) (neg : Bool) (n k : Nat) : Nat :=
  let q := n / 2 ^ k
  let r := n % 2 ^ k
  match rm with
  | .ne => if 2 ^ k < 2 * r || (2 * r == 2 ^ k && q % 2 == 1) then q + 1 else q
  | .tz => q
  | .dn => if neg && r != 0 then q + 1 else q
  | .up => if !neg && r != 0 then q + 1 else q

/-- Round a magnitude to a multiple of 2^q. -/
def roundAt (rm : Rm) (neg : Bool) (n : Nat) (e q : Int) : Nat :=
  if q ≤ e then n * 2 ^ (e - q).toNat else roundShift rm neg n (q - e).toNat

/-- The place of the last bit that a format keeps of a value. -/
def keepPlace (f : Fmt) (n : Nat) (e : Int) : Int := max (lastPlace f) (e + n.log2 - fracBits f)

/-- Whether n1·2^e1 ≤ n2·2^e2. -/
def magLe (n1 : Nat) (e1 : Int) (n2 : Nat) (e2 : Int) : Bool :=
  let m := min e1 e2
  decide (n1 * 2 ^ (e1 - m).toNat ≤ n2 * 2 ^ (e2 - m).toNat)

/-- The largest finite code of a float format, without its sign (R62 to R66). -/
def maxCode : Fmt → Nat
  | .fp32 => 0x7F7FFFFF | .bf16 => 0x7F7F | .fp16 => 0x7BFF | .e4m3 => 0x7E | .e5m2 => 0x7B | .e3m5 => 0xFE | .fp4 => 7
  | _ => 0

/-- Max(T) of a float format (R71). -/
def maxMag (f : Fmt) : Nat × Int :=
  match floatVal f (maxCode f) with
  | .fin _ n e => (n, e)
  | _ => (0, 0)

/-- The sign bit of a code. -/
def signBit (f : Fmt) (neg : Bool) : Nat := if neg && f != .e3m5 then 2 ^ (fmtWidth f - 1) else 0

/-- The code of a finite value that the format holds. -/
def encodeFloat (f : Fmt) (neg : Bool) (n : Nat) (e : Int) : Nat :=
  let p := fracBits f
  if n = 0 then signBit f neg
  else
    let top : Int := e + n.log2
    if top < 1 - expBias f then signBit f neg + n * 2 ^ (e - lastPlace f).toNat
    else
      let frac := if n.log2 ≤ p then n * 2 ^ (p - n.log2) else n / 2 ^ (n.log2 - p)
      signBit f neg + (top + expBias f).toNat * 2 ^ p + frac % 2 ^ p

/-- The canonical NaN (R62 to R64, R66). -/
def nanCode : Fmt → Nat
  | .fp32 => 0x7FC00000 | .bf16 => 0x7FC0 | .fp16 => 0x7E00 | .e4m3 => 0x7F | .e5m2 => 0x7E | .e3m5 => 0xFF | _ => 0

/-- The code of an infinity. -/
def infCode (f : Fmt) (neg : Bool) : Nat := signBit f neg + (2 ^ expBits f - 1) * 2 ^ fracBits f

/-- The overflow result of IEEE 754 for the mode (R71). -/
def overflowCode (f : Fmt) (neg : Bool) (rm : Rm) : Nat :=
  match rm with
  | .ne => infCode f neg
  | .tz => signBit f neg + maxCode f
  | .dn => if neg then infCode f neg else maxCode f
  | .up => if neg then signBit f neg + maxCode f else infCode f neg

/-- The result of an element operation: one rounding to the format, overflow as IEEE 754 (R74). -/
def roundTo (f : Fmt) (rm : Rm) : FVal → Nat
  | .nan => nanCode f
  | .inf neg => infCode f neg
  | .fin neg n e =>
    let q := keepPlace f n e
    let m := roundAt rm neg n e q
    if magLe m q (maxMag f).1 (maxMag f).2 then encodeFloat f neg m q else overflowCode f neg rm

/-- Min(T) and Max(T) of an integer format (R59). -/
def intMin (f : Fmt) : Int := if isSigned f then -(2 ^ (fmtWidth f - 1) : Nat) else 0
def intMax (f : Fmt) : Int := if isSigned f then (2 ^ (fmtWidth f - 1) : Nat) - 1 else (2 ^ fmtWidth f : Nat) - 1

/-- Two's complement of the low `w` bits. -/
def wrapInt (w : Nat) (v : Int) : Nat := (v % (2 ^ w : Nat)).toNat

/-- Narrow an exact integer (R76): saturate, or wrap with NS. -/
def narrowInt (f : Fmt) (ns : Bool) (v : Int) : Nat :=
  if ns then wrapInt (fmtWidth f) v else wrapInt (fmtWidth f) (max (intMin f) (min (intMax f) v))

/-- Saturate(v, T) for a float format (R71). -/
def satCode (f : Fmt) (neg : Bool) : Nat := signBit f neg + maxCode f

/-- Convert(x, T, rm, ns) of R71. -/
def convert (f : Fmt) (rm : Rm) (ns : Bool) : FVal → Nat
  | .nan => nanCode f
  | .inf neg =>
    if hasInf f then infCode f neg
    else if f == .e3m5 then (if neg then 0 else if ns then 0xFF else 0xFE)
    else if isInt f then wrapInt (fmtWidth f) (if neg then intMin f else intMax f)
    else satCode f neg
  | .fin neg n e =>
    if isInt f then
      let m := roundAt rm neg n e 0
      let v : Int := if neg then -(m : Int) else m
      if !isSigned f && decide (v < 0) && !ns then 0 else narrowInt f ns v
    else
      let q := keepPlace f n e
      let m := roundAt rm neg n e q
      if f == .e3m5 && neg then 0
      else if magLe m q (maxMag f).1 (maxMag f).2 then encodeFloat f neg m q
      else if ns then
        (if hasInf f then overflowCode f neg rm else if f == .e4m3 then signBit f neg + 0x7F
          else if f == .e3m5 then 0xFF else satCode f neg)
      else satCode f neg

/-! ## Exact arithmetic (R70, R74) -/

def FVal.negate : FVal → FVal
  | .nan => .nan
  | .inf s => .inf (!s)
  | .fin s n e => .fin (!s) n e

def mulVal : FVal → FVal → FVal
  | .nan, _ => .nan
  | _, .nan => .nan
  | .inf s, .inf t => .inf (s != t)
  | .inf s, .fin t n _ => if n = 0 then .nan else .inf (s != t)
  | .fin s n _, .inf t => if n = 0 then .nan else .inf (s != t)
  | .fin s n e, .fin t m k => .fin (s != t) (n * m) (e + k)

/-- The exact sum; an exact zero takes its sign as R70 says. -/
def addVal (rm : Rm) : FVal → FVal → FVal
  | .nan, _ => .nan
  | _, .nan => .nan
  | .inf s, .inf t => if s = t then .inf s else .nan
  | .inf s, .fin _ _ _ => .inf s
  | .fin _ _ _, .inf t => .inf t
  | .fin s n e, .fin t m k =>
    let q := min e k
    let a : Int := (if s then -1 else 1) * (n * 2 ^ (e - q).toNat : Nat)
    let b : Int := (if t then -1 else 1) * (m * 2 ^ (k - q).toNat : Nat)
    if a + b = 0 then
      (if n = 0 && m = 0 && s == t then .fin s 0 q else .fin (rm == .dn) 0 q)
    else .fin (decide (a + b < 0)) (a + b).natAbs q

/-- Whether a value is below another; false beside a NaN, and −0 equals +0 (R74). -/
def ltVal : FVal → FVal → Bool
  | .nan, _ => false
  | _, .nan => false
  | .inf s, .inf t => s && !t
  | .inf s, .fin _ _ _ => s
  | .fin _ _ _, .inf t => !t
  | .fin s n e, .fin t m k =>
    let q := min e k
    let a : Int := (if s then -1 else 1) * (n * 2 ^ (e - q).toNat : Nat)
    let b : Int := (if t then -1 else 1) * (m * 2 ^ (k - q).toNat : Nat)
    decide (a < b)

def eqVal (a b : FVal) : Bool := a != .nan && b != .nan && !ltVal a b && !ltVal b a

def isNegVal : FVal → Bool
  | .nan => false
  | .inf s => s
  | .fin s _ _ => s

/-! ## The functions of R75: a value strictly between two neighbours of a fine grid rounds as its odd midpoint does -/

/-- A value strictly between F·2^e and (F+1)·2^e. -/
def between (neg : Bool) (f : Nat) (e : Int) : FVal := .fin neg (2 * f + 1) (e - 1)

/-- Integer square root by bits: the largest r below 2^fuel with r² ≤ n. -/
def isqrtFrom (n : Nat) : Nat → Nat → Nat
  | 0, r => r
  | k + 1, r => if (r + 2 ^ k) * (r + 2 ^ k) ≤ n then isqrtFrom n k (r + 2 ^ k) else isqrtFrom n k r

def isqrt (n : Nat) : Nat := isqrtFrom n (n.log2 / 2 + 1) 0

/-- An exact quotient, or the open cell of the grid that holds it. -/
def divVal (neg : Bool) (n d : Nat) (e : Int) : FVal :=
  let k := d.log2 + 40
  let q := n * 2 ^ k / d
  if n * 2 ^ k % d = 0 then .fin neg q (e - k) else between neg q (e - k)

/-- 1/x. -/
def rcpVal : FVal → FVal
  | .nan => .nan
  | .inf s => .fin s 0 0
  | .fin s n e => if n = 0 then .inf s else divVal s 1 n (-e)

/-- 1/√x. -/
def rsqVal : FVal → FVal
  | .nan => .nan
  | .inf s => if s then .nan else .fin false 0 0
  | .fin s n e =>
    if n = 0 then .inf s
    else if s then .nan
    else
      let m := if e % 2 = 0 then n else 2 * n
      let h := (if e % 2 = 0 then e else e - 1) / 2
      let k := m.log2 + 40
      let r := isqrt (2 ^ (2 * k) / m)
      if r * r * m = 2 ^ (2 * k) then .fin false r (-h - k) else between false r (-h - k)

/-- Fixed point of the functions below: 256 fraction bits. -/
def fxOne : Nat := 2 ^ 256

/-- Bounds of the product of 2^(2^−i) over the set bits of a fraction of `len` bits, from its top bit down: `c` bounds
the current root of 2 and `a` the product so far. -/
def exp2Bits (y : Nat) : Nat → Nat × Nat → Nat × Nat → Nat × Nat
  | 0, _, a => a
  | i + 1, c, a =>
    let c' := (isqrt (c.1 * fxOne), isqrt (c.2 * fxOne) + 1)
    let a' := if y.testBit i then (a.1 * c'.1 / fxOne, a.2 * c'.2 / fxOne + 1) else a
    exp2Bits y i c' a'

/-- 2^x: exact at integers; otherwise irrational, so the open cell of a grid of 40 fraction bits. -/
def exp2Val : FVal → FVal
  | .nan => .nan
  | .inf s => if s then .fin false 0 0 else .inf false
  | .fin s n e =>
    if n = 0 then .fin false 1 0
    else if 0 ≤ e then
      let v := Nat.min (n * 2 ^ (Nat.min e.toNat 20)) 5000
      .fin false 1 (if s then -(v : Int) else v)
    else
      let k := (-e).toNat
      let v : Int := if s then -(n : Int) else n
      let whole := v / (2 ^ k : Nat)
      let y := (v % (2 ^ k : Nat)).toNat
      if y = 0 then .fin false 1 (max (-5000) (min 5000 whole))
      else
        let b := exp2Bits y k (2 * fxOne, 2 * fxOne) (fxOne, fxOne)
        between false (b.1 * 2 ^ 40 / fxOne) (max (-5000) (min 5000 whole) - 40)

/-- The first `n` fraction digits of log2 of z/2^256 in [1,2), by squaring. -/
def log2Bits : Nat → Nat → Nat → Nat
  | 0, _, acc => acc
  | k + 1, z, acc =>
    let w := z * z / fxOne
    if 2 * fxOne ≤ w then log2Bits k (w / 2) (2 * acc + 1) else log2Bits k w (2 * acc)

/-- log2 x: exact at powers of two; otherwise irrational, so the open cell of a grid of 90 fraction bits. -/
def log2Val : FVal → FVal
  | .nan => .nan
  | .inf s => if s then .nan else .inf false
  | .fin s n e =>
    if n = 0 then .inf true
    else if s then .nan
    else
      let w : Int := e + n.log2
      if n = 2 ^ n.log2 then intVal w
      else
        let f := log2Bits 90 (n * fxOne / 2 ^ n.log2) 0
        let v : Int := w * (2 ^ 90 : Nat) + f
        if 0 ≤ v then between false v.toNat (-90) else between true (-v - 1).toNat (-90)

/-- Bounds of e^t for t = n/2^256: sums of the series, with twice the last term above. -/
def expSum (t : Nat) : Nat → Nat → Nat → Nat → Nat
  | 0, _, _, acc => acc
  | fuel + 1, k, term, acc =>
    let term' := term * t / (fxOne * k)
    if term' = 0 then acc else expSum t fuel (k + 1) term' (acc + term')

/-- tanh x: between two neighbours of a grid of 90 fraction bits, or just below x or 1 where the grid is too coarse. -/
def tanhVal : FVal → FVal
  | .nan => .nan
  | .inf s => .fin s 1 0
  | .fin s n e =>
    if n = 0 then .fin s 0 0
    else if e + n.log2 < -27 then between s (n * 2 ^ 30 - 1) (e - 30)
    else if 4 < e + n.log2 then between s (2 ^ 50 - 1) (-50)
    else
      let t := if 0 ≤ e then n * 2 ^ e.toNat * 2 * fxOne else n * 2 * fxOne / 2 ^ (-e).toNat
      let ex := expSum t 1000 1 fxOne fxOne
      between s ((ex - fxOne) * 2 ^ 90 / (ex + fxOne)) (-90)

/-! ## FP4 blocks (R73) -/

/-- |x| as a magnitude, an infinity counting as larger than any finite value. -/
def absLe : FVal → FVal → Bool
  | .nan, _ => false
  | _, .nan => false
  | _, .inf _ => true
  | .inf _, _ => false
  | .fin _ n e, .fin _ m k => magLe n e m k

/-- The least E3M5 code whose value is at least amax / 6, from `c` up. -/
def scaleFrom (a : FVal) : Nat → Nat → Nat
  | 0, _ => 0xFE
  | fuel + 1, c =>
    match floatVal .e3m5 c, a with
    | .fin _ n e, .fin _ m k => if magLe m k (6 * n) e then c else scaleFrom a fuel (c + 1)
    | _, _ => 0xFE

/-- x / s in E2M1, saturated (R73). -/
def quantOne (rm : Rm) (x : FVal) (sc : Nat) : Nat :=
  match x, floatVal .e3m5 sc with
  | .inf neg, _ => signBit .fp4 neg + 7
  | .fin neg n e, .fin _ m k =>
    match divVal neg n m (e - k) with
    | .fin _ a b => convert .fp4 rm false (.fin neg a b)
    | _ => 0
  | _, _ => 0

/-- QuantFP4: the codes of a block and its scale code. -/
def quantFp4 (rm : Rm) (xs : List FVal) : List Nat × Nat :=
  if xs.any (· == .nan) then (xs.map fun _ => 0, 0xFF)
  else
    let amax := xs.foldl (fun m x => if absLe m x then x else m) (.fin false 0 0)
    match amax with
    | .fin _ 0 _ => (xs.map fun _ => 0, 0)
    | _ =>
      let sc := scaleFrom amax 254 1
      (xs.map fun x => quantOne rm x sc, sc)

/-! ## Dot products (R78 to R80) -/

/-- One rounded node of the tree: FP32 code of a sum of exact values. -/
def addNode (a b : FVal) : FVal := floatVal .fp32 (roundTo .fp32 .ne (addVal .ne a b))

/-- One level of the tree. -/
def treeLevel : List FVal → List FVal
  | a :: b :: rest => addNode a b :: treeLevel rest
  | l => l

/-- DotBlock of 32 exact products (R79). -/
def dotBlock (p : List FVal) : FVal :=
  match treeLevel (treeLevel (treeLevel (treeLevel (treeLevel p)))) with
  | x :: _ => x
  | [] => .fin false 0 0

/-- The product of an element and its block scale: FP4 elements carry a scale code, others none (R67, R78). -/
def scaledVal (f : Fmt) (code : Nat) (scale : Nat) : FVal :=
  if f == .fp4 then mulVal (floatVal .fp4 code) (floatVal .e3m5 scale) else floatVal f code

end Sys2Proof.Machine
end

