-- ==== Sys2Proof/Config.lean ====
section
/-! DEFINITION. What an implementation fixes and the values the spec leaves open. A free value has no body. -/

namespace Sys2Proof.Config

/-- The n-th value that the spec leaves open (log entry 2): a salt, bytes of a region without a stated layout. -/
opaque freeValue : Nat → BitVec 256

/-- The moduli and private exponents of the device's identity and transport keys, derived from its physical unclonable
function (R367). -/
opaque idkModulus : BitVec 3072
opaque idkExponent : BitVec 3072
opaque trkModulus : BitVec 3072
opaque trkExponent : BitVec 3072

/-- The hash of the firmware's signing key, held in ROM (R394). -/
opaque romHash : BitVec 256

/-- The key that the board's replay-protected store shares with the part (R397). -/
opaque storeKey : BitVec 256

/-- What the four bits of LPORT.LANES show of a number of lanes that they do not hold (R380, R389, log entry 109). -/
opaque laneField : Nat → BitVec 4

end Sys2Proof.Config
end

