-- ==== Sys2Proof/WellFormed.lean ====
section
/-! DEFINITION. Which instructions the encoding admits: the operand limits of R43, R45, R48, R49, R54, R409 and
of the entries that place a limit on a field of the word itself. A word outside these limits is no instruction (R55). -/

namespace Sys2Proof

/-- The queue numbers that R153 lists. -/
def queueListed (q : QNum) : Bool := q.val < 6 || (8 ≤ q.val && q.val < 13) || 16 ≤ q.val

/-- The state-register indices that R113 assigns. -/
def srListed (i : Fin 1024) : Bool :=
  i.val ∈ [0x000, 0x001, 0x002, 0x003, 0x004, 0x008, 0x009, 0x010, 0x011, 0x018, 0x020, 0x021, 0x028, 0x030, 0x031] ||
    (0x100 ≤ i.val && i.val < 0x140 && queueListed (Fin.ofNat 32 i.val))

/-- The state registers that R113 marks RW or W1C. -/
def srWritable (i : Fin 1024) : Bool :=
  i.val ∈ [0x010, 0x018, 0x020, 0x030, 0x031] || (0x100 ≤ i.val && i.val < 0x140 && queueListed (Fin.ofNat 32 i.val))

/-- R45: with SC the order is relaxed. -/
def AmoExt.scOk (x : AmoExt) : Bool := !x.sc || (!x.acq && !x.rel)

/-- The extension fields a V form may use, R409. -/
structure VUse where
  mask : Bool := false
  rm : Bool := false
  ns : Bool := false
  idxMax : Nat := 0
  fmt : Bool := false

/-- A vector extension that holds only the fields its form uses, with Z only beside MK (R182) and no INT64 (R48). -/
def VX.ok (u : VUse) (x : VX) : Bool :=
  (x.msk || (x.m == 0 && !x.z)) && (u.mask || !x.msk) && (u.rm || x.rm == .ne) && (u.ns || !x.ns) &&
    decide (x.idx.val ≤ u.idxMax) && (if u.fmt then x.fmt != .int64 else x.fmt == .raw)

/-- The patches of one M word (R49, R54): no two of one field, none for t0, an extension's SEL is not 0. -/
def mPatchOk (n : Fin 64) (sel : Fin 8) (val : BitVec 16) : Bool := (sel != 0 || val == 0) && (n != 0 || sel == 0)

/-- The operand limits of each instruction. -/
def wellFormed : Instr → Bool
  | .clkon _ kd _ _ | .clkoff _ kd _ _ => kd != 0
  | .cur _ d _ _ => d != .drop
  | .lrpat _ _ f _ => decide (f.val ≤ 12)
  | .barv _ _ sc => sc != .eng && sc != .sys
  | .tmpl _ n _ => n != 0
  | .srd _ _ i => srListed i
  | .swr _ i _ => srWritable i
  | .qld _ _ q _ _ | .qldExt _ _ q _ _ _ | .qst _ _ q _ _ | .qstExt _ _ q _ _ _ | .pat _ q _ _ | .qpush _ q _
  | .qpop _ _ q _ | .vpop _ _ q _ | .vpush _ q _ | .vmovs _ _ q _ | .vext _ q _ _ | .mpop _ q _ => queueListed q
  | .gth _ _ q _ _ qi | .sct _ _ q _ _ qi => queueListed q && queueListed qi
  | .fcls _ mask _ => mask != 0
  | .amo _ op _ _ _ x => x.scOk && (op != .fadd || !x.wide)
  | .amoCas _ _ _ _ _ x => x.scOk
  | .ared _ op _ _ x => x.scOk && !x.acq && (op != .fadd || !x.wide)
  | .vaddExt _ _ _ _ x | .vsubExt _ _ _ _ x | .vmulExt _ _ _ _ x | .vminExt _ _ _ _ x | .vmaxExt _ _ _ _ x
  | .vabsExt _ _ _ x | .vnegExt _ _ _ x | .vfmaExt _ _ _ _ x | .vfmsExt _ _ _ _ x | .vfnmaExt _ _ _ _ x
  | .vredExt _ _ _ _ x | .vscanExt _ _ _ x => x.ok (VUse.mk true true true 0 false)
  | .vrcpExt _ _ _ x | .vrsqExt _ _ _ x | .vexp2Ext _ _ _ x | .vlog2Ext _ _ _ x | .vtanhExt _ _ _ x =>
      x.ok (VUse.mk true true false 0 false)
  | .vcmpExt _ _ _ _ _ x | .vandExt _ _ _ _ x | .vorExt _ _ _ _ x | .vxorExt _ _ _ _ x | .vnotExt _ _ _ x
  | .vshlExt _ _ _ _ x | .vshrExt _ _ _ _ x | .vsarExt _ _ _ _ x | .vshufExt _ _ _ _ x | .vpermExt _ _ _ _ x
  | .vsortExt _ _ _ _ x | .vmovExt _ _ _ x => x.ok (VUse.mk true false false 0 false)
  | .vrot _ _ _ x | .vbcast _ _ _ x => x.ok (VUse.mk true false false 63 false)
  | .vtopk _ d _ x => x.ok (VUse.mk true false false 63 false) && d.val % 2 == 0
  | .vcvt _ d _ x => x.ok (VUse.mk true true true 0 true) && (x.fmt != .fp4 || (d.val % 2 == 0 && !x.msk))
  | .vpack _ _ _ _ x => x.ok (VUse.mk true true true 0 true)
  | .vunpk _ _ _ x => x.ok (VUse.mk true true true 1 true)
  | .vunpk4 _ _ _ x => x.ok (VUse.mk true true true 3 true)
  | .vsat _ _ _ x => x.ok (VUse.mk true false false 0 true) && x.fmt != .raw && x.fmt != .bool
  | .mset _ _ n => decide (n.val ≤ 64)
  | .vrb _ base sizeM1 => decide (base.val + sizeM1.val + 1 ≤ 32)
  | .vfmt _ _ f => f != .int64
  | .mexec _ n sel val => mPatchOk n sel val
  | .mexecExt _ n sel val sel2 _ => mPatchOk n sel val && sel2 != 0 && n != 0 && sel != sel2
  | _ => true

end Sys2Proof
end

