-- ==== Sys2Proof/Decode.lean ====
section
/-! DEFINITION. From words to instructions and back (R30, R31, R38, R39, R43, R45, R46, R47, R48, R49, R409).
The decoder is total: a word that is no instruction gives `none`, which the engine meets as ILLEGAL_WORD (R55). -/

namespace Sys2Proof

/-- The `n` bits of `w` from bit `lo` up. -/
def bits (w lo n : Nat) : Nat := w / 2 ^ lo % 2 ^ n

/-- A 5-bit source field at `lo` (R38). -/
def srcAt (o lo : Nat) : Src :=
  if bits o lo 5 < 16 then .b (Fin.ofNat 16 (bits o lo 5)) else .r (Fin.ofNat 16 (bits o lo 5))

/-- A destination field is 0 or 16 to 31 (R38). -/
abbrev dstOk (o lo : Nat) : Prop := bits o lo 5 = 0 ∨ 16 ≤ bits o lo 5

/-- A 5-bit destination field at `lo` (R38). -/
def dstAt (o lo : Nat) : Dst := if bits o lo 5 = 0 then .drop else .reg (Fin.ofNat 16 (bits o lo 5))

def extWidthOf (v : Nat) : ExtWidth := if v = 0 then .w8 else if v = 1 then .w16 else .w32

/-- The scope codes of R42. -/
def scopeOf (v : Nat) : Scope :=
  match v with
  | 0 => .eng | 1 => .cel | 2 => .twn | 3 => .clu | 4 => .prt | 5 => .dev | 6 => .dom | _ => .sys

/-- The format codes of R57. -/
def fmtOf (v : Nat) : Fmt :=
  match v with
  | 0 => .raw | 1 => .int4 | 2 => .uint4 | 3 => .int8 | 4 => .uint8 | 5 => .int16 | 6 => .int32 | 7 => .fp4
  | 8 => .e4m3 | 9 => .e5m2 | 10 => .bf16 | 11 => .fp16 | 12 => .fp32 | 13 => .e3m5 | 14 => .bool | _ => .int64

def rmOf (v : Nat) : Rm :=
  match v with
  | 0 => .ne | 1 => .tz | 2 => .dn | _ => .up

/-- The vector extension's payload (R47). -/
def vxOf (p : Nat) : VX :=
  VX.mk (Fin.ofNat 8 (bits p 0 3)) (bits p 3 1 == 1) (bits p 4 1 == 1) (rmOf (bits p 5 2)) (bits p 7 1 == 1)
    (Fin.ofNat 64 (bits p 8 6)) (fmtOf (bits p 14 4))

/-- The atomic extension's payload (R45): ORD 1 is acquire, 2 release, 3 both. -/
def amoOf (p : Nat) : AmoExt :=
  AmoExt.mk (scopeOf (bits p 0 3)) (bits p 3 1 == 1) (bits p 4 1 == 1) (bits p 5 1 == 1) (bits p 6 1 == 1)
    (Fin.ofNat 16 (bits p 7 4))

/-- The token bits [28:25] (R30). -/
def tokOf (w : Nat) : Tok := Tok.mk (bits w 28 1 == 1) (bits w 27 1 == 1) (bits w 26 1 == 1) (bits w 25 1 == 1)

/-- The engine a TAG names (R30). -/
def engineOf (v : Nat) : Engine :=
  match v with
  | 0 => .c | 1 => .a | 2 => .v | _ => .m

/-- The C words without an extension word (R43, R46, R48): major `m`, operand bits `o`. -/
def decodeC (t : Tok) (m o : Nat) : Option Instr :=
  match m with
  | 0x0 => match bits o 15 4 with
    | 0 => if dstOk o 10 then some (.add t (dstAt o 10) (srcAt o 5) (srcAt o 0)) else none
    | 1 => if dstOk o 10 then some (.sub t (dstAt o 10) (srcAt o 5) (srcAt o 0)) else none
    | 2 => if dstOk o 10 then some (.and t (dstAt o 10) (srcAt o 5) (srcAt o 0)) else none
    | 3 => if dstOk o 10 then some (.or t (dstAt o 10) (srcAt o 5) (srcAt o 0)) else none
    | 4 => if dstOk o 10 then some (.xor t (dstAt o 10) (srcAt o 5) (srcAt o 0)) else none
    | 5 => if dstOk o 10 then some (.andn t (dstAt o 10) (srcAt o 5) (srcAt o 0)) else none
    | 6 => if dstOk o 10 then some (.shl t (dstAt o 10) (srcAt o 5) (srcAt o 0)) else none
    | 7 => if dstOk o 10 then some (.shr t (dstAt o 10) (srcAt o 5) (srcAt o 0)) else none
    | 8 => if dstOk o 10 then some (.sar t (dstAt o 10) (srcAt o 5) (srcAt o 0)) else none
    | 9 => if dstOk o 10 then some (.rotl t (dstAt o 10) (srcAt o 5) (srcAt o 0)) else none
    | 10 => if dstOk o 10 then some (.min t (dstAt o 10) (srcAt o 5) (srcAt o 0)) else none
    | 11 => if dstOk o 10 then some (.minu t (dstAt o 10) (srcAt o 5) (srcAt o 0)) else none
    | 12 => if dstOk o 10 then some (.max t (dstAt o 10) (srcAt o 5) (srcAt o 0)) else none
    | 13 => if dstOk o 10 then some (.maxu t (dstAt o 10) (srcAt o 5) (srcAt o 0)) else none
    | _ => none
  | 0x1 => match bits o 15 4 with
    | 0 => if dstOk o 10 then some (.mul t (dstAt o 10) (srcAt o 5) (srcAt o 0)) else none
    | 1 => if dstOk o 10 then some (.mulhs t (dstAt o 10) (srcAt o 5) (srcAt o 0)) else none
    | 2 => if dstOk o 10 then some (.mulhu t (dstAt o 10) (srcAt o 5) (srcAt o 0)) else none
    | 3 => if dstOk o 10 then some (.div t (dstAt o 10) (srcAt o 5) (srcAt o 0)) else none
    | 4 => if dstOk o 10 then some (.divu t (dstAt o 10) (srcAt o 5) (srcAt o 0)) else none
    | 5 => if dstOk o 10 then some (.rem t (dstAt o 10) (srcAt o 5) (srcAt o 0)) else none
    | 6 => if dstOk o 10 then some (.remu t (dstAt o 10) (srcAt o 5) (srcAt o 0)) else none
    | 7 => if dstOk o 10 ∧ bits o 0 5 = 0 then some (.clz t (dstAt o 10) (srcAt o 5)) else none
    | 8 => if dstOk o 10 ∧ bits o 0 5 = 0 then some (.ctz t (dstAt o 10) (srcAt o 5)) else none
    | 9 => if dstOk o 10 ∧ bits o 0 5 = 0 then some (.popc t (dstAt o 10) (srcAt o 5)) else none
    | 10 => if dstOk o 10 ∧ bits o 2 3 = 0 ∧ bits o 0 2 < 3 then some (.sext t (dstAt o 10) (srcAt o 5) (extWidthOf (bits o 0 2))) else none
    | 11 => if dstOk o 10 ∧ bits o 2 3 = 0 ∧ bits o 0 2 < 3 then some (.zext t (dstAt o 10) (srcAt o 5) (extWidthOf (bits o 0 2))) else none
    | _ => none
  | 0x2 => match bits o 15 4 with
    | 0 => if dstOk o 10 then some (.cmp t .eq (dstAt o 10) (srcAt o 5) (srcAt o 0)) else none
    | 1 => if dstOk o 10 then some (.cmp t .ne (dstAt o 10) (srcAt o 5) (srcAt o 0)) else none
    | 2 => if dstOk o 10 then some (.cmp t .lt (dstAt o 10) (srcAt o 5) (srcAt o 0)) else none
    | 3 => if dstOk o 10 then some (.cmp t .ltu (dstAt o 10) (srcAt o 5) (srcAt o 0)) else none
    | 4 => if dstOk o 10 then some (.cmp t .le (dstAt o 10) (srcAt o 5) (srcAt o 0)) else none
    | 5 => if dstOk o 10 then some (.cmp t .leu (dstAt o 10) (srcAt o 5) (srcAt o 0)) else none
    | _ => none
  | 0x4 => if dstOk o 14 then some (.addi t (dstAt o 14) (srcAt o 9) (BitVec.ofNat 9 (bits o 0 9))) else none
  | 0x5 => if dstOk o 14 then some (.li t (dstAt o 14) (BitVec.ofNat 14 (bits o 0 14))) else none
  | 0x7 => match bits o 15 4 with
    | 0 => if bits o 5 5 < 16 ∧ 16 ≤ bits o 10 5 ∧ bits o 0 5 = 0 then some (.keep t (Fin.ofNat 16 (bits o 10 5)) (Fin.ofNat 16 (bits o 5 5))) else none
    | 1 => if 16 ≤ bits o 5 5 ∧ bits o 10 5 = 0 ∧ bits o 0 5 = 0 then some (.take t (Fin.ofNat 16 (bits o 5 5))) else none
    | _ => none
  | 0x8 => some (.br t (BitVec.ofNat 19 (bits o 0 19)))
  | 0x9 => some (.bz t (srcAt o 14) (BitVec.ofNat 14 (bits o 0 14)))
  | 0xa => some (.bnz t (srcAt o 14) (BitVec.ofNat 14 (bits o 0 14)))
  | 0xb => some (.call t (BitVec.ofNat 19 (bits o 0 19)))
  | 0xc => match bits o 15 4 with
    | 0 => if bits o 10 5 = 0 ∧ bits o 0 5 = 0 then some (.jr t (srcAt o 5)) else none
    | 1 => if bits o 0 15 = 0 then some (.ret t) else none
    | _ => none
  | 0xd => some (.loop t (srcAt o 14) (BitVec.ofNat 14 (bits o 0 14)))
  | 0xe => if bits o 0 6 = 0 then some (.bksel t (srcAt o 14) (Fin.ofNat 256 (bits o 6 8))) else none
  | 0xf => some (.xbrk t (BitVec.ofNat 19 (bits o 0 19)))
  | 0x10 => match bits o 15 4 with
    | 0 => if bits o 0 2 = 0 then some (.clkon t (Fin.ofNat 16 (bits o 11 4)) (Fin.ofNat 16 (bits o 7 4)) (srcAt o 2)) else none
    | 1 => if bits o 0 2 = 0 then some (.clkoff t (Fin.ofNat 16 (bits o 11 4)) (Fin.ofNat 16 (bits o 7 4)) (srcAt o 2)) else none
    | 2 => if dstOk o 10 ∧ bits o 0 6 = 0 then some (.clkrd t (dstAt o 10) (Fin.ofNat 16 (bits o 6 4))) else none
    | _ => none
  | 0x11 => match bits o 15 4 with
    | 0 => if dstOk o 10 ∧ bits o 0 1 = 0 then some (.when_ t (dstAt o 10) (srcAt o 5) (Fin.ofNat 16 (bits o 1 4))) else none
    | 1 => if dstOk o 10 then some (.merge t (dstAt o 10) (srcAt o 5) (srcAt o 0)) else none
    | 2 => if dstOk o 10 ∧ bits o 0 1 = 0 then some (.cur t (dstAt o 10) (srcAt o 5) (Fin.ofNat 16 (bits o 1 4))) else none
    | _ => none
  | 0x12 => if dstOk o 14 ∧ bits o 0 3 = 0 then some (.dly t (dstAt o 14) (srcAt o 9) (Fin.ofNat 64 (bits o 3 6))) else none
  | 0x13 => if bits o 0 19 = 0 then some (.iend t) else none
  | 0x14 => match bits o 15 4 with
    | 0 => if dstOk o 10 ∧ bits o 0 10 = 0 then some (.tsrd t (dstAt o 10)) else none
    | 1 => some (.lrpat t (srcAt o 10) (Fin.ofNat 32 (bits o 5 5)) (srcAt o 0))
    | 2 => if dstOk o 10 ∧ bits o 1 4 = 0 then some (.lrarm t (dstAt o 10) (srcAt o 5) (bits o 0 1 == 1)) else none
    | 3 => if bits o 10 5 = 0 ∧ bits o 0 5 = 0 then some (.lrdrop t (srcAt o 5)) else none
    | 4 => if bits o 0 15 = 0 then some (.texit t) else none
    | _ => none
  | 0x15 => match bits o 15 4 with
    | 0 => if bits o 10 5 = 0 ∧ bits o 0 2 = 0 then some (.twset t (Fin.ofNat 8 (bits o 2 3)) (srcAt o 5)) else none
    | 1 => if dstOk o 10 ∧ bits o 5 5 = 0 ∧ bits o 0 2 = 0 then some (.twget t (dstAt o 10) (Fin.ofNat 8 (bits o 2 3))) else none
    | 2 => if dstOk o 10 ∧ bits o 0 2 = 0 then some (.twxchg t (dstAt o 10) (Fin.ofNat 8 (bits o 2 3)) (srcAt o 5)) else none
    | _ => none
  | 0x16 => match bits o 15 4 with
    | 0 => if bits o 0 15 = 0 then some (.licacq t) else none
    | 1 => if bits o 0 15 = 0 then some (.licrel t) else none
    | _ => none
  | 0x17 => match bits o 15 4 with
    | 0 => if bits o 10 5 = 0 ∧ bits o 0 2 = 0 then some (.barv t (Fin.ofNat 32 (bits o 5 5)) (scopeOf (bits o 2 3))) else none
    | 1 => if bits o 10 5 = 0 ∧ bits o 0 5 = 0 then some (.bwait t (Fin.ofNat 32 (bits o 5 5))) else none
    | 2 => if dstOk o 10 ∧ bits o 0 5 = 0 then some (.bpoll t (dstAt o 10) (Fin.ofNat 32 (bits o 5 5))) else none
    | _ => none
  | 0x18 => match bits o 15 4 with
    | 0 => if dstOk o 10 ∧ bits o 0 5 = 0 then some (.bkal t (dstAt o 10) (srcAt o 5)) else none
    | 1 => if bits o 10 5 = 0 then some (.bkfr t (srcAt o 5) (srcAt o 0)) else none
    | _ => none
  | 0x19 => match bits o 15 4 with
    | 0 => if bits o 0 4 = 0 then some (.tmpl t (Fin.ofNat 64 (bits o 9 6)) (srcAt o 4)) else none
    | _ => none
  | 0x1a => match bits o 15 4 with
    | 0 => if dstOk o 10 then some (.srd t (dstAt o 10) (Fin.ofNat 1024 (bits o 0 10))) else none
    | 1 => some (.swr t (Fin.ofNat 1024 (bits o 0 10)) (srcAt o 10))
    | _ => none
  | 0x1b => match bits o 15 4 with
    | 0 => if bits o 0 15 = 0 then some (.nop t) else none
    | 1 => if bits o 8 7 = 0 then some (.trap t (BitVec.ofNat 8 (bits o 0 8))) else none
    | 2 => if bits o 0 15 = 0 then some (.brkp t) else none
    | _ => none
  | _ => none

/-- The C words with an extension word whose payload is `p`. -/
def decodeCX (t : Tok) (m o p : Nat) : Option Instr :=
  match m with
  | 0x0 => match bits o 15 4 with
    | 14 => if dstOk o 10 ∧ bits p 5 24 = 0 then some (.sel t (dstAt o 10) (srcAt o 5) (srcAt o 0) (srcAt p 0)) else none
    | _ => none
  | 0x4 => if dstOk o 14 then some (.addiExt t (dstAt o 14) (srcAt o 9) (BitVec.ofNat 38 (p * 2 ^ 9 + bits o 0 9))) else none
  | 0x5 => if dstOk o 14 then some (.liExt t (dstAt o 14) (BitVec.ofNat 43 (p * 2 ^ 14 + bits o 0 14))) else none
  | 0x6 => if dstOk o 14 ∧ bits o 0 9 = 0 ∧ bits p 21 8 = 0 then some (.lih t (dstAt o 14) (srcAt o 9) (BitVec.ofNat 21 (bits p 0 21))) else none
  | _ => none

/-- The A words without an extension word (R43, R46, R48): major `m`, operand bits `o`. -/
def decodeA (t : Tok) (m o : Nat) : Option Instr :=
  match m with
  | 0x0 => match bits o 15 4 with
    | 0 => if dstOk o 10 then some (.aadd t (dstAt o 10) (srcAt o 5) (srcAt o 0)) else none
    | 1 => if dstOk o 10 then some (.asub t (dstAt o 10) (srcAt o 5) (srcAt o 0)) else none
    | 2 => if dstOk o 10 then some (.ashl t (dstAt o 10) (srcAt o 5) (srcAt o 0)) else none
    | _ => none
  | 0x4 => if dstOk o 14 then some (.aaddi t (dstAt o 14) (srcAt o 9) (BitVec.ofNat 9 (bits o 0 9))) else none
  | 0x5 => if dstOk o 14 then some (.ali t (dstAt o 14) (BitVec.ofNat 14 (bits o 0 14))) else none
  | 0x7 => match bits o 15 4 with
    | 0 => if bits o 5 5 < 16 ∧ 16 ≤ bits o 10 5 ∧ bits o 0 5 = 0 then some (.aKeep t (Fin.ofNat 16 (bits o 10 5)) (Fin.ofNat 16 (bits o 5 5))) else none
    | 1 => if 16 ≤ bits o 5 5 ∧ bits o 10 5 = 0 ∧ bits o 0 5 = 0 then some (.aTake t (Fin.ofNat 16 (bits o 5 5))) else none
    | _ => none
  | 0x8 => some (.abr t (BitVec.ofNat 19 (bits o 0 19)))
  | 0x9 => some (.abz t (srcAt o 14) (BitVec.ofNat 14 (bits o 0 14)))
  | 0xa => some (.abnz t (srcAt o 14) (BitVec.ofNat 14 (bits o 0 14)))
  | 0xd => some (.aloop t (srcAt o 14) (BitVec.ofNat 14 (bits o 0 14)))
  | 0x10 => match bits o 15 4 with
    | 0 => if dstOk o 10 ∧ bits o 0 1 = 0 then some (.ld t .b (dstAt o 10) (srcAt o 5) (Fin.ofNat 16 (bits o 1 4))) else none
    | 1 => if dstOk o 10 ∧ bits o 0 1 = 0 then some (.ld t .h (dstAt o 10) (srcAt o 5) (Fin.ofNat 16 (bits o 1 4))) else none
    | 2 => if dstOk o 10 ∧ bits o 0 1 = 0 then some (.ld t .w (dstAt o 10) (srcAt o 5) (Fin.ofNat 16 (bits o 1 4))) else none
    | 3 => if dstOk o 10 ∧ bits o 0 1 = 0 then some (.ld t .d (dstAt o 10) (srcAt o 5) (Fin.ofNat 16 (bits o 1 4))) else none
    | 4 => if dstOk o 10 ∧ bits o 0 1 = 0 then some (.ld t .bs (dstAt o 10) (srcAt o 5) (Fin.ofNat 16 (bits o 1 4))) else none
    | 5 => if dstOk o 10 ∧ bits o 0 1 = 0 then some (.ld t .hs (dstAt o 10) (srcAt o 5) (Fin.ofNat 16 (bits o 1 4))) else none
    | 6 => if dstOk o 10 ∧ bits o 0 1 = 0 then some (.ld t .ws (dstAt o 10) (srcAt o 5) (Fin.ofNat 16 (bits o 1 4))) else none
    | _ => none
  | 0x11 => match bits o 15 4 with
    | 0 => if bits o 0 1 = 0 then some (.st t .b (srcAt o 10) (srcAt o 5) (Fin.ofNat 16 (bits o 1 4))) else none
    | 1 => if bits o 0 1 = 0 then some (.st t .h (srcAt o 10) (srcAt o 5) (Fin.ofNat 16 (bits o 1 4))) else none
    | 2 => if bits o 0 1 = 0 then some (.st t .w (srcAt o 10) (srcAt o 5) (Fin.ofNat 16 (bits o 1 4))) else none
    | 3 => if bits o 0 1 = 0 then some (.st t .d (srcAt o 10) (srcAt o 5) (Fin.ofNat 16 (bits o 1 4))) else none
    | _ => none
  | 0x12 => match bits o 15 4 with
    | 0 => if bits o 0 1 = 0 then some (.qld t .b (Fin.ofNat 32 (bits o 10 5)) (srcAt o 5) (Fin.ofNat 16 (bits o 1 4))) else none
    | 1 => if bits o 0 1 = 0 then some (.qld t .h (Fin.ofNat 32 (bits o 10 5)) (srcAt o 5) (Fin.ofNat 16 (bits o 1 4))) else none
    | 2 => if bits o 0 1 = 0 then some (.qld t .w (Fin.ofNat 32 (bits o 10 5)) (srcAt o 5) (Fin.ofNat 16 (bits o 1 4))) else none
    | 3 => if bits o 0 1 = 0 then some (.qld t .d (Fin.ofNat 32 (bits o 10 5)) (srcAt o 5) (Fin.ofNat 16 (bits o 1 4))) else none
    | _ => none
  | 0x13 => match bits o 15 4 with
    | 0 => if bits o 0 1 = 0 then some (.qst t .b (Fin.ofNat 32 (bits o 10 5)) (srcAt o 5) (Fin.ofNat 16 (bits o 1 4))) else none
    | 1 => if bits o 0 1 = 0 then some (.qst t .h (Fin.ofNat 32 (bits o 10 5)) (srcAt o 5) (Fin.ofNat 16 (bits o 1 4))) else none
    | 2 => if bits o 0 1 = 0 then some (.qst t .w (Fin.ofNat 32 (bits o 10 5)) (srcAt o 5) (Fin.ofNat 16 (bits o 1 4))) else none
    | 3 => if bits o 0 1 = 0 then some (.qst t .d (Fin.ofNat 32 (bits o 10 5)) (srcAt o 5) (Fin.ofNat 16 (bits o 1 4))) else none
    | _ => none
  | 0x14 => match bits o 15 4 with
    | 0 => if bits o 0 1 = 0 then some (.pat t (Fin.ofNat 32 (bits o 10 5)) (srcAt o 5) (Fin.ofNat 16 (bits o 1 4))) else none
    | _ => none
  | 0x17 => some (.cpy t (srcAt o 10) (srcAt o 5) (srcAt o 0) (Fin.ofNat 16 (bits o 15 4)))
  | 0x18 => if bits o 0 15 = 0 then some (.cpyw t (Fin.ofNat 16 (bits o 15 4))) else none
  | 0x19 => match bits o 15 4 with
    | 0 => some (.wst t (srcAt o 10) (srcAt o 5) (srcAt o 0))
    | _ => none
  | 0x1a => match bits o 15 4 with
    | 0 => if bits o 10 5 = 0 ∧ bits o 0 5 = 0 then some (.pref t (srcAt o 5)) else none
    | _ => none
  | 0x1b => some (.fcls t (BitVec.ofNat 16 (bits o 3 16)) (scopeOf (bits o 0 3)))
  | 0x1c => if bits o 0 19 = 0 then some (.fsc t) else none
  | 0x22 => match bits o 15 4 with
    | 0 => if bits o 0 5 = 0 then some (.qpush t (Fin.ofNat 32 (bits o 10 5)) (srcAt o 5)) else none
    | _ => none
  | 0x23 => match bits o 15 4 with
    | 0 => if dstOk o 10 ∧ bits o 0 1 = 0 then some (.qpop t (dstAt o 10) (Fin.ofNat 32 (bits o 5 5)) (Fin.ofNat 16 (bits o 1 4))) else none
    | _ => none
  | _ => none

/-- The A words with an extension word whose payload is `p`. -/
def decodeAX (t : Tok) (m o p : Nat) : Option Instr :=
  match m with
  | 0x0 => match bits o 15 4 with
    | 3 => if dstOk o 10 ∧ bits p 5 24 = 0 then some (.amadd t (dstAt o 10) (srcAt o 5) (srcAt o 0) (srcAt p 0)) else none
    | _ => none
  | 0x4 => if dstOk o 14 then some (.aaddiExt t (dstAt o 14) (srcAt o 9) (BitVec.ofNat 38 (p * 2 ^ 9 + bits o 0 9))) else none
  | 0x5 => if dstOk o 14 then some (.aliExt t (dstAt o 14) (BitVec.ofNat 43 (p * 2 ^ 14 + bits o 0 14))) else none
  | 0x10 => match bits o 15 4 with
    | 0 => if dstOk o 10 ∧ bits o 0 1 = 0 then some (.ldExt t .b (dstAt o 10) (srcAt o 5) (Fin.ofNat 16 (bits o 1 4)) (BitVec.ofNat 29 p)) else none
    | 1 => if dstOk o 10 ∧ bits o 0 1 = 0 then some (.ldExt t .h (dstAt o 10) (srcAt o 5) (Fin.ofNat 16 (bits o 1 4)) (BitVec.ofNat 29 p)) else none
    | 2 => if dstOk o 10 ∧ bits o 0 1 = 0 then some (.ldExt t .w (dstAt o 10) (srcAt o 5) (Fin.ofNat 16 (bits o 1 4)) (BitVec.ofNat 29 p)) else none
    | 3 => if dstOk o 10 ∧ bits o 0 1 = 0 then some (.ldExt t .d (dstAt o 10) (srcAt o 5) (Fin.ofNat 16 (bits o 1 4)) (BitVec.ofNat 29 p)) else none
    | 4 => if dstOk o 10 ∧ bits o 0 1 = 0 then some (.ldExt t .bs (dstAt o 10) (srcAt o 5) (Fin.ofNat 16 (bits o 1 4)) (BitVec.ofNat 29 p)) else none
    | 5 => if dstOk o 10 ∧ bits o 0 1 = 0 then some (.ldExt t .hs (dstAt o 10) (srcAt o 5) (Fin.ofNat 16 (bits o 1 4)) (BitVec.ofNat 29 p)) else none
    | 6 => if dstOk o 10 ∧ bits o 0 1 = 0 then some (.ldExt t .ws (dstAt o 10) (srcAt o 5) (Fin.ofNat 16 (bits o 1 4)) (BitVec.ofNat 29 p)) else none
    | _ => none
  | 0x11 => match bits o 15 4 with
    | 0 => if bits o 0 1 = 0 then some (.stExt t .b (srcAt o 10) (srcAt o 5) (Fin.ofNat 16 (bits o 1 4)) (BitVec.ofNat 29 p)) else none
    | 1 => if bits o 0 1 = 0 then some (.stExt t .h (srcAt o 10) (srcAt o 5) (Fin.ofNat 16 (bits o 1 4)) (BitVec.ofNat 29 p)) else none
    | 2 => if bits o 0 1 = 0 then some (.stExt t .w (srcAt o 10) (srcAt o 5) (Fin.ofNat 16 (bits o 1 4)) (BitVec.ofNat 29 p)) else none
    | 3 => if bits o 0 1 = 0 then some (.stExt t .d (srcAt o 10) (srcAt o 5) (Fin.ofNat 16 (bits o 1 4)) (BitVec.ofNat 29 p)) else none
    | _ => none
  | 0x12 => match bits o 15 4 with
    | 0 => if bits o 0 1 = 0 then some (.qldExt t .b (Fin.ofNat 32 (bits o 10 5)) (srcAt o 5) (Fin.ofNat 16 (bits o 1 4)) (BitVec.ofNat 29 p)) else none
    | 1 => if bits o 0 1 = 0 then some (.qldExt t .h (Fin.ofNat 32 (bits o 10 5)) (srcAt o 5) (Fin.ofNat 16 (bits o 1 4)) (BitVec.ofNat 29 p)) else none
    | 2 => if bits o 0 1 = 0 then some (.qldExt t .w (Fin.ofNat 32 (bits o 10 5)) (srcAt o 5) (Fin.ofNat 16 (bits o 1 4)) (BitVec.ofNat 29 p)) else none
    | 3 => if bits o 0 1 = 0 then some (.qldExt t .d (Fin.ofNat 32 (bits o 10 5)) (srcAt o 5) (Fin.ofNat 16 (bits o 1 4)) (BitVec.ofNat 29 p)) else none
    | _ => none
  | 0x13 => match bits o 15 4 with
    | 0 => if bits o 0 1 = 0 then some (.qstExt t .b (Fin.ofNat 32 (bits o 10 5)) (srcAt o 5) (Fin.ofNat 16 (bits o 1 4)) (BitVec.ofNat 29 p)) else none
    | 1 => if bits o 0 1 = 0 then some (.qstExt t .h (Fin.ofNat 32 (bits o 10 5)) (srcAt o 5) (Fin.ofNat 16 (bits o 1 4)) (BitVec.ofNat 29 p)) else none
    | 2 => if bits o 0 1 = 0 then some (.qstExt t .w (Fin.ofNat 32 (bits o 10 5)) (srcAt o 5) (Fin.ofNat 16 (bits o 1 4)) (BitVec.ofNat 29 p)) else none
    | 3 => if bits o 0 1 = 0 then some (.qstExt t .d (Fin.ofNat 32 (bits o 10 5)) (srcAt o 5) (Fin.ofNat 16 (bits o 1 4)) (BitVec.ofNat 29 p)) else none
    | _ => none
  | 0x15 => match bits o 15 4 with
    | 0 => if bits o 0 1 = 0 ∧ bits p 5 24 = 0 then some (.gth t .b (Fin.ofNat 32 (bits o 10 5)) (srcAt o 5) (Fin.ofNat 16 (bits o 1 4)) (Fin.ofNat 32 (bits p 0 5))) else none
    | 1 => if bits o 0 1 = 0 ∧ bits p 5 24 = 0 then some (.gth t .h (Fin.ofNat 32 (bits o 10 5)) (srcAt o 5) (Fin.ofNat 16 (bits o 1 4)) (Fin.ofNat 32 (bits p 0 5))) else none
    | 2 => if bits o 0 1 = 0 ∧ bits p 5 24 = 0 then some (.gth t .w (Fin.ofNat 32 (bits o 10 5)) (srcAt o 5) (Fin.ofNat 16 (bits o 1 4)) (Fin.ofNat 32 (bits p 0 5))) else none
    | 3 => if bits o 0 1 = 0 ∧ bits p 5 24 = 0 then some (.gth t .d (Fin.ofNat 32 (bits o 10 5)) (srcAt o 5) (Fin.ofNat 16 (bits o 1 4)) (Fin.ofNat 32 (bits p 0 5))) else none
    | _ => none
  | 0x16 => match bits o 15 4 with
    | 0 => if bits o 0 1 = 0 ∧ bits p 5 24 = 0 then some (.sct t .b (Fin.ofNat 32 (bits o 10 5)) (srcAt o 5) (Fin.ofNat 16 (bits o 1 4)) (Fin.ofNat 32 (bits p 0 5))) else none
    | 1 => if bits o 0 1 = 0 ∧ bits p 5 24 = 0 then some (.sct t .h (Fin.ofNat 32 (bits o 10 5)) (srcAt o 5) (Fin.ofNat 16 (bits o 1 4)) (Fin.ofNat 32 (bits p 0 5))) else none
    | 2 => if bits o 0 1 = 0 ∧ bits p 5 24 = 0 then some (.sct t .w (Fin.ofNat 32 (bits o 10 5)) (srcAt o 5) (Fin.ofNat 16 (bits o 1 4)) (Fin.ofNat 32 (bits p 0 5))) else none
    | 3 => if bits o 0 1 = 0 ∧ bits p 5 24 = 0 then some (.sct t .d (Fin.ofNat 32 (bits o 10 5)) (srcAt o 5) (Fin.ofNat 16 (bits o 1 4)) (Fin.ofNat 32 (bits p 0 5))) else none
    | _ => none
  | 0x1a => match bits o 15 4 with
    | 0 => if bits o 10 5 = 0 ∧ bits o 0 5 = 0 then some (.prefExt t (srcAt o 5) (BitVec.ofNat 29 p)) else none
    | _ => none
  | 0x20 => match bits o 15 4 with
    | 0 => if dstOk o 10 ∧ bits p 11 18 = 0 then some (.amo t .add (dstAt o 10) (srcAt o 5) (srcAt o 0) (amoOf p)) else none
    | 1 => if dstOk o 10 ∧ bits p 11 18 = 0 then some (.amo t .and (dstAt o 10) (srcAt o 5) (srcAt o 0) (amoOf p)) else none
    | 2 => if dstOk o 10 ∧ bits p 11 18 = 0 then some (.amo t .or (dstAt o 10) (srcAt o 5) (srcAt o 0) (amoOf p)) else none
    | 3 => if dstOk o 10 ∧ bits p 11 18 = 0 then some (.amo t .xor (dstAt o 10) (srcAt o 5) (srcAt o 0) (amoOf p)) else none
    | 4 => if dstOk o 10 ∧ bits p 11 18 = 0 then some (.amo t .min (dstAt o 10) (srcAt o 5) (srcAt o 0) (amoOf p)) else none
    | 5 => if dstOk o 10 ∧ bits p 11 18 = 0 then some (.amo t .max (dstAt o 10) (srcAt o 5) (srcAt o 0) (amoOf p)) else none
    | 6 => if dstOk o 10 ∧ bits p 11 18 = 0 then some (.amo t .minu (dstAt o 10) (srcAt o 5) (srcAt o 0) (amoOf p)) else none
    | 7 => if dstOk o 10 ∧ bits p 11 18 = 0 then some (.amo t .maxu (dstAt o 10) (srcAt o 5) (srcAt o 0) (amoOf p)) else none
    | 8 => if dstOk o 10 ∧ bits p 11 18 = 0 then some (.amo t .xchg (dstAt o 10) (srcAt o 5) (srcAt o 0) (amoOf p)) else none
    | 9 => if dstOk o 10 ∧ bits p 16 13 = 0 then some (.amoCas t (dstAt o 10) (srcAt o 5) (srcAt o 0) (srcAt p 11) (amoOf p)) else none
    | 10 => if dstOk o 10 ∧ bits p 11 18 = 0 then some (.amo t .fadd (dstAt o 10) (srcAt o 5) (srcAt o 0) (amoOf p)) else none
    | _ => none
  | 0x21 => match bits o 15 4 with
    | 0 => if bits o 10 5 = 0 ∧ bits p 11 18 = 0 then some (.ared t .add (srcAt o 5) (srcAt o 0) (amoOf p)) else none
    | 1 => if bits o 10 5 = 0 ∧ bits p 11 18 = 0 then some (.ared t .fadd (srcAt o 5) (srcAt o 0) (amoOf p)) else none
    | 2 => if bits o 10 5 = 0 ∧ bits p 11 18 = 0 then some (.ared t .min (srcAt o 5) (srcAt o 0) (amoOf p)) else none
    | 3 => if bits o 10 5 = 0 ∧ bits p 11 18 = 0 then some (.ared t .max (srcAt o 5) (srcAt o 0) (amoOf p)) else none
    | 4 => if bits o 10 5 = 0 ∧ bits p 11 18 = 0 then some (.ared t .minu (srcAt o 5) (srcAt o 0) (amoOf p)) else none
    | 5 => if bits o 10 5 = 0 ∧ bits p 11 18 = 0 then some (.ared t .maxu (srcAt o 5) (srcAt o 0) (amoOf p)) else none
    | _ => none
  | _ => none

/-- The V words without an extension word (R43, R46, R48): major `m`, operand bits `o`. -/
def decodeV (t : Tok) (m o : Nat) : Option Instr :=
  match m with
  | 0x0 => match bits o 15 4 with
    | 0 => some (.vadd t (Fin.ofNat 32 (bits o 10 5)) (Fin.ofNat 32 (bits o 5 5)) (Fin.ofNat 32 (bits o 0 5)))
    | 1 => some (.vsub t (Fin.ofNat 32 (bits o 10 5)) (Fin.ofNat 32 (bits o 5 5)) (Fin.ofNat 32 (bits o 0 5)))
    | 2 => some (.vmul t (Fin.ofNat 32 (bits o 10 5)) (Fin.ofNat 32 (bits o 5 5)) (Fin.ofNat 32 (bits o 0 5)))
    | 3 => some (.vmin t (Fin.ofNat 32 (bits o 10 5)) (Fin.ofNat 32 (bits o 5 5)) (Fin.ofNat 32 (bits o 0 5)))
    | 4 => some (.vmax t (Fin.ofNat 32 (bits o 10 5)) (Fin.ofNat 32 (bits o 5 5)) (Fin.ofNat 32 (bits o 0 5)))
    | 5 => if bits o 0 5 = 0 then some (.vabs t (Fin.ofNat 32 (bits o 10 5)) (Fin.ofNat 32 (bits o 5 5))) else none
    | 6 => if bits o 0 5 = 0 then some (.vneg t (Fin.ofNat 32 (bits o 10 5)) (Fin.ofNat 32 (bits o 5 5))) else none
    | _ => none
  | 0x1 => match bits o 15 4 with
    | 0 => some (.vfma t (Fin.ofNat 32 (bits o 10 5)) (Fin.ofNat 32 (bits o 5 5)) (Fin.ofNat 32 (bits o 0 5)))
    | 1 => some (.vfms t (Fin.ofNat 32 (bits o 10 5)) (Fin.ofNat 32 (bits o 5 5)) (Fin.ofNat 32 (bits o 0 5)))
    | 2 => some (.vfnma t (Fin.ofNat 32 (bits o 10 5)) (Fin.ofNat 32 (bits o 5 5)) (Fin.ofNat 32 (bits o 0 5)))
    | _ => none
  | 0x2 => match bits o 15 4 with
    | 0 => if bits o 0 5 = 0 then some (.vrcp t (Fin.ofNat 32 (bits o 10 5)) (Fin.ofNat 32 (bits o 5 5))) else none
    | 1 => if bits o 0 5 = 0 then some (.vrsq t (Fin.ofNat 32 (bits o 10 5)) (Fin.ofNat 32 (bits o 5 5))) else none
    | 2 => if bits o 0 5 = 0 then some (.vexp2 t (Fin.ofNat 32 (bits o 10 5)) (Fin.ofNat 32 (bits o 5 5))) else none
    | 3 => if bits o 0 5 = 0 then some (.vlog2 t (Fin.ofNat 32 (bits o 10 5)) (Fin.ofNat 32 (bits o 5 5))) else none
    | 4 => if bits o 0 5 = 0 then some (.vtanh t (Fin.ofNat 32 (bits o 10 5)) (Fin.ofNat 32 (bits o 5 5))) else none
    | _ => none
  | 0x3 => match bits o 15 4 with
    | 0 => if bits o 10 2 = 0 then some (.vcmp t .eq (Fin.ofNat 8 (bits o 12 3)) (Fin.ofNat 32 (bits o 5 5)) (Fin.ofNat 32 (bits o 0 5))) else none
    | 1 => if bits o 10 2 = 0 then some (.vcmp t .ne (Fin.ofNat 8 (bits o 12 3)) (Fin.ofNat 32 (bits o 5 5)) (Fin.ofNat 32 (bits o 0 5))) else none
    | 2 => if bits o 10 2 = 0 then some (.vcmp t .lt (Fin.ofNat 8 (bits o 12 3)) (Fin.ofNat 32 (bits o 5 5)) (Fin.ofNat 32 (bits o 0 5))) else none
    | 3 => if bits o 10 2 = 0 then some (.vcmp t .le (Fin.ofNat 8 (bits o 12 3)) (Fin.ofNat 32 (bits o 5 5)) (Fin.ofNat 32 (bits o 0 5))) else none
    | _ => none
  | 0x4 => match bits o 15 4 with
    | 0 => some (.vand t (Fin.ofNat 32 (bits o 10 5)) (Fin.ofNat 32 (bits o 5 5)) (Fin.ofNat 32 (bits o 0 5)))
    | 1 => some (.vor t (Fin.ofNat 32 (bits o 10 5)) (Fin.ofNat 32 (bits o 5 5)) (Fin.ofNat 32 (bits o 0 5)))
    | 2 => some (.vxor t (Fin.ofNat 32 (bits o 10 5)) (Fin.ofNat 32 (bits o 5 5)) (Fin.ofNat 32 (bits o 0 5)))
    | 3 => if bits o 0 5 = 0 then some (.vnot t (Fin.ofNat 32 (bits o 10 5)) (Fin.ofNat 32 (bits o 5 5))) else none
    | 4 => some (.vshl t (Fin.ofNat 32 (bits o 10 5)) (Fin.ofNat 32 (bits o 5 5)) (Fin.ofNat 32 (bits o 0 5)))
    | 5 => some (.vshr t (Fin.ofNat 32 (bits o 10 5)) (Fin.ofNat 32 (bits o 5 5)) (Fin.ofNat 32 (bits o 0 5)))
    | 6 => some (.vsar t (Fin.ofNat 32 (bits o 10 5)) (Fin.ofNat 32 (bits o 5 5)) (Fin.ofNat 32 (bits o 0 5)))
    | _ => none
  | 0x5 => if bits o 15 1 = 0 then some (.vsel t (Fin.ofNat 8 (bits o 16 3)) (Fin.ofNat 32 (bits o 10 5)) (Fin.ofNat 32 (bits o 5 5)) (Fin.ofNat 32 (bits o 0 5))) else none
  | 0x6 => match bits o 15 4 with
    | 0 => some (.vshuf t (Fin.ofNat 32 (bits o 10 5)) (Fin.ofNat 32 (bits o 5 5)) (Fin.ofNat 32 (bits o 0 5)))
    | 1 => some (.vperm t (Fin.ofNat 32 (bits o 10 5)) (Fin.ofNat 32 (bits o 5 5)) (Fin.ofNat 32 (bits o 0 5)))
    | _ => none
  | 0x7 => match bits o 15 4 with
    | 0 => if bits o 0 5 = 0 then some (.vred t .add (Fin.ofNat 32 (bits o 10 5)) (Fin.ofNat 32 (bits o 5 5))) else none
    | 1 => if bits o 0 5 = 0 then some (.vred t .max (Fin.ofNat 32 (bits o 10 5)) (Fin.ofNat 32 (bits o 5 5))) else none
    | 2 => if bits o 0 5 = 0 then some (.vred t .min (Fin.ofNat 32 (bits o 10 5)) (Fin.ofNat 32 (bits o 5 5))) else none
    | _ => none
  | 0x8 => match bits o 15 4 with
    | 0 => if bits o 0 5 = 0 then some (.vscan t (Fin.ofNat 32 (bits o 10 5)) (Fin.ofNat 32 (bits o 5 5))) else none
    | _ => none
  | 0xa => match bits o 15 4 with
    | 0 => if bits o 0 5 = 0 then some (.vsort t false (Fin.ofNat 32 (bits o 10 5)) (Fin.ofNat 32 (bits o 5 5))) else none
    | 1 => if bits o 0 5 = 0 then some (.vsort t true (Fin.ofNat 32 (bits o 10 5)) (Fin.ofNat 32 (bits o 5 5))) else none
    | _ => none
  | 0xd => if bits o 12 2 = 0 then some (.vld t (Fin.ofNat 32 (bits o 14 5)) (BitVec.ofNat 12 (bits o 0 12))) else none
  | 0xe => if bits o 12 2 = 0 then some (.vst t (Fin.ofNat 32 (bits o 14 5)) (BitVec.ofNat 12 (bits o 0 12))) else none
  | 0xf => match bits o 15 4 with
    | 0 => if bits o 0 1 = 0 then some (.vpop t (Fin.ofNat 32 (bits o 10 5)) (Fin.ofNat 32 (bits o 5 5)) (Fin.ofNat 16 (bits o 1 4))) else none
    | _ => none
  | 0x10 => match bits o 15 4 with
    | 0 => if bits o 0 5 = 0 then some (.vpush t (Fin.ofNat 32 (bits o 10 5)) (Fin.ofNat 32 (bits o 5 5))) else none
    | _ => none
  | 0x11 => match bits o 15 4 with
    | 0 => if bits o 0 5 = 0 then some (.vmov t (Fin.ofNat 32 (bits o 10 5)) (Fin.ofNat 32 (bits o 5 5))) else none
    | _ => none
  | 0x12 => match bits o 15 4 with
    | 0 => if bits o 0 6 = 0 then some (.mand t (Fin.ofNat 8 (bits o 12 3)) (Fin.ofNat 8 (bits o 9 3)) (Fin.ofNat 8 (bits o 6 3))) else none
    | 1 => if bits o 0 6 = 0 then some (.mor t (Fin.ofNat 8 (bits o 12 3)) (Fin.ofNat 8 (bits o 9 3)) (Fin.ofNat 8 (bits o 6 3))) else none
    | 2 => if bits o 0 9 = 0 then some (.mnot t (Fin.ofNat 8 (bits o 12 3)) (Fin.ofNat 8 (bits o 9 3))) else none
    | 3 => if bits o 0 7 = 0 then some (.mpop t (Fin.ofNat 32 (bits o 10 5)) (Fin.ofNat 8 (bits o 7 3))) else none
    | 4 => if bits o 7 5 = 0 then some (.mset t (Fin.ofNat 8 (bits o 12 3)) (Fin.ofNat 128 (bits o 0 7))) else none
    | _ => none
  | 0x13 => if bits o 10 9 = 0 then some (.vrb t (Fin.ofNat 32 (bits o 5 5)) (Fin.ofNat 32 (bits o 0 5))) else none
  | 0x14 => if bits o 14 5 = 0 then some (.vloop t (BitVec.ofNat 14 (bits o 0 14))) else none
  | 0x15 => match bits o 15 4 with
    | 0 => if bits o 4 6 = 0 then some (.vfmt t (Fin.ofNat 32 (bits o 10 5)) (fmtOf (bits o 0 4))) else none
    | _ => none
  | 0x16 => match bits o 15 4 with
    | 0 => if bits o 0 1 = 0 then some (.vwhen t (Fin.ofNat 32 (bits o 10 5)) (Fin.ofNat 32 (bits o 5 5)) (Fin.ofNat 16 (bits o 1 4))) else none
    | 1 => some (.vmerge t (Fin.ofNat 32 (bits o 10 5)) (Fin.ofNat 32 (bits o 5 5)) (Fin.ofNat 32 (bits o 0 5)))
    | _ => none
  | 0x17 => if bits o 15 4 = 0 then some (.vacc t (Fin.ofNat 32 (bits o 10 5)) (Fin.ofNat 128 (bits o 3 7)) (Fin.ofNat 8 (bits o 0 3))) else none
  | 0x18 => if bits o 15 4 = 0 then some (.vaccw t (Fin.ofNat 32 (bits o 10 5)) (Fin.ofNat 128 (bits o 3 7)) (Fin.ofNat 8 (bits o 0 3))) else none
  | 0x19 => some (.vbr t (Fin.ofNat 8 (bits o 16 3)) (bits o 15 1 == 1) (BitVec.ofNat 15 (bits o 0 15)))
  | _ => none

/-- The V words with an extension word whose payload is `p`. One whose fields are all zero is accepted too (DEDUCED, log entry
110). -/
def decodeVX (t : Tok) (m o p : Nat) : Option Instr :=
  match m with
  | 0x0 => match bits o 15 4 with
    | 0 => if bits p 18 11 = 0 then some (.vaddExt t (Fin.ofNat 32 (bits o 10 5)) (Fin.ofNat 32 (bits o 5 5)) (Fin.ofNat 32 (bits o 0 5)) (vxOf p)) else none
    | 1 => if bits p 18 11 = 0 then some (.vsubExt t (Fin.ofNat 32 (bits o 10 5)) (Fin.ofNat 32 (bits o 5 5)) (Fin.ofNat 32 (bits o 0 5)) (vxOf p)) else none
    | 2 => if bits p 18 11 = 0 then some (.vmulExt t (Fin.ofNat 32 (bits o 10 5)) (Fin.ofNat 32 (bits o 5 5)) (Fin.ofNat 32 (bits o 0 5)) (vxOf p)) else none
    | 3 => if bits p 18 11 = 0 then some (.vminExt t (Fin.ofNat 32 (bits o 10 5)) (Fin.ofNat 32 (bits o 5 5)) (Fin.ofNat 32 (bits o 0 5)) (vxOf p)) else none
    | 4 => if bits p 18 11 = 0 then some (.vmaxExt t (Fin.ofNat 32 (bits o 10 5)) (Fin.ofNat 32 (bits o 5 5)) (Fin.ofNat 32 (bits o 0 5)) (vxOf p)) else none
    | 5 => if bits o 0 5 = 0 ∧ bits p 18 11 = 0 then some (.vabsExt t (Fin.ofNat 32 (bits o 10 5)) (Fin.ofNat 32 (bits o 5 5)) (vxOf p)) else none
    | 6 => if bits o 0 5 = 0 ∧ bits p 18 11 = 0 then some (.vnegExt t (Fin.ofNat 32 (bits o 10 5)) (Fin.ofNat 32 (bits o 5 5)) (vxOf p)) else none
    | _ => none
  | 0x1 => match bits o 15 4 with
    | 0 => if bits p 18 11 = 0 then some (.vfmaExt t (Fin.ofNat 32 (bits o 10 5)) (Fin.ofNat 32 (bits o 5 5)) (Fin.ofNat 32 (bits o 0 5)) (vxOf p)) else none
    | 1 => if bits p 18 11 = 0 then some (.vfmsExt t (Fin.ofNat 32 (bits o 10 5)) (Fin.ofNat 32 (bits o 5 5)) (Fin.ofNat 32 (bits o 0 5)) (vxOf p)) else none
    | 2 => if bits p 18 11 = 0 then some (.vfnmaExt t (Fin.ofNat 32 (bits o 10 5)) (Fin.ofNat 32 (bits o 5 5)) (Fin.ofNat 32 (bits o 0 5)) (vxOf p)) else none
    | _ => none
  | 0x2 => match bits o 15 4 with
    | 0 => if bits o 0 5 = 0 ∧ bits p 18 11 = 0 then some (.vrcpExt t (Fin.ofNat 32 (bits o 10 5)) (Fin.ofNat 32 (bits o 5 5)) (vxOf p)) else none
    | 1 => if bits o 0 5 = 0 ∧ bits p 18 11 = 0 then some (.vrsqExt t (Fin.ofNat 32 (bits o 10 5)) (Fin.ofNat 32 (bits o 5 5)) (vxOf p)) else none
    | 2 => if bits o 0 5 = 0 ∧ bits p 18 11 = 0 then some (.vexp2Ext t (Fin.ofNat 32 (bits o 10 5)) (Fin.ofNat 32 (bits o 5 5)) (vxOf p)) else none
    | 3 => if bits o 0 5 = 0 ∧ bits p 18 11 = 0 then some (.vlog2Ext t (Fin.ofNat 32 (bits o 10 5)) (Fin.ofNat 32 (bits o 5 5)) (vxOf p)) else none
    | 4 => if bits o 0 5 = 0 ∧ bits p 18 11 = 0 then some (.vtanhExt t (Fin.ofNat 32 (bits o 10 5)) (Fin.ofNat 32 (bits o 5 5)) (vxOf p)) else none
    | _ => none
  | 0x3 => match bits o 15 4 with
    | 0 => if bits o 10 2 = 0 ∧ bits p 18 11 = 0 then some (.vcmpExt t .eq (Fin.ofNat 8 (bits o 12 3)) (Fin.ofNat 32 (bits o 5 5)) (Fin.ofNat 32 (bits o 0 5)) (vxOf p)) else none
    | 1 => if bits o 10 2 = 0 ∧ bits p 18 11 = 0 then some (.vcmpExt t .ne (Fin.ofNat 8 (bits o 12 3)) (Fin.ofNat 32 (bits o 5 5)) (Fin.ofNat 32 (bits o 0 5)) (vxOf p)) else none
    | 2 => if bits o 10 2 = 0 ∧ bits p 18 11 = 0 then some (.vcmpExt t .lt (Fin.ofNat 8 (bits o 12 3)) (Fin.ofNat 32 (bits o 5 5)) (Fin.ofNat 32 (bits o 0 5)) (vxOf p)) else none
    | 3 => if bits o 10 2 = 0 ∧ bits p 18 11 = 0 then some (.vcmpExt t .le (Fin.ofNat 8 (bits o 12 3)) (Fin.ofNat 32 (bits o 5 5)) (Fin.ofNat 32 (bits o 0 5)) (vxOf p)) else none
    | _ => none
  | 0x4 => match bits o 15 4 with
    | 0 => if bits p 18 11 = 0 then some (.vandExt t (Fin.ofNat 32 (bits o 10 5)) (Fin.ofNat 32 (bits o 5 5)) (Fin.ofNat 32 (bits o 0 5)) (vxOf p)) else none
    | 1 => if bits p 18 11 = 0 then some (.vorExt t (Fin.ofNat 32 (bits o 10 5)) (Fin.ofNat 32 (bits o 5 5)) (Fin.ofNat 32 (bits o 0 5)) (vxOf p)) else none
    | 2 => if bits p 18 11 = 0 then some (.vxorExt t (Fin.ofNat 32 (bits o 10 5)) (Fin.ofNat 32 (bits o 5 5)) (Fin.ofNat 32 (bits o 0 5)) (vxOf p)) else none
    | 3 => if bits o 0 5 = 0 ∧ bits p 18 11 = 0 then some (.vnotExt t (Fin.ofNat 32 (bits o 10 5)) (Fin.ofNat 32 (bits o 5 5)) (vxOf p)) else none
    | 4 => if bits p 18 11 = 0 then some (.vshlExt t (Fin.ofNat 32 (bits o 10 5)) (Fin.ofNat 32 (bits o 5 5)) (Fin.ofNat 32 (bits o 0 5)) (vxOf p)) else none
    | 5 => if bits p 18 11 = 0 then some (.vshrExt t (Fin.ofNat 32 (bits o 10 5)) (Fin.ofNat 32 (bits o 5 5)) (Fin.ofNat 32 (bits o 0 5)) (vxOf p)) else none
    | 6 => if bits p 18 11 = 0 then some (.vsarExt t (Fin.ofNat 32 (bits o 10 5)) (Fin.ofNat 32 (bits o 5 5)) (Fin.ofNat 32 (bits o 0 5)) (vxOf p)) else none
    | _ => none
  | 0x6 => match bits o 15 4 with
    | 0 => if bits p 18 11 = 0 then some (.vshufExt t (Fin.ofNat 32 (bits o 10 5)) (Fin.ofNat 32 (bits o 5 5)) (Fin.ofNat 32 (bits o 0 5)) (vxOf p)) else none
    | 1 => if bits p 18 11 = 0 then some (.vpermExt t (Fin.ofNat 32 (bits o 10 5)) (Fin.ofNat 32 (bits o 5 5)) (Fin.ofNat 32 (bits o 0 5)) (vxOf p)) else none
    | 2 => if bits o 0 5 = 0 ∧ bits p 18 11 = 0 then some (.vrot t (Fin.ofNat 32 (bits o 10 5)) (Fin.ofNat 32 (bits o 5 5)) (vxOf p)) else none
    | 3 => if bits o 0 5 = 0 ∧ bits p 18 11 = 0 then some (.vbcast t (Fin.ofNat 32 (bits o 10 5)) (Fin.ofNat 32 (bits o 5 5)) (vxOf p)) else none
    | _ => none
  | 0x7 => match bits o 15 4 with
    | 0 => if bits o 0 5 = 0 ∧ bits p 18 11 = 0 then some (.vredExt t .add (Fin.ofNat 32 (bits o 10 5)) (Fin.ofNat 32 (bits o 5 5)) (vxOf p)) else none
    | 1 => if bits o 0 5 = 0 ∧ bits p 18 11 = 0 then some (.vredExt t .max (Fin.ofNat 32 (bits o 10 5)) (Fin.ofNat 32 (bits o 5 5)) (vxOf p)) else none
    | 2 => if bits o 0 5 = 0 ∧ bits p 18 11 = 0 then some (.vredExt t .min (Fin.ofNat 32 (bits o 10 5)) (Fin.ofNat 32 (bits o 5 5)) (vxOf p)) else none
    | _ => none
  | 0x8 => match bits o 15 4 with
    | 0 => if bits o 0 5 = 0 ∧ bits p 18 11 = 0 then some (.vscanExt t (Fin.ofNat 32 (bits o 10 5)) (Fin.ofNat 32 (bits o 5 5)) (vxOf p)) else none
    | _ => none
  | 0x9 => match bits o 15 4 with
    | 0 => if bits o 0 5 = 0 ∧ bits p 18 11 = 0 then some (.vtopk t (Fin.ofNat 32 (bits o 10 5)) (Fin.ofNat 32 (bits o 5 5)) (vxOf p)) else none
    | _ => none
  | 0xa => match bits o 15 4 with
    | 0 => if bits o 0 5 = 0 ∧ bits p 18 11 = 0 then some (.vsortExt t false (Fin.ofNat 32 (bits o 10 5)) (Fin.ofNat 32 (bits o 5 5)) (vxOf p)) else none
    | 1 => if bits o 0 5 = 0 ∧ bits p 18 11 = 0 then some (.vsortExt t true (Fin.ofNat 32 (bits o 10 5)) (Fin.ofNat 32 (bits o 5 5)) (vxOf p)) else none
    | _ => none
  | 0xb => match bits o 15 4 with
    | 0 => if bits o 0 5 = 0 ∧ bits p 18 11 = 0 then some (.vcvt t (Fin.ofNat 32 (bits o 10 5)) (Fin.ofNat 32 (bits o 5 5)) (vxOf p)) else none
    | _ => none
  | 0xc => match bits o 15 4 with
    | 0 => if bits p 18 11 = 0 then some (.vpack t (Fin.ofNat 32 (bits o 10 5)) (Fin.ofNat 32 (bits o 5 5)) (Fin.ofNat 32 (bits o 0 5)) (vxOf p)) else none
    | 1 => if bits o 0 5 = 0 ∧ bits p 18 11 = 0 then some (.vunpk t (Fin.ofNat 32 (bits o 10 5)) (Fin.ofNat 32 (bits o 5 5)) (vxOf p)) else none
    | 2 => if bits o 0 5 = 0 ∧ bits p 18 11 = 0 then some (.vunpk4 t (Fin.ofNat 32 (bits o 10 5)) (Fin.ofNat 32 (bits o 5 5)) (vxOf p)) else none
    | 3 => if bits o 0 5 = 0 ∧ bits p 18 11 = 0 then some (.vsat t (Fin.ofNat 32 (bits o 10 5)) (Fin.ofNat 32 (bits o 5 5)) (vxOf p)) else none
    | _ => none
  | 0x11 => match bits o 15 4 with
    | 0 => if bits o 0 5 = 0 ∧ bits p 18 11 = 0 then some (.vmovExt t (Fin.ofNat 32 (bits o 10 5)) (Fin.ofNat 32 (bits o 5 5)) (vxOf p)) else none
    | 1 => if bits o 0 5 = 0 ∧ bits p 0 8 = 0 ∧ bits p 14 15 = 0 then some (.vmovs t (Fin.ofNat 32 (bits o 10 5)) (Fin.ofNat 32 (bits o 5 5)) (Fin.ofNat 64 (bits p 8 6))) else none
    | 2 => if bits o 0 5 = 0 ∧ bits p 0 8 = 0 ∧ bits p 14 15 = 0 then some (.vext t (Fin.ofNat 32 (bits o 10 5)) (Fin.ofNat 32 (bits o 5 5)) (Fin.ofNat 64 (bits p 8 6))) else none
    | _ => none
  | 0x16 => match bits o 15 4 with
    | 2 => if bits o 0 5 = 0 ∧ bits p 0 8 = 0 ∧ bits p 14 15 = 0 then some (.vdly t (Fin.ofNat 32 (bits o 10 5)) (Fin.ofNat 32 (bits o 5 5)) (Fin.ofNat 64 (bits p 8 6))) else none
    | _ => none
  | _ => none

def srcNat : Src → Nat
  | .b i => i.val
  | .r i => i.val + 16

def dstNat : Dst → Nat
  | .drop => 0
  | .reg i => i.val + 16

def extWidthNat : ExtWidth → Nat
  | .w8 => 0 | .w16 => 1 | .w32 => 2

def scopeNat : Scope → Nat
  | .eng => 0 | .cel => 1 | .twn => 2 | .clu => 3 | .prt => 4 | .dev => 5 | .dom => 6 | .sys => 7

def fmtNat : Fmt → Nat
  | .raw => 0 | .int4 => 1 | .uint4 => 2 | .int8 => 3 | .uint8 => 4 | .int16 => 5 | .int32 => 6 | .fp4 => 7
  | .e4m3 => 8 | .e5m2 => 9 | .bf16 => 10 | .fp16 => 11 | .fp32 => 12 | .e3m5 => 13 | .bool => 14 | .int64 => 15

def rmNat : Rm → Nat
  | .ne => 0 | .tz => 1 | .dn => 2 | .up => 3

def vxNat (x : VX) : Nat :=
  x.m.val + x.msk.toNat * 2 ^ 3 + x.z.toNat * 2 ^ 4 + rmNat x.rm * 2 ^ 5 + x.ns.toNat * 2 ^ 7 + x.idx.val * 2 ^ 8 +
    fmtNat x.fmt * 2 ^ 14

def amoNat (x : AmoExt) : Nat :=
  scopeNat x.scope + x.acq.toNat * 2 ^ 3 + x.rel.toNat * 2 ^ 4 + x.sc.toNat * 2 ^ 5 + x.wide.toNat * 2 ^ 6 +
    x.cls.val * 2 ^ 7

def tokNat (t : Tok) : Nat := t.pp.toNat * 2 ^ 3 + t.pn.toNat * 2 ^ 2 + t.hp.toNat * 2 + t.hn.toNat

def cmpNat : CmpOp → Nat
  | .eq => 0 | .ne => 1 | .lt => 2 | .ltu => 3 | .le => 4 | .leu => 5

def sizeNat : Size → Nat
  | .b => 0 | .h => 1 | .w => 2 | .d => 3

def ldKindNat : LdKind → Nat
  | .b => 0 | .h => 1 | .w => 2 | .d => 3 | .bs => 4 | .hs => 5 | .ws => 6

def amoOpNat : AmoOp → Nat
  | .add => 0 | .and => 1 | .or => 2 | .xor => 3 | .min => 4 | .max => 5 | .minu => 6 | .maxu => 7 | .xchg => 8 | .fadd => 10

def redOpNat : RedOp → Nat
  | .add => 0 | .fadd => 1 | .min => 2 | .max => 3 | .minu => 4 | .maxu => 5

def vcmpNat : VCmpOp → Nat
  | .eq => 0 | .ne => 1 | .lt => 2 | .le => 3

def vredNat : VRedOp → Nat
  | .add => 0 | .max => 1 | .min => 2

/-- Operand fields laid at their lowest bits. -/
def packFields : List (Nat × Nat) → Nat
  | [] => 0
  | f :: fs => f.1 * 2 ^ f.2 + packFields fs

/-- A head word (R30). -/
def headNat (tag x : Nat) (t : Tok) (major : Nat) (ops : List (Nat × Nat)) : Nat :=
  tag * 2 ^ 30 + x * 2 ^ 29 + tokNat t * 2 ^ 25 + major * 2 ^ 19 + packFields ops

/-- An extension word (R31). -/
def extNat (tag p : Nat) : Nat := tag * 2 ^ 30 + p

/-- The words of a C instruction, head word first; nothing for any other. -/
def encodeC : Instr → List Nat
  | .add t x1 x2 x3 => [headNat 0 0 t 0x0 [(dstNat x1, 10), (srcNat x2, 5), (srcNat x3, 0)]]
  | .sub t x1 x2 x3 => [headNat 0 0 t 0x0 [(1, 15), (dstNat x1, 10), (srcNat x2, 5), (srcNat x3, 0)]]
  | .and t x1 x2 x3 => [headNat 0 0 t 0x0 [(2, 15), (dstNat x1, 10), (srcNat x2, 5), (srcNat x3, 0)]]
  | .or t x1 x2 x3 => [headNat 0 0 t 0x0 [(3, 15), (dstNat x1, 10), (srcNat x2, 5), (srcNat x3, 0)]]
  | .xor t x1 x2 x3 => [headNat 0 0 t 0x0 [(4, 15), (dstNat x1, 10), (srcNat x2, 5), (srcNat x3, 0)]]
  | .andn t x1 x2 x3 => [headNat 0 0 t 0x0 [(5, 15), (dstNat x1, 10), (srcNat x2, 5), (srcNat x3, 0)]]
  | .shl t x1 x2 x3 => [headNat 0 0 t 0x0 [(6, 15), (dstNat x1, 10), (srcNat x2, 5), (srcNat x3, 0)]]
  | .shr t x1 x2 x3 => [headNat 0 0 t 0x0 [(7, 15), (dstNat x1, 10), (srcNat x2, 5), (srcNat x3, 0)]]
  | .sar t x1 x2 x3 => [headNat 0 0 t 0x0 [(8, 15), (dstNat x1, 10), (srcNat x2, 5), (srcNat x3, 0)]]
  | .rotl t x1 x2 x3 => [headNat 0 0 t 0x0 [(9, 15), (dstNat x1, 10), (srcNat x2, 5), (srcNat x3, 0)]]
  | .min t x1 x2 x3 => [headNat 0 0 t 0x0 [(10, 15), (dstNat x1, 10), (srcNat x2, 5), (srcNat x3, 0)]]
  | .minu t x1 x2 x3 => [headNat 0 0 t 0x0 [(11, 15), (dstNat x1, 10), (srcNat x2, 5), (srcNat x3, 0)]]
  | .max t x1 x2 x3 => [headNat 0 0 t 0x0 [(12, 15), (dstNat x1, 10), (srcNat x2, 5), (srcNat x3, 0)]]
  | .maxu t x1 x2 x3 => [headNat 0 0 t 0x0 [(13, 15), (dstNat x1, 10), (srcNat x2, 5), (srcNat x3, 0)]]
  | .mul t x1 x2 x3 => [headNat 0 0 t 0x1 [(dstNat x1, 10), (srcNat x2, 5), (srcNat x3, 0)]]
  | .mulhs t x1 x2 x3 => [headNat 0 0 t 0x1 [(1, 15), (dstNat x1, 10), (srcNat x2, 5), (srcNat x3, 0)]]
  | .mulhu t x1 x2 x3 => [headNat 0 0 t 0x1 [(2, 15), (dstNat x1, 10), (srcNat x2, 5), (srcNat x3, 0)]]
  | .div t x1 x2 x3 => [headNat 0 0 t 0x1 [(3, 15), (dstNat x1, 10), (srcNat x2, 5), (srcNat x3, 0)]]
  | .divu t x1 x2 x3 => [headNat 0 0 t 0x1 [(4, 15), (dstNat x1, 10), (srcNat x2, 5), (srcNat x3, 0)]]
  | .rem t x1 x2 x3 => [headNat 0 0 t 0x1 [(5, 15), (dstNat x1, 10), (srcNat x2, 5), (srcNat x3, 0)]]
  | .remu t x1 x2 x3 => [headNat 0 0 t 0x1 [(6, 15), (dstNat x1, 10), (srcNat x2, 5), (srcNat x3, 0)]]
  | .clz t x1 x2 => [headNat 0 0 t 0x1 [(7, 15), (dstNat x1, 10), (srcNat x2, 5)]]
  | .ctz t x1 x2 => [headNat 0 0 t 0x1 [(8, 15), (dstNat x1, 10), (srcNat x2, 5)]]
  | .popc t x1 x2 => [headNat 0 0 t 0x1 [(9, 15), (dstNat x1, 10), (srcNat x2, 5)]]
  | .sext t x1 x2 x3 => [headNat 0 0 t 0x1 [(10, 15), (dstNat x1, 10), (srcNat x2, 5), (extWidthNat x3, 0)]]
  | .zext t x1 x2 x3 => [headNat 0 0 t 0x1 [(11, 15), (dstNat x1, 10), (srcNat x2, 5), (extWidthNat x3, 0)]]
  | .cmp t f x1 x2 x3 => [headNat 0 0 t 0x2 [(cmpNat f, 15), (dstNat x1, 10), (srcNat x2, 5), (srcNat x3, 0)]]
  | .addi t x1 x2 x3 => [headNat 0 0 t 0x4 [(dstNat x1, 14), (srcNat x2, 9), (x3.toNat, 0)]]
  | .li t x1 x2 => [headNat 0 0 t 0x5 [(dstNat x1, 14), (x2.toNat, 0)]]
  | .keep t x1 x2 => [headNat 0 0 t 0x7 [(x1.val + 16, 10), (x2.val, 5)]]
  | .take t x1 => [headNat 0 0 t 0x7 [(1, 15), (x1.val + 16, 5)]]
  | .br t x1 => [headNat 0 0 t 0x8 [(x1.toNat, 0)]]
  | .bz t x1 x2 => [headNat 0 0 t 0x9 [(srcNat x1, 14), (x2.toNat, 0)]]
  | .bnz t x1 x2 => [headNat 0 0 t 0xa [(srcNat x1, 14), (x2.toNat, 0)]]
  | .call t x1 => [headNat 0 0 t 0xb [(x1.toNat, 0)]]
  | .jr t x1 => [headNat 0 0 t 0xc [(srcNat x1, 5)]]
  | .ret t => [headNat 0 0 t 0xc [(1, 15)]]
  | .loop t x1 x2 => [headNat 0 0 t 0xd [(srcNat x1, 14), (x2.toNat, 0)]]
  | .bksel t x1 x2 => [headNat 0 0 t 0xe [(srcNat x1, 14), (x2.val, 6)]]
  | .xbrk t x1 => [headNat 0 0 t 0xf [(x1.toNat, 0)]]
  | .clkon t x1 x2 x3 => [headNat 0 0 t 0x10 [(x1.val, 11), (x2.val, 7), (srcNat x3, 2)]]
  | .clkoff t x1 x2 x3 => [headNat 0 0 t 0x10 [(1, 15), (x1.val, 11), (x2.val, 7), (srcNat x3, 2)]]
  | .clkrd t x1 x2 => [headNat 0 0 t 0x10 [(2, 15), (dstNat x1, 10), (x2.val, 6)]]
  | .when_ t x1 x2 x3 => [headNat 0 0 t 0x11 [(dstNat x1, 10), (srcNat x2, 5), (x3.val, 1)]]
  | .merge t x1 x2 x3 => [headNat 0 0 t 0x11 [(1, 15), (dstNat x1, 10), (srcNat x2, 5), (srcNat x3, 0)]]
  | .cur t x1 x2 x3 => [headNat 0 0 t 0x11 [(2, 15), (dstNat x1, 10), (srcNat x2, 5), (x3.val, 1)]]
  | .dly t x1 x2 x3 => [headNat 0 0 t 0x12 [(dstNat x1, 14), (srcNat x2, 9), (x3.val, 3)]]
  | .iend t => [headNat 0 0 t 0x13 []]
  | .tsrd t x1 => [headNat 0 0 t 0x14 [(dstNat x1, 10)]]
  | .lrpat t x1 x2 x3 => [headNat 0 0 t 0x14 [(1, 15), (srcNat x1, 10), (x2.val, 5), (srcNat x3, 0)]]
  | .lrarm t x1 x2 x3 => [headNat 0 0 t 0x14 [(2, 15), (dstNat x1, 10), (srcNat x2, 5), (x3.toNat, 0)]]
  | .lrdrop t x1 => [headNat 0 0 t 0x14 [(3, 15), (srcNat x1, 5)]]
  | .texit t => [headNat 0 0 t 0x14 [(4, 15)]]
  | .twset t x1 x2 => [headNat 0 0 t 0x15 [(x1.val, 2), (srcNat x2, 5)]]
  | .twget t x1 x2 => [headNat 0 0 t 0x15 [(1, 15), (dstNat x1, 10), (x2.val, 2)]]
  | .twxchg t x1 x2 x3 => [headNat 0 0 t 0x15 [(2, 15), (dstNat x1, 10), (x2.val, 2), (srcNat x3, 5)]]
  | .licacq t => [headNat 0 0 t 0x16 []]
  | .licrel t => [headNat 0 0 t 0x16 [(1, 15)]]
  | .barv t x1 x2 => [headNat 0 0 t 0x17 [(x1.val, 5), (scopeNat x2, 2)]]
  | .bwait t x1 => [headNat 0 0 t 0x17 [(1, 15), (x1.val, 5)]]
  | .bpoll t x1 x2 => [headNat 0 0 t 0x17 [(2, 15), (dstNat x1, 10), (x2.val, 5)]]
  | .bkal t x1 x2 => [headNat 0 0 t 0x18 [(dstNat x1, 10), (srcNat x2, 5)]]
  | .bkfr t x1 x2 => [headNat 0 0 t 0x18 [(1, 15), (srcNat x1, 5), (srcNat x2, 0)]]
  | .tmpl t x1 x2 => [headNat 0 0 t 0x19 [(x1.val, 9), (srcNat x2, 4)]]
  | .srd t x1 x2 => [headNat 0 0 t 0x1a [(dstNat x1, 10), (x2.val, 0)]]
  | .swr t x1 x2 => [headNat 0 0 t 0x1a [(1, 15), (x1.val, 0), (srcNat x2, 10)]]
  | .nop t => [headNat 0 0 t 0x1b []]
  | .trap t x1 => [headNat 0 0 t 0x1b [(1, 15), (x1.toNat, 0)]]
  | .brkp t => [headNat 0 0 t 0x1b [(2, 15)]]
  | .sel t x1 x2 x3 x => [headNat 0 1 t 0x0 [(14, 15), (dstNat x1, 10), (srcNat x2, 5), (srcNat x3, 0)], extNat 0 (srcNat x)]
  | .addiExt t x1 x2 x3 => [headNat 0 1 t 0x4 [(dstNat x1, 14), (srcNat x2, 9), (x3.toNat % 2 ^ 9, 0)], extNat 0 (x3.toNat / 2 ^ 9)]
  | .liExt t x1 x2 => [headNat 0 1 t 0x5 [(dstNat x1, 14), (x2.toNat % 2 ^ 14, 0)], extNat 0 (x2.toNat / 2 ^ 14)]
  | .lih t x1 x2 x => [headNat 0 1 t 0x6 [(dstNat x1, 14), (srcNat x2, 9)], extNat 0 (x.toNat)]
  | _ => []

/-- The words of a A instruction, head word first; nothing for any other. -/
def encodeA : Instr → List Nat
  | .aadd t x1 x2 x3 => [headNat 1 0 t 0x0 [(dstNat x1, 10), (srcNat x2, 5), (srcNat x3, 0)]]
  | .asub t x1 x2 x3 => [headNat 1 0 t 0x0 [(1, 15), (dstNat x1, 10), (srcNat x2, 5), (srcNat x3, 0)]]
  | .ashl t x1 x2 x3 => [headNat 1 0 t 0x0 [(2, 15), (dstNat x1, 10), (srcNat x2, 5), (srcNat x3, 0)]]
  | .aaddi t x1 x2 x3 => [headNat 1 0 t 0x4 [(dstNat x1, 14), (srcNat x2, 9), (x3.toNat, 0)]]
  | .ali t x1 x2 => [headNat 1 0 t 0x5 [(dstNat x1, 14), (x2.toNat, 0)]]
  | .aKeep t x1 x2 => [headNat 1 0 t 0x7 [(x1.val + 16, 10), (x2.val, 5)]]
  | .aTake t x1 => [headNat 1 0 t 0x7 [(1, 15), (x1.val + 16, 5)]]
  | .abr t x1 => [headNat 1 0 t 0x8 [(x1.toNat, 0)]]
  | .abz t x1 x2 => [headNat 1 0 t 0x9 [(srcNat x1, 14), (x2.toNat, 0)]]
  | .abnz t x1 x2 => [headNat 1 0 t 0xa [(srcNat x1, 14), (x2.toNat, 0)]]
  | .aloop t x1 x2 => [headNat 1 0 t 0xd [(srcNat x1, 14), (x2.toNat, 0)]]
  | .ld t f x1 x2 x3 => [headNat 1 0 t 0x10 [(ldKindNat f, 15), (dstNat x1, 10), (srcNat x2, 5), (x3.val, 1)]]
  | .st t f x1 x2 x3 => [headNat 1 0 t 0x11 [(sizeNat f, 15), (srcNat x1, 10), (srcNat x2, 5), (x3.val, 1)]]
  | .qld t f x1 x2 x3 => [headNat 1 0 t 0x12 [(sizeNat f, 15), (x1.val, 10), (srcNat x2, 5), (x3.val, 1)]]
  | .qst t f x1 x2 x3 => [headNat 1 0 t 0x13 [(sizeNat f, 15), (x1.val, 10), (srcNat x2, 5), (x3.val, 1)]]
  | .pat t x1 x2 x3 => [headNat 1 0 t 0x14 [(x1.val, 10), (srcNat x2, 5), (x3.val, 1)]]
  | .cpy t x1 x2 x3 x4 => [headNat 1 0 t 0x17 [(srcNat x1, 10), (srcNat x2, 5), (srcNat x3, 0), (x4.val, 15)]]
  | .cpyw t x1 => [headNat 1 0 t 0x18 [(x1.val, 15)]]
  | .wst t x1 x2 x3 => [headNat 1 0 t 0x19 [(srcNat x1, 10), (srcNat x2, 5), (srcNat x3, 0)]]
  | .pref t x1 => [headNat 1 0 t 0x1a [(srcNat x1, 5)]]
  | .fcls t x1 x2 => [headNat 1 0 t 0x1b [(x1.toNat, 3), (scopeNat x2, 0)]]
  | .fsc t => [headNat 1 0 t 0x1c []]
  | .qpush t x1 x2 => [headNat 1 0 t 0x22 [(x1.val, 10), (srcNat x2, 5)]]
  | .qpop t x1 x2 x3 => [headNat 1 0 t 0x23 [(dstNat x1, 10), (x2.val, 5), (x3.val, 1)]]
  | .amadd t x1 x2 x3 x => [headNat 1 1 t 0x0 [(3, 15), (dstNat x1, 10), (srcNat x2, 5), (srcNat x3, 0)], extNat 1 (srcNat x)]
  | .aaddiExt t x1 x2 x3 => [headNat 1 1 t 0x4 [(dstNat x1, 14), (srcNat x2, 9), (x3.toNat % 2 ^ 9, 0)], extNat 1 (x3.toNat / 2 ^ 9)]
  | .aliExt t x1 x2 => [headNat 1 1 t 0x5 [(dstNat x1, 14), (x2.toNat % 2 ^ 14, 0)], extNat 1 (x2.toNat / 2 ^ 14)]
  | .ldExt t f x1 x2 x3 x => [headNat 1 1 t 0x10 [(ldKindNat f, 15), (dstNat x1, 10), (srcNat x2, 5), (x3.val, 1)], extNat 1 (x.toNat)]
  | .stExt t f x1 x2 x3 x => [headNat 1 1 t 0x11 [(sizeNat f, 15), (srcNat x1, 10), (srcNat x2, 5), (x3.val, 1)], extNat 1 (x.toNat)]
  | .qldExt t f x1 x2 x3 x => [headNat 1 1 t 0x12 [(sizeNat f, 15), (x1.val, 10), (srcNat x2, 5), (x3.val, 1)], extNat 1 (x.toNat)]
  | .qstExt t f x1 x2 x3 x => [headNat 1 1 t 0x13 [(sizeNat f, 15), (x1.val, 10), (srcNat x2, 5), (x3.val, 1)], extNat 1 (x.toNat)]
  | .gth t f x1 x2 x3 x => [headNat 1 1 t 0x15 [(sizeNat f, 15), (x1.val, 10), (srcNat x2, 5), (x3.val, 1)], extNat 1 (x.val)]
  | .sct t f x1 x2 x3 x => [headNat 1 1 t 0x16 [(sizeNat f, 15), (x1.val, 10), (srcNat x2, 5), (x3.val, 1)], extNat 1 (x.val)]
  | .prefExt t x1 x => [headNat 1 1 t 0x1a [(srcNat x1, 5)], extNat 1 (x.toNat)]
  | .amo t f x1 x2 x3 x => [headNat 1 1 t 0x20 [(amoOpNat f, 15), (dstNat x1, 10), (srcNat x2, 5), (srcNat x3, 0)], extNat 1 (amoNat x)]
  | .amoCas t x1 x2 x3 y x => [headNat 1 1 t 0x20 [(9, 15), (dstNat x1, 10), (srcNat x2, 5), (srcNat x3, 0)], extNat 1 (amoNat x + srcNat y * 2 ^ 11)]
  | .ared t f x1 x2 x => [headNat 1 1 t 0x21 [(redOpNat f, 15), (srcNat x1, 5), (srcNat x2, 0)], extNat 1 (amoNat x)]
  | _ => []

/-- The words of a V instruction, head word first; nothing for any other. -/
def encodeV : Instr → List Nat
  | .vadd t x1 x2 x3 => [headNat 2 0 t 0x0 [(x1.val, 10), (x2.val, 5), (x3.val, 0)]]
  | .vsub t x1 x2 x3 => [headNat 2 0 t 0x0 [(1, 15), (x1.val, 10), (x2.val, 5), (x3.val, 0)]]
  | .vmul t x1 x2 x3 => [headNat 2 0 t 0x0 [(2, 15), (x1.val, 10), (x2.val, 5), (x3.val, 0)]]
  | .vmin t x1 x2 x3 => [headNat 2 0 t 0x0 [(3, 15), (x1.val, 10), (x2.val, 5), (x3.val, 0)]]
  | .vmax t x1 x2 x3 => [headNat 2 0 t 0x0 [(4, 15), (x1.val, 10), (x2.val, 5), (x3.val, 0)]]
  | .vabs t x1 x2 => [headNat 2 0 t 0x0 [(5, 15), (x1.val, 10), (x2.val, 5)]]
  | .vneg t x1 x2 => [headNat 2 0 t 0x0 [(6, 15), (x1.val, 10), (x2.val, 5)]]
  | .vfma t x1 x2 x3 => [headNat 2 0 t 0x1 [(x1.val, 10), (x2.val, 5), (x3.val, 0)]]
  | .vfms t x1 x2 x3 => [headNat 2 0 t 0x1 [(1, 15), (x1.val, 10), (x2.val, 5), (x3.val, 0)]]
  | .vfnma t x1 x2 x3 => [headNat 2 0 t 0x1 [(2, 15), (x1.val, 10), (x2.val, 5), (x3.val, 0)]]
  | .vrcp t x1 x2 => [headNat 2 0 t 0x2 [(x1.val, 10), (x2.val, 5)]]
  | .vrsq t x1 x2 => [headNat 2 0 t 0x2 [(1, 15), (x1.val, 10), (x2.val, 5)]]
  | .vexp2 t x1 x2 => [headNat 2 0 t 0x2 [(2, 15), (x1.val, 10), (x2.val, 5)]]
  | .vlog2 t x1 x2 => [headNat 2 0 t 0x2 [(3, 15), (x1.val, 10), (x2.val, 5)]]
  | .vtanh t x1 x2 => [headNat 2 0 t 0x2 [(4, 15), (x1.val, 10), (x2.val, 5)]]
  | .vcmp t f x1 x2 x3 => [headNat 2 0 t 0x3 [(vcmpNat f, 15), (x1.val, 12), (x2.val, 5), (x3.val, 0)]]
  | .vand t x1 x2 x3 => [headNat 2 0 t 0x4 [(x1.val, 10), (x2.val, 5), (x3.val, 0)]]
  | .vor t x1 x2 x3 => [headNat 2 0 t 0x4 [(1, 15), (x1.val, 10), (x2.val, 5), (x3.val, 0)]]
  | .vxor t x1 x2 x3 => [headNat 2 0 t 0x4 [(2, 15), (x1.val, 10), (x2.val, 5), (x3.val, 0)]]
  | .vshl t x1 x2 x3 => [headNat 2 0 t 0x4 [(4, 15), (x1.val, 10), (x2.val, 5), (x3.val, 0)]]
  | .vshr t x1 x2 x3 => [headNat 2 0 t 0x4 [(5, 15), (x1.val, 10), (x2.val, 5), (x3.val, 0)]]
  | .vsar t x1 x2 x3 => [headNat 2 0 t 0x4 [(6, 15), (x1.val, 10), (x2.val, 5), (x3.val, 0)]]
  | .vnot t x1 x2 => [headNat 2 0 t 0x4 [(3, 15), (x1.val, 10), (x2.val, 5)]]
  | .vsel t x1 x2 x3 x4 => [headNat 2 0 t 0x5 [(x1.val, 16), (x2.val, 10), (x3.val, 5), (x4.val, 0)]]
  | .vshuf t x1 x2 x3 => [headNat 2 0 t 0x6 [(x1.val, 10), (x2.val, 5), (x3.val, 0)]]
  | .vperm t x1 x2 x3 => [headNat 2 0 t 0x6 [(1, 15), (x1.val, 10), (x2.val, 5), (x3.val, 0)]]
  | .vred t f x1 x2 => [headNat 2 0 t 0x7 [(vredNat f, 15), (x1.val, 10), (x2.val, 5)]]
  | .vscan t x1 x2 => [headNat 2 0 t 0x8 [(x1.val, 10), (x2.val, 5)]]
  | .vsort t f x1 x2 => [headNat 2 0 t 0xa [(Bool.toNat f, 15), (x1.val, 10), (x2.val, 5)]]
  | .vld t x1 x2 => [headNat 2 0 t 0xd [(x1.val, 14), (x2.toNat, 0)]]
  | .vst t x1 x2 => [headNat 2 0 t 0xe [(x1.val, 14), (x2.toNat, 0)]]
  | .vpop t x1 x2 x3 => [headNat 2 0 t 0xf [(x1.val, 10), (x2.val, 5), (x3.val, 1)]]
  | .vpush t x1 x2 => [headNat 2 0 t 0x10 [(x1.val, 10), (x2.val, 5)]]
  | .vmov t x1 x2 => [headNat 2 0 t 0x11 [(x1.val, 10), (x2.val, 5)]]
  | .mand t x1 x2 x3 => [headNat 2 0 t 0x12 [(x1.val, 12), (x2.val, 9), (x3.val, 6)]]
  | .mor t x1 x2 x3 => [headNat 2 0 t 0x12 [(1, 15), (x1.val, 12), (x2.val, 9), (x3.val, 6)]]
  | .mnot t x1 x2 => [headNat 2 0 t 0x12 [(2, 15), (x1.val, 12), (x2.val, 9)]]
  | .mpop t x1 x2 => [headNat 2 0 t 0x12 [(3, 15), (x1.val, 10), (x2.val, 7)]]
  | .mset t x1 x2 => [headNat 2 0 t 0x12 [(4, 15), (x1.val, 12), (x2.val, 0)]]
  | .vrb t x1 x2 => [headNat 2 0 t 0x13 [(x1.val, 5), (x2.val, 0)]]
  | .vloop t x1 => [headNat 2 0 t 0x14 [(x1.toNat, 0)]]
  | .vfmt t x1 x2 => [headNat 2 0 t 0x15 [(x1.val, 10), (fmtNat x2, 0)]]
  | .vwhen t x1 x2 x3 => [headNat 2 0 t 0x16 [(x1.val, 10), (x2.val, 5), (x3.val, 1)]]
  | .vmerge t x1 x2 x3 => [headNat 2 0 t 0x16 [(1, 15), (x1.val, 10), (x2.val, 5), (x3.val, 0)]]
  | .vacc t x1 x2 x3 => [headNat 2 0 t 0x17 [(x1.val, 10), (x2.val, 3), (x3.val, 0)]]
  | .vaccw t x1 x2 x3 => [headNat 2 0 t 0x18 [(x1.val, 10), (x2.val, 3), (x3.val, 0)]]
  | .vbr t x1 x2 x3 => [headNat 2 0 t 0x19 [(x1.val, 16), (x2.toNat, 15), (x3.toNat, 0)]]
  | .vaddExt t x1 x2 x3 x => [headNat 2 1 t 0x0 [(x1.val, 10), (x2.val, 5), (x3.val, 0)], extNat 2 (vxNat x)]
  | .vsubExt t x1 x2 x3 x => [headNat 2 1 t 0x0 [(1, 15), (x1.val, 10), (x2.val, 5), (x3.val, 0)], extNat 2 (vxNat x)]
  | .vmulExt t x1 x2 x3 x => [headNat 2 1 t 0x0 [(2, 15), (x1.val, 10), (x2.val, 5), (x3.val, 0)], extNat 2 (vxNat x)]
  | .vminExt t x1 x2 x3 x => [headNat 2 1 t 0x0 [(3, 15), (x1.val, 10), (x2.val, 5), (x3.val, 0)], extNat 2 (vxNat x)]
  | .vmaxExt t x1 x2 x3 x => [headNat 2 1 t 0x0 [(4, 15), (x1.val, 10), (x2.val, 5), (x3.val, 0)], extNat 2 (vxNat x)]
  | .vabsExt t x1 x2 x => [headNat 2 1 t 0x0 [(5, 15), (x1.val, 10), (x2.val, 5)], extNat 2 (vxNat x)]
  | .vnegExt t x1 x2 x => [headNat 2 1 t 0x0 [(6, 15), (x1.val, 10), (x2.val, 5)], extNat 2 (vxNat x)]
  | .vfmaExt t x1 x2 x3 x => [headNat 2 1 t 0x1 [(x1.val, 10), (x2.val, 5), (x3.val, 0)], extNat 2 (vxNat x)]
  | .vfmsExt t x1 x2 x3 x => [headNat 2 1 t 0x1 [(1, 15), (x1.val, 10), (x2.val, 5), (x3.val, 0)], extNat 2 (vxNat x)]
  | .vfnmaExt t x1 x2 x3 x => [headNat 2 1 t 0x1 [(2, 15), (x1.val, 10), (x2.val, 5), (x3.val, 0)], extNat 2 (vxNat x)]
  | .vrcpExt t x1 x2 x => [headNat 2 1 t 0x2 [(x1.val, 10), (x2.val, 5)], extNat 2 (vxNat x)]
  | .vrsqExt t x1 x2 x => [headNat 2 1 t 0x2 [(1, 15), (x1.val, 10), (x2.val, 5)], extNat 2 (vxNat x)]
  | .vexp2Ext t x1 x2 x => [headNat 2 1 t 0x2 [(2, 15), (x1.val, 10), (x2.val, 5)], extNat 2 (vxNat x)]
  | .vlog2Ext t x1 x2 x => [headNat 2 1 t 0x2 [(3, 15), (x1.val, 10), (x2.val, 5)], extNat 2 (vxNat x)]
  | .vtanhExt t x1 x2 x => [headNat 2 1 t 0x2 [(4, 15), (x1.val, 10), (x2.val, 5)], extNat 2 (vxNat x)]
  | .vcmpExt t f x1 x2 x3 x => [headNat 2 1 t 0x3 [(vcmpNat f, 15), (x1.val, 12), (x2.val, 5), (x3.val, 0)], extNat 2 (vxNat x)]
  | .vandExt t x1 x2 x3 x => [headNat 2 1 t 0x4 [(x1.val, 10), (x2.val, 5), (x3.val, 0)], extNat 2 (vxNat x)]
  | .vorExt t x1 x2 x3 x => [headNat 2 1 t 0x4 [(1, 15), (x1.val, 10), (x2.val, 5), (x3.val, 0)], extNat 2 (vxNat x)]
  | .vxorExt t x1 x2 x3 x => [headNat 2 1 t 0x4 [(2, 15), (x1.val, 10), (x2.val, 5), (x3.val, 0)], extNat 2 (vxNat x)]
  | .vshlExt t x1 x2 x3 x => [headNat 2 1 t 0x4 [(4, 15), (x1.val, 10), (x2.val, 5), (x3.val, 0)], extNat 2 (vxNat x)]
  | .vshrExt t x1 x2 x3 x => [headNat 2 1 t 0x4 [(5, 15), (x1.val, 10), (x2.val, 5), (x3.val, 0)], extNat 2 (vxNat x)]
  | .vsarExt t x1 x2 x3 x => [headNat 2 1 t 0x4 [(6, 15), (x1.val, 10), (x2.val, 5), (x3.val, 0)], extNat 2 (vxNat x)]
  | .vnotExt t x1 x2 x => [headNat 2 1 t 0x4 [(3, 15), (x1.val, 10), (x2.val, 5)], extNat 2 (vxNat x)]
  | .vshufExt t x1 x2 x3 x => [headNat 2 1 t 0x6 [(x1.val, 10), (x2.val, 5), (x3.val, 0)], extNat 2 (vxNat x)]
  | .vpermExt t x1 x2 x3 x => [headNat 2 1 t 0x6 [(1, 15), (x1.val, 10), (x2.val, 5), (x3.val, 0)], extNat 2 (vxNat x)]
  | .vrot t x1 x2 x => [headNat 2 1 t 0x6 [(2, 15), (x1.val, 10), (x2.val, 5)], extNat 2 (vxNat x)]
  | .vbcast t x1 x2 x => [headNat 2 1 t 0x6 [(3, 15), (x1.val, 10), (x2.val, 5)], extNat 2 (vxNat x)]
  | .vredExt t f x1 x2 x => [headNat 2 1 t 0x7 [(vredNat f, 15), (x1.val, 10), (x2.val, 5)], extNat 2 (vxNat x)]
  | .vscanExt t x1 x2 x => [headNat 2 1 t 0x8 [(x1.val, 10), (x2.val, 5)], extNat 2 (vxNat x)]
  | .vtopk t x1 x2 x => [headNat 2 1 t 0x9 [(x1.val, 10), (x2.val, 5)], extNat 2 (vxNat x)]
  | .vsortExt t f x1 x2 x => [headNat 2 1 t 0xa [(Bool.toNat f, 15), (x1.val, 10), (x2.val, 5)], extNat 2 (vxNat x)]
  | .vcvt t x1 x2 x => [headNat 2 1 t 0xb [(x1.val, 10), (x2.val, 5)], extNat 2 (vxNat x)]
  | .vpack t x1 x2 x3 x => [headNat 2 1 t 0xc [(x1.val, 10), (x2.val, 5), (x3.val, 0)], extNat 2 (vxNat x)]
  | .vunpk t x1 x2 x => [headNat 2 1 t 0xc [(1, 15), (x1.val, 10), (x2.val, 5)], extNat 2 (vxNat x)]
  | .vunpk4 t x1 x2 x => [headNat 2 1 t 0xc [(2, 15), (x1.val, 10), (x2.val, 5)], extNat 2 (vxNat x)]
  | .vsat t x1 x2 x => [headNat 2 1 t 0xc [(3, 15), (x1.val, 10), (x2.val, 5)], extNat 2 (vxNat x)]
  | .vmovExt t x1 x2 x => [headNat 2 1 t 0x11 [(x1.val, 10), (x2.val, 5)], extNat 2 (vxNat x)]
  | .vmovs t x1 x2 x => [headNat 2 1 t 0x11 [(1, 15), (x1.val, 10), (x2.val, 5)], extNat 2 (x.val * 2 ^ 8)]
  | .vext t x1 x2 x => [headNat 2 1 t 0x11 [(2, 15), (x1.val, 10), (x2.val, 5)], extNat 2 (x.val * 2 ^ 8)]
  | .vdly t x1 x2 x => [headNat 2 1 t 0x16 [(2, 15), (x1.val, 10), (x2.val, 5)], extNat 2 (x.val * 2 ^ 8)]
  | _ => []

/-- The words of an M instruction (R49). -/
def encodeM : Instr → List Nat
  | .mexec t n s v => [headNat 3 0 t n.val [(s.val, 16), (v.toNat, 0)]]
  | .mexecExt t n s v s2 v2 => [headNat 3 1 t n.val [(s.val, 16), (v.toNat, 0)], extNat 3 (s2.val * 2 ^ 16 + v2.toNat)]
  | _ => []

/-- The words of an instruction (R43, R46, R48, R49), head word first; an event has none. -/
def encodeNat (i : Instr) : List Nat := encodeC i ++ encodeA i ++ encodeV i ++ encodeM i

/-- A head word without an extension (R30). -/
def decodeHead (w : Nat) : Option Instr :=
  match bits w 30 2 with
  | 0 => decodeC (tokOf w) (bits w 19 6) (bits w 0 19)
  | 1 => decodeA (tokOf w) (bits w 19 6) (bits w 0 19)
  | 2 => decodeV (tokOf w) (bits w 19 6) (bits w 0 19)
  | _ => some (.mexec (tokOf w) (Fin.ofNat 64 (bits w 19 6)) (Fin.ofNat 8 (bits w 16 3)) (BitVec.ofNat 16 (bits w 0 16)))

/-- A head word with its extension's payload `p` (R31, R33). -/
def decodeExt (w p : Nat) : Option Instr :=
  match bits w 30 2 with
  | 0 => decodeCX (tokOf w) (bits w 19 6) (bits w 0 19) p
  | 1 => decodeAX (tokOf w) (bits w 19 6) (bits w 0 19) p
  | 2 => decodeVX (tokOf w) (bits w 19 6) (bits w 0 19) p
  | _ =>
    if bits p 19 10 = 0 then
      some (.mexecExt (tokOf w) (Fin.ofNat 64 (bits w 19 6)) (Fin.ofNat 8 (bits w 16 3)) (BitVec.ofNat 16 (bits w 0 16))
        (Fin.ofNat 8 (bits p 16 3)) (BitVec.ofNat 16 (bits p 0 16)))
    else none

/-- Keep an instruction whose operands its encoding admits. -/
def keepWf (i : Instr) : Option Instr := if wellFormed i then some i else none

/-- The first instruction of a list of words, and the words after it. An extension must carry its head's TAG and a
clear bit 29 (R31, R33). -/
def decodeNat (ws : List Nat) : Option (Instr × List Nat) :=
  match ws with
  | [] => none
  | w :: rest =>
    if bits w 29 1 = 0 then ((decodeHead w).bind keepWf).map (fun i => (i, rest))
    else
      match rest with
      | [] => none
      | e :: rest' =>
        if bits e 30 2 = bits w 30 2 ∧ bits e 29 1 = 0 then
          ((decodeExt w (bits e 0 29)).bind keepWf).map (fun i => (i, rest'))
        else none

/-- The decoder over words of 32 bits. -/
def decode (ws : List Word32) : Option Instr := (decodeNat (ws.map BitVec.toNat)).map Prod.fst

/-- The words of an instruction. -/
def encode (i : Instr) : List Word32 := (encodeNat i).map (BitVec.ofNat 32)

/-- How many words an instruction takes (R31). -/
def wordLen (i : Instr) : Nat := (encodeNat i).length

/-- The instruction the decoder reads from bits numbered as the opcode table numbers them. -/
def decodeTableWord (nbits w : Nat) : Option Instr :=
  decode [BitVec.ofNat 32 (w % 2 ^ nbits), BitVec.ofNat 32 (w % 2 ^ nbits / 2 ^ 32)]

end Sys2Proof
end

