-- ==== Sys2Proof/Machine/State.lean ====
section
/-! DEFINITION. The state of the machine as plain data: cells, tasks, groups, instances, kernels, contexts,
partitions, memory, host registers, links and board, with the state after reset. -/

namespace Sys2Proof.Machine

open Sys2Proof

/-- A sparse map: pairs with strictly rising keys. -/
abbrev AMap (α : Type) := List (Nat × α)

/-- The 52-bit physical space of R249, by physical address. A byte that is not listed reads as 0. -/
abbrev Memory := List Host.Cell

/-- Keys strictly rise and no listed byte is 0, so that equal memories are equal lists. -/
def Memory.wf : Memory → Bool
  | [] => true
  | [c] => c.2 != 0
  | c :: d :: rest => c.2 != 0 && decide (c.1 < d.1) && Memory.wf (d :: rest)

/-! ## The registers of a cell -/

/-- A crema entry or a named register: value and clock tag (R105, R107), which of its two 32-bit words are poisoned and
whether its tag is (R110, R111), and the outstanding access whose data it awaits (R101, R255). -/
structure SVal where
  val : Word64 := 0
  tag : Clk := 0
  bad : BitVec 2 := 0
  tagBad : Bool := false
  pend : Option Nat := none
  deriving DecidableEq, Repr

/-- A vector register (R179), with the poison of its 32-bit words and of its tags (R110, R111). -/
structure VVal where
  bits : Row := 0
  fmt : Fmt := .raw
  tag : Clk := 0
  bad : BitVec 64 := 0
  tagBad : Bool := false
  deriving DecidableEq, Repr

/-- A mask register (R179), with the poison of its 32-bit words. -/
structure MVal where
  bits : BitVec 64 := 0
  bad : BitVec 2 := 0
  deriving DecidableEq, Repr

/-- A clock register (R133). -/
structure ClkReg where
  val : Bool := false
  dfn : Bool := false
  parent : Clk := 0
  pol : Bool := false
  bad : Bool := false
  deriving DecidableEq, Repr

/-- VRB (R187). -/
structure VrbReg where
  base : Fin 32 := 0
  sizeM1 : Fin 32 := 0
  rot : Fin 32 := 0
  count : BitVec 32 := 0
  deriving DecidableEq, Repr

/-- A template (R51), with the poison of its 32-bit words. -/
structure Template where
  bits : BitVec 256 := 0
  bad : BitVec 8 := 0
  deriving DecidableEq, Repr

/-- A delay slot (R145), with the poison of its 32-bit words and of its tags. -/
structure DelaySlot where
  bits : Row := 0
  fmt : Fmt := .raw
  cb : Clk := 0
  bnd : Bool := false
  wrote : Bool := false
  bad : BitVec 64 := 0
  tagBad : Bool := false
  deriving DecidableEq, Repr

/-- The states of a barrier in one cell (R343). -/
inductive BarPhase | idle | arrived | released
  deriving DecidableEq, Repr

/-- One barrier number in one cell (R343), with the word of its latest arrival. -/
structure BarSlot where
  st : BarPhase := .idle
  gen : Nat := 0
  scope : Scope := .cel
  pc : Nat := 0
  deriving DecidableEq, Repr

/-- A launch staging slot (R295). -/
structure Staging where
  kind : Option Nat := none
  rcd : BitVec 1024 := 0
  deriving DecidableEq, Repr

/-- Where a 64-byte scratchpad unit came from in the last instant that wrote it (R258): stage data, or a copy from a
virtual source, with the place of the `cpy` word, the address that byte 0 of the unit would have and the bytes `lo` to `hi`
exclusive that it wrote. -/
inductive Origin
  | stage
  | copied (pc va lo hi : Nat)
  deriving DecidableEq, Repr

/-- One word address for each engine (R98). -/
structure PCs where
  c : Nat := 0
  a : Nat := 0
  v : Nat := 0
  m : Nat := 0
  deriving DecidableEq, Repr

/-- The part of a cell that a register checkpoint covers or that is versioned by instant (R289, R147, R228). -/
structure Core where
  pc : PCs := {}
  callDepth : Nat := 0
  call0 : Nat := 0
  cremaC : List SVal := []
  cremaA : List SVal := []
  sregs : Vector SVal 16 := Vector.replicate 16 {}
  aregs : Vector SVal 16 := Vector.replicate 16 {}
  vregs : Vector VVal 32 := Vector.replicate 32 {}
  masks : Vector MVal 8 := Vector.replicate 8 {}
  clks : Vector ClkReg 16 := (Vector.replicate 16 {}).set 0 { val := true, dfn := true }
  toks : Vector Nat 8 := Vector.replicate 8 0
  vrb : VrbReg := {}
  leaseCmds : Nat := 64
  leaseCyc : Nat := 4096
  qpushFmt : Vector Word64 32 := Vector.replicate 32 0xF
  qpopFmt : Vector Word64 32 := Vector.replicate 32 0xF
  tmpls : Vector Template 64 := Vector.replicate 64 {}
  delays : Vector DelaySlot 64 := Vector.replicate 64 {}
  phase : Bool := false
  bankMap : BitVec 128 := 0
  bars : Vector BarSlot 32 := Vector.replicate 32 {}
  staging : Vector Staging 8 := Vector.replicate 8 {}
  origins : AMap Origin := []
  deriving DecidableEq, Repr

/-! ## Queues, buffers and work in motion -/

/-- A data-queue entry (R154). A scalar value sits in the low 64 bits. `cyc` and `rank` are the cycle of its deposit and
the place of its pusher in the order A, V, C of one cycle (R156). -/
structure QEntry where
  vec : Bool := false
  val : Row := 0
  clk : Clk := 0
  fmt : Fmt := .int64
  endm : Bool := false
  inst : Nat := 0
  cyc : Nat := 0
  rank : Nat := 0
  deriving DecidableEq, Repr

/-- A data queue with its reserved slots (R156). -/
structure Queue where
  es : List QEntry := []
  rsv : Nat := 0
  deriving DecidableEq, Repr

/-- A buffered store line (R281), by physical line, with the virtual line its report names and its leaf's policy. -/
structure StoreLine where
  line : Nat
  va : Nat
  zero : Bool
  cls : Fin 16
  mask : BitVec 64
  data : BitVec 512
  deriving DecidableEq, Repr

/-- The records of one task in one cell's write buffer (R281). Pop records and undo records stand newest first. `given` names the
carry entries that the task has put into carries itself, which an abort takes out again (R165, R284); they take no room. -/
structure TaskBuf where
  task : Nat
  lines : List StoreLine := []
  undo : List (Nat × BitVec 512) := []
  pops : List (Nat × QEntry) := []
  pushes : List (Nat × QEntry) := []
  carryPops : List (Nat × QEntry) := []
  given : List (Nat × QEntry) := []
  deriving DecidableEq, Repr

/-- Where an access goes: virtual and physical address, byte count, class, and what its leaf says (R251). -/
structure MemRef where
  va : Nat
  pa : Nat
  size : Nat
  cls : Fin 16
  zero : Bool
  rwin : Bool
  deriving DecidableEq, Repr

/-- A store of bytes of one line that stands in the write buffer behind unfinished words, by the number of the word that moved
them (R281, R313). -/
structure Held where
  id : Nat
  r : MemRef
  mask : BitVec 64
  data : BitVec 512
  deriving DecidableEq, Repr

/-- What an A word that has issued still waits for (R255). A `stored` word has stored into the write buffer behind unfinished words, and
moves behind it have too; once its task has turned direct for a stream or a copy (`direct`), it writes them in turn (R284). -/
inductive FlyOp
  | done
  | load (r : MemRef) (own : List (Option Byte)) (k : LdKind)
  | qload (r : MemRef) (own : List (Option Byte)) (q : QNum)
  | direct (r : MemRef) (mask : BitVec 64) (data : BitVec 512)
  | stored (direct : Bool) (l : List Held)
  | atomic (r : MemRef) (op : Option AmoOp) (b cmp : Word64) (x : AmoExt)
  | stream
  | wst
  deriving DecidableEq, Repr

/-- An atomic that waits for its slot of the wheel (R320): its place, operands and destination (a reduction has none). -/
structure ScAtomic where
  r : MemRef
  op : Option AmoOp
  b : Word64
  cmp : Word64
  x : AmoExt
  d : Option Dst
  clk : Clk
  deriving DecidableEq, Repr

/-- A word of A that waits for its slot: an atomic, or `fsc`; and the cycle of its slot once it has one. -/
structure ScWait where
  t : Tok
  len : Nat
  op : Option ScAtomic
  slot : Option Nat := none
  deriving DecidableEq, Repr

/-- A reduction on the way to its home (R323), or several merged in a window (R324): by whom, at what place in its thread's
order, the address of its word, the value that it contributes, and the merged update that it belongs to. -/
structure Red where
  ctx : Nat
  cell : Nat
  task : Nat
  id : Nat
  pc : Nat
  r : MemRef
  op : RedOp
  b : Word64
  x : AmoExt
  grp : Option Nat := none
  deriving DecidableEq, Repr

/-- The scalar registers of A as they stood when a word issued. -/
structure ARegs where
  crema : List SVal := []
  named : List SVal := []
  deriving DecidableEq, Repr

/-- An A word that has issued and whose effects outside A wait for it and for every earlier word (R103, R255). -/
structure Fly where
  id : Nat
  pc : Nat
  op : FlyOp
  tok : Tok
  push : List (Nat × QEntry) := []
  popped : List (Nat × QEntry) := []
  regs : ARegs := {}
  lines : List StoreLine := []
  deriving DecidableEq, Repr

/-- What a stream unit runs (R169, R170). -/
inductive StreamKind
  | pat (base icount ocount : Nat) (istride ostride : Int) (esize : Nat) (store : Bool)
  | gth (base size : Nat) (qi : QNum)
  | sct (base size : Nat) (qi : QNum)
  deriving DecidableEq, Repr

/-- A running stream unit (R171): the element counts it has reached, the index it holds, whether its index queue has
ended, the bytes of memory that later words of the thread have stored since it started (R311), and whether one of those words
has its class (`late`, R313). -/
structure StreamUnit where
  id : Nat
  pc : Nat
  kind : StreamKind
  q : QNum
  cls : Fin 16
  clk : Clk
  o : Nat := 0
  i : Nat := 0
  n : Nat := 0
  idx : Option Word64 := none
  ended : Bool := false
  stored : List (Nat × BitVec 64) := []
  late : Bool := false
  deriving DecidableEq, Repr

/-- A copy operand (R247): a scratchpad offset or a virtual address. -/
inductive CopyEnd
  | spad (off : Nat)
  | virt (va : Nat)
  deriving DecidableEq, Repr

/-- A copy in motion (R261). -/
structure Copy where
  id : Nat
  pc : Nat
  dst : CopyEnd
  src : CopyEnd
  len : Nat
  pos : Nat := 0
  cls : Fin 16
  task : Nat
  phase : Bool
  ord : Nat
  deriving DecidableEq, Repr

/-- A weight-store write in motion (R266). -/
structure Wst where
  id : Nat
  pc : Nat
  off : Nat
  src : CopyEnd
  len : Nat
  pos : Nat := 0
  deriving DecidableEq, Repr

/-- A lent scratchpad region in 64-byte units, `lo` to `hi` exclusive (R225). -/
structure Lend where
  lo : Nat
  hi : Nat
  dst : Bool
  deriving DecidableEq, Repr

inductive BatchSt | idle | gathering | draining
  deriving DecidableEq, Repr

/-- A command that has joined a batch: its task, the banks it writes and the regions it lends (R225, R231). -/
structure Member where
  task : Nat
  banks : BitVec 128
  lent : List Lend
  deriving DecidableEq, Repr

/-- A commit batch (R231). -/
structure Batch where
  st : BatchSt := .idle
  members : List Member := []
  deriving DecidableEq, Repr

/-- A matrix command that has started and not completed (R218, R219). -/
structure Cmd where
  id : Nat
  task : Nat
  inst : Nat
  desc : BitVec 256
  phase : Bool
  licensed : Bool
  lent : List Lend
  banks : BitVec 128
  arrayBusy : Bool := true
  partner : Option Nat := none
  aborted : Bool := false
  deriving DecidableEq, Repr

/-- An undo image of a bank (R230): the instant it is tagged with and its eight rows. -/
structure BankImage where
  inst : Nat
  task : Nat
  rows : List Row
  deriving DecidableEq, Repr

/-- Why an engine's next word waits, as R150 and R359 ask. -/
inductive WaitKind | none | plain | pourLine | bufferFull | iendRoom | injection
  deriving DecidableEq, Repr

/-- The wait note of each engine; whether one of them has issued a word in the present cycle, and since the group
started (R150). -/
structure Waits where
  c : WaitKind := .none
  a : WaitKind := .none
  v : WaitKind := .none
  m : WaitKind := .none
  went : Bool := false
  begun : Bool := false
  deriving DecidableEq, Repr

/-- The licence state of a cell (R236), but for what the twin's state shows, with the first claim that a restore gives it
(R239) and the limits of the current lease (R235). `leaving` marks a licence that has been given up and stays with the cell until
its started licensed commands complete (R19, R333); `halting` the holder of a licence that is Halting until its safe point
(R238). -/
structure Licence where
  held : Bool := false
  leaving : Bool := false
  halting : Bool := false
  claim : Bool := false
  first : Bool := false
  firstNext : Bool := false
  pass : Bool := false
  used : Nat := 0
  age : Nat := 0
  cmds : Nat := 64
  cyc : Nat := 4096
  away : BitVec 16 := 0
  deriving DecidableEq, Repr

/-- A cell whose `twxchg` has reached issue (R241): the word's operands and the cycles waited. -/
structure XchgWait where
  t : Tok
  d : Dst
  tw : Fin 8
  a : Src
  cyc : Nat
  deriving DecidableEq, Repr

/-- A cell whose paired command has reached issue (R242): the word's tokens and length, the patched descriptor and the
cycles waited. -/
structure PairWait where
  t : Tok
  len : Nat
  desc : BitVec 256
  cyc : Nat
  deriving DecidableEq, Repr

/-- A cell as one context sees it. `spadBad` holds poisoned 64-bit words of the scratchpad and `accBad` poisoned 32-bit
words of the accumulators, numbered through the banks and their rows; `peekImgs` the rows of banks as they stood before
open batches first wrote them, by batch and bank, oldest first (R233); `full` the words whose streams or copies wait for the pour line
or for room in the write buffer (R150). -/
structure Cell where
  core : Core := {}
  ckpts : List (Nat × Core) := []
  group : Option Nat := none
  task : Option Nat := none
  halted : Bool := false
  safe : Bool := true
  spad : Memory := []
  spadBad : List Nat := []
  banks : AMap Row := []
  accBad : List Nat := []
  undoImgs : AMap BankImage := []
  peekImgs : List (Nat × Nat × List Row) := []
  batches : Vector Batch 16 := Vector.replicate 16 {}
  cmds : List Cmd := []
  mwait : Option (Nat × Tok) := none
  tokRsv : Vector Nat 8 := Vector.replicate 8 0
  queues : Vector Queue 13 := Vector.replicate 13 {}
  bufs : List TaskBuf := []
  lic : Licence := {}
  zf : Bool := false
  zw : Bool := false
  zcnt : Nat := 0
  slipwin : Nat := 4096
  streams : List StreamUnit := []
  copies : List Copy := []
  copyCount : Nat := 0
  full : List Nat := []
  wsts : List Wst := []
  fly : List Fly := []
  nextFly : Nat := 0
  watch : Nat := 0
  waits : Waits := {}
  xchg : Option XchgWait := none
  pair : Option PairWait := none
  scWait : Option ScWait := none
  steer : Bool := false
  steering : Bool := false
  refetch : Bool := false
  deriving DecidableEq, Repr

/-! ## Faults of tasks -/

/-- The codes of R360. -/
inductive FaultCode
  | illegalWord | clockMismatch | clockRedef | formatMismatch | operandBusy | licenceAbsent | accHeldAtExit
  | accExhausted | bucketRange | translation | protection | align | instantOverrun | tsOrder | nestLimit
  | twinAbandon | uncorrectable | weightStoreWrite | trap | brk
  | checkerMismatch | ringOverrun | placementStall | digestMismatch | contextEnded
  deriving DecidableEq, Repr

/-- The access kinds of R253. -/
inductive Access | read | write | atomic | red
  deriving DecidableEq, Repr

/-- A fault held with a task (R290), with what its record will show (R360), and the kind of the access whose walk
failed (R252, log entry 105). -/
structure HeldFault where
  code : FaultCode
  cause : Nat := 0
  engine : Nat := 0xFF
  va : Word64 := 0
  pc : Nat := 0
  cell : Nat := 0
  owner : Nat := 0
  access : Option Access := none
  delivered : Bool := false
  deriving DecidableEq, Repr

/-! ## Tasks, groups, kernels, instances -/

/-- A task that has not committed (R277 to R279, R285). `key` is its commit key (R278), compared as lists are; `org` is the
origin of the group that armed it (R294); `doomed` marks one whose read set was hit while its context aborted nothing (R291). -/
structure Task where
  id : Nat
  ctx : Nat
  inst : Nat
  stage : Nat
  launched : Bool := false
  ts : Nat
  key : List Nat
  depth : Nat := 0
  parent : Option Nat := none
  org : Nat × Nat × Nat := (0, 0, 0)
  after : Bool := false
  kind : Nat := 0
  rcd : BitVec 1024 := 0
  arms : Nat := 0
  group : Option Nat := none
  age : Nat := 0
  stall : Nat := 0
  stallSent : Bool := false
  reads : List Nat := []
  regions : List Nat := []
  wrote : List (Nat × BitVec 64 × BitVec 512) := []
  ended : List Nat := []
  direct : Bool := false
  frontier : Bool := false
  fault : Option HeldFault := none
  doomed : Bool := false
  deriving DecidableEq, Repr

inductive GroupSt | pending | starting | running | halted | ending
  deriving DecidableEq, Repr

/-- A group (R328, R332). -/
structure Group where
  id : Nat
  ctx : Nat
  inst : Nat
  stage : Nat
  launched : Bool := false
  ox : Nat
  oy : Nat
  oz : Nat
  w : Nat
  h : Nat
  d : Nat
  st : GroupSt := .starting
  left : Nat := 0
  exited : List Nat := []
  deriving DecidableEq, Repr

/-- A stage of a loaded kernel (R87, R88). -/
structure Stage where
  num : Nat
  gw : Nat := 1
  gh : Nat := 1
  gd : Nat := 1
  period : Nat := 1
  phase : Nat := 0
  maxInstant : Nat := 4096
  entry : Nat := 0
  text : List Word32 := []
  data : List Byte := []
  delays : List (Nat × Fmt × Word64) := []
  grinder : Option Nat := none
  deriving DecidableEq, Repr

/-- A loaded kernel (R91, R96). -/
structure Kernel where
  ctx : Nat
  handle : Nat
  stages : List Stage := []
  carries : List (Nat × Nat × Nat) := []
  lrecs : List (BitVec 1024) := []
  deriving DecidableEq, Repr

inductive InstSt | queued | running | faulted | retired
  deriving DecidableEq, Repr

/-- A kernel's launched run (R94 to R97). -/
structure Inst where
  part : Nat
  ctx : Nat
  id : Nat
  handle : Nat
  st : InstSt := .queued
  args : List Word64 := []
  start : Nat := 0
  gangKey : Nat := 0
  gangWidth : Nat := 0
  cookie : Nat := 0
  fn : Nat := 0
  wants : Bool := false
  dmode : Nat := 0
  serial : Bool := false
  mis : Bool := false
  faultGroup : Option Nat := none
  deriving DecidableEq, Repr

/-- A carry between two stages, at one offset (R164, R165). -/
structure Carry where
  ctx : Nat
  inst : Nat
  idx : Nat
  off : Nat
  es : List QEntry := []
  rsv : Nat := 0
  deriving DecidableEq, Repr

/-- A barrier episode's gather at the root of its unit (R338, R344), with the gang number of its context and the gang width of
its instance. One of generation 0 stands for a joined instance that has retired (R337). -/
structure Episode where
  ctx : Nat
  inst : Nat
  key : Nat
  bar : Nat
  scope : Scope
  unit : Nat
  gen : Nat
  gang : Nat := 0
  width : Nat := 0
  cells : List Nat := []
  sent : Bool := false
  released : List Nat := []
  complete : Bool := false
  deriving DecidableEq, Repr

/-- An arrival that a context of another device of a gang, or a bridged gang, has sent for an episode (R337, R386). -/
structure Heard where
  key : Nat
  gang : Nat
  bar : Nat
  gen : Nat
  dev : Nat
  ctx : Nat
  deriving DecidableEq, Repr

/-- A context (R351, R354). -/
structure Ctx where
  num : Nat
  gang : Nat := 0
  root : Nat := 0
  save : Nat := 0
  meas : Nat := 0
  deriving DecidableEq, Repr

/-- The states of a context slot (R356, R375). -/
inductive SlotSt | empty | parked | shadow | running | halting | halted | ended | sealing | restoring
  deriving DecidableEq, Repr

structure Slot where
  st : SlotSt := .empty
  ctx : Nat := 0
  deriving DecidableEq, Repr

/-- A context command in progress (R352). -/
structure CtxBusy where
  op : Nat
  slot : Nat
  fn : Nat
  at_ : Nat
  due : Bool := false
  bad : Bool := false
  deriving DecidableEq, Repr

/-- A partition (R16, R90, R300, R320). `go` and `capGo` are the cycle and the function of the latest GO of a context command
and of a capsule command (R352, R368); `skipped` are ranges of ids below `nextInst` that no LAUNCH of the partition was given (log
entry 42). -/
structure Part where
  cols : List Nat
  safept : Nat := 65536
  slots : Vector Slot 34 := Vector.replicate 34 {}
  nextInst : Nat := 1
  skipped : List (Nat × Nat) := []
  writer : Option Nat := none
  lastRing : Nat := 0
  lastInst : Nat := 0
  scLast : Nat := 640
  scCycle : Nat := 0
  blocked : AMap Nat := []
  busy : Option CtxBusy := none
  go : Option (Nat × Nat) := none
  capGo : Option (Nat × Nat) := none
  wedged : Bool := false
  deriving DecidableEq, Repr

/-! ## The device -/

/-- What belongs to a cell place and to no context: ERRST, whether the cell is enabled, and the cycle in which a group last
left it (R114, R29, R333). -/
structure Phys where
  disabled : Bool := false
  freed : Option Nat := none
  errst : Word64 := 0
  deriving DecidableEq, Repr

/-- A cached leaf translation (R254). -/
structure TlbEntry where
  ctx : Nat
  cell : Nat
  base : Nat
  size : Nat
  leaf : Word64
  deriving DecidableEq, Repr

/-- A twin-window register of a pair (R109), with the poison of its words and its tag, and the cycle of its last change
with the value, tag and full bit before it. -/
structure TwReg where
  val : Word64 := 0
  tag : Clk := 0
  full : Bool := false
  bad : BitVec 2 := 0
  tagBad : Bool := false
  past : Option (Nat × Word64 × Clk × Bool) := none
  deriving DecidableEq, Repr

/-- What a pair holds outside every context: the last licence holder, and a pass that is two cycles away (R238). -/
structure Pair where
  last : Option Bool := none
  passing : Option Nat := none
  firstCyc : Nat := 0
  deriving DecidableEq, Repr

/-- A held error record and the counts of R363. -/
structure ErrBank where
  ce : Option (BitVec 128) := none
  ue : Option (BitVec 128) := none
  ceCnt : Nat := 0
  ueCnt : Nat := 0
  ceOvf : Bool := false
  ueOvf : Bool := false
  deriving DecidableEq, Repr

/-- An error that has reached its bank (R363): the bank, the source unit's code, whether it is uncorrectable, its kind, address and
owner, and whether a write to EBCNT has cleared it since. -/
structure ErrEvent where
  bank : Nat
  unit : Nat
  ue : Bool
  kind : Nat
  addr : Nat
  owner : Nat
  gone : Bool := false
  deriving DecidableEq, Repr

/-- The errors of one cycle in the order of their SEQ, with the banks and SEQ before them (R363). -/
structure ErrCycle where
  cycle : Nat
  banks : AMap ErrBank
  seq : BitVec 32
  evs : List ErrEvent := []
  deriving DecidableEq, Repr

/-- A cluster's sensor and grant (R392, R393): the events that the lifetime record has counted, the array slots of the
microsecond, the cells whose arrays have taken one, and the cycles that TEMP has stayed 5 °C below its threshold. -/
structure Cluster where
  temp : Nat := 0
  lvl : Nat := 0
  events : Nat := 0
  counted : Nat := 0
  grant : Nat := 0
  users : List Nat := []
  coolCyc : Nat := 0
  deriving DecidableEq, Repr

/-- The bring-up states of R394. -/
inductive BootSt | off | boot | verify | blob | ready | failed
  deriving DecidableEq, Repr

/-- A link port (R388, R389). -/
structure Port where
  st : Nat := 0
  lanes : Nat := 0
  fails : Nat := 0
  peer : Nat := 0
  deriving DecidableEq, Repr

/-- A packet of a flow (R386, R387), with how often and in which cycle it was last sent, and whether its link
was lost since. -/
structure Packet where
  seq : Nat
  body : Payload
  tries : Nat := 0
  sent : Nat := 0
  lost : Bool := false
  deriving DecidableEq, Repr

/-- One flow that this device sends: what is unacknowledged, and what waits until fewer packets are, or for a path (R387). -/
structure Flow where
  next : Nat := 0
  unacked : List Packet := []
  waiting : List Payload := []
  deriving DecidableEq, Repr

/-- One flow that this device receives: the next expected number, what is held, and the number and the cycle of the latest
acknowledgement (R387). -/
structure Inflow where
  expect : Nat := 0
  held : List Packet := []
  acked : Option (Nat × Nat) := none
  deriving DecidableEq, Repr

/-- The answer of a peer to a request (R270, R384, R390): the bytes, or that a write is accepted, each with the owner of a line that
was lost; that the line is lost, with its owner; that the request is refused; or that the peer is lost. -/
inductive Answer
  | data (bs : List Byte) (lost : Option Nat)
  | done (lost : Option Nat)
  | poisoned (owner : Nat)
  | refused
  | gone
  deriving DecidableEq, Repr

/-- Who asks a peer (R384): a word at its issue, or a refetch; a word of A, or a reduction, by its number; a publication, by the line
that it checks; a line that has been published; a capsule command; a router. -/
inductive Asker
  | issue
  | word (id : Nat)
  | red (id : Nat)
  | check (line : Nat)
  | line (line : Nat)
  | capsule
  | router
  deriving DecidableEq, Repr

/-- A request that has been made of a peer (R384): by whom, in which cell, its virtual and physical address, the bytes of its answer (0
for a write), whether it is a plain read, the instance of a published line, and the answer once it has come. Nothing waits for a
`dead` one. -/
structure Ask where
  ctx : Nat
  cell : Nat
  who : Asker
  va : Nat
  pa : Nat
  n : Nat
  read : Bool := false
  inst : Nat := 0
  ans : Option Answer := none
  dead : Bool := false
  deriving DecidableEq, Repr

/-- What a gang has contributed to a word of a reduction window, by the address that every device of the domain gives it, since
its last arrival went over its bridges (R386). -/
structure BridgeSum where
  gang : Nat
  pa : Nat
  op : AmoOp
  wide : Bool
  val : Word64
  deriving DecidableEq, Repr

/-- One replay-protected counter (R371). -/
structure Counter where
  val : Nat := 0
  owner : Nat := 0
  deriving DecidableEq, Repr

/-- A capsule command in progress (R368, R371, R378): whether it waits for the store, and a SEAL's counter value
and salt, the context that a RESTORE makes, what the command has read: a SEAL's page list or a RESTORE's header, and the nonce of
its request to the store (R397). -/
structure CapBusy where
  op : Nat
  fn : Nat
  part : Nat
  slot : Nat
  cidx : Nat
  addr : Nat
  aux : Nat
  store : Bool := false
  ctr : Nat := 0
  salt : Nat := 0
  target : Option Ctx := none
  text : List Byte := []
  nonce : Nat := 0
  deriving DecidableEq, Repr

/-- A seal key and the measurement that came with it (R370). -/
structure SealKey where
  key : Nat
  meas : Nat
  deriving DecidableEq, Repr

/-- The candidates that a router's filter keeps for a collective (R348): value and global index, best first. -/
structure Filter where
  ctx : Nat
  id : Nat
  cands : List (Word32 × Nat)
  deriving DecidableEq, Repr

/-- What a capsule holds of a context beside the fields that the host may write (R354), by cell and by id. -/
structure Snapshot where
  cells : AMap Cell := []
  windows : AMap TwReg := []
  insts : List Inst := []
  kernels : List Kernel := []
  carafe : List (Nat × Nat × Nat) := []
  groups : AMap Group := []
  tasks : AMap Task := []
  carries : List Carry := []
  episodes : List Episode := []
  heard : List Heard := []
  flows : AMap Flow := []
  inflows : AMap Inflow := []
  filters : List Filter := []
  sums : List BridgeSum := []
  recv : List Payload := []
  asks : List Ask := []
  deriving DecidableEq, Repr, Inhabited

/-- A LOAD whose image is being read (`kind` 1), or a LAUNCH that waits for its arguments (`kind` 2), with the ring and the
64 bytes of its entry (R89, R95). -/
structure Pending where
  kind : Nat
  part : Nat
  ctx : Nat
  fn : Nat
  ring : Nat
  entry : List Byte
  deriving DecidableEq, Repr

/-- What an invalidation in progress names (R254): the address, the contexts, and whether it is for all addresses. -/
structure InvBusy where
  va : Nat
  ctxs : List Nat
  all : Bool
  deriving DecidableEq, Repr

/-- The signed configuration blob as applied (R395). -/
structure Blob where
  bytes : List Byte := []
  device : Nat := 0
  domain : List Nat := []
  bindings : AMap Nat := []
  plim : Nat := 3600
  deriving DecidableEq, Repr

/-- The current engine: which context's cell it is. -/
structure Cur where
  ctx : Nat := 0
  cell : Nat := 0
  deriving DecidableEq, Repr

/-- What happens on one turn of the agenda: an engine of a cell issues its next word, an event of the opcode table
takes place, or time passes. -/
inductive Act
  | issue (ctx cell : Nat) (e : Engine)
  | event (i : Instr)
  | idle
  deriving DecidableEq, Repr

/-- A turn: the cycles of the arithmetic clock and the nanoseconds of the board's reference clock that pass before it, and
what happens. -/
structure Turn where
  cycles : Nat
  ns : Nat := 0
  act : Act
  deriving DecidableEq, Repr

/-- The barista's latest visit (R300): its partition and cycle, and whether it has read an entry. -/
structure Visit where
  part : Nat
  cycle : Nat
  read : Bool := false
  deriving DecidableEq, Repr

structure State where
  cur : Cur := {}
  agenda : List Turn := []
  free : Nat := 0
  nextId : Nat := 1
  cycle : Nat := 0
  tsnow : Nat := 0
  tsfrac : Nat := 0
  tsHold : Nat := 0
  synced : Bool := false
  timeRef : Option Nat := none
  timeFound : Option (Nat × Nat) := none
  slew : Int := 0
  wrefCur : Fin 16 := 0
  wrefLeft : Nat := 3600
  boot : BootSt := .off
  clusters : AMap Cluster := []
  firmware : List Byte := []
  lifetime : List Nat := []
  errKinds : AMap Nat := []
  lastLife : Nat := 0
  lifeFrac : Nat := 0
  lastGrant : Nat := 0
  lastSlot : Nat := 39
  mem : Memory := []
  poison : List Nat := []
  consumed : List Nat := []
  owners : AMap Nat := []
  wsBad : List Nat := []
  cells : AMap Cell := []
  phys : AMap Phys := []
  tlb : List TlbEntry := []
  pairs : AMap Pair := []
  windows : AMap TwReg := []
  parts : AMap Part := []
  visit : Option Visit := none
  ctxs : AMap Ctx := []
  kernels : List Kernel := []
  carafe : List (Nat × Nat × Nat) := []
  insts : List Inst := []
  groups : AMap Group := []
  tasks : AMap Task := []
  carries : List Carry := []
  reds : List Red := []
  episodes : List Episode := []
  heard : List Heard := []
  regs : AMap Word64 := []
  fnOn : List Nat := []
  pending : List Pending := []
  heldRecs : List (Nat × List Byte) := []
  heldFaults : List (Nat × List Byte) := []
  invBusy : AMap InvBusy := []
  dropped : List (Nat × Nat) := []
  repairBusy : Option (Nat × Nat) := none
  hbmGiB : Nat := 704
  errBanks : AMap ErrBank := []
  errSeq : BitVec 32 := 0
  errNow : Option ErrCycle := none
  brkPast : AMap (Nat × Bool) := []
  ports : AMap Port := []
  flows : AMap Flow := []
  inflows : AMap Inflow := []
  peerDown : List Nat := []
  asks : List Ask := []
  recv : List (Nat × Payload) := []
  bridgeSums : List BridgeSum := []
  romHash : BitVec 256 := Config.romHash
  blob : Blob := {}
  blobBad : Nat := 0
  counters : AMap Counter := []
  storeWrites : Nat := 0
  storeKey : BitVec 256 := Config.storeKey
  capBusy : List CapBusy := []
  capNonces : AMap Nat := []
  sealKeys : AMap SealKey := []
  filters : List Filter := []
  sealed : List (Nat × Snapshot) := []
  deriving DecidableEq, Repr

/-- The model's own stop.
`noTask`: raised by an instruction word asked to run in a cell that runs no task, which no engine of the part ever does
(an engine issues words of its task alone, R98, R332); safe, since the part has no such step. -/
inductive Fault
  | noTask
  deriving DecidableEq, Repr

/-- `notModelled`: an instruction without a meaning yet, by its mnemonic; safe, since the run stops there. -/
inductive Refusal
  | notModelled (mnemonic : String)
  deriving DecidableEq, Repr

/-- The machine right after reset: no power, nothing loaded (R394, and the reset columns of the register tables). -/
def State.reset : State := {}

end Sys2Proof.Machine
end

