-- ==== Sys2Proof/Machine/Ops.lean ====
section
/-! DEFINITION. The named operations over maps, memory, cells, tasks and tokens, and taking an exception: holding a
fault with its task, delivering it, and returning from it. -/

namespace Sys2Proof.Machine

open Sys2Proof

/-! ## Sparse maps -/

/-- The value at a key. -/
def mget {α : Type} : AMap α → Nat → Option α
  | [], _ => none
  | p :: ps, k => if p.1 = k then some p.2 else mget ps k

/-- Put a value at a key, in key order. -/
def mset {α : Type} : AMap α → Nat → α → AMap α
  | [], k, v => [(k, v)]
  | p :: ps, k, v => if k < p.1 then (k, v) :: p :: ps else if p.1 = k then (k, v) :: ps else p :: mset ps k v

/-- Remove a key. -/
def mdel {α : Type} : AMap α → Nat → AMap α
  | [], _ => []
  | p :: ps, k => if p.1 = k then ps else p :: mdel ps k

/-- Change the value at a key that is present. -/
def mupd {α : Type} (m : AMap α) (k : Nat) (f : α → α) : AMap α :=
  match mget m k with
  | some v => mset m k (f v)
  | none => m

/-- Insert before the first element that the new one stands before or beside. -/
def insertBy {α : Type} (le : α → α → Bool) (x : α) : List α → List α
  | [] => [x]
  | y :: ys => if le x y then x :: y :: ys else y :: insertBy le x ys

/-- A stable sort by insertion. -/
def sortBy {α : Type} (le : α → α → Bool) : List α → List α
  | [] => []
  | x :: xs => insertBy le x (sortBy le xs)

/-! ## Memory: bytes by address, little-endian (R4) -/

/-- One byte; an unlisted address reads as 0 (log entry 4). -/
def readByte (m : Memory) (a : Nat) : Byte := (mget m a).getD 0

/-- Write one byte, keeping the canonical form. -/
def writeByte (m : Memory) (a : Nat) (b : Byte) : Memory := if b = 0 then mdel m a else mset m a b

/-- `n` bytes from `a` up. -/
def readBytes (m : Memory) (a : Nat) : Nat → List Byte
  | 0 => []
  | n + 1 => readByte m a :: readBytes m (a + 1) n

/-- Write bytes from `a` up. -/
def writeBytes (m : Memory) (a : Nat) : List Byte → Memory
  | [] => m
  | b :: bs => writeBytes (writeByte m a b) (a + 1) bs

/-- The little-endian value of bytes (R4). -/
def leNat : List Byte → Nat
  | [] => 0
  | b :: bs => b.toNat + 256 * leNat bs

/-- `n` bytes of a value, little-endian (R4). -/
def leBytes (v : Nat) : Nat → List Byte
  | 0 => []
  | n + 1 => BitVec.ofNat 8 v :: leBytes (v / 256) n

/-- The little-endian value of `n` bytes of memory. -/
def readLe (m : Memory) (a n : Nat) : Nat := leNat (readBytes m a n)

/-- A byte of a wide value. -/
def byteOf {w : Nat} (x : BitVec w) (i : Nat) : Byte := x.extractLsb' (8 * i) 8

/-- Put a byte into a 64-byte line or another wide value. -/
def putByte {w : Nat} (x : BitVec w) (i : Nat) (b : Byte) : BitVec w :=
  (x &&& ~~~ (BitVec.ofNat w 255 <<< (8 * i))) ||| (b.setWidth w <<< (8 * i))

/-- The bytes of a wide value from `i` up. -/
def bytesFrom {w : Nat} (x : BitVec w) (i : Nat) : Nat → List Byte
  | 0 => []
  | n + 1 => byteOf x i :: bytesFrom x (i + 1) n

/-- The next `n` bytes that the spec leaves open (log entry 2). -/
def State.freeBytes (s : State) (n : Nat) : State × List Byte :=
  let m := (n + 31) / 32
  ({ s with free := s.free + m },
    ((List.range m).flatMap fun i => bytesFrom (Config.freeValue (s.free + i)) 0 32).take n)

/-! ## Places (R6, R14, R15) -/

def xOf (cell : Nat) : Nat := cell % 20
def yOf (cell : Nat) : Nat := cell / 20 % 16
def zOf (cell : Nat) : Nat := cell / 320
def cellAt (x y z : Nat) : Nat := x + 20 * y + 320 * z
/-- The twin of a cell (R14). -/
def twinOf (cell : Nat) : Nat := if cell < 320 then cell + 320 else cell - 320
/-- The pair of a cell. -/
def pairOf (cell : Nat) : Nat := cell % 320
/-- The column of a cell (R15). -/
def columnOf (cell : Nat) : Nat := 5 * (yOf cell / 4) + xOf cell / 4
/-- The cluster of a cell, numbered as the weight stores and error banks number them (R363). -/
def clusterOf (cell : Nat) : Nat := 20 * zOf cell + columnOf cell

/-! ## Cells, tasks and the rest by key -/

def cellKey (ctx cell : Nat) : Nat := ctx * 1024 + cell

def State.getCell (s : State) (ctx cell : Nat) : Option Cell := mget s.cells (cellKey ctx cell)

def State.putCell (s : State) (ctx cell : Nat) (c : Cell) : State :=
  { s with cells := mset s.cells (cellKey ctx cell) c }

def State.updCell (s : State) (ctx cell : Nat) (f : Cell → Cell) : State :=
  { s with cells := mupd s.cells (cellKey ctx cell) f }

/-- Put the issuing engine's cell. -/
def State.putHere (s : State) (c : Cell) : State := s.putCell s.cur.ctx s.cur.cell c

/-- Change the issuing engine's cell. -/
def State.updHere (s : State) (f : Cell → Cell) : State := s.updCell s.cur.ctx s.cur.cell f

def State.getTask (s : State) (id : Nat) : Option Task := mget s.tasks id

def State.putTask (s : State) (t : Task) : State := { s with tasks := mset s.tasks t.id t }

def State.updTask (s : State) (id : Nat) (f : Task → Task) : State := { s with tasks := mupd s.tasks id f }

/-- The issuing engine's cell and its task. -/
def State.here (s : State) : Option (Cell × Task) :=
  (s.getCell s.cur.ctx s.cur.cell).bind fun c => c.task.bind fun id => (s.getTask id).map fun t => (c, t)

def State.getInst (s : State) (ctx id : Nat) : Option Inst := s.insts.find? fun i => i.ctx = ctx && i.id = id

def State.putInst (s : State) (i : Inst) : State :=
  { s with insts := s.insts.map fun j => if j.ctx = i.ctx && j.id = i.id then i else j }

def State.getKernel (s : State) (ctx handle : Nat) : Option Kernel :=
  s.kernels.find? fun k => k.ctx = ctx && k.handle = handle

/-- The kernel that a task runs. -/
def State.kernelOf (s : State) (t : Task) : Option Kernel :=
  (s.getInst t.ctx t.inst).bind fun i => s.getKernel t.ctx i.handle

/-- The stage whose text a task runs (R298). -/
def State.stageOf (s : State) (t : Task) : Option Stage :=
  (s.kernelOf t).bind fun k => k.stages.find? fun g => g.num = t.stage

/-- The text that a task runs; nothing when it has none. -/
def State.textOf (s : State) (t : Task) : List Word32 := ((s.stageOf t).map Stage.text).getD []

/-- The partition whose slots hold a context. -/
def State.partOfCtx (s : State) (ctx : Nat) : Option (Nat × Part) :=
  s.parts.find? fun p => p.2.slots.toList.any fun q => q.st != .empty && q.ctx = ctx

/-- The partition that a column belongs to (R16). -/
def State.partOfColumn (s : State) (col : Nat) : Option (Nat × Part) := s.parts.find? fun p => col ∈ p.2.cols

/-- The slot that a context occupies. -/
def Part.slotOf (p : Part) (ctx : Nat) : Nat :=
  (p.slots.toList.findIdx? fun q => q.st != .empty && q.ctx = ctx).getD 0

/-- The instant of a task: bits [63:16] of its timestamp (R114, R277). -/
def Task.instant (t : Task) : Nat := t.ts / 65536

/-! ## The order of commit (R278, R280) -/

/-- Whether one commit key stands before another. -/
def keyLt : List Nat → List Nat → Bool
  | [], [] => false
  | [], _ :: _ => true
  | _ :: _, [] => false
  | a :: as, b :: bs => if a < b then true else if b < a then false else keyLt as bs

/-- The uncommitted tasks of an instance. -/
def State.tasksOf (s : State) (ctx inst : Nat) : List Task :=
  (s.tasks.map Prod.snd).filter fun t => t.ctx = ctx && t.inst = inst

/-- A task is at the pour line when every earlier task of its instance has committed (R280). -/
def State.atPour (s : State) (t : Task) : Bool :=
  (s.tasksOf t.ctx t.inst).all fun u => !keyLt u.key t.key

/-- CFRONT (R280). -/
def State.cfront (s : State) (ctx inst : Nat) : Nat :=
  (s.tasksOf ctx inst).foldl (fun m t => Nat.min m t.ts) (2 ^ 64 - 1)

/-- The write-buffer records of a task in a cell. -/
def Cell.bufOf (c : Cell) (task : Nat) : TaskBuf := (c.bufs.find? fun b => b.task = task).getD { task := task }

def Cell.putBuf (c : Cell) (b : TaskBuf) : Cell :=
  { c with bufs := b :: c.bufs.filter fun a => a.task != b.task }

/-- The bytes of one entry's record (R281). -/
def entryBytes (e : QEntry) : Nat := if e.vec then 272 else 16

/-- The bytes of a task's records (R281). -/
def TaskBuf.size (b : TaskBuf) : Nat :=
  80 * b.lines.length + 72 * b.undo.length + ((b.pops ++ b.pushes ++ b.carryPops).map fun p => entryBytes p.2).sum

/-- Whether the 32 KiB write buffer has room for `n` more bytes (R281), beside the carry entries that A words still hold. -/
def Cell.bufRoom (c : Cell) (n : Nat) : Bool :=
  decide ((c.bufs.map TaskBuf.size).sum + 16 * ((c.fly.flatMap Fly.push).countP fun p => 16 ≤ p.1) + n ≤ 32768)

/-! ## Engines and tokens (R34, R98, R102, R103) -/

def PCs.get (p : PCs) : Engine → Nat
  | .c => p.c | .a => p.a | .v => p.v | .m => p.m

def PCs.set (p : PCs) (e : Engine) (v : Nat) : PCs :=
  match e with
  | .c => { p with c := v } | .a => { p with a := v } | .v => { p with v := v } | .m => { p with m := v }

def Waits.get (w : Waits) : Engine → WaitKind
  | .c => w.c | .a => w.a | .v => w.v | .m => w.m

def Waits.set (w : Waits) (e : Engine) (k : WaitKind) : Waits :=
  match e with
  | .c => { w with c := k } | .a => { w with a := k } | .v => { w with v := k } | .m => { w with m := k }

/-- An engine has issued a word (R150). -/
def Waits.issue (w : Waits) (e : Engine) : Waits := { w.set e .none with went := true, begun := true }

/-- No engine waits; the group has issued before or not as it had. -/
def Waits.clear (w : Waits) : Waits := { begun := w.begun }

/-- The place of an engine in the ring A, C, V, M of R34. -/
def ringPos : Engine → Nat
  | .a => 0 | .c => 1 | .v => 2 | .m => 3

/-- The engine's code in a fault record (R360). -/
def engineCode : Engine → Nat
  | .c => 0 | .a => 1 | .v => 2 | .m => 3

/-- The token queue an engine pushes towards its previous neighbour. -/
def tokHp (e : Engine) : Fin 8 := Fin.ofNat 8 (2 * ringPos e)
/-- The token queue an engine pushes towards its next neighbour. -/
def tokHn (e : Engine) : Fin 8 := Fin.ofNat 8 (2 * ringPos e + 1)
/-- The token queue an engine pops from its previous neighbour. -/
def tokPp (e : Engine) : Fin 8 := Fin.ofNat 8 (2 * ((ringPos e + 3) % 4) + 1)
/-- The token queue an engine pops from its next neighbour. -/
def tokPn (e : Engine) : Fin 8 := Fin.ofNat 8 (2 * ((ringPos e + 1) % 4))

/-- Every token that the word pops is present (R35). -/
def tokReady (q : Vector Nat 8) (e : Engine) (t : Tok) : Bool :=
  (!t.pp || decide (0 < q[tokPp e])) && (!t.pn || decide (0 < q[tokPn e]))

/-- Every queue that the word pushes into has room (R103). -/
def tokRoom (q r : Vector Nat 8) (e : Engine) (t : Tok) : Bool :=
  (!t.hp || decide (q[tokHp e] + r[tokHp e] < 8)) && (!t.hn || decide (q[tokHn e] + r[tokHn e] < 8))

/-- Add to a token count where a token bit is set. -/
def tokBump (q : Vector Nat 8) (on : Bool) (i : Fin 8) : Vector Nat 8 := if on then q.set i (q[i] + 1) else q

def tokDrop (q : Vector Nat 8) (on : Bool) (i : Fin 8) : Vector Nat 8 := if on then q.set i (q[i] - 1) else q

/-- Consume the popped tokens. -/
def tokTake (q : Vector Nat 8) (e : Engine) (t : Tok) : Vector Nat 8 := tokDrop (tokDrop q t.pp (tokPp e)) t.pn (tokPn e)

/-- Deposit the pushed tokens. -/
def tokGive (q : Vector Nat 8) (e : Engine) (t : Tok) : Vector Nat 8 := tokBump (tokBump q t.hp (tokHp e)) t.hn (tokHn e)

/-- Take the slots of the pushed tokens. -/
def tokReserve (r : Vector Nat 8) (e : Engine) (t : Tok) : Vector Nat 8 := tokGive r e t

/-- Give the slots of the pushed tokens back. -/
def tokRelease (r : Vector Nat 8) (e : Engine) (t : Tok) : Vector Nat 8 :=
  tokDrop (tokDrop r t.hp (tokHp e)) t.hn (tokHn e)

/-! ## Host registers by BAR0 offset

`regs` holds every register of a function that is plain storage, by function number and offset; a register that is not
listed holds its reset value. -/

def regKey (fn off : Nat) : Nat := fn * 65536 + off

/-- The reset values that are not 0: the LOG2DEPTH fields (R175, R360). -/
def regReset (off : Nat) : Word64 :=
  if off = 0x508 || off = 0x1408 || (0x1000 ≤ off && off < 0x1200 && off % 64 = 8) then 4 else 0

def State.reg (s : State) (fn off : Nat) : Word64 := (mget s.regs (regKey fn off)).getD (regReset off)

def State.setReg (s : State) (fn off : Nat) (v : Word64) : State :=
  { s with regs := if v = regReset off then mdel s.regs (regKey fn off) else mset s.regs (regKey fn off) v }

/-! ## Host memory, the fault queue and the error banks -/

/-- Where host address 0 lies in the physical space (R249). -/
def hostBase : Nat := 0x8000000000000

/-- The device writes bytes to host memory. -/
def State.hostWrite (s : State) (a : Nat) (bs : List Byte) : State := { s with mem := writeBytes s.mem (hostBase + a) bs }

/-- The enabled functions bound to a partition (R24, R395). -/
def State.boundFns (s : State) (part : Nat) : List Nat := s.fnOn.filter fun f => mget s.blob.bindings f = some part

/-- The code of a fault in its record (R360). -/
def faultNat : FaultCode → Nat
  | .illegalWord => 0x01 | .clockMismatch => 0x02 | .clockRedef => 0x03 | .formatMismatch => 0x04
  | .operandBusy => 0x05 | .licenceAbsent => 0x06 | .accHeldAtExit => 0x07 | .accExhausted => 0x08
  | .bucketRange => 0x09 | .translation => 0x0A | .protection => 0x0B | .align => 0x0C | .instantOverrun => 0x0D
  | .tsOrder => 0x0E | .nestLimit => 0x0F | .twinAbandon => 0x10 | .uncorrectable => 0x11
  | .weightStoreWrite => 0x12 | .trap => 0x13 | .brk => 0x14 | .checkerMismatch => 0x20 | .ringOverrun => 0x21
  | .placementStall => 0x22 | .digestMismatch => 0x23 | .contextEnded => 0x24

/-- The faults after which a RESUME may continue (R360). -/
def restartable : FaultCode → Bool
  | .translation | .twinAbandon | .trap | .brk | .digestMismatch => true
  | _ => false

/-- The 32 bytes of a fault record (R360). -/
def faultRecord (f : HeldFault) (slot inst ts : Nat) (place : Bool) : List Byte :=
  leBytes (faultNat f.code) 1 ++ leBytes f.cause 1 ++ leBytes f.engine 1 ++ leBytes slot 1 ++ leBytes inst 4 ++
    leBytes ts 8 ++ leBytes f.va.toNat 8 ++ leBytes f.pc 4 ++
    (if place then leBytes (xOf f.cell) 1 ++ leBytes (yOf f.cell) 1 ++ leBytes (zOf f.cell) 1 else leBytes 0 3) ++ leBytes 0 1

/-- Write one record into the fault queue of one function, or count it as lost (R360). -/
def State.queueRecord (s : State) (rcd : List Byte) (fn : Nat) : State :=
  let wp := (s.reg fn 0x510).toNat
  let rp := (s.reg fn 0x514).toNat
  let depth := 2 ^ ((s.reg fn 0x508).toNat % 32)
  if (wp + 2 ^ 32 - rp) % 2 ^ 32 = depth then
    let lost := (s.reg fn 0x518).toNat % 65536
    s.setReg fn 0x518 (BitVec.ofNat 64 (65536 + Nat.min 65535 (lost + 1)))
  else
    (s.hostWrite ((s.reg fn 0x500).toNat / 4096 * 4096 + 32 * (wp % depth)) rcd).setReg fn 0x510
      (BitVec.ofNat 64 ((wp + 1) % 2 ^ 32))

def State.port (s : State) (n : Nat) : Port := (mget s.ports n).getD {}

def State.putPort (s : State) (n : Nat) (p : Port) : State := { s with ports := mset s.ports n p }

/-- A port carries packets (R388). -/
def Port.carries (p : Port) : Bool := p.st = 2 || p.st = 3

/-- The host link carries packets (R380, R388). -/
def State.hostUp (s : State) : Bool := (s.port 26).carries

/-- A record goes out to the fault queue of a function, or is held back until the host link carries it (R360, R388, log entry
107). -/
def State.sendRecord (s : State) (rcd : List Byte) (fn : Nat) : State :=
  if s.hostUp then s.queueRecord rcd fn else { s with heldFaults := s.heldFaults ++ [(fn, rcd)] }

/-- A report of a context goes to every enabled function bound to its partition (R360). -/
def State.report (s : State) (part : Nat) (rcd : List Byte) : State :=
  (s.boundFns part).foldl (fun s f => s.sendRecord rcd f) s

/-- The records that were held back go out, in their order. -/
def State.flushFaults (s : State) : State :=
  s.heldFaults.foldl (fun s r => s.queueRecord r.2 r.1) { s with heldFaults := [] }

/-- The 128 bits of an error record (R363). -/
def errRecord (seq : BitVec 32) (e : ErrEvent) : BitVec 128 :=
  BitVec.ofNat 128 (seq.toNat + e.unit * 2 ^ 32 + e.kind * 2 ^ 48 + e.addr * 2 ^ 56 + e.owner * 2 ^ 102)

/-- An error enters a bank (R363). -/
def ErrBank.enter (b : ErrBank) (rcd : BitVec 128) (ue : Bool) : ErrBank :=
  if ue then { b with ue := some (b.ue.getD rcd), ueCnt := Nat.min 65535 (b.ueCnt + 1), ueOvf := b.ueOvf || b.ue.isSome }
  else { b with ce := some (b.ce.getD rcd), ceCnt := Nat.min 65535 (b.ceCnt + 1), ceOvf := b.ceOvf || b.ce.isSome }

/-- A write to EBCNT frees a bank's slots: CEV, UEV, or both (R363). -/
def ErrBank.clear (e : ErrBank) (cev uev : Bool) : ErrBank :=
  let e : ErrBank := if cev then { e with ce := none, ceCnt := 0, ceOvf := false } else e
  if uev then { e with ue := none, ueCnt := 0, ueOvf := false } else e

/-- Errors enter their banks in the order of a list, with consecutive SEQ. -/
def enterErrors (banks : AMap ErrBank) (seq : BitVec 32) : List ErrEvent → AMap ErrBank
  | [] => banks
  | e :: es =>
    enterErrors (if e.gone then banks else mset banks e.bank (((mget banks e.bank).getD {}).enter (errRecord seq e) e.ue)) (seq + 1) es

/-- What orders the errors of one cycle: bank, source unit, corrected before uncorrectable, address (R363). -/
def ErrEvent.order (e : ErrEvent) : List Nat := [e.bank, e.unit, e.ue.toNat, e.addr]

/-- The first difference of two lists of one length decides. -/
def listLt : List Nat → List Nat → Bool
  | a :: as, b :: bs => a < b || (a = b && listLt as bs)
  | _, _ => false

/-- An error arrives at a bank. The errors of one cycle take their SEQ in the order of R363, whenever they arrive in it. -/
def State.errorAt (s : State) (bank : Nat) (ue : Bool) (cls index kind addr owner : Nat) : State :=
  let e : ErrEvent := { bank := bank, unit := cls * 4096 + index, ue := ue, kind := kind, addr := addr, owner := owner }
  let fresh : ErrCycle := { cycle := s.cycle, banks := s.errBanks, seq := s.errSeq }
  let base := match s.errNow with
    | some n => if n.cycle = s.cycle then n else fresh
    | none => fresh
  let evs := insertBy (fun x y => listLt x.order y.order) e base.evs
  let k := 2 * kind + ue.toNat
  { s with
    errBanks := enterErrors base.banks base.seq evs
    errSeq := base.seq + BitVec.ofNat 32 evs.length
    errNow := some { base with evs := evs }
    errKinds := mset s.errKinds k ((mget s.errKinds k).getD 0 + 1) }

/-- The temperature up to which a level cools: 5 °C below its threshold (R393). -/
def coolBelow (lvl : Nat) : Nat := if lvl = 2 then 100 else 90

/-- A cell's place, as CELLXYZ reads it (R114). -/
def placeOf (cell : Nat) : Nat := xOf cell + 256 * yOf cell + 65536 * zOf cell

/-- Set bits of a cell's ERRST, counting a corrected error when one is found (R114). -/
def State.markErrst (s : State) (cell bits : Nat) (ce : Bool) : State :=
  let p := (mget s.phys cell).getD {}
  let n := p.errst.toNat
  let cnt := if ce then Nat.min 65535 (n / 65536 + 1) else n / 65536
  { s with phys := mset s.phys cell { p with errst := (BitVec.ofNat 64 (65536 * cnt + n % 65536)) ||| BitVec.ofNat 64 bits } }

/-- An uncorrectable error of a cell's scratchpad goes to ERRST and to its cluster's bank (R258). -/
def State.spadError (s : State) (ctx cell : Nat) : State :=
  (s.markErrst cell 8 false).errorAt (clusterOf cell) true 0 cell 1 (placeOf cell) ctx

/-! ## Taking an exception (R36, R290, R360) and returning from it (R95, R97) -/

/-- Take the exception of a task at the pour line: the fault it holds is delivered. The instance is Faulted, the group
stops, and the report with the faulting place goes to the fault queues. What ends a context (R361) follows in `settle`. -/
def State.deliver (s : State) (t : Task) : State :=
  match t.fault with
  | none => s
  | some f =>
    if f.delivered then s
    else
      let s := s.putTask { t with fault := some { f with delivered := true } }
      let s := match s.getInst t.ctx t.inst with
        | some i => s.putInst { i with st := .faulted, faultGroup := t.group }
        | none => s
      let s := match t.group with
        | some g => { s with groups := mupd s.groups g fun r => { r with st := .halted } }
        | none => s
      match s.partOfCtx t.ctx with
      | some (p, r) => s.report p (faultRecord f (r.slotOf t.ctx) t.inst t.ts (f.engine != 0xFF))
      | none => s

/-- Return from a delivered fault (R95, R97): the instance runs again, its groups leave Halted, the task holds no fault.
After TRAP and BREAK, C continues at its next word (R364). -/
def State.returnFrom (s : State) (i : Inst) (t : Task) (f : HeldFault) : State :=
  let s := s.putTask { t with fault := none }
  let s := s.putInst { i with st := .running, faultGroup := none }
  let s := { s with groups := s.groups.map fun g =>
    if g.2.ctx = i.ctx && g.2.inst = i.id && g.2.st = .halted then (g.1, { g.2 with st := .running }) else g }
  if f.code = .trap || f.code = .brk then
    s.updCell t.ctx f.cell fun c => { c with core := { c.core with pc := { c.core.pc with c := f.pc + 1 } } }
  else s

/-! ## Why a word does not complete -/

/-- What keeps a word from completing: a wait of step 1, a fault of its task, a poisoned word of the scratchpad's input
half (R258), which undoes the instant for a refetch or raises UNCORRECTABLE, a poisoned line that stops the task's
publication (R270), with the cell that stored it, a translation walk that failed, with the kind of its access (R252), an access that
a peer has to answer (R384): for whom, the addresses, the bytes of the answer, the leaf's policy and the request; a publication
whose lines at peers have not been checked (R270); or any of them after reads that are in the task's read set (R285). -/
inductive Stop
  | wait (k : WaitKind)
  | spad (refetch : Bool)
  | lines (cell cause : Nat) (va : Word64) (owner : Nat)
  | raise (f : FaultCode) (cause : Nat) (va : Word64) (owner : Nat)
  | walk (f : FaultCode) (cause : Nat) (va : Word64) (k : Access)
  | ask (who : Asker) (va pa n : Nat) (zero : Bool) (op : PeerOp)
  | checks
  | read (lines regions : List Nat) (e : Stop)
  deriving DecidableEq, Repr

/-- A plain fault: no cause, no address. -/
def Stop.of (f : FaultCode) : Stop := .raise f 0 0 0

/-- Note why an engine waits. One that waits at a held injection goes on doing so (R359). -/
def State.noteWait (s : State) (e : Engine) (k : WaitKind) : State :=
  s.updCell s.cur.ctx s.cur.cell fun c =>
    { c with waits := if c.waits.get e == .injection && k == .plain then c.waits else c.waits.set e k }

/-- The end of a word that has finished: tokens consumed and deposited, the program counter past the word (R32, R35). -/
def Cell.retire (c : Cell) (e : Engine) (t : Tok) (pc : Nat) : Cell :=
  { c with
    core := { c.core with toks := tokGive (tokTake c.core.toks e t) e t, pc := c.core.pc.set e pc }
    waits := c.waits.issue e, safe := false }

end Sys2Proof.Machine
end

