-- ==== Sys2Proof/Machine/Mem.lean ====
section
/-! DEFINITION. Physical memory, translation and permissions (R248 to R255), poison (R268 to R271), store lines and read
sets (R281 to R285). -/

namespace Sys2Proof.Machine

open Sys2Proof

/-! ## The physical map (R249) -/

/-- What a physical address reaches. -/
inductive Backing | hbm | weight (cluster : Nat) | peer (dev : Nat) | host | absent
  deriving DecidableEq, Repr

def wsBase : Nat := 0x1000000000000
def peerBase : Nat := 0x4000000000000

/-- HBMCAP in bytes (R267). -/
def State.hbmCap (s : State) : Nat := s.hbmGiB * 2 ^ 30

/-- The device's own number names local HBM4 (R249). -/
def State.localPa (s : State) (pa : Nat) : Nat :=
  if peerBase + s.blob.device * 2 ^ 40 ≤ pa && pa < peerBase + (s.blob.device + 1) * 2 ^ 40 then
    pa - (peerBase + s.blob.device * 2 ^ 40)
  else pa

/-- What an address reaches for a context: a weight store outside its partition and a peer outside the domain or without a
path are absent, but for what was outstanding when the path was lost (R390). -/
def State.backing (s : State) (ctx pa : Nat) : Backing :=
  if pa < s.hbmCap then .hbm
  else if wsBase ≤ pa && pa < wsBase + 40 * 0x4000000 then
    let n := (pa - wsBase) / 0x4000000
    match s.partOfCtx ctx with
    | some (_, p) => if n % 20 ∈ p.cols then .weight n else .absent
    | none => .absent
  else if peerBase ≤ pa && pa < peerBase + 1024 * 2 ^ 40 then
    let d := (pa - peerBase) / 2 ^ 40
    if d ∈ s.blob.domain && d != s.blob.device &&
        (!(d ∈ s.peerDown) || s.asks.any fun a => a.ctx = ctx && a.ans.isSome && a.pa / 64 = pa / 64) then .peer d else .absent
  else if hostBase ≤ pa && pa < 2 * hostBase then .host
  else .absent

/-! ## Links and flows (R383, R384, R387, R388)

A flow's number is made of the context, the class (0 REQ, 1 RSP, 2 COL) and the other end: a device, or 1,024 + 16·fn + n
for a bridge entry. A flow of class 1 belongs to the context of the requester, on this device or on the other. -/

/-- A port leads to a device: the device, or a switch, is at its far end (R383, log entry 98). -/
def Port.leads (p : Port) (d : Nat) : Bool := p.carries && (p.peer = d || 1024 ≤ p.peer)

/-- A port that carries packets leads to the other end of a flow: a UALink port to a device, a scale-out port to a bridge. -/
def State.path (s : State) (d : Nat) : Bool :=
  if d < 1024 then (List.range 24).any fun n => (s.port n).leads d
  else (s.port 24).carries || (s.port 25).carries

def flowKey (ctx cls d : Nat) : Nat := (ctx * 4 + cls) * 8192 + d

/-- The context, the class and the other end of a flow. -/
def flowCtx (k : Nat) : Nat := k / 32768
def flowClass (k : Nat) : Nat := k / 8192 % 4
def flowEnd (k : Nat) : Nat := k % 8192

def State.flow (s : State) (k : Nat) : Flow := (mget s.flows k).getD {}

def State.inflow (s : State) (k : Nat) : Inflow := (mget s.inflows k).getD {}

/-- The packets of a flow that wait go out while fewer than 4,096 are unacknowledged, numbered consecutively (R387). -/
def Flow.fill (f : Flow) (now : Nat) : Flow :=
  let l := f.waiting.take (4096 - f.unacked.length)
  { f with
    next := (f.next + l.length) % 2 ^ 32
    unacked := f.unacked ++ l.zipIdx.map fun p => { seq := (f.next + p.2) % 2 ^ 32, body := p.1, sent := now }
    waiting := f.waiting.drop l.length }

/-- What a flow can send now goes out: a port carries packets to its end (R388). -/
def State.fillFlow (s : State) (k : Nat) (f : Flow) : Flow := if s.path (flowEnd k) then f.fill s.cycle else f

/-- Send a packet, behind those of its flow that wait. -/
def State.send (s : State) (k : Nat) (body : Payload) : State :=
  let f := s.flow k
  { s with flows := mset s.flows k (s.fillFlow k { f with waiting := f.waiting ++ [body] }) }

/-- The other device that an address names (R249). -/
def State.peerOf (s : State) (pa : Nat) : Option Nat :=
  if peerBase ≤ pa && pa < peerBase + 1024 * 2 ^ 40 then
    let d := (pa - peerBase) / 2 ^ 40
    if d = s.blob.device then none else some d
  else none

/-- An access finds its link (R380, R388): the host's carries it; what a peer is asked waits in its flow for a path. -/
def State.linked (s : State) (pa : Nat) : Bool := (s.peerOf pa).isSome || !(hostBase ≤ pa) || s.hostUp

/-- The request of an access to a peer (R384): in transit to a window it goes as an update (R324), and everything else as a request. -/
def State.request (s : State) (ctx pa : Nat) (zero : Bool) (op : PeerOp) (win : Option Nat := none) : State :=
  match s.peerOf pa with
  | some d =>
    let a := pa - (peerBase + d * 2 ^ 40)
    match win, op with
    | some gang, .atomic (some o) wide b _ => s.send (flowKey ctx 2 d) (.update s.blob.device ctx gang a zero o wide b)
    | _, _ => s.send (flowKey ctx 0 d) (.request s.blob.device ctx a zero op)
  | none => s

/-- The gang that an access to a page of a reduction window is of (R386): 0 on another page. -/
def State.winGang (s : State) (ctx : Nat) (rwin : Bool) : Nat := if rwin then ((mget s.ctxs ctx).map Ctx.gang).getD 0 else 0

/-- The address by which every device of the domain names a place (R249). -/
def State.globalPa (s : State) (pa : Nat) : Nat := if pa < s.hbmCap then peerBase + s.blob.device * 2 ^ 40 + pa else pa

/-! ### Accesses to peers (R384, R385, R390)

Each is a request and its answer (log entry 122). What stands at a peer's addresses in `mem` and `poison` is what this device last
heard of it: nothing reads it but what the answer to its own request has just put there. -/

/-- A line of a peer is lost, or sound, as this device has heard. -/
def State.hearLost (s : State) (line : Nat) : Option Nat → State
  | none => { s with poison := s.poison.filter (· != line), consumed := s.consumed.filter (· != line) }
  | some owner =>
    if 64 * line < s.hbmCap || line ∈ s.poison then s
    else { s with poison := line :: s.poison
                  owners := if owner = 0 then mdel s.owners line else mset s.owners line owner }

/-- The answer to a request, as this device's view of the peer's line. -/
def State.hear (s : State) (pa : Nat) : Answer → State
  | .data bs lost => ({ s with mem := writeBytes s.mem pa bs } : State).hearLost (pa / 64) lost
  | .done lost => s.hearLost (pa / 64) lost
  | .poisoned owner => s.hearLost (pa / 64) (some owner)
  | .refused | .gone => s

/-- The bytes of an answer to a request; a write has none. -/
def answerSize : PeerOp → Nat
  | .read n => n
  | .atomic _ wide _ _ => if wide then 8 else 4
  | .write _ | .line _ _ | .check => 0

/-- A plain read. -/
def opReads : PeerOp → Bool
  | .read _ => true
  | _ => false

/-- A request that has no answer. -/
def Ask.isOpen (a : Ask) : Bool := a.ans.isNone

/-- The request that has been made for an access and not ended. -/
def State.askOf (s : State) (ctx cell : Nat) (who : Asker) (pa n : Nat) : Option Ask :=
  s.asks.find? fun a => a.ctx = ctx && a.cell = cell && a.who == who && a.pa = pa && a.n = n && !a.dead

/-- Whether an access may go on: it reaches no peer, or the peer has answered. -/
def State.asked (s : State) (ctx cell : Nat) (who : Asker) (pa n : Nat) : Bool :=
  (s.peerOf pa).isNone || (s.askOf ctx cell who pa n).any fun a => a.ans.isSome

/-- The peer of an access has been lost (R390). -/
def State.gone (s : State) (ctx cell : Nat) (who : Asker) (pa n : Nat) : Bool :=
  (s.peerOf pa).isSome && (s.askOf ctx cell who pa n).any fun a => a.ans == some .gone

/-- The state with the answer taken. -/
def State.taken (s : State) (ctx cell : Nat) (who : Asker) (pa n : Nat) : State :=
  match if (s.peerOf pa).isSome then s.askOf ctx cell who pa n else none with
  | some a => match a.ans with
    | some x => ({ s with asks := s.asks.erase a } : State).hear pa x
    | none => s
  | none => s

/-- A record of kind 5 in bank 52 (R390). -/
def State.linkError (s : State) (ctx pa : Nat) : State := s.errorAt 52 true 4 0 5 (pa / 64) ctx

/-- A request to a lost peer ends: a read as one of a poisoned line, anything else without effect (R390). -/
def Ask.lose (a : Ask) : Ask := { a with ans := some (if a.read then .poisoned 0 else .gone) }

/-- Make a request. One to a peer that is lost ends at once. -/
def State.askNew (s : State) (a : Ask) (zero : Bool) (op : PeerOp) (win : Option Nat := none) : State :=
  let a : Ask := { a with n := answerSize op, read := opReads op }
  if (s.peerOf a.pa).any (· ∈ s.peerDown) then ({ s with asks := s.asks ++ [a.lose] } : State).linkError a.ctx a.pa
  else ({ s with asks := s.asks ++ [a] } : State).request a.ctx a.pa zero op win

/-- Make the request of an access once. -/
def State.askPeer (s : State) (ctx cell : Nat) (who : Asker) (va pa : Nat) (zero : Bool) (op : PeerOp) (win : Option Nat := none) : State :=
  if (s.peerOf pa).isNone || (s.askOf ctx cell who pa (answerSize op)).isSome then s
  else s.askNew { ctx := ctx, cell := cell, who := who, va := va, pa := pa, n := 0 } zero op win

/-- An answer comes in: it is for the oldest open request of a context that it fits. A line that has been published needs no more, and
neither does a router. -/
def State.answerAsk (s : State) (ctx : Nat) (fits : Ask → Bool) (x : Answer) : State :=
  match s.asks.find? fun a => a.ctx = ctx && a.isOpen && fits a with
  | some a =>
    if a.dead || (match a.who with | .line _ | .router => true | _ => false) then { s with asks := s.asks.erase a }
    else { s with asks := s.asks.map fun b => if b == a then { b with ans := some x } else b }
  | none => s

/-- What a word of A asks, or a word at its issue. -/
def Asker.ofWord : Asker → Bool
  | .issue | .word _ | .check _ => true
  | .red _ | .line _ | .capsule | .router => false

/-- A word of number `id` or a later one. -/
def Asker.since (id : Nat) : Asker → Bool
  | .word n => id ≤ n
  | _ => false

/-- Words of a cell have been undone or have faulted: what they asked for is no more waited for. What has been published, and a
reduction that has been injected, go on. -/
def State.dropAsks (s : State) (ctx cell : Nat) (whose : Asker → Bool) : State :=
  let mine (a : Ask) : Bool := a.ctx = ctx && a.cell = cell && a.who.ofWord && whose a.who
  { s with asks := (s.asks.filter fun a => !(mine a && a.ans.isSome)).map fun a => if mine a then { a with dead := true } else a }

/-- Some line that a context has published to a peer has not been accepted (R309, R317). -/
def State.putsOpen (s : State) (ctx : Nat) : Bool :=
  s.asks.any fun a => a.ctx = ctx && a.isOpen && match a.who with | .line _ => true | _ => false

/-- WREFWIN's CUR and LEFT (R265): a window that has run out has given way to the next. -/
def State.wref (s : State) : Fin 16 × Nat := if s.wrefLeft = 0 then (s.wrefCur + 1, 3600) else (s.wrefCur, s.wrefLeft)

/-- The macro of a weight-store address that a steep window closes (R264, R265). -/
def State.steep (s : State) (pa : Nat) : Bool :=
  wsBase ≤ pa && pa < wsBase + 40 * 0x4000000 && (pa - wsBase) % 0x4000000 / 0x400000 == s.wref.1.val

/-! ## Translation (R248, R250 to R253) -/

/-- Bits [63:55] are all equal (R248). -/
def canonical (va : Word64) : Bool := va.toNat / 2 ^ 55 = 0 || va.toNat / 2 ^ 55 = 511

/-- A level of the walk (R250): the lowest virtual bit it indexes, how many bits, whether a leaf may stand here, whether
one must, and the size of the node that a non-leaf entry names. -/
structure Level where
  shift : Nat
  width : Nat
  leaf : Bool
  last : Bool
  next : Nat

def levels : List Level :=
  [⟨48, 8, false, false, 4096⟩, ⟨39, 9, false, false, 4096⟩, ⟨30, 9, true, false, 4096⟩, ⟨21, 9, true, false, 256⟩,
   ⟨16, 5, true, true, 0⟩]

/-- ADDR of an entry as an address (R251). -/
def entryAddr (e : Nat) : Nat := e / 2 ^ 8 % 2 ^ 44 * 2 ^ 8

/-- R251: an entry with V = 1 that breaks the layout. -/
def malformed (cap : Nat) (l : Level) (e : Nat) : Bool :=
  let isLeaf := e / 2 % 2 == 1
  e / 2 ^ 7 % 2 == 1 || e / 2 ^ 52 != 0 || (!isLeaf && (e / 2 ^ 2 % 2 ^ 5 != 0)) || (isLeaf && !l.leaf) || (!isLeaf && l.last) ||
    (if isLeaf then entryAddr e % 2 ^ l.shift != 0 else l.last || entryAddr e % l.next != 0) ||
    (isLeaf && 2 ≤ e / 2 ^ 4 % 4) || (!isLeaf && cap < entryAddr e + l.next)

/-- A leaf translation: the page's virtual and physical base, its size, and the entry. -/
structure Page where
  vbase : Nat
  pbase : Nat
  size : Nat
  entry : Nat
  deriving DecidableEq, Repr

/-- Walk from a node through the levels that remain (R250, R252). -/
def walkFrom (s : State) (va : Word64) (v56 : Nat) : List Level → Nat → Except Stop Page
  | [], _ => .error (.raise .translation 1 va 0)
  | l :: rest, node =>
    let a := node + 8 * (v56 / 2 ^ l.shift % 2 ^ l.width)
    if a / 64 ∈ s.poison then .error (.raise .uncorrectable 0 va 0)
    else
      let e := readLe s.mem a 8
      if e % 2 = 0 then .error (.raise .translation 0 va 0)
      else if malformed s.hbmCap l e then .error (.raise .translation 1 va 0)
      else if e / 2 % 2 = 1 then .ok ⟨v56 / 2 ^ l.shift * 2 ^ l.shift, entryAddr e, 2 ^ l.shift, e⟩
      else walkFrom s va v56 rest (entryAddr e)

/-- The page that holds an address: a cached translation of the cell, or a walk (R254). -/
def State.pageOf (s : State) (ctx cell : Nat) (va : Word64) : Except Stop Page :=
  let v56 := va.toNat % 2 ^ 56
  match s.tlb.find? fun t => t.ctx = ctx && t.cell = cell && t.base ≤ v56 && v56 < t.base + t.size with
  | some t => .ok ⟨t.base, entryAddr t.leaf.toNat, t.size, t.leaf.toNat⟩
  | none =>
    match mget s.ctxs ctx with
    | none => .error (.raise .translation 1 va 0)
    | some x => if s.hbmCap < x.root + 2048 then .error (.raise .translation 1 va 0) else walkFrom s va v56 levels x.root

/-- Cache a leaf translation (R254). -/
def State.cachePage (s : State) (ctx cell : Nat) (p : Page) : State :=
  if s.tlb.any fun t => t.ctx = ctx && t.cell = cell && t.base = p.vbase then s
  else { s with tlb := ⟨ctx, cell, p.vbase, p.size, BitVec.ofNat 64 p.entry⟩ :: s.tlb }

/-- R253, with the ranges of R249, for a page and an address in it. -/
def State.permit (s : State) (ctx : Nat) (va : Word64) (k : Access) (p : Page) : Except Stop MemRef :=
  let pa := s.localPa (p.pbase + (va.toNat % 2 ^ 56 - p.vbase))
  let b := s.backing ctx pa
  let rd := p.entry / 4 % 2 == 1
  let wr := p.entry / 8 % 2 == 1
  let isWs := wsBase ≤ pa && pa < wsBase + 40 * 0x4000000
  if k != .read && isWs then .error (.raise .weightStoreWrite 0 va 0)
  else if b = .absent then .error (.raise .protection 0 va 0)
  else if (match k with | .read => rd | .write => wr | .atomic => rd && wr | .red => wr) then
    .ok ⟨va.toNat, pa, 0, 0, p.entry / 16 % 4 == 1, p.entry / 64 % 2 == 1⟩
  else .error (.raise .protection 0 va 0)

/-- A walk's fault with the kind of the access (R252). -/
def walkFault (k : Access) : Stop → Stop
  | .raise f cause va _ => .walk f cause va k
  | e => e

/-- Translate one address for an access (R248, R250 to R253). -/
def State.translate (s : State) (ctx cell : Nat) (va : Word64) (k : Access) : Except Stop (Page × MemRef) :=
  if canonical va then
    ((s.pageOf ctx cell va).mapError (walkFault k)).bind fun p => (s.permit ctx va k p).map fun r => (p, r)
  else .error (.raise .protection 0 va 0)

/-! ## Poison (R268 to R271) -/

/-- The owner tag of a line (R269). -/
def State.ownerOf (s : State) (line : Nat) : Nat := (mget s.owners line).getD 0

/-- A zero fill in a cell's ZSTAT (R271): a read marks ZF and counts, a partial write marks ZW and counts. -/
def Cell.markZero (c : Cell) (write : Bool) : Cell :=
  if write then { c with zw := true, zcnt := Nat.min 65535 (c.zcnt + 1) }
  else { c with zf := true, zcnt := Nat.min 65535 (c.zcnt + 1) }

/-- A poisoned line is consumed (R270): its first consumption writes an error record; a ZERO page marks ZSTAT; a KILL page
gives the cause and the owner of the fault. -/
def State.consume (s : State) (ctx cell line : Nat) (zero write : Bool) : State × Option (Nat × Nat) :=
  let s := if line ∈ s.consumed then s
    else { s.errorAt (clusterOf cell) true 0 cell 4 line (s.ownerOf line) with consumed := line :: s.consumed }
  if zero then (s.updCell ctx cell fun c => c.markZero write, none)
  else (s, some (if s.ownerOf line = ctx then (1, ctx) else (2, s.ownerOf line)))

/-- Read bytes of one line for a context's cell. -/
def State.readLine (s : State) (ctx cell : Nat) (r : MemRef) : State × Except (Nat × Nat) (List Byte) :=
  if r.pa / 64 ∈ s.poison then
    match s.consume ctx cell (r.pa / 64) r.zero false with
    | (s', none) => (s', .ok (List.replicate r.size 0))
    | (s', some f) => (s', .error f)
  else if (List.range ((r.pa + r.size + 7) / 8 - r.pa / 8)).any fun i => r.pa / 8 + i ∈ s.wsBad then (s, .error (0, 0))
  else (s, .ok (readBytes s.mem r.pa r.size))

/-- Write masked bytes of one line for a context (R269, R270): a whole line clears poison; a partial write of a poisoned
line of a ZERO page fills the rest with zeros. The KILL case is excluded before the call. -/
def State.writeLine (s : State) (ctx line : Nat) (mask : BitVec 64) (data : BitVec 512) : State :=
  let old := if line ∈ s.poison then List.replicate 64 (0 : Byte) else readBytes s.mem (64 * line) 64
  let new := (List.range 64).map fun i => if mask.getLsbD i then byteOf data i else old.getD i 0
  { s with
    mem := writeBytes s.mem (64 * line) new
    poison := s.poison.filter (· != line)
    consumed := s.consumed.filter (· != line)
    owners := if 64 * line < s.hbmCap then (if ctx = 0 then mdel s.owners line else mset s.owners line ctx) else s.owners }

/-- The device writes bytes to local memory for a context: lines written whole lose their poison, and the owner tag is the
context's (R269, R270). A line that is written in part keeps its poison (log entry 111). -/
def State.blockWrite (s : State) (ctx a : Nat) (bs : List Byte) : State :=
  let ls := if bs.isEmpty then [] else List.range' (a / 64) ((a + bs.length - 1) / 64 + 1 - a / 64)
  let whole (l : Nat) : Bool := a ≤ 64 * l && 64 * l + 64 ≤ a + bs.length
  { s with
    mem := writeBytes s.mem a bs
    poison := s.poison.filter fun l => !whole l
    consumed := s.consumed.filter fun l => !whole l
    owners := ls.foldl (fun m l => if ctx = 0 then mdel m l else mset m l ctx) s.owners }

/-- The mask and data of bytes at an offset of a line. -/
def lineOf (off : Nat) : List Byte → BitVec 64 × BitVec 512
  | [] => (0, 0)
  | b :: bs =>
    let r := lineOf (off + 1) bs
    (r.1 ||| (1 <<< off), putByte r.2 off b)

/-- Write masked bytes of one line directly (R284, R309), consuming poison as a partial write does (R270). -/
def State.writeDirect (s : State) (ctx cell : Nat) (r : MemRef) (l : BitVec 64 × BitVec 512) : State × Option (Nat × Nat) :=
  let line := r.pa / 64
  if line ∈ s.poison && l.1 != BitVec.allOnes 64 then
    match s.consume ctx cell line r.zero true with
    | (s', none) => (s'.writeLine ctx line l.1 l.2, none)
    | (s', some f) => (s', some f)
  else (s.writeLine ctx line l.1 l.2, none)

/-! ## Store lines and read sets (R281, R283, R285) -/

/-- The store lines of a task in a cell merge by line; a later store overwrites the bytes it names. -/
def putLine (ls : List StoreLine) (n : StoreLine) : List StoreLine :=
  match ls with
  | [] => [n]
  | l :: rest =>
    if l.line = n.line then
      { l with
        mask := l.mask ||| n.mask, cls := n.cls, zero := n.zero, va := n.va
        data := (List.range 64).foldl (fun d i => if n.mask.getLsbD i then putByte d i (byteOf n.data i) else d) l.data } :: rest
    else l :: putLine rest n

/-- Add the bytes of a line that the lines do not hold. -/
def putUnder (ls : List StoreLine) (n : StoreLine) : List StoreLine :=
  match ls.find? fun l => l.line = n.line with
  | none => putLine ls n
  | some l => (putLine [n] l).foldl putLine ls

/-- The store line of bytes that lie in one line. -/
def storeLine (r : MemRef) (bs : List Byte) : StoreLine :=
  let l := lineOf (r.pa % 64) bs
  ⟨r.pa / 64, r.va / 64 * 64, r.zero, r.cls, l.1, l.2⟩

/-- The bytes of an access that the task's own store lines hold (R283). -/
def ownBytes (ls : List StoreLine) (pa size : Nat) : List (Option Byte) :=
  (List.range size).map fun i =>
    match ls.find? fun l => l.line = (pa + i) / 64 with
    | some l => if l.mask.getLsbD ((pa + i) % 64) then some (byteOf l.data ((pa + i) % 64)) else none
    | none => none

/-- A line of a cell is about to change in memory, or has been read, by a word of number `id`: streams and weight-store writes that started
before it still read what stands there (R309, R311). -/
def Cell.keepOld (c : Cell) (id : Nat) (old : StoreLine) : Cell :=
  { c with fly := c.fly.map fun f =>
      if (f.op = .stream || f.op = .wst) && f.id < id then { f with lines := putUnder f.lines old } else f }

/-- The bytes of a place as they stand, for the words of a thread that started before word `id` (R309, R311). -/
def State.keepLine (s : State) (ctx cell id : Nat) (r : MemRef) (mask : BitVec 64) : State :=
  s.updCell ctx cell fun c =>
    c.keepOld id { storeLine r [] with mask := mask, data := (lineOf 0 (readBytes s.mem (r.pa / 64 * 64) 64)).2 }

/-- A read of a place by word `id`: words of the thread that started before it read nothing newer there (R309). -/
def State.keepRead (s : State) (ctx cell id : Nat) (r : MemRef) : State :=
  s.keepLine ctx cell id r (lineOf (r.pa % 64) (List.replicate r.size (0 : Byte))).1

/-- Take each byte from the own store lines where they hold it. -/
def overlayBytes (own : List (Option Byte)) (bs : List Byte) : List Byte :=
  (own.zip bs).map fun p => p.1.getD p.2

/-- Add a line to a read set: the first 2,048 lines exactly, then 4 KiB regions (R285). -/
def Task.addRead (t : Task) (line : Nat) : Task :=
  if line ∈ t.reads || line / 64 ∈ t.regions then t
  else if t.reads.length < 2048 then { t with reads := line :: t.reads }
  else { t with regions := line / 64 :: t.regions }

/-- Whether a read set holds a written line (R287). -/
def Task.readsLine (t : Task) (line : Nat) : Bool := line ∈ t.reads || line / 64 ∈ t.regions

/-- Weight-store reads are not recorded (R285). -/
def State.recordRead (s : State) (task : Nat) (pa : Nat) : State :=
  if wsBase ≤ pa && pa < wsBase + 40 * 0x4000000 then s else s.updTask task fun t => t.addRead (pa / 64)

/-- A fault that a task meets after reads, which stay in its read set (R285). -/
def Stop.after (t : Task) : Stop → Stop
  | .raise f cause va owner => .read t.reads t.regions (.raise f cause va owner)
  | .walk f cause va k => .read t.reads t.regions (.walk f cause va k)
  | e => e

/-- What follows the reads that a task has made so far. -/
def State.keepReads {α : Type} (s : State) (id : Nat) (x : Except Stop α) : Except Stop α :=
  match s.getTask id with
  | some t => x.mapError (Stop.after t)
  | none => x

/-- The digest's view of what a task wrote (R304): masked lines, merged. -/
def addWrote (ls : List (Nat × BitVec 64 × BitVec 512)) (n : Nat × BitVec 64 × BitVec 512) :
    List (Nat × BitVec 64 × BitVec 512) :=
  match ls with
  | [] => [n]
  | l :: rest =>
    if l.1 = n.1 then
      (l.1, l.2.1 ||| n.2.1,
        (List.range 64).foldl (fun d i => if n.2.1.getLsbD i then putByte d i (byteOf n.2.2 i) else d) l.2.2) :: rest
    else if n.1 < l.1 then n :: l :: rest
    else l :: addWrote rest n

end Sys2Proof.Machine
end

