-- ==== Sys2Proof/Machine/Queue.lean ====
section
/-! DEFINITION. Data queues and carries: which queue numbers are assigned, where a push lands, pushing and popping
(R153 to R166). -/

namespace Sys2Proof.Machine

open Sys2Proof

/-! ## Where queues lead (R153, R155, R329) -/

/-- The cell that a neighbour queue reaches, on the die. -/
def nbrOf (cell q : Nat) : Option Nat :=
  match q with
  | 8 => if yOf cell + 1 < 16 then some (cell + 20) else none
  | 9 => if 0 < yOf cell then some (cell - 20) else none
  | 10 => if xOf cell + 1 < 20 then some (cell + 1) else none
  | 11 => if 0 < xOf cell then some (cell - 1) else none
  | 12 => some (twinOf cell)
  | _ => none

/-- A cell lies in a group's rectangle (R328). -/
def Group.covers (g : Group) (cell : Nat) : Bool :=
  g.ox ≤ xOf cell && xOf cell < g.ox + g.w && g.oy ≤ yOf cell && yOf cell < g.oy + g.h && g.oz ≤ zOf cell &&
    zOf cell < g.oz + g.d

/-- The cells of a group's rectangle in increasing CELLXYZ. -/
def Group.cells (g : Group) : List Nat := (List.range 640).filter g.covers

/-- The inbound queue of the receiver that a push into q enters (R153). -/
def landing (q : Nat) : Nat :=
  match q with
  | 8 => 9 | 9 => 8 | 10 => 11 | 11 => 10 | _ => q

/-- The group of a task. -/
def State.groupOf (s : State) (t : Task) : Option Group := t.group.bind fun g => mget s.groups g

/-- The offset of a cell in a group, as one number. -/
def Group.offsetOf (g : Group) (cell : Nat) : Nat := cellAt (xOf cell - g.ox) (yOf cell - g.oy) (zOf cell - g.oz)

/-- The j-th carry that leaves (or reaches) a stage: its index in the section and its entry (R163). -/
def carryAt (k : Kernel) (stage j : Nat) (out : Bool) : Option (Nat × Nat × Nat × Nat) :=
  (((List.range k.carries.length).zip k.carries).filter fun p => (if out then p.2.1 else p.2.2.1) = stage)[j]?

/-- The carry that a queue number names in a cell, when the partner cell exists (R163, R164): index, depth, offset. -/
def State.carryOf (s : State) (t : Task) (cell q : Nat) : Option (Nat × Nat × Nat) :=
  match s.kernelOf t, s.groupOf t with
  | some k, some g =>
    if t.launched then none
    else
      match carryAt k t.stage (q % 8) (q < 24) with
      | none => none
      | some (i, fr, tgt, depth) =>
        let other := if q < 24 then tgt else fr
        match k.stages.find? fun x => x.num = other with
        | some st =>
          let o := g.offsetOf cell
          if xOf o < st.gw && yOf o < st.gh && zOf o < st.gd then some (i, depth, o) else none
        | none => none
  | _, _ => none

/-- A neighbour queue is assigned when it stays in the group (R155). -/
def State.nbrAssigned (s : State) (t : Task) (cell q : Nat) : Bool :=
  match nbrOf cell q, s.groupOf t with
  | some n, some g => g.covers n && (q != 12 || g.d == 2)
  | _, _ => false

/-- A queue number is assigned to an engine for pushing (R153, R155). -/
def State.pushAssigned (s : State) (t : Task) (cell : Nat) (e : Engine) (q : Nat) : Bool :=
  if q = 0 || q = 2 then e == .a
  else if q = 1 || q = 4 then e == .c
  else if q = 3 || q = 5 then e == .v
  else if 8 ≤ q && q < 13 then e != .m && s.nbrAssigned t cell q
  else 16 ≤ q && q < 24 && e != .m && (s.carryOf t cell q).isSome

/-- A queue number is assigned to an engine for popping (R153, R155). -/
def State.popAssigned (s : State) (t : Task) (cell : Nat) (e : Engine) (q : Nat) : Bool :=
  if q = 1 || q = 3 then e == .a
  else if q = 0 || q = 5 then e == .c
  else if q = 2 || q = 4 then e == .v
  else if 8 ≤ q && q < 13 then e != .m && s.nbrAssigned t cell q
  else 24 ≤ q && q < 32 && e != .m && (s.carryOf t cell q).isSome

/-! ## Carries (R164, R165) -/

def State.getCarry (s : State) (ctx inst idx off : Nat) : Carry :=
  (s.carries.find? fun k => k.ctx = ctx && k.inst = inst && k.idx = idx && k.off = off).getD
    { ctx := ctx, inst := inst, idx := idx, off := off }

def State.putCarry (s : State) (k : Carry) : State :=
  { s with carries := k :: s.carries.filter fun j => !(j.ctx = k.ctx && j.inst = k.inst && j.idx = k.idx && j.off = k.off) }

/-! ## Pushing (R156, R165) -/

/-- The depth of a cell's own queue. -/
def queueDepth (q : Nat) : Nat := if q < 8 then 8 else 16

def Cell.queue (c : Cell) (q : Nat) : Queue := c.queues[Fin.ofNat 13 q]

def Cell.putQueue (c : Cell) (q : Nat) (x : Queue) : Cell := { c with queues := c.queues.set (Fin.ofNat 13 q) x }

/-- Whether a push into an assigned queue may reserve a slot; a wait says for what (R156, R165). -/
def State.pushRoom (s : State) (t : Task) (cell q : Nat) (bytes : Nat) : Except Stop Unit :=
  if q < 8 then
    match s.getCell t.ctx cell with
    | some c => if (c.queue q).es.length + (c.queue q).rsv < 8 then .ok () else .error (.wait .plain)
    | none => .error (.wait .plain)
  else if q < 13 then
    match (nbrOf cell q).bind fun n => s.getCell t.ctx n with
    | some c => if (c.queue (landing q)).es.length + (c.queue (landing q)).rsv < 16 then .ok () else .error (.wait .plain)
    | none => .error (.wait .plain)
  else
    match s.carryOf t cell q with
    | none => .error (.wait .plain)
    | some (i, depth, o) =>
      let k := s.getCarry t.ctx t.inst i o
      if depth ≤ k.es.length + k.rsv then .error (.wait .plain)
      else if t.direct then .ok ()
      else
        match s.getCell t.ctx cell with
        | some c => if c.bufRoom bytes then .ok () else .error (.wait .bufferFull)
        | none => .error (.wait .plain)

/-- Change the reservations of the queue that a push goes to. -/
def State.reserve (s : State) (t : Task) (cell q : Nat) (f : Nat → Nat) : State :=
  if q < 8 then s.updCell t.ctx cell fun c => c.putQueue q { c.queue q with rsv := f (c.queue q).rsv }
  else if q < 13 then
    match nbrOf cell q with
    | some n => s.updCell t.ctx n fun c =>
        c.putQueue (landing q) { c.queue (landing q) with rsv := f (c.queue (landing q)).rsv }
    | none => s
  else
    match s.carryOf t cell q with
    | some (i, _, o) => let k := s.getCarry t.ctx t.inst i o; s.putCarry { k with rsv := f k.rsv }
    | none => s

/-- The place of an engine in the order of pushes into one queue in one cycle: A, V, C (R156). -/
def pushRank : Engine → Nat
  | .a => 0 | .v => 1 | .c => 2 | .m => 3

/-- An entry goes before those of its own cycle that a later engine of the order has pushed (R156). -/
def overtakes (e x : QEntry) : Bool := x.cyc = e.cyc && e.rank < x.rank

/-- Put an entry at the tail of a queue. -/
def enqueue : List QEntry → QEntry → List QEntry
  | [], e => [e]
  | x :: xs, e => if overtakes e x then e :: x :: xs else x :: enqueue xs e

/-- Put a held push at the tail of those for the same carry. -/
def enqueuePush : List (Nat × QEntry) → Nat × QEntry → List (Nat × QEntry)
  | [], e => [e]
  | x :: xs, e => if x.1 = e.1 && overtakes e.2 x.2 then e :: x :: xs else x :: enqueuePush xs e

/-- Deposit an entry of an engine: at the tail of its queue; a carry entry waits in the write buffer for the commit, with
its slot reserved, or joins the carry at once when the task writes directly (R156, R165, R284). -/
def State.deposit (s : State) (t : Task) (cell q : Nat) (eng : Engine) (e : QEntry) : State :=
  let e := { e with cyc := s.cycle, rank := pushRank eng }
  if q < 8 then s.updCell t.ctx cell fun c => c.putQueue q { c.queue q with es := enqueue (c.queue q).es e }
  else if q < 13 then
    match nbrOf cell q with
    | some n => s.updCell t.ctx n fun c =>
        c.putQueue (landing q) { c.queue (landing q) with es := enqueue (c.queue (landing q)).es e }
    | none => s
  else
    match s.carryOf t cell q with
    | some (i, _, o) =>
      let k := s.getCarry t.ctx t.inst i o
      if (s.getTask t.id).any Task.direct then
        (s.putCarry { k with es := enqueue k.es e }).updCell t.ctx cell fun c =>
          let b := c.bufOf t.id
          c.putBuf { b with given := (i * 1024 + o, e) :: b.given }
      else
        (s.putCarry { k with rsv := k.rsv + 1 }).updCell t.ctx cell fun c =>
          let b := c.bufOf t.id
          c.putBuf { b with pushes := enqueuePush b.pushes (i * 1024 + o, e) }
    | none => s

/-! ## Popping (R157, R161, R162, R165) -/

/-- The head of a queue as a cell pops it. -/
def State.queueHead (s : State) (t : Task) (c : Cell) (cell q : Nat) : Option QEntry :=
  if q < 13 then (c.queue q).es.head?
  else (s.carryOf t cell q).bind fun k => (s.getCarry t.ctx t.inst k.1 k.2.2).es.head?

/-- The wait of a pop for its entry (R157, R162): one of no later instant at the head. -/
def State.popEntry (s : State) (t : Task) (c : Cell) (cell q : Nat) : Except Stop QEntry :=
  match s.queueHead t c cell q with
  | none => .error (.wait .plain)
  | some e => if q < 13 && t.instant < e.inst then .error (.wait .plain) else .ok e

/-- The wait for room for records of `n` bytes in all (R161, R284). -/
def Cell.recordWait (c : Cell) (n : Nat) : Except Stop Unit :=
  if n = 0 || c.bufRoom n then .ok () else .error (.wait .bufferFull)

/-- The bytes of the pop record of an entry: none at the pour line (R161). -/
def State.popBytes (s : State) (t : Task) (e : QEntry) : Nat := if s.atPour t then 0 else entryBytes e

/-- The step-1 waits of a pop (R157, R161, R162): its entry, and room for its record. -/
def State.popWait (s : State) (t : Task) (c : Cell) (cell q : Nat) : Except Stop QEntry := do
  let e ← s.popEntry t c cell q
  c.recordWait (s.popBytes t e)
  pure e

/-- Remove the head of a queue; a speculative task keeps a record (R161). -/
def State.popTake (s : State) (t : Task) (cell q : Nat) : State :=
  let spec := !s.atPour t
  if q < 13 then
    s.updCell t.ctx cell fun c =>
      match (c.queue q).es with
      | [] => c
      | e :: es =>
        let c := c.putQueue q { c.queue q with es := es }
        if spec then let b := c.bufOf t.id; c.putBuf { b with pops := (q, e) :: b.pops } else c
  else
    match s.carryOf t cell q with
    | none => s
    | some (i, _, o) =>
      let k := s.getCarry t.ctx t.inst i o
      match k.es with
      | [] => s
      | e :: es =>
        let s := s.putCarry { k with es := es }
        if spec then s.updCell t.ctx cell fun c =>
          let b := c.bufOf t.id; c.putBuf { b with carryPops := (i * 1024 + o, e) :: b.carryPops }
        else s

/-! ## Conversion on pop (R158, R160) -/

def qFmt (r : Word64) : Fmt := fmtOf (r.toNat % 16)

/-- Elements of a register in a format (R4, R57). -/
def elemAt (f : Fmt) (x : Row) (i : Nat) : Nat := x.toNat / 2 ^ (fmtWidth f * i) % 2 ^ fmtWidth f

/-- A register from its elements. -/
def packElems (w : Nat) : List Nat → Nat
  | [] => 0
  | e :: es => e % 2 ^ w + 2 ^ w * packElems w es

def noConvert (f : Fmt) : Bool := f == .raw || f == .bool || f == .fp4

/-- PopConvert (R160). -/
def popConvert (r : Word64) (e : QEntry) : Except Stop QEntry :=
  if e.endm || r.toNat / 16 % 2 == 0 then .ok e
  else
    let t := qFmt r
    let rm := rmOf (r.toNat / 32 % 4)
    let ns := r.toNat / 128 % 2 == 1
    if noConvert e.fmt || noConvert t then .error (Stop.of .formatMismatch)
    else if e.vec then
      if t == .int64 || fmtWidth t != fmtWidth e.fmt then .error (Stop.of .formatMismatch)
      else
        let es := (List.range (fmtCount t)).map fun i => convert t rm ns (elemVal e.fmt (elemAt e.fmt e.val i))
        .ok { e with val := BitVec.ofNat 2048 (packElems (fmtWidth t) es), fmt := t }
    else
      let y := convert t rm ns (elemVal e.fmt (e.val.toNat % 2 ^ fmtWidth e.fmt))
      let v := if isInt t && isSigned t then wrapInt 64 (signedOf (fmtWidth t) y) else y
      .ok { e with val := BitVec.ofNat 2048 v, fmt := t }

/-- The checks of a pop that has its entry (R157): the expected clock, the kind, the conversion. -/
def popCheck (r : Word64) (k : Clk) (vec : Bool) (e : QEntry) : Except Stop QEntry :=
  if e.clk != k then .error (Stop.of .clockMismatch)
  else if e.vec != vec then .error (Stop.of .formatMismatch)
  else popConvert r e

/-- A scalar entry (R156). -/
def scalarEntry (v : Word64) (clk : Clk) (f : Fmt) (inst : Nat) : QEntry :=
  { vec := false, val := v.setWidth 2048, clk := clk, fmt := f, inst := inst }

def vectorEntry (v : Row) (clk : Clk) (f : Fmt) (inst : Nat) : QEntry :=
  { vec := true, val := v, clk := clk, fmt := f, inst := inst }

/-- An end marker (R154). -/
def endEntry (n : Nat) (vec : Bool) (clk : Clk) (inst : Nat) : QEntry :=
  { vec := vec, val := BitVec.ofNat 2048 (n % 2 ^ 64), clk := clk, fmt := if vec then .raw else .int64, endm := true, inst := inst }

end Sys2Proof.Machine
end

