-- ==== Sys2Proof/Machine/Task.lean ====
section
/-! DEFINITION. Tasks: the licence, releasing a group, completion and retirement records, aborting, publishing and
committing (R177, R230, R236 to R239, R257, R284 to R293, R327, R333, R411). -/

namespace Sys2Proof.Machine

open Sys2Proof

/-! ## The licence (R236 to R239) -/

/-- The pair's record. -/
def State.getPair (s : State) (cell : Nat) : Pair := (mget s.pairs (pairOf cell)).getD {}

/-- The configuration blob has disabled a cell (R29). -/
def State.cellOff (s : State) (cell : Nat) : Bool := ((mget s.phys cell).getD {}).disabled

/-- The cluster's grant covers a licensed start (R27, R234, R392): the array has a slot, or one is left. Only
a start takes one (log entry 131). A disabled cell has no share (R29). -/
def State.covered (s : State) (cell : Nat) : Bool :=
  let c := (mget s.clusters (clusterOf cell)).getD {}
  !s.cellOff cell && (cell ∈ c.users || c.users.length < c.grant)

/-- An array takes one of its cluster's slots (R392). -/
def State.takeSlot (s : State) (cell : Nat) : State :=
  { s with clusters := mupd s.clusters (clusterOf cell) fun c =>
      { c with users := if cell ∈ c.users then c.users else cell :: c.users } }

/-- A grant (R237): the claim and FIRST clear, a lease begins, and the pair remembers the holder. -/
def State.grant (s : State) (ctx cell : Nat) : State :=
  let s := s.updCell ctx cell fun c =>
    { c with lic := { c.lic with held := true, claim := false, first := false, pass := false, used := 0, age := 0,
                                  cmds := c.core.leaseCmds, cyc := c.core.leaseCyc } }
  { s with pairs := mset s.pairs (pairOf cell) { s.getPair cell with last := some (320 ≤ cell), passing := none } }

/-! ## What goes on in a cell (R149, R150, R291, R357 to R359) -/

/-- A gang switch or host halt has fallen due for a context and its cells are halting (R357). -/
def State.switchDue (s : State) (ctx : Nat) : Bool :=
  match s.partOfCtx ctx with
  | some (_, p) => p.slots[0].st == .halting && p.slots[0].ctx == ctx
  | none => false

/-- A context runs in slot 0 of its partition. -/
def State.ctxRuns (s : State) (ctx : Nat) : Bool :=
  match s.partOfCtx ctx with
  | some (_, p) => p.slots[0].st == .running && p.slots[0].ctx == ctx
  | none => false

/-- An engine of the cell waits at an injection that R359 holds back. -/
def Cell.atInjection (c : Cell) : Bool := c.waits.c == .injection || c.waits.a == .injection

/-- The count of the instant has passed MAXINSTANT (R150). -/
def State.overran (s : State) (c : Cell) (t : Task) : Bool := ((s.stageOf t).map Stage.maxInstant).getD 0 < c.watch

/-- A cell goes on with its task: it is enabled (R29), not halted, its task holds no fault (R290), its count has not run out (R150),
and it does not stand at a held injection, from the switch to the restore (R149, R358). -/
def State.goes (s : State) (ctx cell : Nat) (c : Cell) (t : Task) : Bool :=
  !s.cellOff cell && !c.halted && t.fault.isNone && !s.overran c t && (!c.atInjection || s.ctxRuns ctx)

/-- A cell has stopped where it stands: it holds no group that issues, it is at a safe point, its task holds a fault, or it
waits at a held injection (R149, R357, R358). The cells of a Halted group go on to their safe points but for a switch that is due
(R332, R357). -/
def State.cellStopped (s : State) (c : Cell) : Bool :=
  c.halted ||
    match c.group.bind fun g => mget s.groups g with
    | none => true
    | some g =>
      (g.st == .halted && s.switchDue g.ctx) || (g.st != .starting &&
        match c.task.bind s.getTask with
        | none => true
        | some t => c.safe || t.fault.isSome || c.atInjection)

/-- Every cell of a context has stopped. -/
def State.allStopped (s : State) (ctx : Nat) : Bool := s.cells.all fun p => p.1 / 1024 != ctx || s.cellStopped p.2

/-- Tasks of a context commit and abort (R291): it stands in slot 0, running, or stopping with a cell that has not stopped (after a
checker mismatch too, log entry 86). -/
def State.mayCommit (s : State) (ctx : Nat) : Bool :=
  match s.partOfCtx ctx with
  | some (_, p) =>
    p.slots[0].ctx = ctx &&
      (p.slots[0].st == .running || ((p.slots[0].st == .halting || (p.slots[0].st == .halted && p.wedged)) && !s.allStopped ctx))
  | none => false

/-- Held faults of a context are delivered: none after a checker mismatch (R362, R365). -/
def State.mayDeliver (s : State) (ctx : Nat) : Bool :=
  s.mayCommit ctx && (s.partOfCtx ctx).all fun p => !p.2.wedged

/-! ## Moves of the licence -/

/-- The licensed commands of a cell that have not completed. -/
def Cell.licensedCmds (c : Cell) : List Cmd := c.cmds.filter Cmd.licensed

/-- A licence that a cell gives up with its claim. It stays with the cell while licensed commands are left (R19, R333). -/
def Licence.give (l : Licence) (busy : Bool) : Licence :=
  { l with held := false, leaving := (l.held || l.leaving) && busy, halting := false, claim := false, pass := false, used := 0, age := 0 }

/-- A cell gives its licence up. -/
def Cell.giveLicence (c : Cell) : Cell := { c with lic := c.lic.give (!c.licensedCmds.isEmpty) }

/-- No cell of a pair holds the licence, and no started licensed command of it is left, in any context (R19). -/
def State.pairFree (s : State) (cell : Nat) : Bool :=
  s.cells.all fun p => pairOf (p.1 % 1024) != pairOf cell || (!p.2.lic.held && !p.2.lic.leaving && p.2.licensedCmds.isEmpty)

/-- The licence leaves a cell: to the twin where it claims and may be granted, unless it was Halting; otherwise it is free (R238). A
pass by the holder's release counts in AWAY (log entry 82). -/
def State.releaseLicence (s : State) (ctx cell : Nat) : State :=
  match s.getCell ctx cell with
  | none => s
  | some c =>
    let s := s.putCell ctx cell
      { c with lic := { c.lic with held := false, leaving := false, halting := false, pass := false, used := 0, age := 0 } }
    match s.getCell ctx (twinOf cell) with
    | some tw =>
      if tw.lic.claim && s.covered (twinOf cell) && s.pairFree cell && !c.lic.halting then
        (if c.lic.held then s.updCell ctx cell fun c => { c with lic := { c.lic with away := c.lic.away + 1 } } else s).grant ctx
          (twinOf cell)
      else s
    | none => s

/-! ## Completion records (R93, R177, R411) -/

def complRecord (cookie status kind id : Nat) : List Byte :=
  leBytes cookie 4 ++ leBytes status 1 ++ leBytes kind 1 ++ leBytes 0 2 ++ leBytes id 8

/-- The completion ring of a function has room, and the host link carries the record (R177, R388, log entry 107). -/
def State.complRoom (s : State) (fn : Nat) : Bool :=
  s.hostUp && ((s.reg fn 0x1410).toNat + 2 ^ 32 - (s.reg fn 0x1414).toNat) % 2 ^ 32 != 2 ^ ((s.reg fn 0x1408).toNat % 32)

/-- Write a record at CWR and advance it (R177). -/
def State.writeCompl (s : State) (fn : Nat) (rcd : List Byte) : State :=
  let wp := (s.reg fn 0x1410).toNat
  let depth := 2 ^ ((s.reg fn 0x1408).toNat % 32)
  (s.hostWrite ((s.reg fn 0x1400).toNat / 4096 * 4096 + 16 * (wp % depth)) rcd).setReg fn 0x1410
    (BitVec.ofNat 64 ((wp + 1) % 2 ^ 32))

/-- A completion record, held back while the ring is full or an earlier record is held (R177). -/
def State.complete (s : State) (fn : Nat) (rcd : List Byte) : State :=
  if s.complRoom fn && !(s.heldRecs.any fun r => r.1 = fn) then s.writeCompl fn rcd
  else { s with heldRecs := s.heldRecs ++ [(fn, rcd)] }

/-- Write the records that room now lets out, in order. -/
def State.flushCompl (s : State) (fn : Nat) : State :=
  (s.heldRecs.filter fun r => r.1 = fn).foldl (fun (s : State) r =>
    if s.complRoom fn then { s.writeCompl fn r.2 with heldRecs := s.heldRecs.erase r } else s) s

/-- What was held back while the host link was down goes out. -/
def State.hostBack (s : State) : State :=
  (s.flushFaults.heldRecs.map Prod.fst).eraseDups.foldl (fun (s : State) fn => s.flushCompl fn) s.flushFaults

/-! ## Releasing a group (R327, R333) -/

/-- A cell that its group leaves: its claim is withdrawn, and a held licence goes once its started licensed commands have
completed (R333). -/
def Cell.emptied (c : Cell) : Cell :=
  { lic := { leaving := (c.lic.held || c.lic.leaving) && !c.licensedCmds.isEmpty, away := c.lic.away }
    cmds := c.licensedCmds.map fun k => { k with aborted := true } }

/-- The cells of a released group wait for no release of a barrier; an episode that is complete goes when no other cell does. One that
has reached every cell is kept as `sweepEpisodes` says. -/
def State.leaveEpisodes (s : State) (g : Group) : State :=
  { s with episodes := s.episodes.filterMap fun e =>
      if e.ctx != g.ctx || e.inst != g.inst then some e
      else
        let e := { e with cells := e.cells.filter fun n => !g.covers n }
        if e.complete && e.gen != 0 && e.cells.all (· ∈ e.released) then none else some e }

/-- Free every cell of a group's rectangle: every claim of the group goes before a licence is released. -/
def State.releaseGroup (s : State) (gid : Nat) : State :=
  match mget s.groups gid with
  | none => s
  | some g =>
    let held := g.cells.filter fun n => (s.getCell g.ctx n).any fun c => c.lic.held && c.licensedCmds.isEmpty
    let s := g.cells.foldl (fun (s : State) n =>
      match s.getCell g.ctx n with
      | none => s
      | some c =>
        let s := (s.putCell g.ctx n c.emptied).dropAsks g.ctx n fun _ => true
        { s with phys := mset s.phys n { (mget s.phys n).getD {} with freed := some s.cycle } }) s
    let s := held.foldl (fun (s : State) n => s.releaseLicence g.ctx n) s
    { s.leaveEpisodes g with groups := mdel s.groups gid }

/-- Free the carafe entry of a launched task (R298). -/
def State.freeCarafe (s : State) (t : Task) : State :=
  match s.getInst t.ctx t.inst with
  | some i => { s with carafe := s.carafe.erase (t.ctx, i.handle, t.kind) }
  | none => s

/-! ## Aborting (R147, R161, R165, R228, R230, R257, R288, R289, R327) -/

/-- A task is undone with the tasks of a set: a later instant of an aborted stage task's group, or a child of one. -/
def abortsWith (set : List Task) (t : Task) : Bool :=
  set.any fun u =>
    (t.parent == some u.id) ||
    (!t.launched && !u.launched && t.ctx = u.ctx && t.inst = u.inst && t.stage = u.stage && keyLt u.key t.key)

/-- The closure of a set of tasks under R288. -/
def abortClosure (ts : List Task) : Nat → List Task → List Task
  | 0, set => set
  | n + 1, set =>
    abortClosure ts n (set ++ ts.filter fun t => !(set.any fun u => u.id = t.id) && abortsWith set t)

/-- Put pop records back at the heads of a cell's queues, newest first (R161). -/
def Cell.unpop (c : Cell) : List (Nat × QEntry) → Cell
  | [] => c
  | (q, e) :: rest => (c.putQueue q { c.queue q with es := e :: (c.queue q).es }).unpop rest

/-- Write undo records back, newest first (R257). The words of a unit that is written back are sound (log entry 116). -/
def undoSpad (m : Memory) : List (Nat × BitVec 512) → Memory
  | [] => m
  | (u, d) :: rest => undoSpad (writeBytes m (64 * u) (bytesFrom d 0 64)) rest

/-- Remove the entries of instants n and later from every queue (R161). -/
def Cell.dropLater (c : Cell) (n : Nat) : Cell :=
  { c with queues := c.queues.map fun q => { q with es := q.es.filter fun e => e.inst < n } }

/-- `n` banks from `base` up. -/
def bankRun (base n : Nat) : BitVec 128 := BitVec.ofNat 128 ((2 ^ n - 1) * 2 ^ base)

/-- The eight rows of a bank. -/
def bankRows (m : AMap Row) (b : Nat) : List Row := (List.range 8).map fun r => (mget m (8 * b + r)).getD 0

/-- Put a row; an all-zero row is not listed. -/
def setRow (m : AMap Row) (k : Nat) (x : Row) : AMap Row := if x = 0 then mdel m k else mset m k x

/-- Put a bank's rows from row `r` on. -/
def setRows (m : AMap Row) (b r : Nat) : List Row → AMap Row
  | [] => m
  | x :: xs => setRows (setRow m (8 * b + r) x) b (r + 1) xs

/-- A batch without the commands of some tasks: Idle when none remain (R230, R231). -/
def Batch.without (b : Batch) (ids : List Nat) : Batch :=
  let ms := b.members.filter fun m => !(m.task ∈ ids)
  if b.st == .idle then b else if ms.isEmpty then {} else { b with members := ms }

/-- The banks that open batches cover (R231). -/
def Cell.coveredBanks (c : Cell) : BitVec 128 :=
  c.batches.toList.foldl (fun m b => if b.st == .idle then m else b.members.foldl (fun m k => m ||| k.banks) m) 0

/-- The images of the banks that open batches cover stay, by batch (R233). -/
def Cell.freePeeks (c : Cell) : Cell :=
  { c with peekImgs := c.peekImgs.filter fun p =>
      let b := c.batches[Fin.ofNat 16 p.1]
      b.st != .idle && b.members.any fun m => m.banks.getLsbD p.2.1 }

/-- The settled bits of a bank (R233): as they stood before the oldest open batch that covers it first wrote it. -/
def Cell.settledRows (c : Cell) (b : Nat) : List Row :=
  match c.peekImgs.find? fun p => p.2.1 = b with
  | some p => p.2.2
  | none => bankRows c.banks b

/-- A cell returned to the first issue of an aborted instant (R289): `ids` are the aborted tasks, the latest first. Its registers
come back with the marks of poison that the checkpoint holds (log entry 133). -/
def Cell.rewind (c : Cell) (first : Task) (ids : List Nat) (k : Core) : Cell :=
  let bs := ids.map c.bufOf
  let imgs := c.undoImgs.filter fun p => p.2.task ∈ ids
  let c := c.unpop (bs.flatMap TaskBuf.pops)
  let c : Cell := { c with
    core := k
    ckpts := c.ckpts.filter fun p => p.1 = first.id || !(p.1 ∈ ids)
    task := some first.id
    spad := undoSpad c.spad (bs.flatMap TaskBuf.undo)
    spadBad := c.spadBad.filter fun w => !((bs.flatMap TaskBuf.undo).any fun u => u.1 = w / 8)
    banks := imgs.foldl (fun m p => setRows m p.1 0 p.2.rows) c.banks
    undoImgs := c.undoImgs.filter fun p => !(p.2.task ∈ ids)
    cmds := c.cmds.map fun x => if x.task ∈ ids then { x with aborted := true } else x
    batches := c.batches.map fun b => b.without ids
    bufs := c.bufs.filter fun b => !(b.task ∈ ids)
    mwait := none, tokRsv := Vector.replicate 8 0, streams := [], fly := [], wsts := []
    copies := c.copies.filter fun x => !(x.task ∈ ids)
    copyCount := 0, full := [], watch := 0, waits := c.waits.clear, xchg := none, pair := none, scWait := none, steering := false
    safe := true }
  (c.freePeeks).dropLater first.instant

/-- Give back the carry slots and entries of records (R161, R165). -/
def State.returnCarries (s : State) (t : Task) (b : TaskBuf) : State :=
  let s := b.pushes.foldl (fun (s : State) p =>
    let k := s.getCarry t.ctx t.inst (p.1 / 1024) (p.1 % 1024)
    s.putCarry { k with rsv := k.rsv - 1 }) s
  b.carryPops.foldl (fun (s : State) p =>
    let k := s.getCarry t.ctx t.inst (p.1 / 1024) (p.1 % 1024)
    s.putCarry { k with es := p.2 :: k.es }) s

/-- Give back the slots that unfinished A words of a cell reserved (R103). -/
def State.returnFly (s : State) (t : Task) (cell : Nat) (c : Cell) : State :=
  (c.fly.flatMap Fly.push).foldl (fun (s : State) p => s.reserve t cell p.1 fun n => n - 1) s

/-- A task as it is before its first issue, its age 0 whatever aborted it (R327, log entry 136). -/
def Task.fresh (t : Task) : Task :=
  { t with arms := 0, age := 0, stall := 0, stallSent := false, reads := [], regions := [], wrote := [], ended := [],
           direct := false, frontier := false, fault := none, doomed := false }

/-- Withdraw a cell's arrivals that an abort undoes: those of a later episode than its restored barrier states know
(R289, R340). The episode is complete no more, and one that no other cell waits for goes. -/
def State.withdraw (s : State) (ctx inst cell : Nat) (k : Core) : State :=
  { s with episodes := s.episodes.filterMap fun e =>
      if e.ctx = ctx && e.inst = inst && cell ∈ e.cells && (match k.bars[e.bar]? with | some b => b.gen < e.gen | none => false) then
        let e := { e with cells := e.cells.filter (· != cell), released := e.released.filter (· != cell), complete := false }
        if e.cells.isEmpty && !e.sent then none else some e
      else some e }

/-- An episode of an instance that a cell has arrived at, by its barrier state. -/
def Episode.isAt (e : Episode) (ctx inst cell n : Nat) (b : BarSlot) : Bool :=
  e.ctx = ctx && e.inst = inst && cell ∈ e.cells && e.bar = n && e.gen = b.gen && e.scope == b.scope

/-- A barrier state that an abort brings back (R289, R343): one that is Arrived has been released since where its episode is over, or
is complete and has reached the cell (log entry 124). -/
def State.barBack (s : State) (ctx inst cell n : Nat) (b : BarSlot) : BarSlot :=
  let waits (e : Episode) : Bool := e.isAt ctx inst cell n b && !(e.complete && cell ∈ e.released)
  if b.st == .arrived && !s.episodes.any waits then { b with st := .released } else b

/-- The barrier states that an abort brings back. -/
def State.barsBack (s : State) (ctx inst cell : Nat) (k : Core) : Core :=
  { k with bars := Vector.ofFn fun i => s.barBack ctx inst cell i.val k.bars[i] }

/-- A cell whose restored state waits for a release again (R343): an episode that is no more complete has to reach it. -/
def State.awaitAgain (s : State) (ctx inst cell : Nat) (k : Core) : State :=
  { s with episodes := s.episodes.map fun e =>
      if !e.complete && (match k.bars[e.bar]? with | some b => b.st == .arrived && e.isAt ctx inst cell e.bar b | none => false) then
        { e with released := e.released.filter (· != cell) }
      else e }

/-- An episode that has reached every cell goes once no abort can withdraw one of its arrivals: no checkpoint of its cells knows less
(R343, log entry 124). -/
def State.sweepEpisodes (s : State) : State :=
  { s with episodes := s.episodes.filter fun e =>
      !(e.complete && e.gen != 0 && e.cells.all (· ∈ e.released)) || e.cells.any fun n =>
        (s.getCell e.ctx n).any fun c => c.ckpts.any fun k => match k.2.bars[e.bar]? with | some b => b.gen < e.gen | none => false }

/-- The checkpoint that an abort returns a cell to. -/
def Cell.ckptOf (c : Cell) (id : Nat) : Option Core := (c.ckpts.find? fun p => p.1 = id).map Prod.snd

/-- Undo the aborted instants of one stage group; `ids` latest first. While a switch or a halt is due, a cell is back at its safe point
and gives its licence up (R238, R358). -/
def State.rewindGroup (s : State) (g : Group) (first : Task) (ids : List Nat) : State :=
  let back := g.cells.filterMap fun n => ((s.getCell g.ctx n).bind fun c => c.ckptOf first.id).map fun k => (n, k)
  let s := back.foldl (fun (s : State) p => s.withdraw g.ctx g.inst p.1 p.2) s
  let s := g.cells.foldl (fun (s : State) n =>
    match s.getCell g.ctx n with
    | none => s
    | some c =>
      match c.ckptOf first.id with
      | none => s.putCell g.ctx n (c.dropLater first.instant)
      | some k =>
        let s := (ids.map c.bufOf).foldl (fun (s : State) b => s.returnCarries first b)
          ((s.returnFly first n c).dropAsks g.ctx n fun _ => true)
        let c := ((s.getCell g.ctx n).getD c).rewind first ids (s.barsBack g.ctx g.inst n k)
        s.putCell g.ctx n (if s.switchDue g.ctx then c.giveLicence else c)) s
  let s := back.foldl (fun (s : State) p => s.awaitAgain g.ctx g.inst p.1 p.2) s
  let s : State := { s with
    tasks := s.tasks.filter fun p => !(p.1 ∈ ids) || p.1 = first.id
    groups := mupd s.groups g.id fun g => { g with exited := [], st := if g.st = .ending then .running else g.st } }
  s.putTask first.fresh

/-- Undo one launched task (R288, R327): its group is released; the task goes with its parent, or returns to the pool. -/
def State.undoLaunched (s : State) (t : Task) (removed : Bool) : State :=
  let s : State := match t.group.bind fun g => mget s.groups g with
    | some g => g.cells.foldl (fun (s : State) n =>
        match s.getCell g.ctx n with
        | some c => c.bufs.foldl (fun (s : State) b => s.returnCarries t b) (s.returnFly t n c)
        | none => s) s
    | none => s
  let s : State := match t.group with
    | some g => s.releaseGroup g
    | none => s
  if removed then { s.freeCarafe t with tasks := mdel s.tasks t.id } else s.putTask { t.fresh with group := none }

/-- The latest first. -/
def latestFirst (ts : List Task) : List Task := sortBy (fun a b => !keyLt a.key b.key) ts

/-- Abort a set of tasks with everything that follows from them (R288). -/
def State.abortTasks (s : State) (seeds : List Task) : State :=
  if seeds.isEmpty then s
  else
    let all := s.tasks.map Prod.snd
    let set := latestFirst (abortClosure all all.length seeds)
    let s := set.foldl (fun (s : State) t =>
      if t.launched then s.undoLaunched t (set.any fun u => t.parent == some u.id) else s) s
    (set.filter fun t => !t.launched).foldl (fun (s : State) t =>
      -- the first aborted instant of its group undoes the group
      if set.any fun u => !u.launched && u.group == t.group && u.inst = t.inst && u.ctx = t.ctx && u.stage = t.stage &&
          keyLt u.key t.key then s
      else
        let ids := (set.filter fun u => !u.launched && u.inst = t.inst && u.ctx = t.ctx && u.stage = t.stage).map Task.id
        match t.group.bind fun g => mget s.groups g with
        | some g => s.rewindGroup g t ids
        | none => s.putTask t.fresh) s

/-- Abort tasks of a context whose read sets were hit; while the context aborts nothing they are marked, and abort when it goes on
(R287, R291). -/
def State.abortHit (s : State) (ctx : Nat) (seeds : List Task) : State :=
  if s.mayCommit ctx then s.abortTasks seeds
  else seeds.foldl (fun (s : State) t => s.updTask t.id fun u => { u with doomed := true }) s

/-! ## Publication (R270, R284, R286, R287, R316) -/

/-- The store lines of a task, cell by cell. -/
def State.linesOf (s : State) (t : Task) : List (Nat × StoreLine) :=
  (s.cells.filter fun p => p.1 / 1024 = t.ctx).flatMap fun p => (p.2.bufOf t.id).lines.map fun l => (p.1 % 1024, l)

/-- A line that a publication may not perform: poisoned, partial, on a KILL page (R270). -/
def State.killed (s : State) (l : StoreLine) : Bool := l.line ∈ s.poison && l.mask != BitVec.allOnes 64 && !l.zero

/-- The answers to the checks of a task's lines at peers are asked for (R270). -/
def State.checkLines (s : State) (t : Task) (ls : List (Nat × StoreLine)) : State :=
  ls.foldl (fun (s : State) p => s.askPeer t.ctx p.1 (.check p.2.line) p.2.va (64 * p.2.line) p.2.zero .check) s

/-- Every line of a task at a peer has been checked there. -/
def State.linesChecked (s : State) (t : Task) : Bool :=
  (s.linesOf t).all fun p => s.asked t.ctx p.1 (.check p.2.line) (64 * p.2.line) 0

/-- The state with the checks taken. -/
def State.heardLines (s : State) (t : Task) : State :=
  (s.linesOf t).foldl (fun (s : State) p => s.taken t.ctx p.1 (.check p.2.line) (64 * p.2.line) 0) s

/-- Write one store line, filling a poisoned line of a ZERO page (R270). One of a peer goes out to its home (R309). -/
def State.performLine (s : State) (t : Task) (p : Nat × StoreLine) : State :=
  let a : Ask := { ctx := t.ctx, cell := p.1, who := .line p.2.line, va := p.2.va, pa := 64 * p.2.line, n := 0, inst := t.inst }
  let s := if (s.peerOf (64 * p.2.line)).isSome then s.askNew a p.2.zero (.line p.2.mask p.2.data) else s
  let s := if p.2.line ∈ s.poison && p.2.mask != BitVec.allOnes 64 then (s.consume t.ctx p.1 p.2.line true true).1 else s
  s.writeLine t.ctx p.2.line p.2.mask p.2.data

/-- The later tasks whose read sets hold one of the lines (R287). -/
def State.conflicts (s : State) (t : Task) (lines : List Nat) : List Task :=
  (s.tasksOf t.ctx t.inst).filter fun u => keyLt t.key u.key && lines.any u.readsLine

/-- A line of a peer that has been lost since its store (R390). -/
def State.lostLine (s : State) (l : StoreLine) : Bool := (s.peerOf (64 * l.line)).any (· ∈ s.peerDown)

/-- The store lines of a task are written out, and the later readers of them abort (R286, R287). -/
def State.writeOut (s : State) (t : Task) : State :=
  let ls := s.linesOf t
  let s := ls.foldl (fun (s : State) p => s.performLine t p) s
  let s : State := { s with cells := s.cells.map fun p =>
    if p.1 / 1024 = t.ctx then (p.1, { p.2 with bufs := p.2.bufs.map fun b => if b.task = t.id then { b with lines := [] } else b })
    else p }
  let s := s.updTask t.id fun u =>
    { u with wrote := ls.foldl (fun w p => addWrote w (p.2.line, p.2.mask, p.2.data)) u.wrote }
  s.abortHit t.ctx (s.conflicts t (ls.map fun p => p.2.line))

/-- What stops the publication of lines: one whose peer is lost (R390), then one that consumes poison of a KILL page (R270). -/
def State.badLine (s : State) (t : Task) (ls : List (Nat × StoreLine)) : Option Stop :=
  match ls.find? fun p => s.lostLine p.2 with
  | some p => some (.lines p.1 0 (BitVec.ofNat 64 p.2.va) (s.ownerOf p.2.line))
  | none =>
    (ls.find? fun p => s.killed p.2).map fun p =>
      .lines p.1 (if s.ownerOf p.2.line = t.ctx then 1 else 2) (BitVec.ofNat 64 p.2.va) (s.ownerOf p.2.line)

/-- Publish a task's store lines at once: the checks come first, at the homes of the lines too (R270); then the writes, in the order
of the cells' numbers (log entry 134). -/
def State.publish (s : State) (t : Task) : Except Stop State :=
  let ls := s.linesOf t
  if !(ls.any fun p => s.lostLine p.2) && !s.linesChecked t then .error .checks
  else
    match (s.heardLines t).badLine t ls with
    | some e => .error e
    | none => .ok ((s.heardLines t).writeOut t)

/-- The held carry entries of a task join their carries in push order (R165). -/
def State.joinCarries (s : State) (t : Task) : State :=
  (s.cells.filter fun p => p.1 / 1024 = t.ctx).foldl (fun (s : State) p =>
    (p.2.bufOf t.id).pushes.foldl (fun (s : State) e =>
      let k := s.getCarry t.ctx t.inst (e.1 / 1024) (e.1 % 1024)
      s.putCarry { k with es := k.es ++ [e.2], rsv := k.rsv - 1 }) s) s

/-- What an abort has to know of the records of a task that turns direct: the carry entries it has given (R165). -/
def TaskBuf.released (b : TaskBuf) : TaskBuf := { task := b.task, given := b.pushes.reverse ++ b.given }

/-- Free a task's records, images and checkpoints in every cell of its context (R230, R257, R286): all of them at its commit
(`ckpt`), those of R284 when it turns direct. -/
def State.freeRecords (s : State) (t : Task) (ckpt : Bool) : State :=
  { s with cells := s.cells.map fun p =>
      if p.1 / 1024 = t.ctx then
        (p.1, { p.2 with
          bufs := if ckpt then p.2.bufs.filter fun b => b.task != t.id
            else p.2.bufs.map fun b => if b.task = t.id then b.released else b
          undoImgs := p.2.undoImgs.filter fun i => i.2.task != t.id
          ckpts := if ckpt then p.2.ckpts.filter fun k => k.1 != t.id else p.2.ckpts })
      else p }

/-- A word of A that waits for nothing more. -/
def FlyOp.over : FlyOp → Bool
  | .done | .stored false _ => true
  | _ => false

/-- A word of A that can fault no more and cancel the words behind it (R255). -/
def FlyOp.past : FlyOp → Bool
  | .stream | .wst => true
  | o => o.over

/-- Every A word that may still fault has its data (R255), and no stream runs before a word of its class that has stored (R313):
until then nothing that A has stored may be published. -/
def Cell.settled (c : Cell) : Bool := (c.fly.all fun f => f.op.past) && c.streams.all fun u => !u.late

/-- Every cell that runs a task is settled: what the task has stored may be published (R311, R313, R318). -/
def State.settledTask (s : State) (t : Task) : Bool :=
  s.cells.all fun p => p.1 / 1024 != t.ctx || p.2.task != some t.id || p.2.settled

/-- Running streams of a task's cells still read what later words of their threads are about to publish over (R311). -/
def State.keepLines (s : State) (t : Task) : State :=
  { s with cells := s.cells.map fun p =>
      if p.1 / 1024 = t.ctx then
        (p.1, (p.2.bufOf t.id).lines.foldl (fun c l =>
          c.keepOld c.nextFly { l with data := (lineOf 0 (readBytes s.mem (64 * l.line) 64)).2 }) p.2)
      else p }

/-- A task at the pour line writes directly from here on: its words in the write buffer have been published with it, and no stream or copy of
it waits for room. -/
def State.turnDirect (s : State) (t : Task) : State :=
  let s : State := { s with cells := s.cells.map fun p =>
    if p.1 / 1024 = t.ctx && p.2.task = some t.id then
      (p.1, { p.2 with full := [], fly := p.2.fly.map fun f => match f.op with | .stored false _ => { f with op := .done } | _ => f })
    else p }
  s.updTask t.id fun u => { u with direct := true }

/-- A task at the pour line turns direct (R284): its lines publish, its other records are released as for a commit, and it
does not end. -/
def State.goDirect (s : State) (t : Task) : Except Stop State :=
  if t.direct then .ok s
  else ((s.keepLines t).publish t).map fun s => ((s.joinCarries t).freeRecords t false).turnDirect t

/-! ### Turning direct while earlier words are unfinished (R284, R313, R318)

What words behind an unfinished word have stored is not published before that word has finished: it is written directly in its turn
(log entry 123). -/

/-- What the words behind unfinished words of a cell have stored. -/
def Cell.lateStores (c : Cell) : List Held :=
  c.fly.flatMap fun f => match f.op with | .stored false l => l | _ => []

/-- A store line without the bytes that late words have stored. -/
def StoreLine.without (n : StoreLine) (l : List Held) : StoreLine :=
  { n with mask := n.mask &&& ~~~(l.foldl (fun m h => if h.r.pa / 64 = n.line then m ||| h.mask else m) 0) }

/-- A cell whose late words are to write directly: its store lines are those that stood before them, and what streams and copies have moved
beside them since. -/
def Cell.splitLate (c : Cell) (id : Nat) : Cell :=
  match c.fly.find? fun f => match f.op with | .stored false _ => true | _ => false with
  | none => c
  | some f =>
    let b := c.bufOf id
    let ls := ((b.lines.map fun n => n.without c.lateStores).filter fun n => n.mask != 0)
    { c.putBuf { b with lines := f.lines.foldl putUnder ls } with
      fly := c.fly.map fun f => match f.op with | .stored false l => { f with op := .stored true l } | _ => f }

/-- The state with the late words of a task's cells set apart. -/
def State.splitLate (s : State) (t : Task) : State :=
  { s with cells := s.cells.map fun p =>
      if p.1 / 1024 = t.ctx && p.2.task = some t.id then (p.1, p.2.splitLate t.id) else p }

/-- A task turns direct for a stream or a copy: the words behind it may wait for it. -/
def State.goLate (s : State) (t : Task) : Except Stop State := if t.direct then .ok s else (s.splitLate t).goDirect t

/-! ## Retirement (R97, R411) -/

/-- A joined instance that retires counts as having arrived at every later episode of its gang: an episode of generation 0
stands for it (R337). -/
def State.gangMark (s : State) (i : Inst) : List Episode :=
  let gang := ((mget s.ctxs i.ctx).map Ctx.gang).getD 0
  if i.gangKey = 0 || i.gangWidth < 2 || gang = 0 then []
  else [{ ctx := i.ctx, inst := i.id, key := i.gangKey, bar := 0, scope := .dom, unit := 0, gen := 0, gang := gang, width := i.gangWidth }]

/-- The instance enters Retired: its groups go, one after another (R333, log entry 138), and its carries, the writer role ends, the
record is written. -/
def State.retire (s : State) (i : Inst) (status : Nat) : State :=
  let gs := (s.groups.filter fun g => g.2.ctx = i.ctx && g.2.inst = i.id).map Prod.fst
  let s := gs.foldl (fun (s : State) g => s.releaseGroup g) s
  let s : State := { s with
    carries := s.carries.filter fun k => !(k.ctx = i.ctx && k.inst = i.id)
    episodes := (s.episodes.filter fun e => !(e.ctx = i.ctx && e.inst = i.id)) ++ s.gangMark i
    parts := s.parts.map fun p => if p.1 = i.part && p.2.writer = some i.id then (p.1, { p.2 with writer := none }) else p }
  let s := s.putInst { i with st := .retired, faultGroup := none }
  if i.wants && i.fn ∈ s.boundFns i.part then s.complete i.fn (complRecord i.cookie status 1 i.id) else s

/-- Discard an instance with everything uncommitted (R97): its carafe entries, tasks and groups go. Of several instances, the first
of the list is the first to write its record (log entry 132). -/
def State.discard (s : State) (i : Inst) (status : Nat) : State :=
  if i.st = .retired then s
  else
    let ts := s.tasksOf i.ctx i.id
    let s := (ts.filter Task.launched).foldl (fun (s : State) t => s.freeCarafe t) s
    let s : State := { s with tasks := s.tasks.filter fun p => !(p.2.ctx = i.ctx && p.2.inst = i.id) }
    s.retire i status

/-- A SWITCH or HALT in progress ends with STATUS 1 (R361, R362). -/
def State.endCommand (s : State) (part : Nat) : State :=
  match (mget s.parts part).bind Part.busy with
  | some b =>
    if b.op = 4 || b.op = 5 then
      ({ s with parts := mupd s.parts part fun r => { r with busy := none } }).setReg b.fn 0x400
        ((s.reg b.fn 0x400 &&& 0x3F0F) ||| (1 <<< 20))
    else s
  | none => s

/-- The LOADs and LAUNCHes of a context that are in progress end with it (log entry 90): a LAUNCH with NOT_LOADED, a LOAD with
CANCELLED. -/
def State.dropPending (s : State) (ctx : Nat) : State :=
  (s.pending.filter fun q => q.ctx = ctx).foldl (fun (s : State) q =>
    let s : State := { s with pending := s.pending.erase q }
    if leNat ((q.entry.drop 1).take 1) % 2 = 1 then
      s.complete q.fn (complRecord (leNat ((q.entry.drop 4).take 4)) (if q.kind = 2 then 0x11 else 0x13) 0 0)
    else s) s

/-- R361: the delivery of UNCORRECTABLE with cause KILL ends the owning context; its instances retire in the order of the list (R411,
log entry 132). -/
def State.endContext (s : State) (ctx : Nat) : State :=
  match s.partOfCtx ctx with
  | none => s
  | some (p, r) =>
    let n := r.slotOf ctx
    let s := s.report p (faultRecord { code := .contextEnded } n 0 0 false)
    let s := ((s.insts.filter fun i => i.ctx = ctx).foldl (fun (s : State) i => s.discard i 0x13) s).dropPending ctx
    { s with parts := mupd s.parts p fun r =>
        { r with slots := if h : n < 34 then r.slots.set n { r.slots[n] with st := .ended } else r.slots } }.endCommand p

/-- Deliver the fault of a task that is still there (R290); it ends the context whose own line killed it (R361). -/
def State.settleOne (s : State) (id : Nat) : State :=
  match s.getTask id with
  | none => s
  | some t =>
    match t.fault with
    | some f =>
      let s := s.deliver t
      if f.code = .uncorrectable && f.cause = 1 && !f.delivered then s.endContext f.owner else s
    | none => s

/-- Deliver the held faults of a context that are due, and end the contexts whose own lines killed them (R290, R361), where faults
are delivered (`on`). -/
def State.settle (s : State) (ctx : Nat) (on : Bool) : State :=
  let due := (s.tasks.map Prod.snd).filter fun t =>
    on && t.ctx = ctx && s.atPour t && (match t.fault with | some f => !f.delivered | none => false)
  (due.map Task.id).foldl State.settleOne s

/-- A context goes on after a stop: what was hit meanwhile aborts, and what is due is delivered (R291). -/
def State.thaw (s : State) (ctx : Nat) : State :=
  (s.abortTasks ((s.tasks.map Prod.snd).filter fun t => t.ctx = ctx && t.doomed)).settle ctx true

/-- A task that holds a fault gives the slots of its waiting operations up: they take new ones when it goes on (R320). -/
def State.dropSlots (s : State) (id : Nat) : State :=
  { s with cells := s.cells.map fun p =>
      if p.2.task = some id then (p.1, { p.2 with scWait := p.2.scWait.map fun w => { w with slot := none } }) else p }

/-- Hold a fault, and deliver it where it is due. The fault itself may stop the last cell of a context that halts. -/
def State.holdAndSettle (s : State) (id : Nat) (f : HeldFault) : State :=
  match s.getTask id with
  | none => s
  | some t =>
    if t.fault.isSome then s
    else ((s.putTask { t with fault := some f }).dropSlots id).settle t.ctx (s.mayDeliver t.ctx)

/-- A line that has been published is refused at its home, or lost (R385, R390): no word is left that the fault could be precise at, and
the oldest task of its instance takes it (log entry 122). -/
def State.holdLate (s : State) (a : Ask) (f : FaultCode) (cause owner : Nat) : State :=
  match (s.tasksOf a.ctx a.inst).find? s.atPour with
  | some t =>
    s.holdAndSettle t.id { code := f, cause := cause, engine := 0xFF, va := BitVec.ofNat 64 a.va, pc := 0, cell := a.cell, owner := owner }
  | none => s

end Sys2Proof.Machine
end

