-- ==== Sys2Proof/Machine/Flags.lean ====
section
/-! DEFINITION. The flag computations of the part: clock values and presence (R133 to R138), the clock check (R137), the
tag checks of the stream forms (R140 to R146), and the scalar truth values (R60). -/

namespace Sys2Proof.Machine

open Sys2Proof

/-- A clock is present when DEF and VAL are 1 (R138). -/
def clkOn (c : Core) (k : Clk) : Bool := c.clks[k].dfn && c.clks[k].val

def clkDef (c : Core) (k : Clk) : Bool := c.clks[k].dfn

/-- Whether `a` is an ancestor of `k`: reached by PARENT while DEF is 1; a clock is its own ancestor (R135). -/
def isAncestor (c : Core) (a : Clk) : Nat → Clk → Bool
  | 0, k => k == a
  | n + 1, k => k == a || (k != 0 && clkDef c k && isAncestor c a n c.clks[k].parent)

/-- The shared tag of all tagged sources; k0 when there is none (R137). -/
def sameClock : List Clk → Except Stop Clk
  | [] => .ok 0
  | [k] => .ok k
  | k :: l :: rest => if k = l then sameClock (l :: rest) else .error (Stop.of .clockMismatch)

/-- The check of the encoding, which stands before that of the clocks (R35). -/
def legalForm (legal : Bool) (tags : List Clk) : Except Stop Clk :=
  if legal then sameClock tags else .error (Stop.of .illegalWord)

/-- A clock register that a clock check reads is poisoned (R110, R111, R133, log entry 104). -/
def clkBad (c : Core) (k : Clk) : Bool := c.clks[k].bad

/-- A poisoned register on the way from `k` up to its ancestor `a`. -/
def chainBad (c : Core) (a : Clk) : Nat → Clk → Bool
  | 0, k => clkBad c k
  | n + 1, k => clkBad c k || (k != a && k != 0 && clkDef c k && chainBad c a n c.clks[k].parent)

/-- Raise UNCORRECTABLE where a read word is poisoned. -/
def needSound (bad : Bool) : Except Stop Unit := if bad then .error (Stop.of .uncorrectable) else .ok ()

/-- The read of the clock register that a check has found (R111, R133). -/
def clockRead (c : Core) (r : Except Stop Clk) : Except Stop Clk := do
  let k ← r
  needSound (clkBad c k)
  pure k

/-- `when` and `vwhen` (R142): the tag is an ancestor of k. -/
def whenClock (c : Core) (k : Clk) (tag : Clk) : Except Stop Clk := do
  needSound (chainBad c tag 16 k)
  if clkDef c k && isAncestor c tag 16 k then .ok k else .error (Stop.of .clockMismatch)

/-- `cur` (R143): k is an ancestor of the tag. -/
def curClock (c : Core) (k : Clk) (tag : Clk) : Except Stop Clk := do
  needSound (clkBad c k || chainBad c k 16 tag)
  if clkDef c k && clkDef c tag && isAncestor c k 16 tag then .ok k else .error (Stop.of .clockMismatch)

/-- `merge` and `vmerge` (R144): complementary clocks of one parent; the result carries the parent. -/
def mergeClock (c : Core) (ka kb : Clk) : Except Stop Clk := do
  needSound (clkBad c ka || clkBad c kb || clkBad c c.clks[ka].parent)
  if !clkDef c ka || !clkDef c kb || ka = kb || c.clks[ka].parent != c.clks[kb].parent ||
      c.clks[ka].pol == c.clks[kb].pol ||
      c.clks[ka].val.toNat + c.clks[kb].val.toNat != (c.clks[c.clks[ka].parent].val).toNat then
    .error (Stop.of .clockMismatch)
  else .ok c.clks[ka].parent

/-- `dly` and `vdly` (R146): the slot's binding agrees with the tag. -/
def dlyClock (d : DelaySlot) (tag : Clk) : Except Stop Clk :=
  if d.bnd && d.cb != tag then .error (Stop.of .clockMismatch) else .ok tag

/-- 1 for true and 0 for false (R60). -/
def boolWord (b : Bool) : Word64 := if b then 1 else 0

/-- The relations of `cmp` (R116). -/
def cmpWord (f : CmpOp) (a b : Word64) : Bool :=
  match f with
  | .eq => a == b
  | .ne => a != b
  | .lt => decide (a.toInt < b.toInt)
  | .ltu => decide (a.toNat < b.toNat)
  | .le => decide (a.toInt ≤ b.toInt)
  | .leu => decide (a.toNat ≤ b.toNat)

end Sys2Proof.Machine
end

