-- ==== Sys2Proof/Machine/Operands.lean ====
section
/-! DEFINITION. Running a word, and the operand forms of the C and A engines: sources with bound queues (R38, R106, R137,
R138, R159), destinations with mirrors (R105, R107, R108, R159), finishing A words in order (R103, R255), and transfer
targets (R31, R33, R40). -/

namespace Sys2Proof.Machine

open Sys2Proof

/-! ## Running a word (R35) -/

/-- What peers have answered to a cell about a line is known (R270). -/
def State.hearLine (s : State) (ctx cell line : Nat) : State :=
  (s.asks.filter fun a => a.ctx = ctx && a.cell = cell && a.pa / 64 = line).foldl (fun (s : State) a =>
    match a.ans with
    | some x => s.hear a.pa x
    | none => s) s

/-- The first consumption of a poisoned line that a word names writes an error record (R270). -/
def State.noteConsume (s : State) (ctx cell : Nat) (va : Word64) : State :=
  match s.pageOf ctx cell va with
  | .ok p =>
    let line := s.localPa (p.pbase + (va.toNat % 2 ^ 56 - p.vbase)) / 64
    let s := s.hearLine ctx cell line
    if line ∈ s.poison then (s.consume ctx cell line false false).1 else s
  | .error _ => s

/-- Raise a fault at the word an engine stands at (R35, R290). What a peer has answered it is asked again when it goes on. -/
def State.raiseAt (s : State) (e : Engine) (c : Cell) (t : Task) (f : FaultCode) (cause : Nat) (va : Word64)
    (owner : Nat) (access : Option Access := none) : State :=
  ((if f = .uncorrectable && cause != 0 then s.noteConsume s.cur.ctx s.cur.cell va else s).dropAsks s.cur.ctx s.cur.cell
    (· == .issue)).holdAndSettle t.id
    { code := f, cause := cause, engine := engineCode e, va := va, pc := c.core.pc.get e, cell := s.cur.cell, owner := owner
      access := access }

/-- The carry entries that a direct task has put into carries itself go out again: tasks that have popped one abort first (R165). -/
def State.takeBackGiven (s : State) (t : Task) : State :=
  let given := (s.cells.filter fun p => p.1 / 1024 = t.ctx).flatMap fun p => (p.2.bufOf t.id).given
  let popped (u : Task) : Bool := s.cells.any fun p => p.1 / 1024 = u.ctx && (p.2.bufOf u.id).carryPops.any (· ∈ given)
  given.foldl (fun (s : State) p =>
      let k := s.getCarry t.ctx t.inst (p.1 / 1024) (p.1 % 1024)
      s.putCarry { k with es := k.es.erase p.2 })
    (s.abortTasks ((s.tasksOf t.ctx t.inst).filter fun u => u.id != t.id && popped u))

/-- The instant of a task is undone for a refetch (R258, R292): what SCRATCHPAD_REFETCH ends. -/
def State.startRefetch (s : State) (t : Task) : State :=
  ((s.takeBackGiven t).abortTasks [t]).updCell s.cur.ctx s.cur.cell fun c => if c.group.isSome then { c with refetch := true } else c

/-- A wait that a speculative task does not take once a switch is due (R358). -/
def State.abortsInstead (s : State) (t : Task) (k : WaitKind) : Bool :=
  (k == .pourLine || k == .bufferFull) && s.switchDue t.ctx && !s.atPour t

/-- A publication that fails at a line of a cell holds its fault with no word (R270, R360); one to a lost peer writes a record
(R390). -/
def State.raiseLines (s : State) (t : Task) (cell cause : Nat) (va : Word64) (owner : Nat) : State :=
  let lost (s : State) : State :=
    match s.pageOf t.ctx cell va with
    | .ok p => s.linkError t.ctx (p.pbase + (va.toNat % 2 ^ 56 - p.vbase))
    | .error _ => s
  let s := s.heardLines t
  (if cause = 0 then lost s else s.noteConsume t.ctx cell va).holdAndSettle t.id
    { code := .uncorrectable, cause := cause, engine := 0xFF, va := va, pc := 0, cell := cell, owner := owner }

/-- What a word of engine `e` that did not complete leaves. -/
def stopWord (e : Engine) (c : Cell) (t : Task) (s : State) : Stop → State
  | .walk f cause va k => s.raiseAt e c t f cause va 0 (some k)
  | .wait k => if s.abortsInstead t k then s.abortTasks [t] else s.noteWait e k
  | .spad true => (s.spadError s.cur.ctx s.cur.cell).startRefetch t
  | .spad false => (s.spadError s.cur.ctx s.cur.cell).raiseAt e c t .uncorrectable 0 0 0
  | .raise f cause va owner => s.raiseAt e c t f cause va owner
  | .lines cell cause va owner => s.raiseLines t cell cause va owner
  | .ask who va pa _ zero op => (s.askPeer s.cur.ctx s.cur.cell who va pa zero op).noteWait e .plain
  | .checks => (s.checkLines t (s.linesOf t)).noteWait e .plain
  | .read ls rs x => stopWord e c t (s.updTask t.id fun u => { u with reads := ls, regions := rs }) x

/-- The outcome of a word from what its body gave. -/
def finishWord (e : Engine) (s : State) (c : Cell) (t : Task) : Except Stop State → Host.Outcome State Fault Refusal
  | .ok s' => .next s'
  | .error x => .next (stopWord e c t s x)

/-- A word that waits with a full write buffer lets its task turn direct once it is at the pour line (R284). -/
def turnsDirect (s : State) (e : Engine) (c : Cell) (t : Task) : Bool :=
  c.waits.get e == .bufferFull && s.atPour t && !t.direct && s.settledTask t

/-- Run an instruction word of engine `e` (R35): nothing issues while the task holds a fault (R290); the tokens and the
room for tokens are waited for first; then the body, which waits, checks, and gives the state with the word done. -/
def runWord (e : Engine) (t : Tok) (s : State) (body : Cell → Task → Except Stop State) : Host.Outcome State Fault Refusal :=
  match s.here with
  | none => .fault .noTask
  | some (c, k) =>
    if k.fault.isSome then .next s
    else if !(tokReady c.core.toks e t && tokRoom c.core.toks c.tokRsv e t) then .next (s.noteWait e .plain)
    else if turnsDirect s e c k then
      finishWord e s c k ((s.goDirect k).map fun s' => s'.noteWait e .plain)
    else finishWord e s c k (body c k)

/-! ## Finishing words of A in order (R103, R255) -/

/-- The end of a finished A word: its tokens and entries are deposited. -/
def State.finishFly (s : State) (t : Task) (cell : Nat) (f : Fly) : State :=
  let s := s.updCell t.ctx cell fun c =>
    { c with tokRsv := tokRelease c.tokRsv .a f.tok, core := { c.core with toks := tokGive c.core.toks .a f.tok } }
  f.push.foldl (fun (s : State) p => (s.reserve t cell p.1 fun n => n - 1).deposit t cell p.1 .a p.2) s

/-- Finish the A words at the head of the list that wait for nothing more. -/
def State.drainFly (s : State) (t : Task) (cell : Nat) : Nat → State
  | 0 => s
  | n + 1 =>
    match s.getCell t.ctx cell with
    | none => s
    | some c =>
      match c.fly with
      | [] => s
      | f :: rest =>
        if f.op.over then
          ((s.putCell t.ctx cell { c with fly := rest }).finishFly t cell f).drainFly t cell n
        else s

/-- The end of an A word whose cell was `old` when it issued. With no earlier word unfinished and nothing left to wait
for, it finishes at once; otherwise it joins the list, with what a cancellation gives back. -/
def Cell.retireA (c old : Cell) (k : Nat) (t : Tok) (pc : Nat) (op : FlyOp) (push popped : List (Nat × QEntry)) : Cell :=
  { c with
    core := { c.core with toks := tokTake c.core.toks .a t, pc := { c.core.pc with a := pc } }
    tokRsv := tokReserve c.tokRsv .a t
    waits := c.waits.issue .a, safe := false
    nextFly := c.nextFly + 1
    fly := c.fly ++ [{ id := c.nextFly, pc := old.core.pc.a, op := op, tok := t, push := push, popped := popped
                       regs := ⟨old.core.cremaA, old.core.aregs.toList⟩, lines := (old.bufOf k).lines }] }

/-- The end of a word of C or A that waits for nothing more and pushes nothing. -/
def Cell.retireScalar (c old : Cell) (k : Nat) (e : Engine) (t : Tok) (pc : Nat) : Cell :=
  match e with
  | .a => if c.fly.isEmpty then c.retire .a t pc else c.retireA old k t pc .done [] []
  | _ => c.retire e t pc

/-! ## Sources -/

/-- The entry that a source field names (R38, R106): a crema entry that nothing has dropped reads 0 with tag k0. -/
def srcVal (e : Engine) (c : Core) : Src → SVal
  | .b i => (match e with | .a => c.cremaA | _ => c.cremaC).getD i.val {}
  | .r i => (match e with | .a => c.aregs | _ => c.sregs)[i]

/-- The queues that C may pop through a binding, in increasing number (R158). -/
def bindQueues : List Nat := [0, 5, 8, 9, 10, 11, 12, 24, 25, 26, 27, 28, 29, 30, 31]

/-- The queues that C may push through a mirror (R158). -/
def mirrorQueues : List Nat := [1, 4, 8, 9, 10, 11, 12, 16, 17, 18, 19, 20, 21, 22, 23]

/-- The MIR or BIND field names s(n) (R158). -/
def linksReg (r : Word64) (n : Fin 16) : Bool := r.toNat / 256 % 32 == n.val + 16

/-- The queue that a source of C is bound to: the lowest-numbered one (R159). -/
def State.bindOf (s : State) (t : Task) (cell : Nat) (c : Cell) (e : Engine) : Src → Option Nat
  | .b _ => none
  | .r n =>
    if e == .c then
      bindQueues.find? fun q => linksReg c.core.qpopFmt[Fin.ofNat 32 q] n && s.popAssigned t cell .c q
    else none

/-- The queues that mirror a register of C (R159). -/
def State.mirrorsOf (s : State) (t : Task) (cell : Nat) (c : Cell) (n : Fin 16) : List Nat :=
  mirrorQueues.filter fun q => linksReg c.core.qpushFmt[Fin.ofNat 32 q] n && s.pushAssigned t cell .c q

/-- What a word has when its waits and checks are over: the state after its pops, its source values and tags, its clock,
and whether it is present. -/
structure Gathered where
  st : State
  vals : List Word64
  tags : List Clk
  clk : Clk
  on : Bool

/-- Room in every mirrored queue (R159), and in the write buffer for the carry entries among them, beside `pops` bytes of
pop records (R281). -/
def State.mirrorWait (s : State) (t : Task) (cell : Nat) (c : Cell) (wr : Option (Fin 16)) (pops : Nat := 0) :
    Except Stop Unit := do
  let qs := (wr.map fun n => s.mirrorsOf t cell c n).getD []
  qs.forM fun q => s.pushRoom t cell q 16
  c.recordWait (pops + if t.direct then 0 else 16 * qs.countP fun q => 16 ≤ q)

/-- Write a named register of an engine. -/
def Core.setNamed (c : Core) (e : Engine) (n : Fin 16) (v : SVal) : Core :=
  match e with
  | .a => { c with aregs := c.aregs.set n v }
  | _ => { c with sregs := c.sregs.set n v }

/-- Drop a value onto an engine's crema (R105). -/
def Core.dropVal (c : Core) (e : Engine) (v : SVal) : Core :=
  match e with
  | .a => { c with cremaA := (v :: c.cremaA).take 16 }
  | _ => { c with cremaC := (v :: c.cremaC).take 16 }

/-- Pop the bound queues and leave each value in its register (R159). A mirror of that register gets no entry from it (log
entry 78). -/
def State.takeBound (s : State) (t : Task) (cell : Nat) : List (Fin 16 × Nat × QEntry) → State
  | [] => s
  | (n, q, e) :: rest =>
    ((s.popTake t cell q).updCell t.ctx cell fun c =>
      { c with core := c.core.setNamed .c n { val := e.val.setWidth 64, tag := e.clk } }).takeBound t cell rest

/-- The register of a source, when it is one. -/
def srcNamed : Src → Fin 16
  | .b i => i
  | .r i => i

/-- A source with the binding it has. -/
structure SrcIn where
  src : Src
  raw : SVal
  q : Option Nat

/-- The converted entry of a bound queue. -/
def entryOf (es : List (Nat × QEntry)) (q : Nat) : QEntry := ((es.find? fun p => p.1 = q).map Prod.snd).getD {}

/-- A source whose value is still being produced (R101). -/
def srcPending (e : Engine) (s : State) (c : Cell) (t : Task) (x : Src) : Bool :=
  (s.bindOf t s.cur.cell c e x).isNone && (srcVal e c.core x).pend.isSome

/-- The wait for the values of sources (R35, R101). -/
def srcWait (e : Engine) (s : State) (c : Cell) (t : Task) (srcs : List Src) : Except Stop Unit :=
  if srcs.any (srcPending e s c t) then .error (.wait .plain) else .ok ()

/-- A form's own check has found no fault of the encoding. -/
def encodingOk : Except Stop Clk → Except Stop Unit
  | .error (.raise .illegalWord cause va owner) => .error (.raise .illegalWord cause va owner)
  | _ => .ok ()

/-- Steps 1 to 5 of R35 for the sources of a C or A word. `known` is a clock that a clock operand gives; `form` is the
clock check of the form over the tags (R137); `own` marks `keep` and `take`, which are present whatever the tag of an
unbound source; `wr` is the named register that a present word writes; `more` is what else a present word waits for at
step 1, by its source values. Every wait comes before the checks (log entry 76). -/
def gather (e : Engine) (s : State) (c : Cell) (t : Task) (srcs : List Src) (known : Option Clk)
    (form : List Clk → Except Stop Clk) (own : Bool) (wr : Option (Fin 16)) (more : List Word64 → Except Stop Unit := fun _ => .ok ()) :
    Except Stop Gathered := do
  let cell := s.cur.cell
  let ins := srcs.map fun x => SrcIn.mk x (srcVal e c.core x) (s.bindOf t cell c e x)
  let free := ins.filter fun i => i.q.isNone
  let qs := (ins.filterMap SrcIn.q).eraseDups
  srcWait e s c t srcs
  match known <|> (free.head?.map fun i => i.raw.tag) with
  | some k =>
    if !own && !clkOn c.core k then
      -- an absent word neither waits for a bound queue nor pops it
      let k' ← clocks free (ins.map fun i => if i.q.isSome then k else i.raw.tag)
      pure ⟨s, ins.map fun i => i.raw.val, ins.map fun i => i.raw.tag, k', false⟩
    else gatherRest cell ins free qs
  | none => gatherRest cell ins free qs
where
  /-- The checks of the encoding (R35), then of the clock: a poisoned tag first, then the form's own check, then the register of the
  clock (R111, R137). -/
  clocks (free : List SrcIn) (tags : List Clk) : Except Stop Clk := do
    let k := form tags
    encodingOk k
    needSound (free.any fun i => i.raw.tagBad)
    if own then k else clockRead c.core k
  gatherRest (cell : Nat) (ins free : List SrcIn) (qs : List Nat) : Except Stop Gathered := do
    let es ← qs.mapM fun q => (s.popEntry t c cell q).map fun x => (q, x)
    let tags := ins.map fun i => match i.q with | some q => (entryOf es q).clk | none => i.raw.tag
    let pops := (es.map fun p => s.popBytes t p.2).sum
    let waits : Except Stop Unit := do
      if e == .c then s.mirrorWait t cell c (if own && !clkOn c.core (tags.headD 0) then none else wr) pops
      more (ins.map fun i => match i.q with | some q => (entryOf es q).val.setWidth 64 | none => i.raw.val)
    match clocks free tags with
    | .error x =>
      waits
      .error x
    | .ok k =>
      let on := (own && !free.isEmpty) || (own && ins.isEmpty) || clkOn c.core k
      if !on then pure ⟨s, ins.map fun i => i.raw.val, tags, k, false⟩
      else
        waits
        let es' ← es.mapM fun p =>
          if p.2.vec then .error (Stop.of .formatMismatch)
          else (popConvert c.core.qpopFmt[Fin.ofNat 32 p.1] p.2).map fun x => (p.1, x)
        needSound (free.any fun i => i.raw.bad != 0)
        let vals := ins.map fun i => match i.q with
          | some q => (entryOf es' q).val.setWidth 64
          | none => i.raw.val
        let regs := qs.map fun q =>
          (((ins.find? fun i => i.q == some q).map fun i => srcNamed i.src).getD 0, q, entryOf es' q)
        pure ⟨s.takeBound t cell regs, vals, tags, k, true⟩

/-- A wait of step 1 for the pour line (R282). -/
def State.needPour (s : State) (t : Task) : Except Stop Unit := if s.atPour t then .ok () else .error (.wait .pourLine)

/-- A frontier operation publishes its task's lines before it performs, and the task writes directly from then on (R316).
It waits for what has to come before a publication. -/
def State.publishFirst (s : State) (k : Task) : Except Stop State :=
  if !s.settledTask k then .error (.wait .plain) else s.goDirect k

/-- A task has performed a frontier operation (R258, R306). -/
def State.frontierDone (s : State) (id : Nat) : State := s.updTask id fun u => { u with frontier := true }

/-! ## Results -/

def dstNamed : Dst → Option (Fin 16)
  | .drop => none
  | .reg n => some n

/-- The first and the second of a word's source values. -/
def v0 (l : List Word64) : Word64 := l.getD 0 0
def v1 (l : List Word64) : Word64 := l.getD 1 0
def v2 (l : List Word64) : Word64 := l.getD 2 0

/-- The mirror pushes of a write to s(n) (R156, R159); a value on an absent clock, which `keep` may write, enters no
queue (R138). -/
def State.mirror (s : State) (t : Task) (cell : Nat) (c : Cell) (n : Fin 16) (v : SVal) : State :=
  if !clkOn c.core v.tag then s
  else
    (s.mirrorsOf t cell c n).foldl (fun (s : State) q =>
      s.deposit t cell q .c (scalarEntry v.val v.tag (qFmt c.core.qpushFmt[Fin.ofNat 32 q]) t.instant)) s

/-- What a scalar word writes: an entry dropped onto the crema, a named register. -/
structure Result where
  drop : Option SVal := none
  reg : Option (Fin 16 × SVal) := none

def Core.put (c : Core) (e : Engine) (r : Result) : Core :=
  let c := match r.reg with
    | some (n, v) => c.setNamed e n v
    | none => c
  match r.drop with
  | some v => c.dropVal e v
  | none => c

/-- Finish a word of C or A: the result, the tokens, the next word, and the mirror pushes of C. `old` is the cell as the
word found it. -/
def finish (e : Engine) (s : State) (old : Cell) (k : Task) (t : Tok) (pc : Nat) (r : Result) : State :=
  match s.getCell s.cur.ctx s.cur.cell with
  | none => s
  | some c =>
    let s := s.putHere ({ c with core := c.core.put e r }.retireScalar old k.id e t pc)
    match e, r.reg with
    | .c, some (n, v) => s.mirror k s.cur.cell old n v
    | _, _ => s

/-- The result of a word with a destination field: an absent one drops 0 with its clock (R138). -/
def resultOf (d : Dst) (clk : Clk) (on : Bool) (v : Word64) : Result :=
  if on then { drop := some { val := v, tag := clk }, reg := (dstNamed d).map fun n => (n, { val := v, tag := clk }) }
  else { drop := some { val := 0, tag := clk } }

/-- A word with a destination and sources of one clock, of `len` words (R108, R116, R137). -/
def scalarWord (e : Engine) (t : Tok) (s : State) (len : Nat) (d : Dst) (srcs : List Src)
    (f : List Word64 → Word64) : Host.Outcome State Fault Refusal :=
  runWord e t s fun c k => do
    let g ← gather e s c k srcs none sameClock false (dstNamed d)
    pure (finish e g.st c k t (c.core.pc.get e + len) (resultOf d g.clk g.on (f g.vals)))

/-! ## Transfers (R31, R33, R40) -/

/-- Whether a word address names a head word of a text (R31). -/
def isHead : List Word32 → Nat → Bool
  | [], _ => false
  | _ :: _, 0 => true
  | [_], _ + 1 => false
  | w :: x :: ws, n + 1 =>
    if w.getLsbD 29 then (match n with | 0 => false | m + 1 => isHead ws m) else isHead (x :: ws) n

/-- A transfer target, or ILLEGAL_WORD where it is no head word of the text (R40). -/
def State.target (s : State) (t : Task) (a : Int) : Except Stop Nat :=
  if 0 ≤ a && isHead (s.textOf t) a.toNat then .ok a.toNat else .error (Stop.of .illegalWord)

/-- A branch of C or A on one tested source, of one word (R124): `taken` of its value decides. A target that is no head word
of the text is a fault of a taken branch alone (log entry 77). -/
def branchWord (e : Engine) (t : Tok) (s : State) (a : Src) (off : Int) (taken : Word64 → Bool) :
    Host.Outcome State Fault Refusal :=
  runWord e t s fun c k => do
    let g ← gather e s c k [a] none sameClock false none
    let pc := c.core.pc.get e
    let next ← if g.on && taken (v0 g.vals) then s.target k (pc + off) else pure (pc + 1)
    pure (finish e g.st c k t next {})

end Sys2Proof.Machine
end

