-- ==== Sys2Proof/Machine/Issue.lean ====
section
/-! DEFINITION. What an engine does on its turn before its word takes its steps: whether it may issue, its walk through the
text, and the slip window (R32, R33, R98, R99, R149, R290). -/

namespace Sys2Proof.Machine

open Sys2Proof

/-- From a head word's address, the next head word of an engine's TAG (R32): its address and the words from it on. -/
def walk (tag : Nat) : List Word32 → Nat → Option (Nat × List Word32)
  | [], _ => none
  | w :: ws, a =>
    if w.toNat / 2 ^ 30 = tag then some (a, w :: ws)
    else if w.getLsbD 29 then
      match ws with
      | [] => none
      | _ :: ws' => walk tag ws' (a + 2)
    else walk tag ws (a + 1)

/-- The words of the text from an address on. -/
def wordsFrom (text : List Word32) (a : Nat) : List Word32 := text.drop a

/-- The word that an engine stands before: its address and the words from there; nothing at the end of the text (R98). -/
def Cell.atWord (c : Cell) (text : List Word32) (e : Engine) : Option (Nat × List Word32) :=
  walk (engineCode e) (wordsFrom text (c.core.pc.get e)) (c.core.pc.get e)

/-- The walk address of an engine (R99): the place of its next word, past the foreign words that it skips (R32); inside a
call, the outermost call of C. -/
def Cell.walkAddr (c : Cell) (text : List Word32) (e : Engine) : Nat :=
  if e == .c && c.core.callDepth != 0 then c.core.call0
  else ((c.atWord text e).map Prod.fst).getD text.length

/-- The slip window (R99). -/
def Cell.inWindow (c : Cell) (text : List Word32) (a : Nat) : Bool :=
  let m := Nat.min (Nat.min (c.walkAddr text .c) (c.walkAddr text .a)) (Nat.min (c.walkAddr text .v) (c.walkAddr text .m))
  a ≤ m + c.slipwin

/-- A cell at its safe point that does not start its next instant: its context is stopping, or its instance has a
delivered fault (R97, R149, R357). -/
def State.stopsHere (s : State) (c : Cell) (t : Task) : Bool :=
  c.safe &&
    ((match s.getInst t.ctx t.inst with | some i => i.st != .running | none => true) ||
      match s.partOfCtx t.ctx with
      | some (_, p) => p.slots[0].st != .running
      | none => true)

/-- An instance under serial re-execution runs the task at the pour line alone (R306). -/
def State.serialHolds (s : State) (t : Task) : Bool :=
  match s.getInst t.ctx t.inst with
  | some i => i.serial && !s.atPour t
  | none => false

/-- The group of a task issues. In a Halted group the cells of later instants go on to their next safe point, but for a
switch that is due (R332, R357). -/
def State.groupRuns (s : State) (t : Task) : Bool :=
  match s.groupOf t with
  | some g => g.st == .running || g.st == .ending || (g.st == .halted && !s.switchDue t.ctx)
  | none => false

/-- An injection that R359 has held back issues first, once no switch is due (R149). -/
def Cell.injectsFirst (c : Cell) (e : Engine) : Bool :=
  !c.atInjection || e == (if c.waits.c == .injection then .c else .a)

/-- Whether an engine may start a word (R29, R98, R127, R149, R150, R171, R173, R232, R258, R290, R394). A cell whose `iend` has
skipped its wait (R358) makes up for it: no more than four uncommitted instants issue (R148). -/
def State.mayIssue (s : State) (ctx cell : Nat) (c : Cell) (t : Task) (e : Engine) : Bool :=
  s.boot == .ready && s.goes ctx cell c t && c.injectsFirst e && !c.refetch && s.groupRuns t && !s.stopsHere c t &&
    !s.serialHolds t && !(e != .c && c.steering) && c.ckpts.length ≤ 4 && !(e == .m && c.mwait.isSome) &&
    !(e == .a && c.steer && !c.streams.isEmpty)

/-- The word that an engine starts on its turn in the current cell: its address and the words from there. -/
def State.nextWord (s : State) (e : Engine) : Option (Cell × Task × Nat × List Word32) :=
  s.here.bind fun (c, t) =>
    let text := s.textOf t
    if s.mayIssue s.cur.ctx s.cur.cell c t e then
      (c.atWord text e).bind fun (a, ws) => if c.inWindow text a then some (c, t, a, ws) else none
    else none

/-- A cell stands at the word that it starts. -/
def Cell.standAt (c : Cell) (e : Engine) (a : Nat) : Cell :=
  { c with core := { c.core with pc := c.core.pc.set e a }, steer := if e == .a then false else c.steer }

/-- A head word that is no instruction (R55): its tokens and the room for those it pushes are waited for, then
ILLEGAL_WORD (R35). -/
def State.illegal (s : State) (e : Engine) (w : Word32) : Host.Outcome State Fault Refusal :=
  runWord e (tokOf w.toNat) s fun _ _ => .error (Stop.of .illegalWord)

end Sys2Proof.Machine
end

