-- ==== Sys2Proof/Machine/CInt.lean ====
section
/-! DEFINITION. The integer instructions of C and A (R116 to R123). -/

namespace Sys2Proof.Machine

open Sys2Proof

/-! ## Integer operations on 64-bit values (R116, R118, R119) -/

/-- The shift amount of R116: the low six bits. -/
def shAmt (b : Word64) : Nat := b.toNat % 64

def rotl64 (a b : Word64) : Word64 := (a <<< shAmt b) ||| (a >>> (64 - shAmt b))

def minS (a b : Word64) : Word64 := if a.toInt ≤ b.toInt then a else b
def maxS (a b : Word64) : Word64 := if a.toInt ≤ b.toInt then b else a
def minU (a b : Word64) : Word64 := if a.toNat ≤ b.toNat then a else b
def maxU (a b : Word64) : Word64 := if a.toNat ≤ b.toNat then b else a

def mulHiS (a b : Word64) : Word64 := BitVec.ofInt 64 (a.toInt * b.toInt / 2 ^ 64)
def mulHiU (a b : Word64) : Word64 := BitVec.ofNat 64 (a.toNat * b.toNat / 2 ^ 64)

/-- div (R118). -/
def divS (a b : Word64) : Word64 := if b = 0 then BitVec.allOnes 64 else BitVec.ofInt 64 (a.toInt.tdiv b.toInt)
/-- divu (R118). -/
def divU (a b : Word64) : Word64 := if b = 0 then BitVec.allOnes 64 else BitVec.ofNat 64 (a.toNat / b.toNat)
/-- rem (R118). -/
def remS (a b : Word64) : Word64 := if b = 0 then a else BitVec.ofInt 64 (a.toInt.tmod b.toInt)
/-- remu (R118). -/
def remU (a b : Word64) : Word64 := if b = 0 then a else BitVec.ofNat 64 (a.toNat % b.toNat)

/-- Leading zero bits of the low `n` bits. -/
def clzFrom (a : Word64) : Nat → Nat
  | 0 => 0
  | n + 1 => if a.getLsbD n then 0 else 1 + clzFrom a n

/-- Trailing zero bits, with `n` bits left to look at. -/
def ctzFrom (a : Word64) : Nat → Nat
  | 0 => 0
  | n + 1 => if a.getLsbD (63 - n) then 0 else 1 + ctzFrom a n

/-- One bits among the low `n`. -/
def popFrom (a : Word64) : Nat → Nat
  | 0 => 0
  | n + 1 => (a.getLsbD n).toNat + popFrom a n

def extWidth : ExtWidth → Nat
  | .w8 => 8 | .w16 => 16 | .w32 => 32

def sextTo (w : ExtWidth) (a : Word64) : Word64 := (a.setWidth (extWidth w)).signExtend 64
def zextTo (w : ExtWidth) (a : Word64) : Word64 := (a.setWidth (extWidth w)).setWidth 64

/-- lih (R41). -/
def lihVal (hi : BitVec 21) (a : Word64) : Word64 := (hi.setWidth 64 <<< 43) ||| (a.setWidth 43).setWidth 64

/-! ## The C words -/

def execAdd (t : Tok) (d : Dst) (a b : Src) (s : State) : Host.Outcome State Fault Refusal :=
  scalarWord .c t s 1 d [a, b] fun v => v0 v + v1 v

def execSub (t : Tok) (d : Dst) (a b : Src) (s : State) : Host.Outcome State Fault Refusal :=
  scalarWord .c t s 1 d [a, b] fun v => v0 v - v1 v

def execAnd (t : Tok) (d : Dst) (a b : Src) (s : State) : Host.Outcome State Fault Refusal :=
  scalarWord .c t s 1 d [a, b] fun v => v0 v &&& v1 v

def execOr (t : Tok) (d : Dst) (a b : Src) (s : State) : Host.Outcome State Fault Refusal :=
  scalarWord .c t s 1 d [a, b] fun v => v0 v ||| v1 v

def execXor (t : Tok) (d : Dst) (a b : Src) (s : State) : Host.Outcome State Fault Refusal :=
  scalarWord .c t s 1 d [a, b] fun v => v0 v ^^^ v1 v

def execAndn (t : Tok) (d : Dst) (a b : Src) (s : State) : Host.Outcome State Fault Refusal :=
  scalarWord .c t s 1 d [a, b] fun v => v0 v &&& ~~~ v1 v

def execShl (t : Tok) (d : Dst) (a b : Src) (s : State) : Host.Outcome State Fault Refusal :=
  scalarWord .c t s 1 d [a, b] fun v => v0 v <<< shAmt (v1 v)

def execShr (t : Tok) (d : Dst) (a b : Src) (s : State) : Host.Outcome State Fault Refusal :=
  scalarWord .c t s 1 d [a, b] fun v => v0 v >>> shAmt (v1 v)

def execSar (t : Tok) (d : Dst) (a b : Src) (s : State) : Host.Outcome State Fault Refusal :=
  scalarWord .c t s 1 d [a, b] fun v => (v0 v).sshiftRight (shAmt (v1 v))

def execRotl (t : Tok) (d : Dst) (a b : Src) (s : State) : Host.Outcome State Fault Refusal :=
  scalarWord .c t s 1 d [a, b] fun v => rotl64 (v0 v) (v1 v)

def execMin (t : Tok) (d : Dst) (a b : Src) (s : State) : Host.Outcome State Fault Refusal :=
  scalarWord .c t s 1 d [a, b] fun v => minS (v0 v) (v1 v)

def execMinu (t : Tok) (d : Dst) (a b : Src) (s : State) : Host.Outcome State Fault Refusal :=
  scalarWord .c t s 1 d [a, b] fun v => minU (v0 v) (v1 v)

def execMax (t : Tok) (d : Dst) (a b : Src) (s : State) : Host.Outcome State Fault Refusal :=
  scalarWord .c t s 1 d [a, b] fun v => maxS (v0 v) (v1 v)

def execMaxu (t : Tok) (d : Dst) (a b : Src) (s : State) : Host.Outcome State Fault Refusal :=
  scalarWord .c t s 1 d [a, b] fun v => maxU (v0 v) (v1 v)

/-- sel (R117): all three sources are read and share one clock. -/
def execSel (t : Tok) (d : Dst) (a b c : Src) (s : State) : Host.Outcome State Fault Refusal :=
  scalarWord .c t s 2 d [a, b, c] fun v => if v2 v != 0 then v0 v else v1 v

def execMul (t : Tok) (d : Dst) (a b : Src) (s : State) : Host.Outcome State Fault Refusal :=
  scalarWord .c t s 1 d [a, b] fun v => v0 v * v1 v

def execMulhs (t : Tok) (d : Dst) (a b : Src) (s : State) : Host.Outcome State Fault Refusal :=
  scalarWord .c t s 1 d [a, b] fun v => mulHiS (v0 v) (v1 v)

def execMulhu (t : Tok) (d : Dst) (a b : Src) (s : State) : Host.Outcome State Fault Refusal :=
  scalarWord .c t s 1 d [a, b] fun v => mulHiU (v0 v) (v1 v)

def execDiv (t : Tok) (d : Dst) (a b : Src) (s : State) : Host.Outcome State Fault Refusal :=
  scalarWord .c t s 1 d [a, b] fun v => divS (v0 v) (v1 v)

def execDivu (t : Tok) (d : Dst) (a b : Src) (s : State) : Host.Outcome State Fault Refusal :=
  scalarWord .c t s 1 d [a, b] fun v => divU (v0 v) (v1 v)

def execRem (t : Tok) (d : Dst) (a b : Src) (s : State) : Host.Outcome State Fault Refusal :=
  scalarWord .c t s 1 d [a, b] fun v => remS (v0 v) (v1 v)

def execRemu (t : Tok) (d : Dst) (a b : Src) (s : State) : Host.Outcome State Fault Refusal :=
  scalarWord .c t s 1 d [a, b] fun v => remU (v0 v) (v1 v)

def execClz (t : Tok) (d : Dst) (a : Src) (s : State) : Host.Outcome State Fault Refusal :=
  scalarWord .c t s 1 d [a] fun v => BitVec.ofNat 64 (clzFrom (v0 v) 64)

def execCtz (t : Tok) (d : Dst) (a : Src) (s : State) : Host.Outcome State Fault Refusal :=
  scalarWord .c t s 1 d [a] fun v => BitVec.ofNat 64 (ctzFrom (v0 v) 64)

def execPopc (t : Tok) (d : Dst) (a : Src) (s : State) : Host.Outcome State Fault Refusal :=
  scalarWord .c t s 1 d [a] fun v => BitVec.ofNat 64 (popFrom (v0 v) 64)

def execSext (t : Tok) (d : Dst) (a : Src) (w : ExtWidth) (s : State) : Host.Outcome State Fault Refusal :=
  scalarWord .c t s 1 d [a] fun v => sextTo w (v0 v)

def execZext (t : Tok) (d : Dst) (a : Src) (w : ExtWidth) (s : State) : Host.Outcome State Fault Refusal :=
  scalarWord .c t s 1 d [a] fun v => zextTo w (v0 v)

def execCmp (t : Tok) (f : CmpOp) (d : Dst) (a b : Src) (s : State) : Host.Outcome State Fault Refusal :=
  scalarWord .c t s 1 d [a, b] fun v => boolWord (cmpWord f (v0 v) (v1 v))

def execAddi (t : Tok) (d : Dst) (a : Src) (imm : BitVec 9) (s : State) : Host.Outcome State Fault Refusal :=
  scalarWord .c t s 1 d [a] fun v => v0 v + imm.signExtend 64

def execAddiExt (t : Tok) (d : Dst) (a : Src) (imm : BitVec 38) (s : State) : Host.Outcome State Fault Refusal :=
  scalarWord .c t s 2 d [a] fun v => v0 v + imm.signExtend 64

def execLi (t : Tok) (d : Dst) (imm : BitVec 14) (s : State) : Host.Outcome State Fault Refusal :=
  scalarWord .c t s 1 d [] fun _ => imm.signExtend 64

def execLiExt (t : Tok) (d : Dst) (imm : BitVec 43) (s : State) : Host.Outcome State Fault Refusal :=
  scalarWord .c t s 2 d [] fun _ => imm.signExtend 64

def execLih (t : Tok) (d : Dst) (a : Src) (hi : BitVec 21) (s : State) : Host.Outcome State Fault Refusal :=
  scalarWord .c t s 2 d [a] fun v => lihVal hi (v0 v)

/-- keep (R121): value and tag into a named register; nothing is dropped. -/
def keepWord (e : Engine) (t : Tok) (n b : Fin 16) (s : State) : Host.Outcome State Fault Refusal :=
  runWord e t s fun c k => do
    let g ← gather e s c k [.b b] none sameClock true (some n)
    pure (finish e g.st c k t (c.core.pc.get e + 1) { reg := some (n, { val := v0 g.vals, tag := g.clk }) })

/-- take (R121): value and tag of a named register onto the crema. -/
def takeWord (e : Engine) (t : Tok) (n : Fin 16) (s : State) : Host.Outcome State Fault Refusal :=
  runWord e t s fun c k => do
    let g ← gather e s c k [.r n] none sameClock true none
    pure (finish e g.st c k t (c.core.pc.get e + 1)
      { drop := some { val := if g.on then v0 g.vals else 0, tag := g.clk } })

def execKeep (t : Tok) (n b : Fin 16) (s : State) : Host.Outcome State Fault Refusal := keepWord .c t n b s

def execTake (t : Tok) (n : Fin 16) (s : State) : Host.Outcome State Fault Refusal := takeWord .c t n s

/-- nop (R122): its token actions alone. -/
def execNop (t : Tok) (s : State) : Host.Outcome State Fault Refusal :=
  runWord .c t s fun c k => .ok (finish .c s c k t (c.core.pc.c + 1) {})

/-! ## The A words (R123) -/

def execAadd (t : Tok) (d : Dst) (a b : Src) (s : State) : Host.Outcome State Fault Refusal :=
  scalarWord .a t s 1 d [a, b] fun v => v0 v + v1 v

def execAsub (t : Tok) (d : Dst) (a b : Src) (s : State) : Host.Outcome State Fault Refusal :=
  scalarWord .a t s 1 d [a, b] fun v => v0 v - v1 v

def execAshl (t : Tok) (d : Dst) (a b : Src) (s : State) : Host.Outcome State Fault Refusal :=
  scalarWord .a t s 1 d [a, b] fun v => v0 v <<< shAmt (v1 v)

def execAmadd (t : Tok) (d : Dst) (a b c : Src) (s : State) : Host.Outcome State Fault Refusal :=
  scalarWord .a t s 2 d [a, b, c] fun v => v0 v * v1 v + v2 v

def execAaddi (t : Tok) (d : Dst) (a : Src) (imm : BitVec 9) (s : State) : Host.Outcome State Fault Refusal :=
  scalarWord .a t s 1 d [a] fun v => v0 v + imm.signExtend 64

def execAaddiExt (t : Tok) (d : Dst) (a : Src) (imm : BitVec 38) (s : State) : Host.Outcome State Fault Refusal :=
  scalarWord .a t s 2 d [a] fun v => v0 v + imm.signExtend 64

def execAli (t : Tok) (d : Dst) (imm : BitVec 14) (s : State) : Host.Outcome State Fault Refusal :=
  scalarWord .a t s 1 d [] fun _ => imm.signExtend 64

def execAliExt (t : Tok) (d : Dst) (imm : BitVec 43) (s : State) : Host.Outcome State Fault Refusal :=
  scalarWord .a t s 2 d [] fun _ => imm.signExtend 64

def execAKeep (t : Tok) (n b : Fin 16) (s : State) : Host.Outcome State Fault Refusal := keepWord .a t n b s

def execATake (t : Tok) (n : Fin 16) (s : State) : Host.Outcome State Fault Refusal := takeWord .a t n s

end Sys2Proof.Machine
end

