-- ==== Sys2Proof/Machine/CCtl.lean ====
section
/-! DEFINITION. Transfers of C and A, calls, loops, and the steering transfers (R124 to R130). -/

namespace Sys2Proof.Machine

open Sys2Proof

/-- Read bytes of one line at a virtual address for a task: its own store lines first; the line joins the read set (R253,
R259, R283, R285). A weight-store macro in its steep window (R265), or a link, is waited for; a peer is asked (R384), for `who`. -/
def State.readVirtPiece (s : State) (t : Task) (cell : Nat) (who : Asker) (lines : List StoreLine) (va : Word64) (n : Nat) :
    Except Stop (State × List Byte) := do
  let (p, r) ← s.translate t.ctx cell va .read
  if s.steep r.pa then .error (.wait .plain)
  let s := s.cachePage t.ctx cell p
  let own := ownBytes lines r.pa n
  if own.all Option.isSome then .ok (s, own.map fun b => b.getD 0)
  else if !s.asked t.ctx cell who r.pa n then .error (.ask who va.toNat r.pa n r.zero (.read n))
  else if !s.linked r.pa then .error (.wait .plain)
  else
    let s := s.taken t.ctx cell who r.pa n
    let r := { r with size := n }
    match (match who with | .word id => s.keepRead t.ctx cell id r | _ => s).readLine t.ctx cell r with
    | (s', .ok bs) => .ok (s'.recordRead t.id r.pa, overlayBytes own bs)
    | (s', .error (cause, owner)) => (s'.recordRead t.id r.pa).keepReads t.id (.error (.raise .uncorrectable cause va owner))

/-- Read `n` bytes at a virtual address, one access for each line; the first number is a bound on the lines. -/
def State.readVirtLines (s : State) (t : Task) (cell : Nat) (who : Asker) (lines : List StoreLine) (va : Word64) :
    Nat → Nat → Except Stop (State × List Byte)
  | 0, _ => .ok (s, [])
  | fuel + 1, n =>
    if n = 0 then .ok (s, [])
    else do
      let m := Nat.min n (64 - va.toNat % 64)
      let (s, b) ← s.readVirtPiece t cell who lines va m
      let (s, bs) ← s.keepReads t.id (s.readVirtLines t cell who lines (va + BitVec.ofNat 64 m) fuel (n - m))
      .ok (s, b ++ bs)

/-- Read `n` bytes at a virtual address over given store lines, as one access: ZCNT counts it once (R271, R276). -/
def State.readVirtOver (s : State) (t : Task) (cell : Nat) (who : Asker) (lines : List StoreLine) (va : Word64) (n : Nat) :
    Except Stop (State × List Byte) :=
  let z := ((s.getCell t.ctx cell).map Cell.zcnt).getD 0
  (s.readVirtLines t cell who lines va (n / 64 + 2) n).map fun p =>
    (p.1.updCell t.ctx cell fun c => { c with zcnt := Nat.min c.zcnt (z + 1) }, p.2)

/-- Read `n` bytes at a virtual address. -/
def State.readVirt (s : State) (t : Task) (cell : Nat) (who : Asker) (va : Word64) (n : Nat) : Except Stop (State × List Byte) :=
  s.readVirtOver t cell who (((s.getCell t.ctx cell).map fun c => (c.bufOf t.id).lines).getD []) va n

/-- Close a batch as `mcommit` does (R231, R232): Draining while a joined command is incomplete, otherwise Idle. -/
def Cell.closeBatch (c : Cell) (b : Fin 16) : Cell :=
  if c.batches[b].st == .gathering then
    let busy := c.cmds.any fun k => !k.aborted && k.desc.toNat / 2 ^ 96 % 16 == b.val && k.desc.toNat % 64 != 7
    ({ c with batches := c.batches.set b (if busy then { c.batches[b] with st := .draining } else {}) }).freePeeks
  else c

/-- Close every Gathering batch in increasing id (R130, R303). -/
def Cell.closeAll (c : Cell) : Cell := (List.range 16).foldl (fun (c : Cell) b => c.closeBatch (Fin.ofNat 16 b)) c

/-- The words that A, V and M have started have run to completion, an operation that holds its slot among them (R320), but for
streams, which run on at the label (R127, R173). -/
def Cell.ranOut (c : Cell) : Bool :=
  c.mwait.isNone && (c.scWait.all fun w => w.slot.isNone) && c.fly.all fun f => match f.op with | .done | .stream | .stored false _ => true | _ => false

/-- A word of A that still runs has lost the tokens that it would push (R127). -/
def Fly.dropToks (f : Fly) : Fly := { f with tok := { f.tok with hp := false, hn := false } }

/-- The end of a steering transfer (R127): tokens, then all four program counters, then the call depth. The words that waited to
start are no more, and wait for nothing (R150). `clear` is xbrk's emptying of the token queues, those of words behind a running
stream included. -/
def Cell.steerTo (c : Cell) (t : Tok) (target : Nat) (clear : Bool) : Cell :=
  let toks := if clear then Vector.replicate 8 0 else tokTake c.core.toks .c t
  { c with
    core := { c.core with toks := tokGive toks .c t, pc := ⟨target, target, target, target⟩, callDepth := 0 }
    waits := { c.waits.issue .c with a := .none, v := .none, m := .none }, safe := false, scWait := none, pair := none, steer := true, steering := false
    fly := if clear then c.fly.map Fly.dropToks else c.fly
    tokRsv := if clear then c.fly.foldl (fun r f => tokRelease r .a f.tok) c.tokRsv else c.tokRsv }

/-- A steering transfer whose started words have not run to completion: no other word starts meanwhile (R127). -/
def State.steerWait (s : State) : State := (s.updHere fun c => { c with steering := true }).noteWait .c .plain

/-! ## C transfers -/

def execBr (t : Tok) (off : BitVec 19) (s : State) : Host.Outcome State Fault Refusal :=
  runWord .c t s fun c k => do
    let next ← s.target k (c.core.pc.c + off.toInt)
    pure (finish .c s c k t next {})

def execBz (t : Tok) (a : Src) (off : BitVec 14) (s : State) : Host.Outcome State Fault Refusal :=
  branchWord .c t s a off.toInt fun v => v == 0

def execBnz (t : Tok) (a : Src) (off : BitVec 14) (s : State) : Host.Outcome State Fault Refusal :=
  branchWord .c t s a off.toInt fun v => v != 0

/-- call (R125): s15 and the crema take the return address with tag k0. -/
def execCall (t : Tok) (off : BitVec 19) (s : State) : Host.Outcome State Fault Refusal :=
  runWord .c t s fun c k => do
    s.mirrorWait k s.cur.cell c (some 15)
    if c.core.callDepth = 255 then .error (Stop.of .illegalWord)
    let next ← s.target k (c.core.pc.c + off.toInt)
    let v : SVal := { val := BitVec.ofNat 64 (c.core.pc.c + 1), tag := 0 }
    let call0 := if c.core.callDepth = 0 then c.core.pc.c else c.core.call0
    let c' := { c with core := { c.core with callDepth := c.core.callDepth + 1, call0 := call0 } }
    pure (finish .c (s.putHere c') c k t next { drop := some v, reg := some (15, v) })

def execJr (t : Tok) (a : Src) (s : State) : Host.Outcome State Fault Refusal :=
  runWord .c t s fun c k => do
    let g ← gather .c s c k [a] none sameClock false none
    let next ← if g.on then s.target k ((v0 g.vals).toNat : Int) else pure (c.core.pc.c + 1)
    pure (finish .c g.st c k t next {})

/-- ret (R125): s15 is its source, with the tag, the clock check and the binding of one (R136, R137, R159; log entry 7). -/
def execRet (t : Tok) (s : State) : Host.Outcome State Fault Refusal :=
  runWord .c t s fun c k => do
    let g ← gather .c s c k [.r 15] none (legalForm (c.core.callDepth ≠ 0)) false none
    if !g.on then pure (finish .c s c k t (c.core.pc.c + 1) {})
    else
      let next ← s.target k ((v0 g.vals).toNat : Int)
      let s' := g.st.updHere fun c => { c with core := { c.core with callDepth := c.core.callDepth - 1 } }
      pure (finish .c s' c k t next {})

/-- loop and aloop (R126). A target that is no head word is a fault of a loop that goes back alone (log entry 77). -/
def loopWord (e : Engine) (t : Tok) (a : Src) (off : Int) (s : State) : Host.Outcome State Fault Refusal :=
  runWord e t s fun c k => do
    let n := match a with | .r n => some n | .b _ => none
    let g ← gather e s c k [a] none sameClock false n
    let v := if v0 g.vals = 0 then 0 else v0 g.vals - 1
    let pc := c.core.pc.get e
    let next ← if g.on && v != 0 then s.target k (pc + off) else pure (pc + 1)
    let r : Result :=
      if g.on then { drop := some { val := v, tag := g.clk }, reg := n.map fun n => (n, { val := v, tag := g.clk }) }
      else { drop := some { val := 0, tag := g.clk } }
    pure (finish e g.st c k t next r)

def execLoop (t : Tok) (a : Src) (off : BitVec 14) (s : State) : Host.Outcome State Fault Refusal :=
  loopWord .c t a off.toInt s

/-- What bksel finds in its table (R129): the state after the reads, the target and the valid rows. -/
def bkselTable (s : State) (k : Task) (a : Word64) (g : Nat) : Except Stop (State × Nat × Nat) := do
  let cell := s.cur.cell
  match (s.stageOf k).bind Stage.grinder with
  | none => .error (Stop.of .bucketRange)
  | some dir =>
    let (s, d) ← s.readVirt k cell .issue (BitVec.ofNat 64 (dir + 8 * g)) 8
    s.keepReads k.id do
      let tab := leNat d
      if tab = 0 then .error (Stop.of .bucketRange)
      let (s, h) ← s.readVirt k cell .issue (BitVec.ofNat 64 tab) 8
      s.keepReads k.id do
        let n := leNat h % 65536
        if n = 0 then .error (Stop.of .bucketRange)
        let idx := if a = 0 then 0 else (a.toNat - 1) / 128
        let v := if a = 0 then 0 else (a.toNat - 1) % 128 + 1
        if n ≤ idx && leNat h / 65536 % 2 = 0 then .error (Stop.of .bucketRange)
        let idx := if n ≤ idx then n - 1 else idx
        let (s, w) ← s.readVirt k cell .issue (BitVec.ofNat 64 (tab + 8 + 4 * idx)) 4
        let next ← s.keepReads k.id (s.target k ((leNat w % 65536 : Nat) : Int))
        .ok (s, next, v)

/-- The low `n` bits set. -/
def lowMask (n : Nat) : BitVec 64 := BitVec.ofNat 64 (2 ^ n - 1)

/-- The masks and the t63 patch of bksel (R129). The 32-bit word that holds PAD is written, and sound then (log entry 117). -/
def Core.bkselMarks (c : Core) (v : Nat) : Core :=
  let masks := (c.masks.set 6 { bits := lowMask (Nat.min v 64) }).set 7 { bits := lowMask (v - 64) }
  let t := c.tmpls[(63 : Fin 64)]
  let pad := BitVec.ofNat 256 (v % 128) <<< 112
  { c with masks := masks
           tmpls := if v = 0 then c.tmpls
             else c.tmpls.set 63 { bits := (t.bits &&& ~~~(BitVec.ofNat 256 0xFF <<< 112)) ||| pad, bad := t.bad &&& ~~~(8 : BitVec 8) } }

/-- bksel (R129). -/
def execBksel (t : Tok) (a : Src) (g : Fin 256) (s : State) : Host.Outcome State Fault Refusal :=
  runWord .c t s fun c k => do
    let x ← gather .c s c k [a] none sameClock false none
    if x.on && !c.ranOut then pure s.steerWait
    else if x.on then
      let (s', next, v) ← bkselTable x.st k (v0 x.vals) g.val
      let c' := (s'.getCell s.cur.ctx s.cur.cell).getD c
      pure (s'.putHere ({ c' with core := c'.core.bkselMarks v }.steerTo t next false))
    else pure (finish .c x.st c k t (c.core.pc.c + 1) {})

/-- xbrk (R130). -/
def execXbrk (t : Tok) (off : BitVec 19) (s : State) : Host.Outcome State Fault Refusal :=
  runWord .c t s fun c k => do
    let next ← s.target k (c.core.pc.c + off.toInt)
    if !c.ranOut then pure s.steerWait else pure (s.putHere (c.closeAll.steerTo t next true))

/-! ## A transfers -/

def execAbr (t : Tok) (off : BitVec 19) (s : State) : Host.Outcome State Fault Refusal :=
  runWord .a t s fun c k => do
    let next ← s.target k (c.core.pc.a + off.toInt)
    pure (finish .a s c k t next {})

def execAbz (t : Tok) (a : Src) (off : BitVec 14) (s : State) : Host.Outcome State Fault Refusal :=
  branchWord .a t s a off.toInt fun v => v == 0

def execAbnz (t : Tok) (a : Src) (off : BitVec 14) (s : State) : Host.Outcome State Fault Refusal :=
  branchWord .a t s a off.toInt fun v => v != 0

def execAloop (t : Tok) (a : Src) (off : BitVec 14) (s : State) : Host.Outcome State Fault Refusal :=
  loopWord .a t a off.toInt s

end Sys2Proof.Machine
end

