-- ==== Sys2Proof/Machine/Clock.lean ====
section
/-! DEFINITION. The clock instructions of C (R140 to R146). -/

namespace Sys2Proof.Machine

open Sys2Proof

/-- The clock checks of clkon and clkoff (R140). -/
def defineClock (c : Core) (kd kp : Clk) (tags : List Clk) : Except Stop Clk :=
  if kd = 0 then .error (Stop.of .illegalWord)
  else if clkBad c kp || clkBad c kd then .error (Stop.of .uncorrectable)
  else if !clkDef c kp || tags.any (· != kp) then .error (Stop.of .clockMismatch)
  else if clkDef c kd then .error (Stop.of .clockRedef)
  else .ok kp

/-- clkon and clkoff (R140): never absent; kd is false where kp is. -/
def clkWord (pol : Bool) (t : Tok) (kd kp : Clk) (b : Src) (s : State) : Host.Outcome State Fault Refusal :=
  runWord .c t s fun c k => do
    let g ← gather .c s c k [b] (some kp) (defineClock c.core kd kp) false none
    let v := g.on && (if pol then v0 g.vals != 0 else v0 g.vals == 0)
    let s' := g.st.updHere fun c =>
      { c with core := { c.core with clks := c.core.clks.set kd { val := v, dfn := true, parent := kp, pol := pol } } }
    pure (finish .c s' c k t (c.core.pc.c + 1) {})

def execClkon (t : Tok) (kd kp : Clk) (b : Src) (s : State) : Host.Outcome State Fault Refusal :=
  clkWord true t kd kp b s

def execClkoff (t : Tok) (kd kp : Clk) (b : Src) (s : State) : Host.Outcome State Fault Refusal :=
  clkWord false t kd kp b s

/-- clkrd (R141): always present, on k0. -/
def execClkrd (t : Tok) (d : Dst) (k : Clk) (s : State) : Host.Outcome State Fault Refusal :=
  runWord .c t s fun c x => do
    s.mirrorWait x s.cur.cell c (dstNamed d)
    needSound (clkBad c.core k)
    pure (finish .c s c x t (c.core.pc.c + 1) (resultOf d 0 true (boolWord (clkOn c.core k))))

/-- when (R142). -/
def execWhen (t : Tok) (d : Dst) (a : Src) (k : Clk) (s : State) : Host.Outcome State Fault Refusal :=
  runWord .c t s fun c x => do
    let g ← gather .c s c x [a] (some k) (fun tags => whenClock c.core k (tags.headD 0)) false (dstNamed d)
    pure (finish .c g.st c x t (c.core.pc.c + 1) (resultOf d g.clk g.on (v0 g.vals)))

/-- The clock of a merge that its unbound sources give (R144, R159): the parent of one of their tags. -/
def mergeKnown (c : Core) (free : List Clk) : Option Clk :=
  free.head?.map fun k => if clkDef c k then c.clks[k].parent else k

/-- The check of a merge; with a bound source and an absent parent there is no second tag to check. -/
def mergeForm (c : Core) (free : List Clk) (tags : List Clk) : Except Stop Clk :=
  match mergeKnown c free with
  | some kp =>
    if free.length = 1 && !clkOn c kp then
      (if clkDef c (free.headD 0) then .ok kp else .error (Stop.of .clockMismatch))
    else mergeClock c (tags.getD 0 0) (tags.getD 1 0)
  | none => mergeClock c (tags.getD 0 0) (tags.getD 1 0)

/-- merge (R144). -/
def execMerge (t : Tok) (d : Dst) (a b : Src) (s : State) : Host.Outcome State Fault Refusal :=
  runWord .c t s fun c x => do
    let free := ([a, b].filter fun y => (s.bindOf x s.cur.cell c .c y).isNone).map fun y => (srcVal .c c.core y).tag
    let g ← gather .c s c x [a, b] (mergeKnown c.core free) (mergeForm c.core free) false (dstNamed d)
    let v := if c.core.clks[g.tags.getD 0 0].val then v0 g.vals else v1 g.vals
    pure (finish .c g.st c x t (c.core.pc.c + 1) (resultOf d g.clk g.on v))

/-- cur (R143): the named register d holds the last sample. -/
def execCur (t : Tok) (d : Dst) (a : Src) (k : Clk) (s : State) : Host.Outcome State Fault Refusal :=
  runWord .c t s fun c x =>
    match d with
    | .drop => .error (Stop.of .illegalWord)
    | .reg n => do
      let g ← gather .c s c x [a] (some k) (fun tags => curClock c.core k (tags.headD 0)) false (some n)
      let fresh := c.core.clks[g.tags.headD 0].val
      needSound (g.on && !fresh && c.core.sregs[n].bad != 0)
      let v := if fresh then v0 g.vals else c.core.sregs[n].val
      pure (finish .c g.st c x t (c.core.pc.c + 1) (resultOf d k g.on v))

/-- dly (R146). -/
def execDly (t : Tok) (d : Dst) (a : Src) (slot : Fin 64) (s : State) : Host.Outcome State Fault Refusal :=
  runWord .c t s fun c x => do
    let p := c.core.delays[slot]
    let g ← gather .c s c x [a] none (fun tags => (needSound p.tagBad).bind fun _ => dlyClock p (tags.headD 0)) false (dstNamed d)
    if g.on && p.wrote then .error (Stop.of .clockRedef)
    needSound (g.on && p.bad &&& 3 != 0)
    let q : DelaySlot := { p with
      bits := (p.bits >>> 64 <<< 64) ||| (v0 g.vals).setWidth 2048, cb := g.clk, bnd := true, wrote := true }
    let s' := if g.on then g.st.updHere fun c => { c with core := { c.core with delays := c.core.delays.set slot q } } else g.st
    pure (finish .c s' c x t (c.core.pc.c + 1) (resultOf d g.clk g.on (p.bits.setWidth 64)))

end Sys2Proof.Machine
end

