-- ==== Sys2Proof/Machine/Spad.lean ====
section
/-! DEFINITION. The scratchpad: its halves (R246, R256), lent regions (R225), undo records (R257), poison and refetch
(R258, R273); and template descriptors (R50 to R54). -/

namespace Sys2Proof.Machine

open Sys2Proof

/-! ## Halves and lent regions -/

/-- Where a half starts (R246): the input half with the phase, the output half against it. -/
def halfBase (phase output : Bool) : Nat := if phase == output then 0 else 0x80000

/-- A span lies in one half; an empty span lies anywhere. -/
def inHalf (phase output : Bool) (off len : Nat) : Bool :=
  len = 0 || (halfBase phase output ≤ off && off + len ≤ halfBase phase output + 0x80000)

/-- The lent regions of a cell (R225): those of the commands of open batches, and of each mpeek in motion. -/
def Cell.lends (c : Cell) : List Lend :=
  (c.batches.toList.flatMap fun b => if b.st == .idle then [] else b.members.flatMap Member.lent) ++
    (c.cmds.filter fun k => !k.aborted && k.desc.toNat % 64 == 7).flatMap Cmd.lent

/-- A span meets a lent region: any region for a write, a destination region for a read. -/
def Cell.lentOut (c : Cell) (write : Bool) (off len : Nat) : Bool :=
  len != 0 && c.lends.any fun l => (write || l.dst) && 64 * l.lo < off + len && off < 64 * l.hi

/-! ## Reading -/

/-- The poisoned 64-bit words of a span. -/
def Cell.badWords (c : Cell) (off len : Nat) : List Nat :=
  if len = 0 then [] else c.spadBad.filter fun w => off / 8 ≤ w && w ≤ (off + len - 1) / 8

/-- A poisoned word of a refetchable unit (R258). -/
def Cell.refetchable (c : Cell) (w : Nat) : Bool := (mget c.core.origins (w / 8)).isSome

/-- A read of the input half: its bytes, or what its poison does (R258). -/
def Cell.spadRead (c : Cell) (t : Task) (off len : Nat) : Except Stop (List Byte) :=
  match c.badWords off len with
  | [] => .ok (readBytes c.spad off len)
  | ws => .error (.spad (!t.frontier && ws.all c.refetchable))

/-! ## Writing -/

/-- The units of a span. -/
def unitsOf (off len : Nat) : List Nat := if len = 0 then [] else List.range' (off / 64) ((off + len - 1) / 64 + 1 - off / 64)

/-- The later instants of a stage group that have written a unit of a span in this cell (R257). -/
def State.laterWriters (s : State) (ctx inst stage cell : Nat) (t : Option Task) (units : List Nat) : List Task :=
  match s.getCell ctx cell with
  | none => []
  | some c => (s.tasksOf ctx inst).filter fun u =>
      !u.launched && u.stage = stage && (match t with | some t => keyLt t.key u.key | none => true) &&
        (c.bufOf u.id).undo.any fun r => r.1 ∈ units

/-- The units of a span that a speculative task has not recorded yet. -/
def Cell.unrecorded (c : Cell) (id : Nat) (units : List Nat) : List Nat :=
  units.filter fun u => !((c.bufOf id).undo.any fun r => r.1 = u)

/-- Write bytes into a cell's scratchpad. A word written whole loses its poison, and a unit its origin. -/
def Cell.spadWrite (c : Cell) (off : Nat) (bs : List Byte) : Cell :=
  { c with
    spad := writeBytes c.spad off bs
    spadBad := c.spadBad.filter fun w => !(off ≤ 8 * w && 8 * w + 8 ≤ off + bs.length)
    core := { c.core with origins := c.core.origins.filter fun p => !(p.1 ∈ unitsOf off bs.length) } }

/-- Take the undo records of units that a speculative task writes first in its instant (R257). -/
def Cell.recordUnits (c : Cell) (id : Nat) (units : List Nat) : Cell :=
  let new := (c.unrecorded id units).map fun u => (u, (lineOf 0 (readBytes c.spad (64 * u) 64)).2)
  if new.isEmpty then c else c.putBuf { c.bufOf id with undo := new.reverse ++ (c.bufOf id).undo }

/-- Whether a task that may have committed is speculative. -/
def State.specOf (s : State) (id : Nat) : Bool :=
  match s.getTask id with
  | some t => !s.atPour t
  | none => false

/-- Make units of the scratchpad ready for a write by a task of an instance and stage (R257): later instants that wrote a unit abort
first, and a speculative task waits where the write buffer has no room for its records of them. -/
def State.spadClaim (s : State) (ctx inst stage cell id : Nat) (units : List Nat) : Except Stop State :=
  let s := s.abortTasks (s.laterWriters ctx inst stage cell (s.getTask id) units)
  match s.getCell ctx cell with
  | none => .ok s
  | some c => if s.specOf id && !c.bufRoom (72 * (c.unrecorded id units).length) then .error (.wait .bufferFull) else .ok s

/-- Write bytes to the scratchpad for a task: a speculative one records the old units (R257). -/
def State.spadStore (s : State) (ctx inst stage cell id off : Nat) (bs : List Byte) : Except Stop State :=
  let units := unitsOf off bs.length
  (s.spadClaim ctx inst stage cell id units).map fun s =>
    match s.getCell ctx cell with
    | none => s
    | some c => s.putCell ctx cell ((if s.specOf id then c.recordUnits id units else c).spadWrite off bs)

/-! ## Template descriptors (R50 to R53) -/

/-- A field of a descriptor: word, lowest bit, width. -/
def dfield (d : BitVec 256) (w lo n : Nat) : Nat := d.toNat / 2 ^ (32 * w + lo) % 2 ^ n

def dOp (d : BitVec 256) : Nat := dfield d 0 0 6
def dAfmt (d : BitVec 256) : Nat := dfield d 0 6 4
def dBfmt (d : BitVec 256) : Nat := dfield d 0 10 4
def dFlags (d : BitVec 256) : Nat := dfield d 0 16 16
def dAbuf (d : BitVec 256) : Nat := dfield d 1 0 16
def dBbuf (d : BitVec 256) : Nat := dfield d 1 16 16
def dBank (d : BitVec 256) : Nat := dfield d 2 0 16
def dKsteps (d : BitVec 256) : Nat := dfield d 2 16 16
def dBatch (d : BitVec 256) : Nat := dfield d 3 0 16
def dPad (d : BitVec 256) : Nat := dfield d 3 16 16
def dAstride (d : BitVec 256) : Nat := dfield d 4 0 16
def dBstride (d : BitVec 256) : Nat := dfield d 4 16 16
def dScale (d : BitVec 256) : Nat := dfield d 5 0 16

/-- The formats that the array takes (R53). -/
def arrayFmt (f : Nat) : Bool := 7 ≤ f && f ≤ 11

/-- AFMT and BFMT agree in width, and are not BF16 beside FP16 (R53). -/
def fmtPair (a b : Nat) : Bool :=
  fmtWidth (fmtOf a) == fmtWidth (fmtOf b) && !((a = 10 && b = 11) || (a = 11 && b = 10))

/-- The checks of `tmpl` (R53). -/
def loadCheck (d : BitVec 256) : Bool :=
  dOp d ≤ 0x0A && dfield d 0 14 2 = 0 && dFlags d < 16 && dBank d < 128 && dBatch d < 16 && dfield d 5 16 16 = 0 &&
    dfield d 6 0 32 = 0 && dfield d 7 0 32 = 0 &&
    (!(dOp d = 1 || dOp d = 2) || (arrayFmt (dAfmt d) && arrayFmt (dBfmt d))) && (dOp d != 8 || arrayFmt (dAfmt d)) &&
    fmtPair (dAfmt d) (dBfmt d)

/-- Replace a field of a descriptor. -/
def dput (d : BitVec 256) (w lo : Nat) (v : BitVec 16) : BitVec 256 :=
  (d &&& ~~~(BitVec.ofNat 256 0xFFFF <<< (32 * w + lo))) ||| (v.setWidth 256 <<< (32 * w + lo))

/-- Apply a patch (R49). -/
def patch (d : BitVec 256) (sel : Fin 8) (v : BitVec 16) : BitVec 256 :=
  match sel with
  | 0 => d
  | 1 => dput d 1 0 v
  | 2 => dput d 1 16 v
  | 3 => dput d 2 0 v
  | 4 => dput d 2 16 v
  | 5 => dput d 3 0 v
  | 6 => dput d 3 16 v
  | 7 => dput d 0 16 v

/-- The checks after patching (R53), on the fields that the operation reads (R52). -/
def patchCheck (d : BitVec 256) : Bool :=
  let op := dOp d
  let mul := op = 1 || op = 2
  let bankOp := 3 ≤ op && op ≤ 7
  (!(mul || bankOp) || dBank d < 128) && (op = 0 || op = 7 || dBatch d < 16) && (!(mul || op = 8) || dFlags d < 16) &&
    (!(mul || (5 ≤ op && op ≤ 8)) || dAbuf d < 16384) && (!(mul || op = 8) || dBbuf d < 16384) &&
    (op != 4 || dScale d < 16384) && (!(mul || op = 8) || (dPad d % 256 ≤ 128 && dPad d / 256 ≤ 128)) &&
    (!(mul || op = 8) || dKsteps d != 0) && (!bankOp || dBank d + dKsteps d ≤ 128)

/-- A padding count (R51): 0 means 128. -/
def padCount (n : Nat) : Nat := if n = 0 then 128 else n

end Sys2Proof.Machine
end

