-- ==== Sys2Proof/Machine/CSys.lean ====
section
/-! DEFINITION. The system instructions of C: closing instants and tasks, launches, the twin window, the licence, barriers,
banks, templates, state registers, trap and brkp. -/

namespace Sys2Proof.Machine

open Sys2Proof

/-! ## Closing the instant and the task (R148, R298, R303) -/

/-- Every word that A, V and M have started has finished, an operation that holds its slot among them (R320, R325), and the
instant's copies have moved their bytes (R148, R262). -/
def Cell.wordsDone (c : Cell) (task : Nat) : Bool :=
  c.fly.isEmpty && c.mwait.isNone && (c.scWait.all fun w => w.slot.isNone) && c.copies.all fun x => x.task != task

/-- The origins that a new output half starts with: stage data that nothing has written (R258). -/
def clearOrigins (phase : Bool) (m : AMap Origin) : AMap Origin :=
  m.filter fun p => p.2 == .stage || !inHalf phase true (64 * p.1) 64

/-- What the retirement of iend leaves in the registers (R134, R147, R246). -/
def Core.closeInstant (c : Core) : Core :=
  { c with
    phase := !c.phase
    clks := (c.clks.map fun k => { k with val := false, dfn := false, bad := false }).set 0 c.clks[(0 : Fin 16)]
    delays := c.delays.map fun d => { d with wrote := false }
    origins := clearOrigins (!c.phase) c.origins }

/-- The next task of a stage group: the one that another cell's iend made, or a new one (R131, R279). -/
def State.nextTask (s : State) (t : Task) (period : Nat) : State × Nat :=
  let ts := t.ts + period * 65536
  match (s.tasksOf t.ctx t.inst).find? fun u => !u.launched && u.stage = t.stage && u.ts = ts with
  | some u => (s, u.id)
  | none =>
    ({ s with nextId := s.nextId + 1 }.putTask
      { id := s.nextId, ctx := t.ctx, inst := t.inst, stage := t.stage, ts := ts, key := [ts, 0], group := t.group }, s.nextId)

/-- At a safe point while a switch or halt is due, the licence is released and not saved (R238). -/
def State.safePoint (s : State) (ctx cell : Nat) : State := if s.switchDue ctx then s.updCell ctx cell Cell.giveLicence else s

/-- The release of `licrel` and `texit` (R237): a licence that is Halting leaves at the safe point alone (R238). -/
def State.leaveLicence (s : State) (c : Cell) : State :=
  if c.lic.held && !c.lic.halting then s.releaseLicence s.cur.ctx s.cur.cell else s

/-- The end of a task in one cell. -/
def Task.endIn (t : Task) (cell : Nat) : Task := { t with ended := if cell ∈ t.ended then t.ended else cell :: t.ended }

/-- texit, and iend in a launched group (R298, R303). -/
def texitBody (t : Tok) (s : State) (c : Cell) (k : Task) : Except Stop State := do
  let cell := s.cur.cell
  if !c.wordsDone k.id then .error (.wait .plain)
  let c := c.closeAll
  if c.batches.toList.any fun b => b.st != .idle then
    pure ((s.putHere c).noteWait .c .plain)
  else
    if c.core.bankMap != 0 then .error (Stop.of .accHeldAtExit)
    let s := s.putHere c
    if (c.lic.held || c.lic.claim) && !s.atPour k then .error (.wait .pourLine)
    else
      let s := s.updHere fun c => { c with lic := { c.lic with claim := false, first := false } }
      if c.lic.held && !c.licensedCmds.isEmpty then pure (s.noteWait .c .plain)
      else
        let s := s.leaveLicence c
        let s := (finish .c s c k t (c.core.pc.c + 1) {}).updHere fun c =>
          { c with task := none, safe := true, scWait := none, pair := none }
        let s := s.updTask k.id fun u => u.endIn cell
        let s := match s.groupOf k with
          | some g =>
            let ex := if cell ∈ g.exited then g.exited else cell :: g.exited
            let st : GroupSt := if g.cells.all (· ∈ ex) && g.st == GroupSt.running then .ending else g.st
            { s with groups := mset s.groups g.id { g with exited := ex, st := st } }
          | none => s
        pure (s.safePoint s.cur.ctx cell)

/-- iend of a stage task (R148). -/
def iendBody (t : Tok) (s : State) (c : Cell) (k : Task) : Except Stop State := do
  let cell := s.cur.cell
  if !c.wordsDone k.id then .error (.wait .plain)
  if 4 ≤ c.ckpts.length && !s.switchDue k.ctx then .error (.wait .iendRoom)
  let period := ((s.stageOf k).map Stage.period).getD 1
  let s := (finish .c s c k t (c.core.pc.c + 1) {}).updTask k.id fun u => u.endIn cell
  let (s, next) := s.nextTask k period
  let s := s.updHere fun c =>
    let core := c.core.closeInstant
    -- a word of A or M that still waits for its slot or its partner is a word of the next instant
    { c with core := core, task := some next, ckpts := c.ckpts ++ [(next, core)], watch := 0, copyCount := 0
             waits := { begun := true, c := if 4 ≤ c.ckpts.length then .iendRoom else .none }, scWait := none, pair := none, safe := true }
  pure (s.safePoint s.cur.ctx cell)

def execIend (t : Tok) (s : State) : Host.Outcome State Fault Refusal :=
  runWord .c t s fun c k => if k.launched then texitBody t s c k else iendBody t s c k

def execTexit (t : Tok) (s : State) : Host.Outcome State Fault Refusal :=
  runWord .c t s fun c k => texitBody t s c k

/-- tsrd (R302). -/
def execTsrd (t : Tok) (d : Dst) (s : State) : Host.Outcome State Fault Refusal :=
  runWord .c t s fun c k => do
    s.mirrorWait k s.cur.cell c (dstNamed d)
    pure (finish .c s c k t (c.core.pc.c + 1) (resultOf d 0 true (BitVec.ofNat 64 k.ts)))

/-! ## Launch records (R294 to R299) -/

/-- A field of a launch record: byte offset and byte count. -/
def recField (r : BitVec 1024) (off n : Nat) : Nat := r.toNat / 2 ^ (8 * off) % 2 ^ (8 * n)

/-- Replace a field of a launch record. -/
def recPut (r : BitVec 1024) (off n : Nat) (v : Word64) : BitVec 1024 :=
  (r &&& ~~~(BitVec.ofNat 1024 (2 ^ (8 * n) - 1) <<< (8 * off))) ||| (BitVec.ofNat 1024 (v.toNat % 2 ^ (8 * n)) <<< (8 * off))

/-- A signed byte of a launch record. -/
def recSByte (r : BitVec 1024) (off : Nat) : Int := (BitVec.ofNat 8 (recField r off 1)).toInt

/-- A field of a launch record by its lrpat number: byte offset and byte count (R294). -/
def recPlace (f : Nat) : Nat × Nat := if f < 9 then (8 * f, 8) else (72 + (f - 9), 1)

/-- The rectangle of a record lies in a partition when it stands at an offset from a group's origin. -/
def Part.holdsRect (p : Part) (x y z : Int) (w h d : Nat) : Bool :=
  (List.range w).all fun i => (List.range h).all fun j => (List.range d).all fun l =>
    let x := x + i; let y := y + j; let z := z + l
    0 ≤ x && x < 20 && 0 ≤ y && y < 16 && 0 ≤ z && z < 2 && columnOf (cellAt x.toNat y.toNat z.toNat) ∈ p.cols

/-- The ranges of R294 that lrarm checks (R297). -/
def State.recOk (s : State) (k : Task) (r : BitVec 1024) : Bool :=
  let w := recField r 77 1; let h := recField r 78 1; let d := recField r 79 1
  recField r 74 1 ≤ 1 && recField r 75 1 ≤ 1 && recField r 88 40 = 0 && recField r 76 1 < 64 &&
    1 ≤ w && w ≤ 20 && 1 ≤ h && h ≤ 16 && 1 ≤ d && d ≤ 2 &&
    (match (s.kernelOf k).bind fun n => n.stages.find? fun g => g.num = recField r 76 1 with
      | some g => recField r 80 4 < g.text.length
      | none => false) &&
    (recField r 75 1 = 1 ||
      match s.groupOf k, s.partOfCtx k.ctx with
      | some g, some (_, p) => p.holdsRect (g.ox + recSByte r 72) (g.oy + recSByte r 73) (g.oz + recField r 74 1) w h d
      | _, _ => false)

/-- The default record of a kind, or PROTECTION (R296). -/
def State.kindOf (s : State) (k : Task) (kind : Nat) : Except Stop (BitVec 1024) :=
  match (s.kernelOf k).bind fun n => n.lrecs[kind]? with
  | some r => .ok r
  | none => .error (Stop.of .protection)

/-- The staging slot and the kind that an operand names (R295). -/
def slotOfOperand (a : Word64) : Fin 8 := Fin.ofNat 8 (a.toNat % 8)
def kindOfOperand (a : Word64) : Nat := a.toNat / 8 % 4096

/-- The record of a slot as a kind reads it. -/
def Core.stagedRec (c : Core) (slot : Fin 8) (kind : Nat) (dflt : BitVec 1024) : BitVec 1024 :=
  if c.staging[slot].kind == some kind then c.staging[slot].rcd else dflt

/-- lrpat (R296). -/
def execLrpat (t : Tok) (a : Src) (f : Fin 32) (b : Src) (s : State) : Host.Outcome State Fault Refusal :=
  runWord .c t s fun c k => do
    let g ← gather .c s c k [a, b] none (legalForm (f.val ≤ 12)) false none
    if !g.on then pure (finish .c s c k t (c.core.pc.c + 1) {})
    else
      let slot := slotOfOperand (v0 g.vals)
      let kind := kindOfOperand (v0 g.vals)
      let dflt ← s.kindOf k kind
      let p := recPlace f.val
      let r := recPut (c.core.stagedRec slot kind dflt) p.1 p.2 (v1 g.vals)
      let s' := g.st.updHere fun c => { c with core := { c.core with staging := c.core.staging.set slot ⟨some kind, r⟩ } }
      pure (finish .c s' c k t (c.core.pc.c + 1) {})

/-- lrdrop (R296). -/
def execLrdrop (t : Tok) (a : Src) (s : State) : Host.Outcome State Fault Refusal :=
  runWord .c t s fun c k => do
    let g ← gather .c s c k [a] none sameClock false none
    if !g.on then pure (finish .c s c k t (c.core.pc.c + 1) {})
    else
      let slot := slotOfOperand (v0 g.vals)
      let s' := g.st.updHere fun c =>
        { c with core := { c.core with staging := c.core.staging.set slot { c.core.staging[slot] with kind := none } } }
      pure (finish .c s' c k t (c.core.pc.c + 1) {})

/-- Arm a child with a record (R297): the state with the child, or none when the carafe holds no free entry. -/
def State.arm (s : State) (k : Task) (handle kind : Nat) (r dflt : BitVec 1024) (after : Bool) : Option State :=
  if recField dflt 84 4 ≤ s.carafe.count (k.ctx, handle, kind) then none
  else
    let child : Task :=
      { id := s.nextId, ctx := k.ctx, inst := k.inst, stage := recField r 76 1, launched := true, ts := recField r 64 8
        key := recField r 64 8 :: 1 :: k.key ++ [k.arms], depth := k.depth + 1, parent := some k.id, after := after
        kind := kind, rcd := r
        org := ((s.groupOf k).map fun g => (g.ox, g.oy, g.oz)).getD (0, 0, 0) }
    some (({ s with nextId := s.nextId + 1, carafe := (k.ctx, handle, kind) :: s.carafe }.putTask child).updTask k.id
      fun u => { u with arms := u.arms + 1 })

/-- lrarm (R297). -/
def execLrarm (t : Tok) (d : Dst) (a : Src) (after : Bool) (s : State) : Host.Outcome State Fault Refusal :=
  runWord .c t s fun c k => do
    let g ← gather .c s c k [a] none sameClock false (dstNamed d)
    if !g.on then pure (finish .c s c k t (c.core.pc.c + 1) (resultOf d g.clk false 0))
    else
      let slot := slotOfOperand (v0 g.vals)
      let kind := kindOfOperand (v0 g.vals)
      let dflt ← s.kindOf k kind
      let r := c.core.stagedRec slot kind dflt
      if !s.recOk k r then .error (Stop.of .protection)
      if recField r 64 8 ≤ k.ts then .error (Stop.of .tsOrder)
      if k.depth = 24 then .error (Stop.of .nestLimit)
      let handle := ((s.getInst k.ctx k.inst).map Inst.handle).getD 0
      match g.st.arm k handle kind r dflt after with
      | some s' => pure (finish .c s' c k t (c.core.pc.c + 1) (resultOf d g.clk true 0))
      | none => pure (finish .c g.st c k t (c.core.pc.c + 1) (resultOf d g.clk true 1))

/-! ## The twin window (R240, R241, R334) -/

def windowKey (ctx cell : Nat) (tw : Fin 8) : Nat := ctx * 4096 + pairOf cell * 8 + tw.val

def State.window (s : State) (tw : Fin 8) : TwReg := (mget s.windows (windowKey s.cur.ctx s.cur.cell tw)).getD {}

/-- Change a register, keeping what it held at the start of the cycle. -/
def State.setWindow (s : State) (tw : Fin 8) (r : TwReg) : State :=
  let w := s.window tw
  { s with windows := mset s.windows (windowKey s.cur.ctx s.cur.cell tw) { r with past := some (s.cycle, w.val, w.tag, w.full) } }

/-- A register as it stood at the start of the cycle, which every access of the cycle sees (R109). -/
def State.windowSeen (s : State) (tw : Fin 8) : TwReg :=
  let w := s.window tw
  match w.past with
  | some (n, val, tag, full) => if n = s.cycle then { w with val := val, tag := tag, full := full } else w
  | none => w

/-- A register has changed in this cycle. -/
def State.windowChanged (s : State) (tw : Fin 8) : Bool := (s.window tw).past.any fun p => p.1 = s.cycle

/-- The wait of a change (R109, R240): the full bit that it asks for, and no change of the register in this cycle. The floor twin's words
of a cycle come before the crown twin's, which retries then (log entry 79). -/
def State.windowWait (s : State) (tw : Fin 8) (full : Bool) : Except Stop Unit :=
  if (s.windowSeen tw).full != full || s.windowChanged tw then .error (.wait .plain) else .ok ()

/-- A group of depth 1 reaches no twin (R334). -/
def State.needTwin (s : State) (k : Task) : Except Stop Unit :=
  match s.groupOf k with
  | some g => if g.d = 2 then .ok () else .error (Stop.of .protection)
  | none => .error (Stop.of .protection)

/-- twset (R240). -/
def execTwset (t : Tok) (tw : Fin 8) (a : Src) (s : State) : Host.Outcome State Fault Refusal :=
  runWord .c t s fun c k => do
    s.needPour k
    let g ← gather .c s c k [a] none sameClock false none fun _ =>
      match s.needTwin k with
      | .ok _ => s.windowWait tw false
      | .error _ => .ok ()
    if !g.on then pure (finish .c s c k t (c.core.pc.c + 1) {})
    else
      s.needTwin k
      pure (finish .c (g.st.setWindow tw { val := v0 g.vals, tag := g.clk, full := true }) c k t (c.core.pc.c + 1) {})

/-- twget (R240). -/
def execTwget (t : Tok) (d : Dst) (tw : Fin 8) (s : State) : Host.Outcome State Fault Refusal :=
  runWord .c t s fun c k => do
    s.mirrorWait k s.cur.cell c (dstNamed d)
    s.needPour k
    s.needTwin k
    s.windowWait tw true
    let w := s.window tw
    needSound w.tagBad
    if w.tag != 0 then .error (Stop.of .clockMismatch)
    needSound (w.bad != 0)
    pure (finish .c (s.setWindow tw { w with full := false }) c k t (c.core.pc.c + 1) (resultOf d 0 true w.val))

/-- twxchg (R241): a present word at the pour line arrives and waits; TWXCHG_RENDEZVOUS exchanges the values. -/
def execTwxchg (t : Tok) (d : Dst) (tw : Fin 8) (a : Src) (s : State) : Host.Outcome State Fault Refusal :=
  runWord .c t s fun c k => do
    s.needPour k
    let g ← gather .c s c k [a] none sameClock false (dstNamed d)
    if !g.on then pure (finish .c s c k t (c.core.pc.c + 1) (resultOf d g.clk false 0))
    else
      s.needTwin k
      let w : XchgWait := match c.xchg with
        | some w => w
        | none => ⟨t, d, tw, a, 0⟩
      pure ((s.putHere { c with xchg := some w }).noteWait .c .plain)

/-! ## The licence (R237) -/

/-- licacq (R237). -/
def execLicacq (t : Tok) (s : State) : Host.Outcome State Fault Refusal :=
  runWord .c t s fun c k => do
    s.needPour k
    if c.lic.held then pure (finish .c s c k t (c.core.pc.c + 1) {})
    else pure ((s.putHere { c with lic := { c.lic with claim := true } }).noteWait .c .plain)

/-- licrel (R237, R239). -/
def execLicrel (t : Tok) (s : State) : Host.Outcome State Fault Refusal :=
  runWord .c t s fun c k => do
    s.needPour k
    let s := s.putHere { c with lic := { c.lic with claim := false, first := false } }
    if c.lic.held && !c.licensedCmds.isEmpty then pure (s.noteWait .c .plain)
    else
      pure (finish .c (s.leaveLicence c) c k t (c.core.pc.c + 1) {})

/-! ## Barriers (R336 to R343) -/

/-- The unit that a scope selects around a cell (R336), as one number. -/
def unitOf (sc : Scope) (cell : Nat) : Nat :=
  match sc with
  | .eng | .cel => cell
  | .twn => pairOf cell
  | .clu => columnOf cell
  | .prt | .dev | .dom | .sys => 0

/-- The cells of a unit that hold a stage group of an instance: the participants on this device (R336). -/
def State.participants (s : State) (ctx inst : Nat) (sc : Scope) (unit : Nat) : List Nat :=
  (s.groups.filter fun g => g.2.ctx = ctx && g.2.inst = inst && !g.2.launched).flatMap fun g =>
    g.2.cells.filter fun n => unitOf sc n = unit

/-- Some stage of an instance has not been placed (R338). -/
def State.unplacedStage (s : State) (ctx inst : Nat) : Bool :=
  (s.tasksOf ctx inst).any fun t => !t.launched && t.group.isNone

/-- The other instances of a gang have retired, as this device knows: the marks of its own, and those that it has heard of as the root
(R337, log entry 47). -/
def State.partnersGone (s : State) (i : Inst) : Bool :=
  let gang := ((mget s.ctxs i.ctx).map Ctx.gang).getD 0
  let far := (s.heard.filter fun h => h.gen = 0 && h.key = i.gangKey && h.gang = gang).map fun h => (h.dev, h.ctx)
  i.gangWidth ≤ 1 + s.episodes.countP (fun e => e.gen = 0 && e.key = i.gangKey && e.gang = gang) + far.eraseDups.length

/-- An arrival is cross-group (R339). -/
def State.crossGroup (s : State) (k : Task) (sc : Scope) (unit : Nat) : Bool :=
  s.unplacedStage k.ctx k.inst || (sc == .dom && (s.getInst k.ctx k.inst).any fun i => !s.partnersGone i) ||
    match s.groupOf k with
    | some g => (s.participants k.ctx k.inst sc unit).any fun n => !g.covers n
    | none => true

/-- Change the episode that an arrival or a release names, made when it is not there. -/
def State.updEpisode (s : State) (e : Episode) (f : Episode → Episode) : State :=
  let same (x : Episode) : Bool :=
    x.ctx = e.ctx && x.inst = e.inst && x.bar = e.bar && x.scope == e.scope && x.unit = e.unit && x.gen = e.gen
  if s.episodes.any same then { s with episodes := s.episodes.map fun x => if same x then f x else x }
  else { s with episodes := f e :: s.episodes }

/-- The arrival of a cell at its next episode of a barrier (R338, R343). -/
def State.arrive (s : State) (c : Cell) (k : Task) (id : Fin 32) (sc : Scope) : State :=
  let b := c.core.bars[id]
  let b' : BarSlot := { st := .arrived, gen := b.gen + 1, scope := sc, pc := c.core.pc.c }
  let inst := s.getInst k.ctx k.inst
  let s := s.updHere fun c => { c with core := { c.core with bars := c.core.bars.set id b' } }
  let e : Episode :=
    { ctx := k.ctx, inst := k.inst, key := (inst.map Inst.gangKey).getD 0, bar := id.val, scope := sc, unit := unitOf sc s.cur.cell
      gen := b.gen + 1, gang := ((mget s.ctxs k.ctx).map Ctx.gang).getD 0, width := (inst.map Inst.gangWidth).getD 0 }
  s.updEpisode e fun x => { x with cells := s.cur.cell :: x.cells }

/-- barv (R340). A release to other devices waits until what has been published to them is accepted there (R309, R317, R342). -/
def execBarv (t : Tok) (id : Fin 32) (sc : Scope) (s : State) : Host.Outcome State Fault Refusal :=
  runWord .c t s fun c k => do
    let key := ((s.getInst k.ctx k.inst).map Inst.gangKey).getD 0
    if sc == .eng || sc == .sys then .error (Stop.of .illegalWord)
    let cross := s.crossGroup k sc (unitOf sc s.cur.cell)
    if cross then s.needPour k
    if cross && sc == .dom && s.switchDue k.ctx then .error (.wait .injection)
    -- a release waits for the cell's injected reductions (R317, R323)
    if (s.reds.any fun r => r.ctx = k.ctx && r.cell = s.cur.cell) || (cross && !s.settledTask k) then .error (.wait .plain)
    if c.core.bars[id].st == .arrived || k.launched then .error (Stop.of .protection)
    if sc == .dom && (key = 0 || (mget s.ctxs k.ctx).all fun x => x.gang = 0) then .error (Stop.of .protection)
    if !cross then pure (finish .c (s.arrive c k id sc) c k t (c.core.pc.c + 1) {})
    else
      let s ← s.publishFirst k
      if sc == .dom && s.putsOpen k.ctx then pure (s.noteWait .c .plain)
      else pure (finish .c ((s.frontierDone k.id).arrive c k id sc) c k t (c.core.pc.c + 1) {})

/-- bwait (R341). -/
def execBwait (t : Tok) (id : Fin 32) (s : State) : Host.Outcome State Fault Refusal :=
  runWord .c t s fun c k =>
    match c.core.bars[id].st with
    | .idle => .error (Stop.of .protection)
    | .arrived => .error (.wait .plain)
    | .released => .ok (finish .c s c k t (c.core.pc.c + 1) {})

/-- What bpoll drops (R341). -/
def barCode : BarPhase → Word64
  | .idle => 0 | .arrived => 1 | .released => 2

/-- bpoll (R341). -/
def execBpoll (t : Tok) (d : Dst) (id : Fin 32) (s : State) : Host.Outcome State Fault Refusal :=
  runWord .c t s fun c k => do
    s.mirrorWait k s.cur.cell c (dstNamed d)
    pure (finish .c s c k t (c.core.pc.c + 1) (resultOf d 0 true (barCode c.core.bars[id].st)))

/-! ## Banks and templates (R217, R226, R227) -/

/-- The lowest free run of n banks, searching from `b` over `fuel` places. -/
def freeRun (m : BitVec 128) (n : Nat) : Nat → Nat → Option Nat
  | _, 0 => none
  | b, fuel + 1 => if b + n ≤ 128 && m &&& bankRun b n == 0 then some b else freeRun m n (b + 1) fuel

/-- bkal (R226). -/
def execBkal (t : Tok) (d : Dst) (a : Src) (s : State) : Host.Outcome State Fault Refusal :=
  runWord .c t s fun c k => do
    let g ← gather .c s c k [a] none sameClock false (dstNamed d)
    let n := (v0 g.vals).toNat
    if !g.on || n = 0 then pure (finish .c g.st c k t (c.core.pc.c + 1) (resultOf d g.clk g.on 0))
    else if 128 < n then .error (Stop.of .accExhausted)
    else
      match freeRun c.core.bankMap n 0 128 with
      | none => .error (Stop.of .accExhausted)
      | some b =>
        let s' := g.st.updHere fun c => { c with core := { c.core with bankMap := c.core.bankMap ||| bankRun b n } }
        pure (finish .c s' c k t (c.core.pc.c + 1) (resultOf d g.clk true (BitVec.ofNat 64 b)))

/-- bkfr (R227). -/
def execBkfr (t : Tok) (a b : Src) (s : State) : Host.Outcome State Fault Refusal :=
  runWord .c t s fun c k => do
    let g ← gather .c s c k [a, b] none sameClock false none fun l =>
      if c.coveredBanks &&& bankRun (Nat.min 128 (v0 l).toNat) (Nat.min 128 (v1 l).toNat) != 0 then .error (.wait .plain)
      else .ok ()
    let base := (v0 g.vals).toNat
    let n := (v1 g.vals).toNat
    if !g.on || n = 0 then pure (finish .c g.st c k t (c.core.pc.c + 1) {})
    else if 128 < base + n then .error (Stop.of .protection)
    else if c.core.bankMap &&& bankRun base n != bankRun base n then .error (Stop.of .protection)
    else
      let s' := g.st.updHere fun c => { c with core := { c.core with bankMap := c.core.bankMap &&& ~~~(bankRun base n) } }
      pure (finish .c s' c k t (c.core.pc.c + 1) {})

/-- tmpl (R217). -/
def execTmpl (t : Tok) (n : Fin 64) (a : Src) (s : State) : Host.Outcome State Fault Refusal :=
  runWord .c t s fun c k => do
    let g ← gather .c s c k [a] none (legalForm (n ≠ 0)) false none
    if !g.on then pure (finish .c s c k t (c.core.pc.c + 1) {})
    else
      let off := (v0 g.vals).toNat
      if off % 32 != 0 then .error (Stop.of .align)
      if !inHalf c.core.phase false off 32 then .error (Stop.of .protection)
      let bs ← c.spadRead k off 32
      let d := BitVec.ofNat 256 (leNat bs)
      if !loadCheck d then .error (Stop.of .illegalWord)
      let s' := g.st.updHere fun c => { c with core := { c.core with tmpls := c.core.tmpls.set n { bits := d } } }
      pure (finish .c s' c k t (c.core.pc.c + 1) {})

/-! ## State registers (R113 to R115) -/

/-- A queue number that some engine may push or pop in the cell (R113, R155). -/
def State.queueAssigned (s : State) (k : Task) (cell q : Nat) : Bool :=
  [Engine.c, .a, .v].any fun e => s.pushAssigned k cell e q || s.popAssigned k cell e q

/-- An index names a register of the cell (R113). -/
def State.srAssigned (s : State) (k : Task) (cell : Nat) (i : Nat) : Bool :=
  if 0x100 ≤ i && i < 0x140 then s.queueAssigned k cell (i % 32)
  else i ∈ [0x000, 0x001, 0x002, 0x003, 0x004, 0x008, 0x009, 0x010, 0x011, 0x018, 0x020, 0x021, 0x028, 0x030, 0x031]

/-- LICST (R236). -/
def licst (x tw : Licence) : Nat :=
  x.held.toNat + 2 * x.claim.toNat + 4 * (tw.held || tw.leaving).toNat + 8 * tw.claim.toNat + 16 * x.first.toNat + 32 * x.pass.toNat +
    2 ^ 8 * x.used + 2 ^ 32 * x.age + 2 ^ 48 * x.away.toNat

/-- VRB as a register (R187). -/
def vrbWord (v : VrbReg) : Nat := v.base.val + 2 ^ 8 * v.sizeM1.val + 2 ^ 16 * v.rot.val + 2 ^ 32 * v.count.toNat

/-- The value of a state register (R113, R114). -/
def State.srRead (s : State) (c : Cell) (k : Task) (cell i : Nat) : Nat :=
  let g := (s.groupOf k).getD { id := 0, ctx := 0, inst := 0, stage := 0, ox := 0, oy := 0, oz := 0, w := 1, h := 1, d := 1 }
  if i = 0x000 then placeOf cell
  else if i = 0x001 then g.ox + 256 * g.oy + 65536 * g.oz
  else if i = 0x002 then g.w + 256 * g.h + 65536 * g.d
  else if i = 0x003 then k.stage
  else if i = 0x004 then k.instant % 2 ^ 48
  else if i = 0x008 then s.cfront k.ctx k.inst
  else if i = 0x009 then s.tsnow
  else if i = 0x010 then c.slipwin
  else if i = 0x011 then ((s.partOfCtx k.ctx).map fun p => p.2.safept).getD 65536
  else if i = 0x018 then vrbWord c.core.vrb
  else if i = 0x020 then c.core.leaseCmds + 65536 * c.core.leaseCyc
  else if i = 0x021 then licst c.lic (((s.getCell k.ctx (twinOf cell)).map Cell.lic).getD {})
  else if i = 0x028 then s.wref.1.val + 65536 * s.wref.2
  else if i = 0x030 then c.zf.toNat + 2 * c.zw.toNat + 2 ^ 32 * c.zcnt
  else if i = 0x031 then ((mget s.phys cell).getD {}).errst.toNat
  else if i < 0x120 then c.core.qpushFmt[Fin.ofNat 32 i].toNat
  else c.core.qpopFmt[Fin.ofNat 32 i].toNat

/-- srd (R115). -/
def execSrd (t : Tok) (d : Dst) (sr : Fin 1024) (s : State) : Host.Outcome State Fault Refusal :=
  runWord .c t s fun c k => do
    s.mirrorWait k s.cur.cell c (dstNamed d)
    if !s.srAssigned k s.cur.cell sr.val then .error (Stop.of .illegalWord)
    pure (finish .c s c k t (c.core.pc.c + 1) (resultOf d 0 true (BitVec.ofNat 64 (s.srRead c k s.cur.cell sr.val))))

/-- A value clamped to a range. -/
def clampTo (lo hi v : Nat) : Nat := Nat.min hi (Nat.max lo v)

/-- A write of VRB (R187): the size first, then the rotation. -/
def vrbOf (a : Word64) : VrbReg :=
  let base := a.toNat % 32
  let size := Nat.min (a.toNat / 2 ^ 8 % 32) (31 - base)
  { base := Fin.ofNat 32 base, sizeM1 := Fin.ofNat 32 size, rot := Fin.ofNat 32 (a.toNat / 2 ^ 16 % 32 % (size + 1))
    count := BitVec.ofNat 32 (a.toNat / 2 ^ 32) }

/-- A write of a queue format register (R158): the fields that a mask lets through, a link of 1 to 15 as 0. -/
def fmtWrite (mask : Word64) (a : Word64) : Word64 :=
  let v := a &&& mask
  if v.toNat / 256 % 32 < 16 then v &&& 0xFF else v

/-- The cell after a write to a state register other than ERRST (R115). -/
def Cell.srWrite (c : Cell) (i : Nat) (a : Word64) : Cell :=
  if i = 0x010 then { c with slipwin := clampTo 16 4096 (a.toNat % 8192) }
  else if i = 0x018 then { c with core := { c.core with vrb := vrbOf a } }
  else if i = 0x020 then
    { c with core := { c.core with
        leaseCmds := clampTo 1 256 (a.toNat % 512), leaseCyc := clampTo 1 4096 (a.toNat / 65536 % 8192) } }
  else if i = 0x030 then
    { c with zf := c.zf && !a.getLsbD 0, zw := c.zw && !a.getLsbD 1, zcnt := if a.getLsbD 0 then 0 else c.zcnt }
  else if 0x100 ≤ i && i < 0x120 then
    { c with core := { c.core with qpushFmt := c.core.qpushFmt.set (Fin.ofNat 32 i) (fmtWrite 0x1F1F a) } }
  else if 0x120 ≤ i && i < 0x140 then
    { c with core := { c.core with qpopFmt := c.core.qpopFmt.set (Fin.ofNat 32 i) (fmtWrite 0x1FFF a) } }
  else c

/-- A register that an swr may write (R113). -/
def srRw (i : Nat) : Bool := i ∈ [0x010, 0x018, 0x020, 0x030, 0x031] || (0x100 ≤ i && i < 0x140)

/-- swr (R115). -/
def execSwr (t : Tok) (sr : Fin 1024) (a : Src) (s : State) : Host.Outcome State Fault Refusal :=
  runWord .c t s fun c k => do
    let g ← gather .c s c k [a] none (legalForm (s.srAssigned k s.cur.cell sr.val && srRw sr.val)) false none
    if !g.on then pure (finish .c s c k t (c.core.pc.c + 1) {})
    else
      let s' := g.st.updHere fun c => c.srWrite sr.val (v0 g.vals)
      let s' : State := if sr.val = 0x031 then
          { s' with phys := mupd s'.phys s.cur.cell fun p => { p with errst := p.errst &&& ~~~(v0 g.vals &&& 0x3F) } }
        else s'
      pure (finish .c s' c k t (c.core.pc.c + 1) {})

/-! ## trap and brkp (R364) -/

def execTrap (t : Tok) (code : BitVec 8) (s : State) : Host.Outcome State Fault Refusal :=
  runWord .c t s fun _ _ => .error (.raise .trap code.toNat 0 0)

/-- CTXID.BRK of a function as a `brkp` of this cycle sees it (R365). -/
def State.brkOf (s : State) (fn : Nat) : Bool :=
  match mget s.brkPast fn with
  | some (n, b) => if n = s.cycle then b else (s.reg fn 0x410).getLsbD 32
  | none => (s.reg fn 0x410).getLsbD 32

/-- CTXID.BRK of a function bound to the context's partition (R352). -/
def State.breaks (s : State) (ctx : Nat) : Bool :=
  match s.partOfCtx ctx with
  | some (p, _) => (s.boundFns p).any s.brkOf
  | none => false

def execBrkp (t : Tok) (s : State) : Host.Outcome State Fault Refusal :=
  runWord .c t s fun c k =>
    if s.breaks k.ctx then .error (Stop.of .brk) else .ok (finish .c s c k t (c.core.pc.c + 1) {})

end Sys2Proof.Machine
end

