-- ==== Sys2Proof/Machine/AMem.lean ====
section
/-! DEFINITION. Memory words of A: loads, stores, queue loads and stores, copies, weight-store writes, prefetch, fences
(R166, R167, R259 to R263, R266, R319, R321). -/

namespace Sys2Proof.Machine

open Sys2Proof

/-! ## Addresses -/

def ldSize : LdKind → Nat
  | .b | .bs => 1
  | .h | .hs => 2
  | .w | .ws => 4
  | .d => 8

/-- The value of a load (R259). -/
def ldValue (k : LdKind) (bs : List Byte) : Word64 :=
  let v : Word64 := BitVec.ofNat 64 (leNat bs)
  match k with
  | .bs => (v.setWidth 8).signExtend 64
  | .hs => (v.setWidth 16).signExtend 64
  | .ws => (v.setWidth 32).signExtend 64
  | _ => v

def sizeBytes : Size → Nat
  | .b => 1 | .h => 2 | .w => 4 | .d => 8

/-- The checks of an access before it issues (R255, R259): canonical form, alignment, translation and permission. -/
def State.access (s : State) (k : Task) (cell : Nat) (ea : Word64) (size : Nat) (cls : Fin 16) (a : Access) :
    Except Stop (State × MemRef) := do
  if !canonical ea then .error (.raise .protection 0 ea 0)
  if ea.toNat % size != 0 then .error (.raise .align 0 ea 0)
  let (p, r) ← s.translate k.ctx cell ea a
  .ok (s.cachePage k.ctx cell p, { r with size := size, cls := cls })

/-! ## Finishing words of A -/

/-- Write the results of a word of A whose data is on the way: 0 until then, marked with the word's number. -/
def pendResult (d : Dst) (clk : Clk) (id : Nat) : Result :=
  let v : SVal := { val := 0, tag := clk, pend := some id }
  { drop := some v, reg := (dstNamed d).map fun n => (n, v) }

/-- The end of the issue of a word of A that waits for something, with its results (R103, R255). -/
def State.retireFly (s : State) (old : Cell) (k : Task) (t : Tok) (len : Nat) (op : FlyOp) (push popped : List (Nat × QEntry))
    (r : Result) : State :=
  (s.updHere fun c =>
    ({ c with core := c.core.put .a r }).retireA old k.id t (old.core.pc.a + len) op push popped).drainFly k s.cur.cell (old.fly.length + 1)

/-- A word of A that is absent, or does nothing more: its tokens and its next word. -/
def skipA (s : State) (c : Cell) (k : Task) (t : Tok) (len : Nat) : State := finish .a s c k t (c.core.pc.a + len) {}

/-! ## Loads -/

/-- ld (R259). -/
def ldWord (t : Tok) (kd : LdKind) (d : Dst) (a : Src) (cls : Fin 16) (off : Word64) (len : Nat) (s : State) :
    Host.Outcome State Fault Refusal :=
  runWord .a t s fun c k => do
    let g ← gather .a s c k [a] none sameClock false none
    if !g.on then pure (finish .a s c k t (c.core.pc.a + len) (resultOf d g.clk false 0))
    else
      let (s', r) ← s.access k s.cur.cell (v0 g.vals + off) (ldSize kd) cls .read
      let own := ownBytes (c.bufOf k.id).lines r.pa r.size
      pure (s'.retireFly c k t len (.load r own kd) [] [] (pendResult d g.clk c.nextFly))

def execLd (t : Tok) (kd : LdKind) (d : Dst) (a : Src) (cls : Fin 16) (s : State) : Host.Outcome State Fault Refusal :=
  ldWord t kd d a cls 0 1 s

def execLdExt (t : Tok) (kd : LdKind) (d : Dst) (a : Src) (cls : Fin 16) (off : BitVec 29) (s : State) :
    Host.Outcome State Fault Refusal :=
  ldWord t kd d a cls (off.signExtend 64) 2 s

/-! ## Stores -/

/-- Bytes of a line that a mover of number `id` stores under a class: streams that started before it no longer store them (R311),
and one of the same class has to end before they are published (R313). -/
def Cell.noteOver (c : Cell) (id line : Nat) (mask : BitVec 64) (cls : Fin 16) : Cell :=
  { c with streams := c.streams.map fun u =>
      if u.id < id then
        { u with stored := mset u.stored line (((mget u.stored line).getD 0) ||| mask), late := u.late || u.cls == cls }
      else u }

/-- The step-1 waits of a word that writes host memory (R282, R316). -/
def State.hostWait (s : State) (k : Task) (host : Bool) : Except Stop Unit :=
  if !host then .ok ()
  else (s.needPour k).bind fun _ => if s.settledTask k then .ok () else .error (.wait .plain)

/-- The step-1 waits of a store of `n` bytes at an address (R35, R282, R284, R316): the pour line and the task's publication for host
memory, room for a store line beside `extra` bytes of other records elsewhere. -/
def State.storeWait (s : State) (k : Task) (cell : Nat) (c : Cell) (ea : Word64) (extra : Nat := 0) : Except Stop Unit :=
  match s.translate k.ctx cell ea .write with
  | .ok (_, r) =>
    if s.backing k.ctx r.pa = .host then s.hostWait k true
    else if k.direct then .ok ()
    else c.recordWait (extra + if (c.bufOf k.id).lines.any fun l => l.line = r.pa / 64 then 0 else 80)
  | .error _ => .ok ()

/-- A store of masked bytes of one line by the mover of number `id` (R281, R282, R284, R316): into a store line, or directly.
Host memory is written at the pour line. `extra` is the bytes of the other records that the move needs; a stream or a copy is
`moving`. -/
def State.storeBytes (s : State) (k : Task) (cell : Nat) (c : Cell) (id : Nat) (r : MemRef) (n : StoreLine) (extra : Nat := 0)
    (moving : Bool := false) : Except Stop (State × FlyOp) :=
  if s.backing k.ctx r.pa = .host then do
    s.needPour k
    let s ← if moving then s.goLate k else s.publishFirst k
    .ok (s, .direct r n.mask n.data)
  else if k.direct then .ok (s, .direct r n.mask n.data)
  else
    (c.recordWait (extra + if (c.bufOf k.id).lines.any fun l => l.line = n.line then 0 else 80)).map fun _ =>
      (s.updCell k.ctx cell fun c =>
        (c.noteOver id n.line n.mask r.cls).putBuf { c.bufOf k.id with lines := putLine (c.bufOf k.id).lines n },
        if c.fly.isEmpty then .done else .stored false [⟨id, r, n.mask, n.data⟩])

/-- st (R260). -/
def stWord (t : Tok) (z : Size) (b a : Src) (cls : Fin 16) (off : Word64) (len : Nat) (s : State) :
    Host.Outcome State Fault Refusal :=
  runWord .a t s fun c k => do
    let g ← gather .a s c k [b, a] none sameClock false none fun l => s.storeWait k s.cur.cell c (v1 l + off)
    if !g.on then pure (skipA s c k t len)
    else
      let (s', r) ← s.access k s.cur.cell (v1 g.vals + off) (sizeBytes z) cls .write
      let (s', op) ← s'.storeBytes k s.cur.cell c c.nextFly r (storeLine r (bytesFrom (v0 g.vals) 0 (sizeBytes z)))
      pure (s'.retireFly c k t len op [] [] {})

def execSt (t : Tok) (z : Size) (b a : Src) (cls : Fin 16) (s : State) : Host.Outcome State Fault Refusal :=
  stWord t z b a cls 0 1 s

def execStExt (t : Tok) (z : Size) (b a : Src) (cls : Fin 16) (off : BitVec 29) (s : State) :
    Host.Outcome State Fault Refusal :=
  stWord t z b a cls (off.signExtend 64) 2 s

/-! ## Queue words -/

/-- A queue number that the engine may not use is no instruction (R155). -/
def needQueue (ok : Bool) : Except Stop Unit := if ok then .ok () else .error (Stop.of .illegalWord)

/-- The format stamped on a scalar entry of a queue (R156). -/
def Cell.pushFmt (c : Cell) (q : QNum) : Fmt := qFmt c.core.qpushFmt[q]

/-- qld (R167). -/
def qldWord (t : Tok) (z : Size) (q : QNum) (a : Src) (cls : Fin 16) (off : Word64) (len : Nat) (s : State) :
    Host.Outcome State Fault Refusal :=
  runWord .a t s fun c k => do
    let cell := s.cur.cell
    let ok := s.pushAssigned k cell .a q.val
    let g ← gather .a s c k [a] none (legalForm ok) false none fun _ => if ok then s.pushRoom k cell q.val 16 else .ok ()
    if !g.on then pure (skipA s c k t len)
    else
      let (s', r) ← s.access k cell (v0 g.vals + off) (sizeBytes z) cls .read
      let own := ownBytes (c.bufOf k.id).lines r.pa r.size
      let e := scalarEntry 0 g.clk (c.pushFmt q) k.instant
      pure ((s'.reserve k cell q.val (· + 1)).retireFly c k t len (.qload r own q) [(q.val, e)] [] {})

def execQld (t : Tok) (z : Size) (q : QNum) (a : Src) (cls : Fin 16) (s : State) : Host.Outcome State Fault Refusal :=
  qldWord t z q a cls 0 1 s

def execQldExt (t : Tok) (z : Size) (q : QNum) (a : Src) (cls : Fin 16) (off : BitVec 29) (s : State) :
    Host.Outcome State Fault Refusal :=
  qldWord t z q a cls (off.signExtend 64) 2 s

/-- qst (R167): its address faults are checked before the pop. -/
def qstWord (t : Tok) (z : Size) (q : QNum) (a : Src) (cls : Fin 16) (off : Word64) (len : Nat) (s : State) :
    Host.Outcome State Fault Refusal :=
  runWord .a t s fun c k => do
    let cell := s.cur.cell
    let ok := s.popAssigned k cell .a q.val
    let g ← gather .a s c k [a] none (legalForm ok) false none fun l =>
      if ok then (s.popWait k c cell q.val).bind fun e => s.storeWait k cell c (v0 l + off) (s.popBytes k e) else .ok ()
    if !g.on then pure (skipA s c k t len)
    else
      let raw ← s.popWait k c cell q.val
      let (s', r) ← s.access k cell (v0 g.vals + off) (sizeBytes z) cls .write
      let e ← popCheck c.core.qpopFmt[q] g.clk false raw
      let (s', op) ← s'.storeBytes k cell c c.nextFly r (storeLine r (bytesFrom e.val 0 (sizeBytes z))) (s.popBytes k raw)
      pure ((s'.popTake k cell q.val).retireFly c k t len op [] [(q.val, raw)] {})

def execQst (t : Tok) (z : Size) (q : QNum) (a : Src) (cls : Fin 16) (s : State) : Host.Outcome State Fault Refusal :=
  qstWord t z q a cls 0 1 s

def execQstExt (t : Tok) (z : Size) (q : QNum) (a : Src) (cls : Fin 16) (off : BitVec 29) (s : State) :
    Host.Outcome State Fault Refusal :=
  qstWord t z q a cls (off.signExtend 64) 2 s

/-- qpush (R156, R166). -/
def execQpush (t : Tok) (q : QNum) (a : Src) (s : State) : Host.Outcome State Fault Refusal :=
  runWord .a t s fun c k => do
    let cell := s.cur.cell
    let ok := s.pushAssigned k cell .a q.val
    let g ← gather .a s c k [a] none (legalForm ok) false none fun _ => if ok then s.pushRoom k cell q.val 16 else .ok ()
    if !g.on then pure (skipA s c k t 1)
    else
      let e := scalarEntry (v0 g.vals) g.clk (c.pushFmt q) k.instant
      pure ((s.reserve k cell q.val (· + 1)).retireFly c k t 1 .done [(q.val, e)] [] {})

/-- qpop (R157, R166). -/
def execQpop (t : Tok) (d : Dst) (q : QNum) (kx : Clk) (s : State) : Host.Outcome State Fault Refusal :=
  runWord .a t s fun c k => do
    let cell := s.cur.cell
    needQueue (s.popAssigned k cell .a q.val)
    if !clkOn c.core kx then
      needSound (clkBad c.core kx)
      pure (finish .a s c k t (c.core.pc.a + 1) (resultOf d kx false 0))
    else
      let raw ← s.popWait k c cell q.val
      needSound (clkBad c.core kx)
      let e ← popCheck c.core.qpopFmt[q] kx false raw
      pure ((s.popTake k cell q.val).retireFly c k t 1 .done [] [(q.val, raw)] (resultOf d kx true (e.val.setWidth 64)))

/-! ## Copies (R247, R261, R262) -/

/-- A copy operand (R247). -/
def copyEnd (a : Word64) : CopyEnd :=
  if a.getLsbD 63 && a.toNat / 2 ^ 20 % 2 ^ 43 = 0 then .spad (a.toNat % 2 ^ 20) else .virt a.toNat

/-- The checks of a virtual or scratchpad source at issue (R261). -/
def Cell.copyFrom (c : Cell) (e : CopyEnd) (n : Nat) : Except Stop Unit :=
  match e with
  | .virt va => if canonical (BitVec.ofNat 64 va) then .ok () else .error (.raise .protection 0 (BitVec.ofNat 64 va) 0)
  | .spad off =>
    if !inHalf c.core.phase false off n then .error (Stop.of .protection)
    else if c.lentOut false off n then .error (Stop.of .operandBusy) else .ok ()

/-- The two virtual ranges of a copy overlap. -/
def virtOverlap (d s : CopyEnd) (n : Nat) : Bool :=
  match d, s with
  | .virt x, .virt y => n != 0 && ((x + 2 ^ 64 - y) % 2 ^ 64 < n || (y + 2 ^ 64 - x) % 2 ^ 64 < n)
  | _, _ => false

/-- Pages of 64 KiB that a virtual range touches. -/
def pagesOf (va n : Nat) : List Nat := if n = 0 then [] else List.range' (va / 65536) ((va + n - 1) / 65536 + 1 - va / 65536)

/-- Some page of a range translates into host memory (R282). -/
def State.touchesHost (s : State) (k : Task) (cell : Nat) (e : CopyEnd) (n : Nat) : Bool :=
  match e with
  | .spad _ => false
  | .virt va => (pagesOf va n).any fun p =>
      match s.translate k.ctx cell (BitVec.ofNat 64 (65536 * p)) .write with
      | .ok (_, r) => s.backing k.ctx r.pa = .host
      | .error _ => false

/-- The checks of cpy at issue, in the order of R261. -/
def Cell.copyChecks (c : Cell) (d s : CopyEnd) (n : Nat) : Except Stop Unit := do
  if 2 ^ 26 < n then .error (Stop.of .protection)
  match d with
  | .virt va => if !canonical (BitVec.ofNat 64 va) then .error (.raise .protection 0 (BitVec.ofNat 64 va) 0)
  | .spad _ => .ok ()
  match s with
  | .virt va => if !canonical (BitVec.ofNat 64 va) then .error (.raise .protection 0 (BitVec.ofNat 64 va) 0)
  | .spad _ => .ok ()
  match d with
  | .spad off => if !inHalf c.core.phase true off n then .error (Stop.of .protection)
  | .virt _ => .ok ()
  match s with
  | .spad off => if !inHalf c.core.phase false off n then .error (Stop.of .protection)
  | .virt _ => .ok ()
  if virtOverlap d s n then .error (Stop.of .protection)
  match d with
  | .spad off => if c.lentOut true off n then .error (Stop.of .operandBusy)
  | .virt _ => .ok ()
  match s with
  | .spad off => if c.lentOut false off n then .error (Stop.of .operandBusy)
  | .virt _ => .ok ()

/-- cpy (R261): it finishes at issue, and COPY_UNIT moves the bytes. -/
def execCpy (t : Tok) (d s' n : Src) (cls : Fin 16) (s : State) : Host.Outcome State Fault Refusal :=
  runWord .a t s fun c k => do
    let toHost (l : List Word64) : Bool := (v2 l).toNat ≤ 2 ^ 26 && s.touchesHost k s.cur.cell (copyEnd (v0 l)) (v2 l).toNat
    let g ← gather .a s c k [d, s', n] none sameClock false none fun l => s.hostWait k (toHost l)
    if !g.on then pure (skipA s c k t 1)
    else
      let dst := copyEnd (v0 g.vals)
      let src := copyEnd (v1 g.vals)
      let len := (v2 g.vals).toNat
      c.copyChecks dst src len
      let s1 ← if toHost g.vals then s.publishFirst k else .ok s
      if len = 0 then pure (skipA s1 c k t 1)
      else
        let isVirt := match src with | .virt _ => true | .spad _ => false
        let x : Copy := { id := c.nextFly, pc := c.core.pc.a, dst := dst, src := src, len := len, cls := cls, task := k.id
                          phase := c.core.phase, ord := if isVirt then c.copyCount else 64 }
        let s2 := s1.updHere fun c =>
          { c with copies := c.copies ++ [x], copyCount := if isVirt then c.copyCount + 1 else c.copyCount }
        pure (s2.retireFly c k t 1 .done [] [] {})

/-- cpyw (R262). -/
def execCpyw (t : Tok) (cls : Fin 16) (s : State) : Host.Outcome State Fault Refusal :=
  runWord .a t s fun c k =>
    if c.copies.any fun x => x.cls == cls then .error (.wait .plain) else .ok (skipA s c k t 1)

/-! ## The weight store (R266) -/

/-- Every page of a virtual source translates with read permission (R253, R266). -/
def State.readable (s : State) (k : Task) (cell : Nat) (e : CopyEnd) (n : Nat) : Except Stop Unit :=
  match e with
  | .spad _ => .ok ()
  | .virt va => (pagesOf va n).forM fun p =>
      (s.translate k.ctx cell (BitVec.ofNat 64 (Nat.max va (65536 * p))) .read).map fun _ => ()

/-- Another instance of the partition is Running or Faulted (R266). -/
def State.otherInstance (s : State) (k : Task) (part : Nat) : Bool :=
  s.insts.any fun i => i.part = part && !(i.ctx = k.ctx && i.id = k.inst) && (i.st == .running || i.st == .faulted)

/-- wst (R266): the word finishes when WST_UNIT_WRITTEN has written the last unit. -/
def execWst (t : Tok) (o s' n : Src) (s : State) : Host.Outcome State Fault Refusal :=
  runWord .a t s fun c k => do
    s.needPour k
    let g ← gather .a s c k [o, s', n] none sameClock false none
    if !g.on then pure (skipA s c k t 1)
    else
      match s.partOfCtx k.ctx with
      | none => .error (Stop.of .protection)
      | some (p, _) =>
        let off := (v0 g.vals).toNat
        let src := copyEnd (v1 g.vals)
        let len := (v2 g.vals).toNat
        if s.otherInstance k p then .error (Stop.of .weightStoreWrite)
        if off % 64 != 0 || len % 64 != 0 then .error (Stop.of .align)
        if 2 ^ 26 < off + len then .error (Stop.of .protection)
        c.copyFrom src len
        s.readable k s.cur.cell src len
        let s1 : State := { s with parts := mupd s.parts p fun r => { r with writer := some k.inst } }
        if len = 0 then pure (skipA s1 c k t 1)
        else
          let s2 := s1.updHere fun c => { c with wsts := c.wsts ++ [⟨c.nextFly, c.core.pc.a, off, src, len, 0⟩] }
          pure (s2.retireFly c k t 1 .wst [] [] {})

/-! ## Prefetch and fences -/

/-- pref (R263): a translation that succeeds is cached; nothing faults. -/
def prefWord (t : Tok) (a : Src) (off : Word64) (len : Nat) (s : State) : Host.Outcome State Fault Refusal :=
  runWord .a t s fun c k => do
    let g ← gather .a s c k [a] none sameClock false none
    let ea := v0 g.vals + off
    let s' := if g.on && canonical ea then
        match s.pageOf k.ctx s.cur.cell ea with
        | .ok p => s.cachePage k.ctx s.cur.cell p
        | .error _ => s
      else s
    pure (skipA s' c k t len)

def execPref (t : Tok) (a : Src) (s : State) : Host.Outcome State Fault Refusal := prefWord t a 0 1 s

def execPrefExt (t : Tok) (a : Src) (off : BitVec 29) (s : State) : Host.Outcome State Fault Refusal :=
  prefWord t a (off.signExtend 64) 2 s

/-- The class of an unfinished word of A. -/
def Cell.flyCls (c : Cell) (f : Fly) : Option (Fin 16) :=
  match f.op with
  | .load r _ _ | .qload r _ _ | .direct r _ _ | .atomic r _ _ _ _ => some r.cls
  | .stream => (c.streams.find? fun u => u.id = f.id).map StreamUnit.cls
  | .stored true (h :: _) => some h.r.cls
  | .done | .wst | .stored _ _ => none

/-- A class is named by a mask. -/
def inMask (mask : BitVec 16) : Option (Fin 16) → Bool
  | some k => mask.getLsbD k.val
  | none => false

/-- fcls (R319). -/
def execFcls (t : Tok) (mask : BitVec 16) (_scope : Scope) (s : State) : Host.Outcome State Fault Refusal :=
  runWord .a t s fun c k =>
    if mask = 0 then .error (Stop.of .illegalWord)
    else if (c.fly.any fun f => inMask mask (c.flyCls f)) ||
        (s.reds.any fun r => r.ctx = k.ctx && r.cell = s.cur.cell && inMask mask (some r.r.cls)) then .error (.wait .plain)
    else .ok (skipA s c k t 1)

/-- fsc (R320, R321): it publishes, then waits for its slot; SC_SLOT performs it. -/
def execFsc (t : Tok) (s : State) : Host.Outcome State Fault Refusal :=
  runWord .a t s fun c k => do
    if c.scWait.isSome then .error (.wait .plain)
    s.needPour k
    let s1 ← s.publishFirst k
    pure ((s1.updHere fun c => { c with scWait := some { t := t, len := 1, op := none } }).noteWait .a .plain)

end Sys2Proof.Machine
end

