-- ==== Sys2Proof/Machine/VArith.lean ====
section
/-! DEFINITION. Operands of V (R179 to R188) and its element arithmetic, comparisons and selections (R192 to R195). -/

namespace Sys2Proof.Machine

open Sys2Proof

/-! ## Names and lanes -/

/-- The register that a name reaches (R188). -/
def vreg (v : VrbReg) (n : VReg) : Fin 32 :=
  if v.base.val ≤ n.val && n.val ≤ v.base.val + v.sizeM1.val then
    Fin.ofNat 32 (v.base.val + (n.val - v.base.val + v.rot.val) % (v.sizeM1.val + 1))
  else n

/-- The extension of a word that carries none. -/
def noVX : VX := { m := 0, msk := false, z := false, rm := .ne, ns := false, idx := 0, fmt := .raw }

/-- Lane i is active (R181). -/
def laneOn (c : Core) (x : VX) (i : Nat) : Bool := !x.msk || c.masks[x.m].bits.getLsbD i

/-- All bits of the lanes that a mask selects. -/
def laneBits (f : Nat → Bool) : Row :=
  BitVec.ofNat 2048 (packElems 32 ((List.range 64).map fun i => if f i then 0xFFFFFFFF else 0))

/-- The elements of a register (R57). -/
def elemsOf (f : Fmt) (x : Row) : List Nat := (List.range (fmtCount f)).map (elemAt f x)

/-- A register of elements of a width. -/
def rowOf (w : Nat) (es : List Nat) : Row := BitVec.ofNat 2048 (packElems w es)

/-- Element j is active. -/
def elemOn (c : Core) (x : VX) (f : Fmt) (j : Nat) : Bool := laneOn c x (j * fmtWidth f / 32)

/-- The bits of a destination under a mask (R181). -/
def maskRow (c : Core) (x : VX) (old new : Row) : Row :=
  if x.msk then
    let m := laneBits (laneOn c x)
    (new &&& m) ||| (if x.z then 0 else old &&& ~~~m)
  else new

/-! ## Running a V word -/

/-- The end of a V word of `len` words, with what it leaves in the registers. -/
def finishV (s : State) (t : Tok) (len : Nat) (f : Core → Core) : State :=
  s.updHere fun c => ({ c with core := f c.core }.retire .v t (c.core.pc.v + len))

/-- The tagged sources that an instruction reads: its registers, and its destination where a mask keeps its lanes (R181). -/
def keepsDst (x : VX) : Bool := x.msk && !x.z

/-- Steps 3 and 4 of R35 for a V word, with the poison of what a present word reads: the clock and the presence. -/
def vCheck (c : Core) (srcs : List (Fin 32)) (form : List Clk → Except Stop Clk) (fmts : List Fmt → Bool)
    (masks : List MaskReg) : Except Stop (Clk × Bool) := do
  let vs := srcs.map fun i => c.vregs[i]
  needSound (vs.any VVal.tagBad)
  let k ← clockRead c (form (vs.map VVal.tag))
  if !fmts (vs.map VVal.fmt) then .error (Stop.of .formatMismatch)
  let on := clkOn c k
  needSound (on && (vs.any (fun v => v.bad != 0) || masks.any fun m => c.masks[m].bad != 0))
  pure (k, on)

/-- The clock of one register that a word reads, with its poison, and whether the word is present (R111, R137, R138). -/
def tagOn (c : Core) (x : VVal) : Except Stop Bool := do
  needSound x.tagBad
  let k ← clockRead c (.ok x.tag)
  pure (clkOn c k)

/-- Every format of a list equals the first, which a class accepts (R58). -/
def sameFmt (ok : Fmt → Bool) : List Fmt → Bool
  | [] => true
  | f :: rest => ok f && rest.all (· == f)

/-- The mask that a form reads. -/
def maskUse (x : VX) : List MaskReg := if x.msk then [x.m] else []

/-- Write a vector register. -/
def Core.setV (c : Core) (d : Fin 32) (v : VVal) : Core := { c with vregs := c.vregs.set d v }

/-- A form with one vector result in the format of its first source (R184): its result from the elements of its sources. -/
def vForm (t : Tok) (len : Nat) (d : VReg) (srcs : List VReg) (addend : Bool) (x : VX) (ok : Fmt → Bool)
    (f : Core → Fmt → List Row → Row) (s : State) : Host.Outcome State Fault Refusal :=
  runWord .v t s fun c _ => do
    let r := srcs.map (vreg c.core.vrb)
    let dr := vreg c.core.vrb d
    let regs := r ++ (if addend || keepsDst x then [dr] else [])
    let (k, on) ← vCheck c.core regs sameClock (sameFmt ok) (maskUse x)
    if !on then pure (finishV s t len id)
    else
      let fmt := c.core.vregs[r.headD 0].fmt
      let old := c.core.vregs[dr].bits
      let rows := (r ++ (if addend then [dr] else [])).map fun i => c.core.vregs[i].bits
      let bits := maskRow c.core x old (f c.core fmt rows)
      pure (finishV s t len fun c => c.setV dr { bits := bits, fmt := fmt, tag := k })

/-- Element by element, on one or more rows. -/
def map1 (fmt : Fmt) (f : Nat → Nat) (a : Row) : Row := rowOf (fmtWidth fmt) ((elemsOf fmt a).map f)
def map2 (fmt : Fmt) (f : Nat → Nat → Nat) (a b : Row) : Row :=
  rowOf (fmtWidth fmt) (List.zipWith f (elemsOf fmt a) (elemsOf fmt b))
def map3 (fmt : Fmt) (f : Nat → Nat → Nat → Nat) (a b d : Row) : Row :=
  rowOf (fmtWidth fmt) (List.zipWith (fun (g : Nat → Nat) e => g e) (List.zipWith f (elemsOf fmt a) (elemsOf fmt b)) (elemsOf fmt d))

def row0 (l : List Row) : Row := l.getD 0 0
def row1 (l : List Row) : Row := l.getD 1 0
def row2 (l : List Row) : Row := l.getD 2 0

/-! ## Element operations (R74 to R76) -/

/-- An integer element as an exact integer. -/
def intElem (f : Fmt) (a : Nat) : Int := if isSigned f then signedOf (fmtWidth f) a else (a % 2 ^ fmtWidth f : Nat)

/-- A place in the order of R202 and of vmin and vmax: NaN lowest, −0 below +0. -/
def rankKey (f : Fmt) (a : Nat) : Int :=
  if isInt f then intElem f a
  else
    let w := fmtWidth f
    if floatVal f a == .nan then -(2 ^ 64 : Nat)
    else if a / 2 ^ (w - 1) % 2 = 1 then -((a % 2 ^ (w - 1) : Nat) : Int) - 1 else (a % 2 ^ (w - 1) : Nat)

def isNan (f : Fmt) (a : Nat) : Bool := !isInt f && floatVal f a == .nan

def addElem (f : Fmt) (rm : Rm) (ns : Bool) (a b : Nat) : Nat :=
  if isInt f then narrowInt f ns (intElem f a + intElem f b) else roundTo f rm (addVal rm (floatVal f a) (floatVal f b))

def subElem (f : Fmt) (rm : Rm) (ns : Bool) (a b : Nat) : Nat :=
  if isInt f then narrowInt f ns (intElem f a - intElem f b)
  else roundTo f rm (addVal rm (floatVal f a) (floatVal f b).negate)

def mulElem (f : Fmt) (rm : Rm) (ns : Bool) (a b : Nat) : Nat :=
  if isInt f then narrowInt f ns (intElem f a * intElem f b) else roundTo f rm (mulVal (floatVal f a) (floatVal f b))

def minElem (f : Fmt) (a b : Nat) : Nat :=
  if isNan f a || isNan f b then nanCode f else if rankKey f a ≤ rankKey f b then a else b

def maxElem (f : Fmt) (a b : Nat) : Nat :=
  if isNan f a || isNan f b then nanCode f else if rankKey f a ≤ rankKey f b then b else a

def absElem (f : Fmt) (ns : Bool) (a : Nat) : Nat :=
  if isInt f then narrowInt f ns (intElem f a).natAbs
  else if isNan f a then nanCode f else a % 2 ^ (fmtWidth f - 1)

def negElem (f : Fmt) (ns : Bool) (a : Nat) : Nat :=
  if isInt f then narrowInt f ns (-intElem f a)
  else if isNan f a then nanCode f else (a + 2 ^ (fmtWidth f - 1)) % 2 ^ fmtWidth f

/-- ±(a × b) ± d, rounded once (R74). -/
def fmaElem (f : Fmt) (rm : Rm) (ns negP negD : Bool) (a b d : Nat) : Nat :=
  if isInt f then
    let p := intElem f a * intElem f b
    narrowInt f ns ((if negP then -p else p) + (if negD then -intElem f d else intElem f d))
  else
    let p := mulVal (floatVal f a) (floatVal f b)
    let v := floatVal f d
    roundTo f rm (addVal rm (if negP then p.negate else p) (if negD then v.negate else v))

/-! ## Element arithmetic (R192) -/

def vbin (t : Tok) (len : Nat) (d a b : VReg) (x : VX) (f : Fmt → Nat → Nat → Nat) (s : State) :
    Host.Outcome State Fault Refusal :=
  vForm t len d [a, b] false x isArith (fun _ fmt l => map2 fmt (f fmt) (row0 l) (row1 l)) s

def vun (t : Tok) (len : Nat) (d a : VReg) (x : VX) (ok : Fmt → Bool) (f : Fmt → Nat → Nat) (s : State) :
    Host.Outcome State Fault Refusal :=
  vForm t len d [a] false x ok (fun _ fmt l => map1 fmt (f fmt) (row0 l)) s

def vtri (t : Tok) (len : Nat) (d a b : VReg) (x : VX) (negP negD : Bool) (s : State) : Host.Outcome State Fault Refusal :=
  vForm t len d [a, b] true x isArith
    (fun _ fmt l => map3 fmt (fmaElem fmt x.rm x.ns negP negD) (row0 l) (row1 l) (row2 l)) s

def vfun (t : Tok) (len : Nat) (d a : VReg) (x : VX) (f : FVal → FVal) (s : State) : Host.Outcome State Fault Refusal :=
  vun t len d a x isArithFloat (fun fmt e => roundTo fmt x.rm (f (floatVal fmt e))) s

def execVadd (t : Tok) (d a b : VReg) (s : State) : Host.Outcome State Fault Refusal :=
  vbin t 1 d a b noVX (fun f => addElem f .ne false) s
def execVaddExt (t : Tok) (d a b : VReg) (x : VX) (s : State) : Host.Outcome State Fault Refusal :=
  vbin t 2 d a b x (fun f => addElem f x.rm x.ns) s
def execVsub (t : Tok) (d a b : VReg) (s : State) : Host.Outcome State Fault Refusal :=
  vbin t 1 d a b noVX (fun f => subElem f .ne false) s
def execVsubExt (t : Tok) (d a b : VReg) (x : VX) (s : State) : Host.Outcome State Fault Refusal :=
  vbin t 2 d a b x (fun f => subElem f x.rm x.ns) s
def execVmul (t : Tok) (d a b : VReg) (s : State) : Host.Outcome State Fault Refusal :=
  vbin t 1 d a b noVX (fun f => mulElem f .ne false) s
def execVmulExt (t : Tok) (d a b : VReg) (x : VX) (s : State) : Host.Outcome State Fault Refusal :=
  vbin t 2 d a b x (fun f => mulElem f x.rm x.ns) s
def execVmin (t : Tok) (d a b : VReg) (s : State) : Host.Outcome State Fault Refusal := vbin t 1 d a b noVX minElem s
def execVminExt (t : Tok) (d a b : VReg) (x : VX) (s : State) : Host.Outcome State Fault Refusal :=
  vbin t 2 d a b x minElem s
def execVmax (t : Tok) (d a b : VReg) (s : State) : Host.Outcome State Fault Refusal := vbin t 1 d a b noVX maxElem s
def execVmaxExt (t : Tok) (d a b : VReg) (x : VX) (s : State) : Host.Outcome State Fault Refusal :=
  vbin t 2 d a b x maxElem s
def execVabs (t : Tok) (d a : VReg) (s : State) : Host.Outcome State Fault Refusal :=
  vun t 1 d a noVX isArith (fun f => absElem f false) s
def execVabsExt (t : Tok) (d a : VReg) (x : VX) (s : State) : Host.Outcome State Fault Refusal :=
  vun t 2 d a x isArith (fun f => absElem f x.ns) s
def execVneg (t : Tok) (d a : VReg) (s : State) : Host.Outcome State Fault Refusal :=
  vun t 1 d a noVX isArith (fun f => negElem f false) s
def execVnegExt (t : Tok) (d a : VReg) (x : VX) (s : State) : Host.Outcome State Fault Refusal :=
  vun t 2 d a x isArith (fun f => negElem f x.ns) s

def execVfma (t : Tok) (d a b : VReg) (s : State) : Host.Outcome State Fault Refusal := vtri t 1 d a b noVX false false s
def execVfmaExt (t : Tok) (d a b : VReg) (x : VX) (s : State) : Host.Outcome State Fault Refusal :=
  vtri t 2 d a b x false false s
def execVfms (t : Tok) (d a b : VReg) (s : State) : Host.Outcome State Fault Refusal := vtri t 1 d a b noVX false true s
def execVfmsExt (t : Tok) (d a b : VReg) (x : VX) (s : State) : Host.Outcome State Fault Refusal :=
  vtri t 2 d a b x false true s
def execVfnma (t : Tok) (d a b : VReg) (s : State) : Host.Outcome State Fault Refusal := vtri t 1 d a b noVX true false s
def execVfnmaExt (t : Tok) (d a b : VReg) (x : VX) (s : State) : Host.Outcome State Fault Refusal :=
  vtri t 2 d a b x true false s

def execVrcp (t : Tok) (d a : VReg) (s : State) : Host.Outcome State Fault Refusal := vfun t 1 d a noVX rcpVal s
def execVrcpExt (t : Tok) (d a : VReg) (x : VX) (s : State) : Host.Outcome State Fault Refusal := vfun t 2 d a x rcpVal s
def execVrsq (t : Tok) (d a : VReg) (s : State) : Host.Outcome State Fault Refusal := vfun t 1 d a noVX rsqVal s
def execVrsqExt (t : Tok) (d a : VReg) (x : VX) (s : State) : Host.Outcome State Fault Refusal := vfun t 2 d a x rsqVal s
def execVexp2 (t : Tok) (d a : VReg) (s : State) : Host.Outcome State Fault Refusal := vfun t 1 d a noVX exp2Val s
def execVexp2Ext (t : Tok) (d a : VReg) (x : VX) (s : State) : Host.Outcome State Fault Refusal := vfun t 2 d a x exp2Val s
def execVlog2 (t : Tok) (d a : VReg) (s : State) : Host.Outcome State Fault Refusal := vfun t 1 d a noVX log2Val s
def execVlog2Ext (t : Tok) (d a : VReg) (x : VX) (s : State) : Host.Outcome State Fault Refusal := vfun t 2 d a x log2Val s
def execVtanh (t : Tok) (d a : VReg) (s : State) : Host.Outcome State Fault Refusal := vfun t 1 d a noVX tanhVal s
def execVtanhExt (t : Tok) (d a : VReg) (x : VX) (s : State) : Host.Outcome State Fault Refusal := vfun t 2 d a x tanhVal s

/-! ## Bitwise forms and shifts (R193) -/

/-- The classes of bitwise forms and shifts (R58). -/
def bitFmt (f : Fmt) : Bool := f == .raw || f == .bool || (isInt f && f != .int64)

/-- A bitwise form: on BOOL each element is first read as a truth value. -/
def vbit (t : Tok) (len : Nat) (d : VReg) (srcs : List VReg) (x : VX) (f : Nat → Nat → Nat) (g : Bool → Bool → Bool)
    (s : State) : Host.Outcome State Fault Refusal :=
  vForm t len d srcs false x bitFmt (fun _ fmt l =>
    if fmt == .bool then map2 .bool (fun a b => (g (a != 0) (b != 0)).toNat) (row0 l) (row1 l)
    else map2 .raw f (row0 l) (row1 l)) s

def xorNat32 (a : Nat) : Nat := a ^^^ 0xFFFFFFFF

def execVand (t : Tok) (d a b : VReg) (s : State) : Host.Outcome State Fault Refusal :=
  vbit t 1 d [a, b] noVX (· &&& ·) (· && ·) s
def execVandExt (t : Tok) (d a b : VReg) (x : VX) (s : State) : Host.Outcome State Fault Refusal :=
  vbit t 2 d [a, b] x (· &&& ·) (· && ·) s
def execVor (t : Tok) (d a b : VReg) (s : State) : Host.Outcome State Fault Refusal :=
  vbit t 1 d [a, b] noVX (· ||| ·) (· || ·) s
def execVorExt (t : Tok) (d a b : VReg) (x : VX) (s : State) : Host.Outcome State Fault Refusal :=
  vbit t 2 d [a, b] x (· ||| ·) (· || ·) s
def execVxor (t : Tok) (d a b : VReg) (s : State) : Host.Outcome State Fault Refusal :=
  vbit t 1 d [a, b] noVX (· ^^^ ·) (· ^^ ·) s
def execVxorExt (t : Tok) (d a b : VReg) (x : VX) (s : State) : Host.Outcome State Fault Refusal :=
  vbit t 2 d [a, b] x (· ^^^ ·) (· ^^ ·) s
def execVnot (t : Tok) (d a : VReg) (s : State) : Host.Outcome State Fault Refusal :=
  vbit t 1 d [a, a] noVX (fun a _ => xorNat32 a) (fun a _ => !a) s
def execVnotExt (t : Tok) (d a : VReg) (x : VX) (s : State) : Host.Outcome State Fault Refusal :=
  vbit t 2 d [a, a] x (fun a _ => xorNat32 a) (fun a _ => !a) s

def shlElem (f : Fmt) (a b : Nat) : Nat := a * 2 ^ (b % fmtWidth f) % 2 ^ fmtWidth f
def shrElem (f : Fmt) (a b : Nat) : Nat := a / 2 ^ (b % fmtWidth f)
def sarElem (f : Fmt) (a b : Nat) : Nat := wrapInt (fmtWidth f) (signedOf (fmtWidth f) a / (2 ^ (b % fmtWidth f) : Nat))

def vshift (t : Tok) (len : Nat) (d a b : VReg) (x : VX) (f : Fmt → Nat → Nat → Nat) (s : State) :
    Host.Outcome State Fault Refusal :=
  vForm t len d [a, b] false x bitFmt (fun _ fmt l => map2 fmt (f fmt) (row0 l) (row1 l)) s

def execVshl (t : Tok) (d a b : VReg) (s : State) : Host.Outcome State Fault Refusal := vshift t 1 d a b noVX shlElem s
def execVshlExt (t : Tok) (d a b : VReg) (x : VX) (s : State) : Host.Outcome State Fault Refusal :=
  vshift t 2 d a b x shlElem s
def execVshr (t : Tok) (d a b : VReg) (s : State) : Host.Outcome State Fault Refusal := vshift t 1 d a b noVX shrElem s
def execVshrExt (t : Tok) (d a b : VReg) (x : VX) (s : State) : Host.Outcome State Fault Refusal :=
  vshift t 2 d a b x shrElem s
def execVsar (t : Tok) (d a b : VReg) (s : State) : Host.Outcome State Fault Refusal := vshift t 1 d a b noVX sarElem s
def execVsarExt (t : Tok) (d a b : VReg) (x : VX) (s : State) : Host.Outcome State Fault Refusal :=
  vshift t 2 d a b x sarElem s

/-! ## Comparison and selection (R194, R195) -/

/-- The relation of a comparison on elements (R74). -/
def cmpElem (f : Fmt) (cc : VCmpOp) (a b : Nat) : Bool :=
  let x := if isInt f then intVal (intElem f a) else floatVal f a
  let y := if isInt f then intVal (intElem f b) else floatVal f b
  match cc with
  | .eq => eqVal x y
  | .ne => !eqVal x y
  | .lt => ltVal x y
  | .le => ltVal x y || eqVal x y

/-- The lanes in which the comparison holds for every element. -/
def cmpLanes (f : Fmt) (cc : VCmpOp) (a b : Row) : BitVec 64 :=
  let per := 32 / fmtWidth f
  BitVec.ofNat 64 (packElems 1 ((List.range 64).map fun i =>
    ((List.range per).all fun j => cmpElem f cc (elemAt f a (i * per + j)) (elemAt f b (i * per + j))).toNat))

/-- vcmp (R194). -/
def vcmpWord (t : Tok) (len : Nat) (cc : VCmpOp) (md : MaskReg) (a b : VReg) (x : VX) (s : State) :
    Host.Outcome State Fault Refusal :=
  runWord .v t s fun c _ => do
    let ra := vreg c.core.vrb a
    let rb := vreg c.core.vrb b
    let (_, on) ← vCheck c.core [ra, rb] sameClock (sameFmt isArith) (maskUse x ++ if keepsDst x then [md] else [])
    if !on then pure (finishV s t len id)
    else
      let r := cmpLanes c.core.vregs[ra].fmt cc c.core.vregs[ra].bits c.core.vregs[rb].bits
      let m := c.core.masks[x.m].bits
      let v := if x.msk then (r &&& m) ||| (if x.z then 0 else c.core.masks[md].bits &&& ~~~m) else r
      pure (finishV s t len fun c => { c with masks := c.masks.set md { bits := v } })

def execVcmp (t : Tok) (f : VCmpOp) (md : MaskReg) (a b : VReg) (s : State) : Host.Outcome State Fault Refusal :=
  vcmpWord t 1 f md a b noVX s
def execVcmpExt (t : Tok) (f : VCmpOp) (md : MaskReg) (a b : VReg) (x : VX) (s : State) : Host.Outcome State Fault Refusal :=
  vcmpWord t 2 f md a b x s

/-- Every vector format. -/
def anyFmt (_ : Fmt) : Bool := true

/-- vsel (R195). -/
def execVsel (t : Tok) (ma : MaskReg) (d a b : VReg) (s : State) : Host.Outcome State Fault Refusal :=
  runWord .v t s fun c _ => do
    let ra := vreg c.core.vrb a
    let rb := vreg c.core.vrb b
    let (k, on) ← vCheck c.core [ra, rb] sameClock (sameFmt anyFmt) [ma]
    if !on then pure (finishV s t 1 id)
    else
      let m := laneBits fun i => c.core.masks[ma].bits.getLsbD i
      let bits := (c.core.vregs[ra].bits &&& m) ||| (c.core.vregs[rb].bits &&& ~~~m)
      pure (finishV s t 1 fun c' => c'.setV (vreg c.core.vrb d) { bits := bits, fmt := c.core.vregs[ra].fmt, tag := k })

end Sys2Proof.Machine
end

