-- ==== Sys2Proof/Machine/VMove.lean ====
section
/-! DEFINITION. The words of V that move lanes, reduce, order and convert (R196 to R210), and the rotating base with the
branches of V (R187 to R190, R197). -/

namespace Sys2Proof.Machine

open Sys2Proof

/-! ## Moves and permutes (R198, R199) -/

/-- A form whose result has the format of va, and whose further sources have only a clock to agree on (R199): it takes the
rows of va and of the index source. -/
def vPerm (t : Tok) (len : Nat) (d a : VReg) (ix : List VReg) (x : VX) (f : Row → Row → Row) (s : State) :
    Host.Outcome State Fault Refusal :=
  runWord .v t s fun c _ => do
    let ra := vreg c.core.vrb a
    let rd := vreg c.core.vrb d
    let data := ra :: (if keepsDst x then [rd] else [])
    let idx := ix.map (vreg c.core.vrb)
    let (k, on) ← vCheck c.core (data ++ idx) sameClock (fun l => sameFmt (fun _ => true) (l.take data.length)) (maskUse x)
    if !on then pure (finishV s t len id)
    else
      let src := c.core.vregs[ra]
      let bits := maskRow c.core x c.core.vregs[rd].bits (f src.bits (c.core.vregs[idx.headD 0].bits))
      pure (finishV s t len fun c => c.setV rd { bits := bits, fmt := src.fmt, tag := k })

/-- Lane i of a register. -/
def laneAt (x : Row) (i : Nat) : Nat := elemAt .raw x i

/-- A register from its 64 lanes. -/
def rowOfLanes (f : Nat → Nat) : Row := rowOf 32 ((List.range 64).map f)

def shufRow (a b : Row) : Row := rowOf 8 ((List.range 256).map fun j => elemAt .int8 a (elemAt .int8 b j))
def permRow (a b : Row) : Row := rowOfLanes fun j => laneAt a (laneAt b j % 64)
def rotRow (n : Nat) (a : Row) : Row := rowOfLanes fun j => laneAt a ((j + n) % 64)
def bcastRow (n : Nat) (a : Row) : Row := rowOfLanes fun _ => laneAt a n

def execVmov (t : Tok) (d a : VReg) (s : State) : Host.Outcome State Fault Refusal :=
  vPerm t 1 d a [] noVX (fun r _ => r) s
def execVmovExt (t : Tok) (d a : VReg) (x : VX) (s : State) : Host.Outcome State Fault Refusal :=
  vPerm t 2 d a [] x (fun r _ => r) s
def execVshuf (t : Tok) (d a b : VReg) (s : State) : Host.Outcome State Fault Refusal :=
  vPerm t 1 d a [b] noVX shufRow s
def execVshufExt (t : Tok) (d a b : VReg) (x : VX) (s : State) : Host.Outcome State Fault Refusal :=
  vPerm t 2 d a [b] x shufRow s
def execVperm (t : Tok) (d a b : VReg) (s : State) : Host.Outcome State Fault Refusal :=
  vPerm t 1 d a [b] noVX permRow s
def execVpermExt (t : Tok) (d a b : VReg) (x : VX) (s : State) : Host.Outcome State Fault Refusal :=
  vPerm t 2 d a [b] x permRow s
def execVrot (t : Tok) (d a : VReg) (x : VX) (s : State) : Host.Outcome State Fault Refusal :=
  vPerm t 2 d a [] x (fun r _ => rotRow x.idx.val r) s
def execVbcast (t : Tok) (d a : VReg) (x : VX) (s : State) : Host.Outcome State Fault Refusal :=
  vPerm t 2 d a [] x (fun r _ => bcastRow x.idx.val r) s

/-- Put a value into lane n. -/
def putLane (x : Row) (n : Nat) (v : Word32) : Row :=
  (x &&& ~~~(BitVec.ofNat 2048 0xFFFFFFFF <<< (32 * n))) ||| (v.setWidth 2048 <<< (32 * n))

/-- The presence of a word by its tag check: a word that is not absent waits first (R35). -/
def presentAfter (on : Except Stop Bool) (wait : Except Stop Unit) : Except Stop Bool :=
  match on with
  | .ok false => .ok false
  | r => wait.bind fun _ => r

/-- vmovs (R198). -/
def execVmovs (t : Tok) (d : VReg) (q : QNum) (n : Fin 64) (s : State) : Host.Outcome State Fault Refusal :=
  runWord .v t s fun c k => do
    let cell := s.cur.cell
    needQueue (s.popAssigned k cell .v q.val)
    let rd := vreg c.core.vrb d
    let old := c.core.vregs[rd]
    let raw := s.popWait k c cell q.val
    let on ← presentAfter (tagOn c.core old) (raw.map fun _ => ())
    if !on then pure (finishV s t 2 id)
    else
      let raw ← raw
      let e ← popCheck c.core.qpopFmt[q] old.tag false raw
      pure (finishV (s.popTake k cell q.val) t 2 fun c =>
        c.setV rd { old with
          bits := putLane old.bits n.val (e.val.setWidth 32), bad := old.bad &&& ~~~((1 : BitVec 64) <<< n.val) })

/-- The value that vext pushes (R198). -/
def extValue (f : Fmt) (x : Row) (n : Nat) : Word64 :=
  let lane := BitVec.ofNat 32 (laneAt x n)
  if f == .int32 then lane.signExtend 64 else lane.setWidth 64

/-- A push of a present V word: the entry goes to its queue as the word finishes (R156). -/
def pushV (s : State) (t : Tok) (k : Task) (len : Nat) (q : QNum) (e : QEntry) : State :=
  (finishV s t len id).deposit k s.cur.cell q.val .v e

/-- vext (R198). -/
def execVext (t : Tok) (q : QNum) (a : VReg) (n : Fin 64) (s : State) : Host.Outcome State Fault Refusal :=
  runWord .v t s fun c k => do
    needQueue (s.pushAssigned k s.cur.cell .v q.val)
    let v := c.core.vregs[vreg c.core.vrb a]
    let on ← presentAfter (tagOn c.core v) (s.pushRoom k s.cur.cell q.val 16)
    if !on then pure (finishV s t 2 id)
    else
      needSound (v.bad.getLsbD n.val)
      pure (pushV s t k 2 q (scalarEntry (extValue v.fmt v.bits n.val) v.tag (c.pushFmt q) k.instant))

/-! ## Masks (R196) -/

/-- A mask word on k0 that reads `ms` and writes md. -/
def maskWord (t : Tok) (md : MaskReg) (ms : List MaskReg) (f : List (BitVec 64) → BitVec 64) (s : State) :
    Host.Outcome State Fault Refusal :=
  runWord .v t s fun c _ => do
    needSound (ms.any fun m => c.core.masks[m].bad != 0)
    pure (finishV s t 1 fun c' => { c' with masks := c'.masks.set md { bits := f (ms.map fun m => c.core.masks[m].bits) } })

/-- The first and second mask of a word. -/
def mk0 (l : List (BitVec 64)) : BitVec 64 := l.getD 0 0
def mk1 (l : List (BitVec 64)) : BitVec 64 := l.getD 1 0

def execMand (t : Tok) (md ma mb : MaskReg) (s : State) : Host.Outcome State Fault Refusal :=
  maskWord t md [ma, mb] (fun l => mk0 l &&& mk1 l) s
def execMor (t : Tok) (md ma mb : MaskReg) (s : State) : Host.Outcome State Fault Refusal :=
  maskWord t md [ma, mb] (fun l => mk0 l ||| mk1 l) s
def execMnot (t : Tok) (md ma : MaskReg) (s : State) : Host.Outcome State Fault Refusal :=
  maskWord t md [ma] (fun l => ~~~(mk0 l)) s
def execMset (t : Tok) (md : MaskReg) (n : Fin 128) (s : State) : Host.Outcome State Fault Refusal :=
  maskWord t md [] (fun _ => BitVec.ofNat 64 (2 ^ n.val - 1)) s

/-- mpop (R196): the count of ones, as a scalar entry on k0. -/
def execMpop (t : Tok) (q : QNum) (ma : MaskReg) (s : State) : Host.Outcome State Fault Refusal :=
  runWord .v t s fun c k => do
    needQueue (s.pushAssigned k s.cur.cell .v q.val)
    s.pushRoom k s.cur.cell q.val 16
    needSound (c.core.masks[ma].bad != 0)
    let n := (List.range 64).countP fun i => c.core.masks[ma].bits.getLsbD i
    pure (pushV s t k 1 q (scalarEntry (BitVec.ofNat 64 n) 0 (c.pushFmt q) k.instant))

/-! ## Reductions and scans (R200, R201) -/

/-- One level of the tree. -/
def pairUp (op : Nat → Nat → Nat) : List Nat → List Nat
  | a :: b :: rest => op a b :: pairUp op rest
  | l => l

/-- The fixed tree: at most nine levels. -/
def foldTree (op : Nat → Nat → Nat) : Nat → List Nat → List Nat
  | 0, l => l
  | n + 1, l => foldTree op n (pairUp op l)

/-- The identity of a reduction. -/
def redIdentity (r : VRedOp) (f : Fmt) : Nat :=
  match r with
  | .add => if isInt f then 0 else signBit f true
  | .max => if isInt f then wrapInt (fmtWidth f) (intMin f) else infCode f true
  | .min => if isInt f then wrapInt (fmtWidth f) (intMax f) else infCode f false

/-- The elements with the identity in place of the inactive ones. -/
def activeOr (c : Core) (x : VX) (f : Fmt) (i : Nat) (a : Row) : List Nat :=
  (List.range (fmtCount f)).map fun j => if elemOn c x f j then elemAt f a j else i

/-- The result of a reduction over a list of elements. -/
def reduceElems (r : VRedOp) (f : Fmt) (rm : Rm) (ns : Bool) (es : List Nat) : Nat :=
  match r with
  | .add =>
    if isInt f then narrowInt f ns ((es.map (intElem f)).sum) else (foldTree (addElem f rm ns) 9 es).headD 0
  | .max => (foldTree (maxElem f) 9 es).headD 0
  | .min => (foldTree (minElem f) 9 es).headD 0

/-- A form that writes every element of its destination and uses the mask to choose the elements that take part (R181). -/
def vWhole (t : Tok) (len : Nat) (d a : VReg) (x : VX) (f : Core → Fmt → Row → Row) (s : State) :
    Host.Outcome State Fault Refusal :=
  runWord .v t s fun c _ => do
    let ra := vreg c.core.vrb a
    let (k, on) ← vCheck c.core [ra] sameClock (sameFmt isArith) (maskUse x)
    if !on then pure (finishV s t len id)
    else
      let src := c.core.vregs[ra]
      pure (finishV s t len fun c' =>
        c'.setV (vreg c.core.vrb d) { bits := f c.core src.fmt src.bits, fmt := src.fmt, tag := k })

/-- vred (R200). -/
def vredRow (r : VRedOp) (x : VX) (c : Core) (f : Fmt) (a : Row) : Row :=
  rowOf (fmtWidth f) [reduceElems r f x.rm x.ns (activeOr c x f (redIdentity r f) a)]

def execVred (t : Tok) (r : VRedOp) (d a : VReg) (s : State) : Host.Outcome State Fault Refusal :=
  vWhole t 1 d a noVX (vredRow r noVX) s
def execVredExt (t : Tok) (r : VRedOp) (d a : VReg) (x : VX) (s : State) : Host.Outcome State Fault Refusal :=
  vWhole t 2 d a x (vredRow r x) s

/-- Inclusive prefix sums of floats: each sum is rounded. -/
def scanFloat (f : Fmt) (rm : Rm) (acc : Nat) : List Nat → List Nat
  | [] => []
  | e :: es => let v := addElem f rm false acc e; v :: scanFloat f rm v es

/-- Inclusive prefix sums of integers: the sums are exact and each output narrows. -/
def scanInt (f : Fmt) (ns : Bool) (acc : Int) : List Nat → List Nat
  | [] => []
  | e :: es => let v := acc + intElem f e; narrowInt f ns v :: scanInt f ns v es

/-- vscan (R201). -/
def scanRow (x : VX) (c : Core) (f : Fmt) (a : Row) : Row :=
  let es := activeOr c x f (redIdentity .add f) a
  rowOf (fmtWidth f) (if isInt f then scanInt f x.ns 0 es else scanFloat f x.rm (redIdentity .add f) es)

def execVscan (t : Tok) (d a : VReg) (s : State) : Host.Outcome State Fault Refusal :=
  vForm t 1 d [a] false noVX isArith (fun c f l => scanRow noVX c f (row0 l)) s
def execVscanExt (t : Tok) (d a : VReg) (x : VX) (s : State) : Host.Outcome State Fault Refusal :=
  vForm t 2 d [a] false x isArith (fun c f l => scanRow x c f (row0 l)) s

/-! ## Top-k and sort (R202 to R204) -/

/-- The active elements with their indices, in index order. -/
def activePairs (c : Core) (x : VX) (f : Fmt) (a : Row) : List (Nat × Nat) :=
  ((List.range (fmtCount f)).filter (elemOn c x f)).map fun j => (j, elemAt f a j)

/-- The active elements in descending or ascending order, equal ranks in increasing index. -/
def ranked (asc : Bool) (f : Fmt) (l : List (Nat × Nat)) : List (Nat × Nat) :=
  sortBy (fun p q => if asc then rankKey f p.2 ≤ rankKey f q.2 else rankKey f q.2 ≤ rankKey f p.2) l

/-- vtopk (R203). -/
def execVtopk (t : Tok) (d a : VReg) (x : VX) (s : State) : Host.Outcome State Fault Refusal :=
  runWord .v t s fun c _ => do
    let ra := vreg c.core.vrb a
    let (k, on) ← vCheck c.core [ra] sameClock (sameFmt isArith) (maskUse x)
    if !on then pure (finishV s t 2 id)
    else
      let src := c.core.vregs[ra]
      let top := (ranked false src.fmt (activePairs c.core x src.fmt src.bits)).take (x.idx.val + 1)
      let vals : VVal := { bits := rowOf (fmtWidth src.fmt) (top.map Prod.snd), fmt := src.fmt, tag := k }
      let idx : VVal :=
        { bits := rowOf 32 ((List.range 64).map fun j => ((top[j]?).map Prod.fst).getD 0xFFFFFFFF), fmt := .int32, tag := k }
      pure (finishV s t 2 fun c' => (c'.setV (vreg c.core.vrb d) vals).setV (vreg c.core.vrb (d + 1)) idx)

/-- vsort (R204). -/
def sortRow (asc : Bool) (x : VX) (c : Core) (f : Fmt) (a : Row) : Row :=
  rowOf (fmtWidth f) ((ranked asc f (activePairs c x f a)).map Prod.snd)

def execVsort (t : Tok) (asc : Bool) (d a : VReg) (s : State) : Host.Outcome State Fault Refusal :=
  vWhole t 1 d a noVX (sortRow asc noVX) s
def execVsortExt (t : Tok) (asc : Bool) (d a : VReg) (x : VX) (s : State) : Host.Outcome State Fault Refusal :=
  vWhole t 2 d a x (sortRow asc x) s

/-! ## Conversion (R205 to R210) -/

/-- The formats that conversions accept (R58). -/
def convFmt (f : Fmt) : Bool := f != .raw && f != .bool

/-- A conversion (R205, R207, R208): sources of one format that `ok` accepts beside the target, a destination that keeps its
inactive lanes being a source in the target's format; `f` gives the elements of the result. -/
def vConv (t : Tok) (d : VReg) (srcs : List VReg) (x : VX) (ok : Fmt → Bool) (f : Fmt → List Row → List Nat) (s : State) :
    Host.Outcome State Fault Refusal :=
  runWord .v t s fun c _ => do
    let r := srcs.map (vreg c.core.vrb)
    let rd := vreg c.core.vrb d
    let fmts := fun (l : List Fmt) =>
      convFmt x.fmt && sameFmt (fun g => convFmt g && ok g) (l.take r.length) && (l.drop r.length).all (· == x.fmt)
    let (k, on) ← vCheck c.core (r ++ (if keepsDst x then [rd] else [])) sameClock fmts (maskUse x)
    if !on then pure (finishV s t 2 id)
    else
      let es := f c.core.vregs[r.headD 0].fmt (r.map fun i => c.core.vregs[i].bits)
      let bits := maskRow c.core x c.core.vregs[rd].bits (rowOf (fmtWidth x.fmt) (es.take (fmtCount x.fmt)))
      pure (finishV s t 2 fun c => c.setV rd { bits := bits, fmt := x.fmt, tag := k })

/-- Convert of each element. -/
def convElems (f : Fmt) (x : VX) (es : List Nat) : List Nat := es.map fun e => convert x.fmt x.rm x.ns (elemVal f e)

/-- The blocks of eight of a list. -/
def blocksOf8 : Nat → List Nat → List (List Nat)
  | 0, _ => []
  | n + 1, l => if l.isEmpty then [] else l.take 8 :: blocksOf8 n (l.drop 8)

/-- vcvt to FP4 (R206): the codes to vd and the scales to vd + 1. -/
def vcvtFp4 (t : Tok) (d a : VReg) (x : VX) (s : State) : Host.Outcome State Fault Refusal :=
  runWord .v t s fun c _ => do
    let ra := vreg c.core.vrb a
    let (k, on) ← vCheck c.core [ra] sameClock (sameFmt convFmt) []
    if !on then pure (finishV s t 2 id)
    else
      let src := c.core.vregs[ra]
      let bs := (blocksOf8 64 (elemsOf src.fmt src.bits)).map fun b => quantFp4 x.rm (b.map (elemVal src.fmt))
      let codes : VVal := { bits := rowOf 4 (bs.flatMap Prod.fst), fmt := .fp4, tag := k }
      let scales : VVal := { bits := rowOf 8 (bs.map Prod.snd), fmt := .e3m5, tag := k }
      pure (finishV s t 2 fun c' => (c'.setV (vreg c.core.vrb d) codes).setV (vreg c.core.vrb (d + 1)) scales)

/-- vcvt (R205, R206). -/
def execVcvt (t : Tok) (d a : VReg) (x : VX) (s : State) : Host.Outcome State Fault Refusal :=
  if x.fmt == .fp4 then vcvtFp4 t d a x s
  else vConv t d [a] x (fun _ => true) (fun f l => convElems f x (elemsOf f (row0 l))) s

/-- vpack (R207). -/
def execVpack (t : Tok) (d a b : VReg) (x : VX) (s : State) : Host.Outcome State Fault Refusal :=
  vConv t d [a, b] x (fun f => x.fmt != .fp4 && 2 * fmtWidth x.fmt == fmtWidth f)
    (fun f l => convElems f x (elemsOf f (row0 l) ++ elemsOf f (row1 l))) s

/-- The elements of a part of a register, `n` of them. -/
def partElems (f : Fmt) (part n : Nat) (a : Row) : List Nat := (List.range n).map fun i => elemAt f a (part * n + i)

/-- vunpk and vunpk4 (R208). -/
def vunpkWord (m : Nat) (t : Tok) (d a : VReg) (x : VX) (s : State) : Host.Outcome State Fault Refusal :=
  vConv t d [a] x (fun f => fmtWidth x.fmt == m * fmtWidth f)
    (fun f l => convElems f x (partElems f x.idx.val (fmtCount x.fmt) (row0 l))) s

def execVunpk (t : Tok) (d a : VReg) (x : VX) (s : State) : Host.Outcome State Fault Refusal := vunpkWord 2 t d a x s
def execVunpk4 (t : Tok) (d a : VReg) (x : VX) (s : State) : Host.Outcome State Fault Refusal := vunpkWord 4 t d a x s

/-- Lo and Hi of a range format (R209). -/
def rangeOf (f : Fmt) : FVal × FVal :=
  if isInt f then (intVal (intMin f), intVal (intMax f))
  else
    let m := maxMag f
    (if f == .e3m5 then .fin false 0 0 else .fin true m.1 m.2, .fin false m.1 m.2)

/-- One clamped element (R209). -/
def satElem (f r : Fmt) (e : Nat) : Nat :=
  let lo := convert f .tz false (rangeOf r).1
  let hi := convert f .tz false (rangeOf r).2
  let v := elemVal f e
  if v == .nan then nanCode f
  else if ltVal v (elemVal f lo) then lo
  else if ltVal (elemVal f hi) v then hi
  else e

/-- vsat (R209): the result keeps the format of va. -/
def execVsat (t : Tok) (d a : VReg) (x : VX) (s : State) : Host.Outcome State Fault Refusal :=
  vForm t 2 d [a] false x convFmt (fun _ f l => map1 f (satElem f x.fmt) (row0 l)) s

/-- vfmt (R210). -/
def execVfmt (t : Tok) (d : VReg) (f : Fmt) (s : State) : Host.Outcome State Fault Refusal :=
  runWord .v t s fun c _ => do
    let rd := vreg c.core.vrb d
    let v := c.core.vregs[rd]
    let on ← tagOn c.core v
    pure (finishV s t 1 fun c => if on then c.setV rd { v with fmt := f } else c)

/-! ## The rotating base and branches (R189, R190, R197) -/

/-- vrb (R189). -/
def execVrb (t : Tok) (base sizeM1 : Fin 32) (s : State) : Host.Outcome State Fault Refusal :=
  runWord .v t s fun _ _ =>
    .ok (finishV s t 1 fun c => { c with vrb := { c.vrb with base := base, sizeM1 := sizeM1, rot := 0 } })

/-- The rotation of one pass (R190). -/
def VrbReg.stepDown (v : VrbReg) : VrbReg :=
  { v with
    count := if v.count = 0 then 0 else v.count - 1
    rot := Fin.ofNat 32 ((v.rot.val + v.sizeM1.val) % (v.sizeM1.val + 1)) }

/-- The end of a branch of V. -/
def finishBranch (s : State) (t : Tok) (pc : Nat) (f : Core → Core) : State :=
  s.updHere fun c => ({ c with core := f c.core }.retire .v t pc)

/-- vloop (R190). -/
def execVloop (t : Tok) (off : BitVec 14) (s : State) : Host.Outcome State Fault Refusal :=
  runWord .v t s fun c k => do
    let v := c.core.vrb.stepDown
    let pc ← if v.count = 0 then pure (c.core.pc.v + 1) else s.target k (c.core.pc.v + off.toInt)
    pure (finishBranch s t pc fun c => { c with vrb := v })

/-- vbr (R197). -/
def execVbr (t : Tok) (ma : MaskReg) (none_ : Bool) (off : BitVec 15) (s : State) : Host.Outcome State Fault Refusal :=
  runWord .v t s fun c k => do
    needSound (c.core.masks[ma].bad != 0)
    let pc ← if (c.core.masks[ma].bits == 0) == none_ then s.target k (c.core.pc.v + off.toInt)
      else pure (c.core.pc.v + 1)
    pure (finishBranch s t pc id)

end Sys2Proof.Machine
end

