-- ==== Sys2Proof/Machine/VMem.lean ====
section
/-! DEFINITION. The words of V that reach the scratchpad, the queues and the accumulator banks (R211 to R213), banks
and their undo images (R228, R230), and the streams of vectors (R214, R215). -/

namespace Sys2Proof.Machine

open Sys2Proof

/-! ## Scratchpad (R211, R256) -/

/-- A register from 256 bytes. -/
def rowOfBytes (bs : List Byte) : Row := BitVec.ofNat 2048 (leNat bs)

/-- The 256 bytes of a register. -/
def rowBytes (x : Row) : List Byte := leBytes x.toNat 256

/-- vld (R211): the half, the lent regions, then the bytes. -/
def execVld (t : Tok) (v : VReg) (row : BitVec 12) (s : State) : Host.Outcome State Fault Refusal :=
  runWord .v t s fun c k => do
    let off := 256 * row.toNat
    if !inHalf c.core.phase false off 256 then .error (Stop.of .protection)
    if c.lentOut false off 256 then .error (Stop.of .operandBusy)
    let bs ← c.spadRead k off 256
    let rd := vreg c.core.vrb v
    pure (finishV s t 1 fun c => c.setV rd { bits := rowOfBytes bs, fmt := c.vregs[rd].fmt, tag := 0 })

/-- vst (R211, R257). -/
def execVst (t : Tok) (v : VReg) (row : BitVec 12) (s : State) : Host.Outcome State Fault Refusal :=
  runWord .v t s fun c k => do
    let x := c.core.vregs[vreg c.core.vrb v]
    let off := 256 * row.toNat
    let on ← presentAfter (tagOn c.core x)
      ((s.spadClaim k.ctx k.inst k.stage s.cur.cell k.id (unitsOf off 256)).map fun _ => ())
    if !on then pure (finishV s t 1 id)
    else
      needSound (x.bad != 0)
      if !inHalf c.core.phase true off 256 then .error (Stop.of .protection)
      if c.lentOut true off 256 then .error (Stop.of .operandBusy)
      let s' ← s.spadStore k.ctx k.inst k.stage s.cur.cell k.id off (rowBytes x.bits)
      pure (finishV s' t 1 id)

/-! ## Queues (R212) -/

/-- vpop (R157, R212). -/
def execVpop (t : Tok) (d : VReg) (q : QNum) (kx : Clk) (s : State) : Host.Outcome State Fault Refusal :=
  runWord .v t s fun c k => do
    needQueue (s.popAssigned k s.cur.cell .v q.val)
    if !clkOn c.core kx then
      needSound (clkBad c.core kx)
      pure (finishV s t 1 id)
    else
      let raw ← s.popWait k c s.cur.cell q.val
      needSound (clkBad c.core kx)
      let e ← popCheck c.core.qpopFmt[q] kx true raw
      pure (finishV (s.popTake k s.cur.cell q.val) t 1 fun c' =>
        c'.setV (vreg c.core.vrb d) { bits := e.val, fmt := e.fmt, tag := kx })

/-- vpush (R156, R212). -/
def execVpush (t : Tok) (q : QNum) (v : VReg) (s : State) : Host.Outcome State Fault Refusal :=
  runWord .v t s fun c k => do
    needQueue (s.pushAssigned k s.cur.cell .v q.val)
    let x := c.core.vregs[vreg c.core.vrb v]
    let on ← presentAfter (tagOn c.core x) (s.pushRoom k s.cur.cell q.val 272)
    if c.core.qpushFmt[q].getLsbD 4 && x.fmt != c.pushFmt q then .error (Stop.of .formatMismatch)
    if !on then pure (finishV s t 1 id)
    else
      needSound (x.bad != 0)
      pure (pushV s t k 1 q (vectorEntry x.bits x.tag x.fmt k.instant))

/-! ## Banks (R213, R228, R230) -/

/-- A wait of step 1 while an open batch covers a bank, then the check that the group holds it. -/
def bankReady (c : Cell) (bank : Nat) : Except Stop Unit := do
  if c.coveredBanks.getLsbD bank then .error (.wait .plain)
  if !c.core.bankMap.getLsbD bank then .error (Stop.of .protection)

/-- Make a bank ready for a write by task `t` (R230): a write waits for the image of an earlier instant and aborts the
instant of a later one; a speculative task takes the bank's image when it has none. -/
def State.claimBank (s : State) (t : Task) (cell bank : Nat) : Except Stop State :=
  match s.getCell t.ctx cell with
  | none => .ok s
  | some c =>
    match (mget c.undoImgs bank).bind fun i => s.getTask i.task with
    | some u =>
      if u.id = t.id then .ok s
      else if keyLt u.key t.key then .error (.wait .plain)
      else .ok (take (s.abortTasks [u]))
    | none => .ok (take s)
where
  take (s : State) : State :=
    if s.atPour t then s
    else s.updCell t.ctx cell fun c =>
      if (mget c.undoImgs bank).isSome then c
      else { c with undoImgs := mset c.undoImgs bank { inst := t.instant, task := t.id, rows := bankRows c.banks bank } }

/-- vacc (R213). -/
def execVacc (t : Tok) (d : VReg) (bank : Fin 128) (row : Fin 8) (s : State) : Host.Outcome State Fault Refusal :=
  runWord .v t s fun c _ => do
    bankReady c bank.val
    let i := 8 * bank.val + row.val
    if c.accBad.any fun w => w / 64 = i then .error (Stop.of .uncorrectable)
    let x : VVal := { bits := (mget c.banks i).getD 0, fmt := .fp32, tag := 0 }
    pure (finishV s t 1 fun c' => c'.setV (vreg c.core.vrb d) x)

/-- vaccw (R213, R230). -/
def execVaccw (t : Tok) (v : VReg) (bank : Fin 128) (row : Fin 8) (s : State) : Host.Outcome State Fault Refusal :=
  runWord .v t s fun c k => do
    let x := c.core.vregs[vreg c.core.vrb v]
    let i := 8 * bank.val + row.val
    if c.coveredBanks.getLsbD bank.val then .error (.wait .plain)
    let on ← presentAfter (tagOn c.core x) ((s.claimBank k s.cur.cell bank.val).map fun _ => ())
    let s' ← if on then s.claimBank k s.cur.cell bank.val else .ok s
    if x.fmt != .fp32 then .error (Stop.of .formatMismatch)
    if !on then pure (finishV s t 1 id)
    else
      needSound (x.bad != 0)
      bankReady c bank.val
      let s' := s'.updHere fun c => { c with banks := setRow c.banks i x.bits, accBad := c.accBad.filter fun w => w / 64 != i }
      pure (finishV s' t 1 id)

/-! ## Streams of vectors (R214, R215) -/

/-- vwhen (R142, R214). -/
def execVwhen (t : Tok) (d a : VReg) (k : Clk) (s : State) : Host.Outcome State Fault Refusal :=
  runWord .v t s fun c _ => do
    let ra := vreg c.core.vrb a
    let (kx, on) ← vCheck c.core [ra] (fun l => whenClock c.core k (l.headD 0)) (fun _ => true) []
    let x := c.core.vregs[ra]
    if !on then pure (finishV s t 1 id)
    else pure (finishV s t 1 fun c' => c'.setV (vreg c.core.vrb d) { bits := x.bits, fmt := x.fmt, tag := kx })

/-- vmerge (R144, R214): the present operand. -/
def execVmerge (t : Tok) (d a b : VReg) (s : State) : Host.Outcome State Fault Refusal :=
  runWord .v t s fun c _ => do
    let x := c.core.vregs[vreg c.core.vrb a]
    let y := c.core.vregs[vreg c.core.vrb b]
    needSound (x.tagBad || y.tagBad)
    let kp ← clockRead c.core (mergeClock c.core x.tag y.tag)
    if x.fmt != y.fmt then .error (Stop.of .formatMismatch)
    if !clkOn c.core kp then pure (finishV s t 1 id)
    else
      let z := if c.core.clks[x.tag].val then x else y
      needSound (z.bad != 0)
      pure (finishV s t 1 fun c' => c'.setV (vreg c.core.vrb d) { bits := z.bits, fmt := z.fmt, tag := kp })

/-- Every element of a register in a format holds one value (R215). -/
def replicateRow (f : Fmt) (v : Nat) : Row := rowOf (fmtWidth f) (List.replicate (fmtCount f) v)

/-- vdly (R146, R215). -/
def execVdly (t : Tok) (d a : VReg) (slot : Fin 64) (s : State) : Host.Outcome State Fault Refusal :=
  runWord .v t s fun c _ => do
    let x := c.core.vregs[vreg c.core.vrb a]
    let p := c.core.delays[slot]
    needSound (x.tagBad || p.tagBad)
    let k ← clockRead c.core (dlyClock p x.tag)
    if p.bnd && p.fmt != x.fmt then .error (Stop.of .formatMismatch)
    if !clkOn c.core k then pure (finishV s t 2 id)
    else
      if p.wrote then .error (Stop.of .clockRedef)
      if !p.bnd && p.fmt == .int64 then .error (Stop.of .formatMismatch)
      needSound (x.bad != 0 || p.bad != 0)
      let old := if p.bnd then p.bits else replicateRow p.fmt p.bits.toNat
      let q : DelaySlot := { bits := x.bits, fmt := x.fmt, cb := k, bnd := true, wrote := true }
      pure (finishV s t 2 fun c' =>
        { c'.setV (vreg c.core.vrb d) { bits := old, fmt := p.fmt, tag := k } with delays := c'.delays.set slot q })

end Sys2Proof.Machine
end

