-- ==== Sys2Proof/Machine/Matrix.lean ====
section
/-! DEFINITION. The matrix engine: operands in the scratchpad (R221), the commands with their effects (R217 to R225,
R230, R231, R233), the words `mexec` (R49, R50, R218, R334), and the licence that licensed commands need (R234, R238).
A command reads and writes all that it touches when it starts (log entry 8). -/

namespace Sys2Proof.Machine

open Sys2Proof

/-! ## Operands (R68, R221) -/

/-- An operand: rows of `n` elements of a format, of which the first `used` are read, in `rows` rows. -/
structure MOperand where
  base : Nat
  stride : Nat
  fmt : Fmt
  n : Nat
  rows : Nat
  used : Nat
  deriving DecidableEq, Repr

/-- The bytes of a row of `n` elements (R68, R221). -/
def mRowBytes (f : Fmt) (n : Nat) : Nat := if f == .fp4 then 5 * n / 8 else n * fmtWidth f / 8

/-- A row stride in bytes: 0 means dense (R221). -/
def mStride (f : Fmt) (n st : Nat) : Nat := if st = 0 then (mRowBytes f n + 63) / 64 * 64 else 64 * st

/-- The bytes of a row from its start up to the last one that is read. -/
def MOperand.reach (o : MOperand) : Nat :=
  if o.used = 0 then 0 else if o.fmt == .fp4 then o.n / 2 + (o.used + 7) / 8 else o.used * fmtWidth o.fmt / 8

/-- The offset past the last byte that an operand reads. -/
def MOperand.last (o : MOperand) : Nat := if o.rows = 0 then o.base else o.base + (o.rows - 1) * o.stride + o.reach

/-- The spans of bytes that an operand reads. -/
def MOperand.spans (o : MOperand) : List (Nat × Nat) :=
  (List.range o.rows).flatMap fun r =>
    let a := o.base + r * o.stride
    if o.fmt == .fp4 then [(a, (o.used + 1) / 2), (a + o.n / 2, (o.used + 7) / 8)] else [(a, o.used * fmtWidth o.fmt / 8)]

/-- The code of element `e` of row `r`. -/
def MOperand.code (o : MOperand) (m : Memory) (r e : Nat) : Nat :=
  let a := o.base + r * o.stride
  if fmtWidth o.fmt = 4 then (readByte m (a + e / 2)).toNat / 16 ^ (e % 2) % 16
  else readLe m (a + e * (fmtWidth o.fmt / 8)) (fmtWidth o.fmt / 8)

/-- The exact value of an element, with its block scale (R67). -/
def MOperand.val (o : MOperand) (m : Memory) (r e : Nat) : FVal :=
  scaledVal o.fmt (o.code m r e)
    (if o.fmt == .fp4 then (readByte m (o.base + r * o.stride + o.n / 2 + e / 8)).toNat else 0)

/-- A region widened to whole units (R225). -/
def lendOf (lo hi : Nat) (dst : Bool) : List Lend := if lo < hi then [⟨lo / 64, (hi + 63) / 64, dst⟩] else []

def dRows (d : BitVec 256) : Nat := padCount (dPad d % 256)
def dCols (d : BitVec 256) : Nat := padCount (dPad d / 256)
def dFlag (d : BitVec 256) (i : Nat) : Bool := (dFlags d).testBit i

/-- The A operand of a product (R221). -/
def mOperandA (d : BitVec 256) : MOperand :=
  let f := fmtOf (dAfmt d); let k := 32 * dKsteps d
  if dFlag d 1 then ⟨64 * dAbuf d, mStride f 128 (dAstride d), f, 128, k, dRows d⟩
  else ⟨64 * dAbuf d, mStride f k (dAstride d), f, k, dRows d, k⟩

/-- The B operand of a product (R221). -/
def mOperandB (d : BitVec 256) : MOperand :=
  let f := fmtOf (dBfmt d); let k := 32 * dKsteps d
  if dFlag d 2 then ⟨64 * dBbuf d, mStride f k (dBstride d), f, k, dCols d, k⟩
  else ⟨64 * dBbuf d, mStride f 128 (dBstride d), f, 128, k, dCols d⟩

/-- The source of mxpose (R223). -/
def mSource (d : BitVec 256) : MOperand :=
  let f := fmtOf (dAfmt d); let k := 32 * dKsteps d
  ⟨64 * dAbuf d, mStride f k 0, f, k, dRows d, k⟩

/-- The destination of mxpose (R223). -/
def mDest (d : BitVec 256) : MOperand :=
  let f := fmtOf (dAfmt d)
  ⟨64 * dBbuf d, mStride f (dRows d) 0, f, dRows d, 32 * dKsteps d, dRows d⟩

/-- The checks of a read: the half, then the poison of every byte that is read (R256, R258). -/
def Cell.readable (c : Cell) (t : Task) (phase : Bool) (o : MOperand) : Except Stop Unit :=
  if !inHalf phase false o.base (o.last - o.base) then .error (Stop.of .protection)
  else
    match o.spans.flatMap fun p => c.badWords p.1 p.2 with
    | [] => .ok ()
    | ws => .error (.spad (!t.frontier && ws.all c.refetchable))

/-! ## Products (R78 to R80, R222) -/

/-- One element: the blocks added in increasing k. -/
def mDot (a b : Nat → FVal) (acc : Nat) (steps : Nat) : Nat :=
  (List.range steps).foldl (fun acc s =>
    let p := (List.range 32).map fun n => mulVal (a (32 * s + n)) (b (32 * s + n))
    roundTo .fp32 .ne (addVal .ne (floatVal .fp32 acc) (dotBlock p))) acc

/-- The rows of one bank after a product: element (i, j) for the valid rows and columns, the other bits kept (R220). -/
def mulBank (ma mb : Memory) (d bd : BitVec 256) (q : Nat) (old : List Row) : List Row :=
  let oa := mOperandA d; let ob := mOperandB bd
  let av := fun i k => if dFlag d 1 then oa.val ma k i else oa.val ma i k
  let bv := fun k j => if dFlag bd 2 then ob.val mb j k else ob.val mb k j
  (List.range 8).map fun r =>
    let row := old.getD r 0
    let i := 4 * q + r / 2
    rowOfLanes fun l =>
      let j := 64 * (r % 2) + l
      if i < dRows d && j < dCols d then
        mDot (av i) (fun k => bv k j) (if dOp d = 2 then 0 else laneAt row l) (dKsteps d)
      else laneAt row l

/-- Whether a word of the accumulators is a valid element of a product. -/
def inTile (d : BitVec 256) (w : Nat) : Bool :=
  let b := w / 512; let r := w / 64 % 8
  dBank d ≤ b && 4 * (b - dBank d) + r / 2 < dRows d && 64 * (r % 2) + w % 64 < dCols d

/-- The number of banks that a command touches from BANK on (R220, R224). -/
def bankCount (d : BitVec 256) : Nat :=
  let op := dOp d
  if op = 1 || op = 2 then (dRows d + 3) / 4 else if 3 ≤ op && op ≤ 7 then dKsteps d else 0

/-- The banks that a command writes. -/
def writtenBanks (d : BitVec 256) : BitVec 128 :=
  if dOp d = 5 || dOp d = 7 then 0 else bankRun (dBank d) (bankCount d)

def isMul (d : BitVec 256) : Bool := dOp d = 1 || dOp d = 2
def isBankOp (d : BitVec 256) : Bool := 3 ≤ dOp d && dOp d ≤ 7
/-- The operations that need the licence (R52). -/
def isLicensed (d : BitVec 256) : Bool := isMul d || dOp d = 8
/-- A paired command (R222, R242). -/
def isPaired (d : BitVec 256) : Bool := isMul d && dFlag d 0

/-- The numbers of the banks of a mask. -/
def bankList (m : BitVec 128) : List Nat := (List.range 128).filter m.getLsbD

/-! ## Encoding and run-time checks of a command -/

/-- Checks of the copy beyond R53: an unassigned OP of a restored template, the tile's banks (R220), mxpose (R223). -/
def commandOk (d : BitVec 256) : Bool :=
  dOp d ≤ 10 && patchCheck d && (!isMul d || dBank d + bankCount d ≤ 128) &&
    (dOp d != 8 || (dAfmt d != 7 && !dFlag d 0))

/-- The checks of a partner's copy, on the fields that its word reads (R53, R242). -/
def partnerOk (d : BitVec 256) : Bool :=
  dBatch d < 16 && dFlags d < 16 && dBbuf d < 16384 && dPad d % 256 ≤ 128 && dPad d / 256 ≤ 128 && dKsteps d != 0

/-- The checks of a word's copy: as a partner of a pair, or as a driver or a command alone. -/
def copyOk (d : BitVec 256) : Bool := if isPaired d && !dFlag d 3 then partnerOk d else commandOk d

/-- The group holds every bank that a command touches (R228). -/
def Cell.holdsBanks (c : Cell) (d : BitVec 256) : Bool :=
  let m := bankRun (dBank d) (bankCount d)
  c.core.bankMap &&& m == m

/-! ## Writing banks -/

/-- The images of a command's banks (R230), and the settled bits that its batch leaves at its first write of each (R233). -/
def State.openBanks (s : State) (t : Task) (cell : Nat) (batch : Nat) (banks : BitVec 128) : Except Stop State := do
  let s ← (bankList banks).foldlM (fun s b => s.claimBank t cell b) s
  .ok (s.updCell t.ctx cell fun c =>
    let new := (bankList banks).filter fun b => !(c.peekImgs.any fun p => p.1 = batch && p.2.1 = b)
    { c with peekImgs := c.peekImgs ++ new.map fun b => (batch, b, bankRows c.banks b) })

/-- Write a bank whole, without its poison. -/
def Cell.putBank (c : Cell) (b : Nat) (rows : List Row) : Cell :=
  { c with banks := setRows c.banks b 0 rows, accBad := c.accBad.filter fun w => w / 512 != b }

/-- Some word that a command reads in its banks is poisoned. -/
def Cell.bankPoison (c : Cell) (d : BitVec 256) : Bool :=
  c.accBad.any fun w =>
    if dOp d = 1 then inTile d w
    else (dOp d = 4 || dOp d = 5 || dOp d = 7) && dBank d ≤ w / 512 && w / 512 < dBank d + bankCount d

/-- The bytes of a bank in the order of msave (R224): row by row. -/
def bankBytes (rows : List Row) : List Byte := rows.flatMap rowBytes

/-- The rows of a bank from its bytes. -/
def bankOfBytes : Nat → List Byte → List Row
  | 0, _ => []
  | n + 1, bs => rowOfBytes (bs.take 256) :: bankOfBytes n (bs.drop 256)

/-- The scaled bits of a bank (R82, R224). -/
def scaleBank (m : Memory) (d : BitVec 256) (q : Nat) (old : List Row) : List Row :=
  (List.range 8).map fun r =>
    let sc := floatVal .bf16 (readLe m (64 * dScale d + 2 * ((4 * q + r / 2) / 64)) 2)
    map1 .fp32 (fun a => roundTo .fp32 .ne (mulVal (floatVal .fp32 a) sc)) (old.getD r 0)

/-! ## The effect of a command (R222 to R224) -/

/-- What a product writes: its banks in the cell of the driver, with B from a cell and a copy of the descriptor. -/
def Cell.multiply (c : Cell) (mb : Memory) (d bd : BitVec 256) : Cell :=
  let banks := (List.range (bankCount d)).foldl (fun m q =>
    setRows m (dBank d + q) 0 (mulBank c.spad mb d bd q (bankRows c.banks (dBank d + q)))) c.banks
  { c with banks := banks, accBad := c.accBad.filter fun w => !inTile d w }

/-- The bytes of one row of the destination of mxpose. -/
def xposeRow (o : MOperand) (m : Memory) (e : Nat) : List Byte :=
  (List.range o.rows).flatMap fun r => leBytes (o.code m r e) (fmtWidth o.fmt / 8)

/-- The scales that mscale reads. -/
def scaleOperand (d : BitVec 256) : MOperand :=
  let n := (4 * dKsteps d + 63) / 64
  ⟨64 * dScale d, 0, .bf16, n, 1, n⟩

/-- The source of mrest and the destination of msave and mpeek, in bytes. -/
def bankBuffer (d : BitVec 256) : MOperand := ⟨64 * dAbuf d, 0, .int8, 2048 * dKsteps d, 1, 2048 * dKsteps d⟩

/-- The regions that a command lends in its own cell (R225). `own` marks an unpaired product, which lends both buffers. -/
def lentBy (d : BitVec 256) : List Lend :=
  let region (o : MOperand) (dst : Bool) := lendOf o.base o.last dst
  match dOp d with
  | 1 | 2 => region (mOperandA d) false ++ (if isPaired d then [] else region (mOperandB d) false)
  | 4 => if dKsteps d = 0 then [] else region (scaleOperand d) false
  | 5 | 7 => if dKsteps d = 0 then [] else region (bankBuffer d) true
  | 6 => if dKsteps d = 0 then [] else region (bankBuffer d) false
  | 8 => region (mSource d) false ++ region (mDest d) true
  | _ => []

/-- Store spans of bytes for M. -/
def State.spadStores (s : State) (t : Task) (cell : Nat) (l : List (Nat × List Byte)) : Except Stop State :=
  l.foldlM (fun (s : State) p => s.spadStore t.ctx t.inst t.stage cell t.id p.1 p.2) s

/-- The checks of operands and destinations (R221, R256), and the effect of an unpaired command when it starts. -/
def State.command (s : State) (t : Task) (cell : Nat) (c : Cell) (d : BitVec 256) : Except Stop State := do
  let ph := c.core.phase
  if !c.holdsBanks d then .error (Stop.of .protection)
  if c.bankPoison d then .error (Stop.of .uncorrectable)
  let s ← s.openBanks t cell (dBatch d) (writtenBanks d)
  match dOp d with
  | 1 | 2 =>
    c.readable t ph (mOperandA d)
    c.readable t ph (mOperandB d)
    .ok (s.updCell t.ctx cell fun c => c.multiply c.spad d d)
  | 3 =>
    .ok (s.updCell t.ctx cell fun c =>
      (List.range (dKsteps d)).foldl (fun (c : Cell) q => c.putBank (dBank d + q) (List.replicate 8 0)) c)
  | 4 =>
    if dKsteps d = 0 then .ok s
    else
      c.readable t ph (scaleOperand d)
      .ok (s.updCell t.ctx cell fun c =>
        (List.range (dKsteps d)).foldl (fun (c : Cell) q =>
          c.putBank (dBank d + q) (scaleBank c.spad d q (bankRows c.banks (dBank d + q)))) c)
  | 5 | 7 =>
    if dKsteps d = 0 then .ok s
    else
      if !inHalf ph true (bankBuffer d).base (2048 * dKsteps d) then .error (Stop.of .protection)
      let rows := fun b => if dOp d = 7 then c.settledRows b else bankRows c.banks b
      s.spadStores t cell ((List.range (dKsteps d)).map fun q =>
        ((bankBuffer d).base + 2048 * q, bankBytes (rows (dBank d + q))))
  | 6 =>
    if dKsteps d = 0 then .ok s
    else
      c.readable t ph (bankBuffer d)
      .ok (s.updCell t.ctx cell fun c =>
        (List.range (dKsteps d)).foldl (fun (c : Cell) q =>
          c.putBank (dBank d + q) (bankOfBytes 8 (readBytes c.spad ((bankBuffer d).base + 2048 * q) 2048))) c)
  | 8 =>
    c.readable t ph (mSource d)
    let o := mDest d
    if !inHalf ph true o.base (o.last - o.base) then .error (Stop.of .protection)
    s.spadStores t cell ((List.range o.rows).map fun e => (o.base + e * o.stride, xposeRow (mSource d) c.spad e))
  | _ => .ok s

/-! ## Starting a command (R218, R231, R234, R238) -/

/-- A lease begins again for its holder (R235, R238). -/
def Cell.renewLease (c : Cell) : Cell :=
  { c with lic := { c.lic with used := 0, age := 0, cmds := c.core.leaseCmds, cyc := c.core.leaseCyc } }

/-- The lease of a holder ends (R238): the licence passes to an enabled twin that claims it (R29), otherwise the lease renews. With no licensed
command left, the two cycles of the pass run from here (log entry 83). -/
def State.endLease (s : State) (ctx cell : Nat) : State :=
  let claims := !s.cellOff (twinOf cell) && ((s.getCell ctx (twinOf cell)).map fun c => c.lic.claim).getD false
  let idle := ((s.getCell ctx cell).map fun c => c.licensedCmds.isEmpty).getD true
  let s := s.updCell ctx cell fun c =>
    if claims then { c with lic := { c.lic with pass := true, claim := true } } else c.renewLease
  if claims then { s with pairs := mset s.pairs (pairOf cell) { s.getPair cell with passing := if idle then some 0 else none } }
  else s

/-- A licensed command of the holder has started: the lease counts it, up to 256 (R236), and ends with its last one, unless the
licence is Halting (R238). -/
def State.countLicensed (s : State) (ctx cell : Nat) : State :=
  let s := (s.takeSlot cell).updCell ctx cell fun c => { c with lic := { c.lic with used := Nat.min 256 (c.lic.used + 1) } }
  match s.getCell ctx cell with
  | some c => if c.lic.held && !c.lic.pass && c.lic.cmds ≤ c.lic.used && !c.lic.halting then s.endLease ctx cell else s
  | none => s

/-- A command joins its batch (R231). -/
def Batch.join (b : Batch) (m : Member) : Batch := { st := .gathering, members := b.members ++ [m] }

/-- The batch of a descriptor. -/
def batchOf (d : BitVec 256) : Fin 16 := Fin.ofNat 16 (dBatch d)

/-- Put a started command into its cell and its batch. -/
def State.addCmd (s : State) (ctx cell : Nat) (k : Cmd) : State :=
  s.updCell ctx cell fun c =>
    let b := batchOf k.desc
    { c with
      cmds := c.cmds ++ [k]
      batches := if dOp k.desc = 7 then c.batches else c.batches.set b (c.batches[b].join ⟨k.task, k.banks, k.lent⟩) }

/-- A command of no steps occupies neither the array nor the port. -/
def occupies (d : BitVec 256) : Bool := dKsteps d != 0

/-- Start an unpaired command of a task (R218). -/
def State.startCmd (s : State) (t : Task) (cell : Nat) (c : Cell) (d : BitVec 256) : State :=
  let k : Cmd :=
    { id := s.nextId, task := t.id, inst := t.inst, desc := d, phase := c.core.phase, licensed := isLicensed d
      lent := lentBy d, banks := writtenBanks d, arrayBusy := occupies d }
  let s := ({ s with nextId := s.nextId + 1 } : State).addCmd t.ctx cell k
  if k.licensed then s.countLicensed t.ctx cell else s

/-! ## The words (R49, R50, R218, R232) -/

/-- A holder may start no licensed command now: its lease has ended and the licence passes, or no grant covers it (R234, R238).
A pass that a switch has overtaken takes place no more (R238). -/
def State.holderWaits (s : State) (cell : Nat) (c : Cell) : Bool := (c.lic.pass && !c.lic.halting) || !s.covered cell

/-- The units of the scratchpad that an unpaired command writes (R223, R224). -/
def writtenUnits (d : BitVec 256) : List Nat :=
  let o := mDest d
  if dOp d = 5 || dOp d = 7 then unitsOf (bankBuffer d).base (2048 * dKsteps d)
  else if dOp d = 8 then ((List.range o.rows).flatMap fun e => unitsOf (o.base + e * o.stride) o.reach).eraseDups
  else []

/-- A wait of step 1 of a command (R218, R230, R231, R234, R284): its batch is Draining, the licence is on its way, a bank holds
the image of an earlier instant, or the write buffer has no room for what it records. An occupied array or bank port is no such wait: the command issues and takes its turn there
(log entry 84). -/
def mWaits (s : State) (c : Cell) (t : Task) (d : BitVec 256) : Except Stop Unit := do
  let cell := s.cur.cell
  if dOp d != 7 && c.batches[batchOf d].st == .draining then .error (.wait .plain)
  if isPaired d && !s.atPour t then .error (.wait .pourLine)
  if isLicensed d && !isPaired d && (if c.lic.held then s.holderWaits cell c else c.lic.claim) then .error (.wait .plain)
  if (!isPaired d || dFlag d 3) && (bankList (writtenBanks d)).any fun b =>
      match (mget c.undoImgs b).bind fun i => s.getTask i.task with
      | some u => keyLt u.key t.key
      | none => false then .error (.wait .plain)
  if !(writtenUnits d).isEmpty then
    let _ ← s.spadClaim t.ctx t.inst t.stage cell t.id (writtenUnits d)

/-- The end of an M word. -/
def finishM (s : State) (t : Tok) (len : Nat) : State := s.updHere fun c => c.retire .m t (c.core.pc.m + len)

/-- mwait (R232): the batch closes; the word holds the engine until the batch is Idle, its popped tokens consumed and the
slots of its pushed ones taken. -/
def mwaitStart (s : State) (c : Cell) (t : Tok) (len : Nat) (b : Fin 16) : State :=
  let c := c.closeBatch b
  if c.batches[b].st == .idle then finishM (s.putHere c) t len
  else
    s.putHere { c with
      core := { c.core with toks := tokTake c.core.toks .m t, pc := { c.core.pc with m := c.core.pc.m + len } }
      tokRsv := tokReserve c.tokRsv .m t, waits := c.waits.issue .m, safe := false, mwait := some (b.val, t) }

/-- A word that runs the patched copy of template n (R50, R218). -/
def mexecWord (t : Tok) (len : Nat) (n : Fin 64) (p : BitVec 256 → BitVec 256) (s : State) :
    Host.Outcome State Fault Refusal :=
  runWord .m t s fun c k => do
    let d := p c.core.tmpls[n].bits
    let op := dOp d
    if 1 ≤ op && op ≤ 8 then mWaits s c k d
    needSound (c.core.tmpls[n].bad != 0)
    -- a pair waits for its partner before its copies are checked
    if (!isPaired d || (s.needTwin k).toOption.isNone) && !copyOk d then .error (Stop.of .illegalWord)
    if op = 0 then pure (finishM s t len)
    else if op = 9 then pure (finishM (s.putHere (c.closeBatch (batchOf d))) t len)
    else if op = 10 then pure (mwaitStart s c t len (batchOf d))
    else if isPaired d then
      s.needTwin k
      let w : PairWait := match c.pair with
        | some w => w
        | none => { t := t, len := len, desc := d, cyc := 0 }
      -- a side at the pour line that waits for its partner has left its safe point (R243)
      pure ((s.putHere { c with pair := some w, safe := false }).noteWait .m .plain)
    else
      if isLicensed d && !c.lic.held then .error (Stop.of .licenceAbsent)
      let s' ← s.command k s.cur.cell c d
      pure (finishM (s'.startCmd k s.cur.cell c d) t len)

def execMexec (t : Tok) (n : Fin 64) (sel : Fin 8) (val : BitVec 16) (s : State) : Host.Outcome State Fault Refusal :=
  mexecWord t 1 n (fun d => patch d sel val) s

def execMexecExt (t : Tok) (n : Fin 64) (sel : Fin 8) (val : BitVec 16) (sel2 : Fin 8) (val2 : BitVec 16) (s : State) :
    Host.Outcome State Fault Refusal :=
  mexecWord t 2 n (fun d => patch (patch d sel val) sel2 val2) s

end Sys2Proof.Machine
end

