-- ==== Sys2Proof/Machine/Pairs.lean ====
section
/-! DEFINITION. Events of a pair: the exchanges of the twins (R241 to R243), the completion of matrix commands (R219, R231,
R232), and the moves of the licence (R238, R239). -/

namespace Sys2Proof.Machine

open Sys2Proof

/-! ## Two twins at one instruction -/

/-- The issuing place. -/
def State.goTo (s : State) (ctx cell : Nat) : State := { s with cur := ⟨ctx, cell⟩ }

/-- A cell in which a word of engine `e` that waits outside its engine may issue (R149, R150, R241, R242, R320): the cell goes on with its
task, which stands at the pour line, no injection that R359 has held back comes first, and no stop keeps its next instant back. -/
def State.sideOf (s : State) (ctx cell : Nat) (e : Engine) : Option (Cell × Task) :=
  match (s.goTo ctx cell).here with
  | some (c, t) =>
    if s.goes ctx cell c t && s.atPour t && !s.stopsHere c t && c.injectsFirst e && s.groupRuns t && !c.refetch then some (c, t) else none
  | none => none

/-- The cycles after which a wait for the twin ends (R241). -/
def twinLimit : Nat := 16384

/-! ## twxchg (R241) -/

/-- Gather one side of an exchange. -/
def xchgGather (s : State) (ctx cell : Nat) (c : Cell) (k : Task) (w : XchgWait) : Except Stop Gathered :=
  gather .c (s.goTo ctx cell) c k [w.a] none sameClock false (dstNamed w.d)

/-- Finish one side with the other's value. -/
def xchgFinish (s : State) (ctx cell : Nat) (c : Cell) (k : Task) (w : XchgWait) (clk : Clk) (v : Word64) : State :=
  let s := (s.goTo ctx cell).updHere fun c => { c with xchg := none }
  finish .c s c k w.t (c.core.pc.c + 1) (resultOf w.d clk true v)

/-- TWXCHG_RENDEZVOUS: both twins have reached a `twxchg` of one register. -/
def execTwxchgRendezvous (ctx cell : Nat) (s : State) : Host.Outcome State Fault Refusal :=
  match s.sideOf ctx cell .c, s.sideOf ctx (twinOf cell) .c with
  | some (c, k), some (c', k') =>
    match c.xchg, c'.xchg with
    | some w, some w' =>
      if w.tw != w'.tw then .next s
      else
        match xchgGather s ctx cell c k w with
        | .error _ => .next s
        | .ok g =>
          match xchgGather g.st ctx (twinOf cell) c' k' w' with
          | .error _ => .next s
          | .ok g' =>
            let s := xchgFinish g'.st ctx (twinOf cell) c' k' w' g'.clk (v0 g.vals)
            .next (xchgFinish s ctx cell c k w g.clk (v0 g'.vals))
    | _, _ => .next s
  | _, _ => .next s

/-- The twin has reached a `twxchg` of a register (R241). -/
def State.twinAtXchg (s : State) (ctx cell : Nat) (tw : Fin 8) : Bool :=
  ((s.sideOf ctx (twinOf cell) .c).bind fun p => p.1.xchg).any fun w => w.tw = tw

/-- The twin has reached a paired command (R242). -/
def State.twinAtPair (s : State) (ctx cell : Nat) : Bool := ((s.sideOf ctx (twinOf cell) .m).bind fun p => p.1.pair).isSome

/-- TWIN_ABANDON (R241 to R243): a wait of 16,384 cycles without the partner ends in the fault, and nothing is written. -/
def execTwinAbandon (ctx cell : Nat) (s : State) : Host.Outcome State Fault Refusal :=
  match s.sideOf ctx cell .c, s.sideOf ctx cell .m with
  | none, none => .next s
  | x, y =>
    let late (e : Engine) (p : Cell × Task) (s : State) : State := (s.goTo ctx cell).raiseAt e p.1 p.2 .twinAbandon 0 0 0
    match x.bind fun p => p.1.xchg.map fun w => (p, w), y.bind fun p => p.1.pair.map fun w => (p, w) with
    | some (p, w), _ =>
      .next (if twinLimit ≤ w.cyc && !s.twinAtXchg ctx cell w.tw then late .c p (s.updCell ctx cell fun c => { c with xchg := none }) else s)
    | none, some (p, w) =>
      .next (if twinLimit ≤ w.cyc && !s.twinAtPair ctx cell then late .m p (s.updCell ctx cell fun c => { c with pair := none }) else s)
    | none, none => .next s

/-! ## Paired commands (R242) -/

/-- Both words of a pair take one fault (R242, R243). -/
def pairFault (s : State) (ctx cell : Nat) (c : Cell) (k : Task) (c' : Cell) (k' : Task) (f : FaultCode) : State :=
  let clear (s : State) (n : Nat) : State := s.updCell ctx n fun c => { c with pair := none }
  let s := clear (clear s cell) (twinOf cell)
  ((s.goTo ctx cell).raiseAt .m c k f 0 0 0 |>.goTo ctx (twinOf cell)).raiseAt .m c' k' f 0 0 0

/-- The two copies of a pair belong together (R242). -/
def pairMatches (d bd : BitVec 256) : Bool :=
  dFlag d 3 != dFlag bd 3 && dKsteps d = dKsteps bd && dBfmt d = dBfmt bd && dPad d / 256 = dPad bd / 256

/-- The command of one side. -/
def pairCmd (id : Nat) (t : Task) (c : Cell) (d : BitVec 256) (holds : Bool) (lent : List Lend) (banks : BitVec 128)
    (partner : Nat) : Cmd :=
  { id := id, task := t.id, inst := t.inst, desc := d, phase := c.core.phase, licensed := holds, lent := lent, banks := banks
    arrayBusy := holds && occupies d, partner := some partner }

/-- Start a pair: `cell` drives, its twin lends B. -/
def startPair (s : State) (ctx cell : Nat) (c : Cell) (k : Task) (w : PairWait) (c' : Cell) (k' : Task) (w' : PairWait) :
    Host.Outcome State Fault Refusal :=
  let d := w.desc
  let bd := w'.desc
  let drive : Except Stop State := do
    if !c.holdsBanks d then .error (Stop.of .protection)
    if c.bankPoison d then .error (Stop.of .uncorrectable)
    c.readable k c.core.phase (mOperandA d)
    s.openBanks k cell (dBatch d) (writtenBanks d)
  let lend := c'.readable k' c'.core.phase (mOperandB bd)
  match drive, lend with
  | .error e, _ => finishWord .m (s.goTo ctx cell) c k (.error e)
  | _, .error e => finishWord .m (s.goTo ctx (twinOf cell)) c' k' (.error e)
  | .ok s, .ok _ =>
    let s := s.updCell ctx cell fun x => { x.multiply c'.spad d bd with pair := none }
    let s := s.updCell ctx (twinOf cell) fun x => { x with pair := none }
    let id := s.nextId
    let lentB := lendOf (mOperandB bd).base (mOperandB bd).last false
    let s := (({ s with nextId := id + 2 } : State).addCmd ctx cell
      (pairCmd id k c d c.lic.held (lentBy d) (writtenBanks d) (id + 1))).addCmd ctx (twinOf cell)
      (pairCmd (id + 1) k' c' bd c'.lic.held lentB 0 id)
    let s := s.countLicensed ctx (if c.lic.held then cell else twinOf cell)
    .next (finishM (finishM (s.goTo ctx cell) w.t w.len |>.goTo ctx (twinOf cell)) w'.t w'.len)

/-- The step-1 waits of a pair that has met (R35, R234, R242): those of each word, and the licence's. -/
def State.pairWaits (s : State) (ctx cell : Nat) (c : Cell) (k : Task) (w : PairWait) (c' : Cell) (k' : Task) (w' : PairWait) : Bool :=
  (mWaits (s.goTo ctx cell) c k w.desc).toOption.isNone || (mWaits (s.goTo ctx (twinOf cell)) c' k' w'.desc).toOption.isNone ||
    (if c.lic.held then s.holderWaits cell c
     else if c'.lic.held then s.holderWaits (twinOf cell) c' else c.lic.claim || c'.lic.claim)

/-- PAIRED_RENDEZVOUS (R242): both twins have issued paired commands. -/
def execPairedRendezvous (ctx cell : Nat) (s : State) : Host.Outcome State Fault Refusal :=
  match s.sideOf ctx cell .m, s.sideOf ctx (twinOf cell) .m with
  | some (c, k), some (c', k') =>
    match c.pair, c'.pair with
    | some w, some w' =>
      if s.pairWaits ctx cell c k w c' k' w' then .next s
      else if !pairMatches w.desc w'.desc then .next (pairFault s ctx cell c k c' k' .illegalWord)
      else if !copyOk w.desc then finishWord .m (s.goTo ctx cell) c k (.error (Stop.of .illegalWord))
      else if !copyOk w'.desc then finishWord .m (s.goTo ctx (twinOf cell)) c' k' (.error (Stop.of .illegalWord))
      else if !c.lic.held && !c'.lic.held then .next (pairFault s ctx cell c k c' k' .licenceAbsent)
      else if dFlag w.desc 3 then startPair s ctx cell c k w c' k' w'
      else startPair s ctx (twinOf cell) c' k' w' c k w
    | _, _ => .next s
  | _, _ => .next s

/-! ## The array and completion (R219, R231, R232) -/

/-- The commands of a cell take the array, or the bank port, in the order of their start (R218, R219). -/
def Cell.arrayTurn (c : Cell) (id : Nat) : Bool :=
  match c.cmds.find? fun k => k.id = id with
  | some k => (c.cmds.takeWhile fun x => x.id != id).all fun x => !(x.arrayBusy && isBankOp x.desc == isBankOp k.desc)
  | none => false

/-- ARRAY_FREE: a command leaves the array or the bank port, after those before it. -/
def execArrayFree (ctx cell id : Nat) (s : State) : Host.Outcome State Fault Refusal :=
  .next (s.updCell ctx cell fun c =>
    if c.arrayTurn id then { c with cmds := c.cmds.map fun k => if k.id = id then { k with arrayBusy := false } else k } else c)

/-- The batch after a completion: Idle when it is Draining and none of its commands is left (R231). -/
def Cell.settleBatch (c : Cell) (b : Fin 16) : Cell :=
  let left := c.cmds.any fun k => !k.aborted && dOp k.desc != 7 && batchOf k.desc == b
  if c.batches[b].st == .draining && !left then { c with batches := c.batches.set b {} }.freePeeks else c

/-- The `mwait` of an Idle batch finishes: its pushed tokens are deposited. -/
def Cell.endMwait (c : Cell) : Cell :=
  match c.mwait with
  | some (b, t) =>
    if c.batches[Fin.ofNat 16 b].st == .idle then
      { c with mwait := none, tokRsv := tokRelease c.tokRsv .m t, core := { c.core with toks := tokGive c.core.toks .m t } }
    else c
  | none => c

/-- The first command of a cell leaves. -/
def Cell.dropCmd (c : Cell) : Cell :=
  match c.cmds with
  | [] => c
  | k :: rest => (({ c with cmds := rest } : Cell).settleBatch (batchOf k.desc)).endMwait

/-- What the completion of a licensed command means for its licence: a pass begins its two cycles (R238), and a licence that
has been given up goes (R333). -/
def State.afterLicensed (s : State) (ctx cell : Nat) : State :=
  match s.getCell ctx cell with
  | none => s
  | some c =>
    if !c.licensedCmds.isEmpty then s
    else if c.lic.leaving then s.releaseLicence ctx cell
    else if c.lic.held && c.lic.pass then { s with pairs := mset s.pairs (pairOf cell) { s.getPair cell with passing := some 0 } }
    else s

/-- MATRIX_COMMAND_COMPLETE: the oldest command of a cell completes; a paired one with its partner's. -/
def execMatrixCommandComplete (ctx cell : Nat) (s : State) : Host.Outcome State Fault Refusal :=
  match s.getCell ctx cell with
  | none => .next s
  | some c =>
    match c.cmds.head? with
    | none => .next s
    | some k =>
      let tw := (s.getCell ctx (twinOf cell)).bind fun x => x.cmds.head?
      let other := match k.partner with
        | none => some false
        | some id =>
          match tw with
          | some x => if x.id = id && !x.arrayBusy then some true else
              (match s.getCell ctx (twinOf cell) with
                | some y => if y.cmds.any fun z => z.id = id then none else some false
                | none => some false)
          | none => some false
      if k.arrayBusy then .next s
      else
        match other with
        | none => .next s
        | some both =>
          let s := s.updCell ctx cell Cell.dropCmd
          let s := if both then s.updCell ctx (twinOf cell) Cell.dropCmd else s
          let s := s.afterLicensed ctx cell
          .next (if both then s.afterLicensed ctx (twinOf cell) else s)

/-! ## The licence (R238, R239) -/

/-- A claim that may be granted: covered by the cluster's grant, in a cell that runs. -/
def State.contends (s : State) (ctx cell : Nat) : Bool :=
  match s.getCell ctx cell with
  | some c => c.lic.claim && c.group.isSome && s.covered cell && !c.halted
  | none => false

/-- The twin that a grant of a Free licence goes to, when both may be granted. -/
def State.tieTo (s : State) (ctx cell : Nat) : Bool :=
  let first := fun n => match s.getCell ctx n with | some c => c.lic.first | none => false
  if first cell then true
  else if first (twinOf cell) then false
  else
    match (s.getPair cell).last with
    | some crown => crown != decide (320 ≤ cell)
    | none => cell < 320

/-- LICENCE_GRANT: a Free licence goes to a claiming twin. -/
def execLicenceGrant (ctx cell : Nat) (s : State) : Host.Outcome State Fault Refusal :=
  let first := match s.getCell ctx (twinOf cell) with | some c => c.lic.first | none => false
  if s.boot == .ready && s.pairFree cell && s.contends ctx cell && !first && (!s.contends ctx (twinOf cell) || s.tieTo ctx cell) then
    .next (s.grant ctx cell)
  else .next s

/-- LEASE_EXPIRY: AGE has reached CYC. -/
def execLeaseExpiry (ctx cell : Nat) (s : State) : Host.Outcome State Fault Refusal :=
  match s.getCell ctx cell with
  | some c =>
    if c.lic.held && !c.lic.pass && c.lic.cyc ≤ c.lic.age && c.group.isSome && !c.lic.halting then .next (s.endLease ctx cell)
    else .next s
  | none => .next s

/-- LICENCE_PASS: two cycles after the passing holder's last licensed command, the licence goes to the twin. A twin whose
claim is gone leaves it, renewed, with the holder. -/
def execLicencePass (ctx cell : Nat) (s : State) : Host.Outcome State Fault Refusal :=
  match s.getCell ctx cell with
  | none => .next s
  | some c =>
    let due := match (s.getPair cell).passing with | some n => 2 ≤ n | none => false
    if !(c.lic.held && c.lic.pass && c.licensedCmds.isEmpty && due && !c.lic.halting) then .next s
    else
      match s.getCell ctx (twinOf cell) with
      | some tw =>
        if tw.lic.claim && !s.cellOff (twinOf cell) then
          if s.contends ctx (twinOf cell) then
            let s := s.updCell ctx cell fun c =>
              { c with lic := { c.lic with held := false, pass := false, used := 0, age := 0, away := c.lic.away + 1 } }
            .next (s.grant ctx (twinOf cell))
          else .next s
        else
          let s := s.updCell ctx cell fun c => { c.renewLease with lic := { c.renewLease.lic with pass := false, claim := false } }
          .next { s with pairs := mset s.pairs (pairOf cell) { s.getPair cell with passing := none } }
      | none => .next s

/-- FIRST_CLAIM_TIMEOUT: 4,096 cycles after a restore without a grant. -/
def execFirstClaimTimeout (ctx cell : Nat) (s : State) : Host.Outcome State Fault Refusal :=
  match s.getCell ctx cell with
  | some c =>
    if c.lic.first && 4096 ≤ (s.getPair cell).firstCyc then
      .next (s.updCell ctx cell fun c => { c with lic := { c.lic with first := false } })
    else .next s
  | none => .next s

end Sys2Proof.Machine
end

