-- ==== Sys2Proof/Machine/Agenda.lean ====
section
/-! DEFINITION. The order of the turns of one cycle: which of them has to come before another that stands earlier in the agenda (R109,
R307, log entries 1, 79 and 127). -/

namespace Sys2Proof.Machine

open Sys2Proof

/-- The instruction that C of a cell stands before. -/
def State.standsBefore (s : State) (ctx cell : Nat) : Option Instr :=
  (s.goTo ctx cell).here.bind fun (c, t) => (c.atWord (s.textOf t) .c).bind fun (_, ws) => decode ws

def Instr.isBksel : Instr → Bool
  | .bksel .. => true
  | _ => false

/-- A word that changes a register of the twin window in its own time (R240). -/
def Instr.usesWindow : Instr → Bool
  | .twset .. | .twget .. => true
  | _ => false

/-- The task whose accesses a turn may read memory for. -/
def State.readerOf (s : State) (a : Act) : Option Task :=
  let task (ctx cell : Nat) : Option Task := (s.goTo ctx cell).here.map Prod.snd
  match a with
  | .event (.loadDataReturn ctx cell _) | .event (.streamElement ctx cell _) | .event (.copyUnit ctx cell _)
  | .event (.wstUnitWritten ctx cell _) | .event (.scratchpadRefetch ctx cell) => task ctx cell
  | .issue ctx cell .c => if (s.standsBefore ctx cell).any Instr.isBksel then task ctx cell else none
  | _ => none

/-- Turn `b` comes before turn `a` of the same cycle, wherever they stand: a commit before the reads of later tasks of its instance (R307,
first row), and the words of a floor twin's C before the crown twin's change of a window register (R109). -/
def State.comesFirst (s : State) (b a : Act) : Bool :=
  match b with
  | .event (.commit id) =>
    match s.getTask id, s.readerOf a with
    | some u, some t => u.ctx = t.ctx && u.inst = t.inst && keyLt u.key t.key
    | _, _ => false
  | .issue ctx cell .c =>
    match a with
    | .issue ctx' cell' .c =>
      ctx = ctx' && cell < 320 && cell' = cell + 320 && (s.standsBefore ctx' cell').any Instr.usesWindow
    | _ => false
  | _ => false

/-- The first of some acts that no later one has to come before, and the others. -/
def firstFree (before : Act → Act → Bool) : List Act → Option (Act × List Act)
  | [] => none
  | a :: rest =>
    if rest.any (before · a) then (firstFree before rest).map fun p => (p.1, a :: p.2) else some (a, rest)

/-- The next turn of the agenda, and the agenda after it: the acts of one cycle take the cycle's turns in the order in which they come. -/
def State.nextTurn (s : State) : List Turn → Option (Turn × List Turn)
  | [] => none
  | t :: rest =>
    let now := rest.takeWhile fun u => u.cycles = 0
    match firstFree s.comesFirst (t.act :: now.map Turn.act) with
    | some (a, l) =>
      some ({ t with act := a }, (now.zip l).map (fun p => { p.1 with act := p.2 }) ++ rest.drop now.length)
    | none => some (t, rest)

end Sys2Proof.Machine
end

