-- ==== Sys2Proof/Machine/Atomic.lean ====
section
/-! DEFINITION. Atomics and reductions: their words, and what they do at their home (R320, R322 to R324). -/

namespace Sys2Proof.Machine

open Sys2Proof

/-! ## The operations at the home (R322) -/

/-- The width of an atomic in bits. -/
def amoWidth (x : AmoExt) : Nat := if x.wide then 64 else 32

/-- The new value of an atomic on w-bit values (R322). -/
def amoNew (w : Nat) (op : AmoOp) (old b : BitVec w) : BitVec w :=
  match op with
  | .add => old + b
  | .and => old &&& b
  | .or => old ||| b
  | .xor => old ^^^ b
  | .min => if old.toInt ≤ b.toInt then old else b
  | .max => if old.toInt ≤ b.toInt then b else old
  | .minu => if old.toNat ≤ b.toNat then old else b
  | .maxu => if old.toNat ≤ b.toNat then b else old
  | .xchg => b
  | .fadd => BitVec.ofNat w (roundTo .fp32 .ne (addVal .ne (elemVal .fp32 (old.toNat % 2 ^ 32)) (elemVal .fp32 (b.toNat % 2 ^ 32))))

/-- What an atomic or a reduction writes over old; nothing when a compare-and-swap fails (R322). -/
def amoWrite (op : Option AmoOp) (w : Nat) (old b cmp : BitVec w) : Option (BitVec w) :=
  match op with
  | some o => some (amoNew w o old b)
  | none => if old = cmp then some b else none

/-- The atomic of a reduction (R323). -/
def redAmo : RedOp → AmoOp
  | .add => .add | .fadd => .fadd | .min => .min | .max => .max | .minu => .minu | .maxu => .maxu

/-- The value at the home before the operation. A poisoned line of a ZERO page reads as zeros and fills with zeros; one of
a KILL page stops the operation with its cause and owner (R270). ZCNT counts the read and the write (log entry 115). -/
def State.readHome (s : State) (ctx cell : Nat) (r : MemRef) : State × Except (Nat × Nat) (List Byte) :=
  match s.readLine ctx cell r with
  | (s', .ok bs) =>
    if r.pa / 64 ∈ s.poison then ((s'.updCell ctx cell fun c => c.markZero true).writeLine ctx (r.pa / 64) 0 0, .ok bs)
    else (s', .ok bs)
  | e => e

/-- The later tasks whose read sets hold a line that a task writes directly abort (R287). -/
def State.abortReaders (s : State) (task line : Nat) : State :=
  match s.getTask task with
  | some t => s.abortHit t.ctx (s.conflicts t [line])
  | none => s

/-- Perform a direct write of word `id` at its home (R284, R287, R304, R309, R311): the later readers abort, and the digest
counts it unless it goes to host memory, which makes it a frontier operation (R282). -/
def State.performDirect (s : State) (k : Task) (cell id : Nat) (r : MemRef) (l : BitVec 64 × BitVec 512) :
    State × Option (Nat × Nat) :=
  match (s.keepLine k.ctx cell id r l.1).writeDirect k.ctx cell r l with
  | (s, some e) => (s, some e)
  | (s, none) =>
    let s := s.updCell k.ctx cell fun c => c.noteOver id (r.pa / 64) l.1 r.cls
    let s := if s.backing k.ctx r.pa = .host then s.frontierDone k.id
      else s.updTask k.id fun u => { u with wrote := addWrote u.wrote (r.pa / 64, l.1, l.2) }
    (s.abortReaders k.id (r.pa / 64), none)

/-- The enabled bridge entries of a partition, as 1,024 + 16·fn + n, with the remote gangs (R386). -/
def State.bridges (s : State) (part : Nat) : List (Nat × Nat) :=
  (s.boundFns part).flatMap fun fn => (List.range 16).filterMap fun n =>
    let c := (s.reg fn (0x710 + 0x20 * n)).toNat
    if c / 65536 % 2 = 1 then some (1024 + 16 * fn + n, c % 65536) else none

/-- The bridge entries of a context in a gang. -/
def State.bridgesOf (s : State) (ctx : Nat) : List (Nat × Nat) :=
  if (mget s.ctxs ctx).any fun x => x.gang != 0 then s.bridges (((s.partOfCtx ctx).map Prod.fst).getD 0) else []

/-- Add two contributions to a word of a window (R324, R386). -/
def addSum (op : AmoOp) (wide : Bool) (a b : Word64) : Word64 :=
  let w := if wide then 64 else 32
  (amoNew w op (a.setWidth w) (b.setWidth w)).setWidth 64

/-- What a gang contributes to windows may go over a bridge of its root: of this device, or of another of the domain. -/
def State.bridged (s : State) (gang : Nat) : Bool :=
  gang != 0 && (1 < s.blob.domain.length || s.ctxs.any fun x => x.2.gang = gang && !(s.bridgesOf x.1).isEmpty)

/-- Count contributions of a gang to a word, by its global address. -/
def State.addSums (s : State) (gang pa : Nat) (op : AmoOp) (wide : Bool) (b : Word64) : State :=
  let same (x : BridgeSum) : Bool := x.gang = gang && x.pa = pa && x.op == op && x.wide == wide
  if s.bridgeSums.any same then
    { s with bridgeSums := s.bridgeSums.map fun x => if same x then { x with val := addSum op wide x.val b } else x }
  else { s with bridgeSums := s.bridgeSums ++ [⟨gang, pa, op, wide, b⟩] }

/-- A contribution to a window, here or on a peer, counts on this device towards what the gang sends over its bridges (log entry 46); an
exchange, or a comparison, never combines (R324, R386). -/
def State.contribute (s : State) (gang pa : Nat) (op : Option AmoOp) (wide : Bool) (b : Word64) : State :=
  match op with
  | none | some .xchg => s
  | some o => if !s.bridged gang then s else s.addSums gang (s.globalPa pa) o wide b

/-- Perform the read-modify-write of word `id` at its home: the state and the old value (R322). -/
def State.performRmw (s : State) (ctx cell task id : Nat) (r : MemRef) (op : Option AmoOp) (b cmp : Word64) (w : Nat) :
    State × Except (Nat × Nat) Word64 :=
  match s.readHome ctx cell r with
  | (s, .error e) => (s, .error e)
  | (s, .ok bs) =>
    let s := (s.contribute (s.winGang ctx r.rwin) r.pa op (w = 64) b).frontierDone task
    let old : BitVec w := BitVec.ofNat w (leNat bs)
    match amoWrite op w old (b.setWidth w) (cmp.setWidth w) with
    | none => (s.keepRead ctx cell id r, .ok (old.setWidth 64))
    | some v =>
      let l := lineOf (r.pa % 64) (leBytes v.toNat (w / 8))
      (((s.keepLine ctx cell id r l.1).writeLine ctx (r.pa / 64) l.1 l.2).abortReaders task (r.pa / 64), .ok (old.setWidth 64))

/-! ## The words -/

/-- The checks that amo and ared share (R322, R323), up to the publication. -/
def State.amoAccess (s : State) (k : Task) (cell : Nat) (ea : Word64) (x : AmoExt) (a : Access) : Except Stop (State × MemRef) :=
  s.access k cell ea (amoWidth x / 8) x.cls a

/-- The wait at step 1 of a collective injection that R359 holds back once a switch is due. -/
def State.holdInjection (s : State) (k : Task) (cell : Nat) (ea : Word64) (x : AmoExt) (a : Access) : Except Stop Unit :=
  match s.amoAccess k cell ea x a with
  | .ok (_, r) => if r.rwin && s.switchDue k.ctx then .error (.wait .injection) else .ok ()
  | .error _ => .ok ()

/-- amo and amo.cas (R322). An SC form publishes and then waits for its slot (R320): after the checks, where R322's pseudocode has the
wait (log entry 125). -/
def amoWord (t : Tok) (op : Option AmoOp) (d : Dst) (srcs : List Src) (x : AmoExt) (s : State) :
    Host.Outcome State Fault Refusal :=
  runWord .a t s fun c k => do
    if c.scWait.isSome then .error (.wait .plain)
    s.needPour k
    let g ← gather .a s c k srcs none sameClock false none fun l => s.holdInjection k s.cur.cell (v0 l) x .atomic
    if !g.on then pure (finish .a s c k t (c.core.pc.a + 2) (resultOf d g.clk false 0))
    else
      let (s1, r) ← s.amoAccess k s.cur.cell (v0 g.vals) x .atomic
      let s2 ← s1.publishFirst k
      if x.sc then
        pure ((s2.updHere fun c =>
          { c with scWait := some { t := t, len := 2, op := some ⟨r, op, v1 g.vals, v2 g.vals, x, some d, g.clk⟩ } }).noteWait .a .plain)
      else
        pure (s2.retireFly c k t 2 (.atomic r op (v1 g.vals) (v2 g.vals) x) [] [] (pendResult d g.clk c.nextFly))

def execAmo (t : Tok) (op : AmoOp) (d : Dst) (a b : Src) (x : AmoExt) (s : State) : Host.Outcome State Fault Refusal :=
  amoWord t (some op) d [a, b] x s

def execAmoCas (t : Tok) (d : Dst) (a b cmp : Src) (x : AmoExt) (s : State) : Host.Outcome State Fault Refusal :=
  amoWord t none d [a, b, cmp] x s

/-- ared (R323): it finishes once injected; REDUCTION_PERFORM applies it. With SC it waits for its slot as an atomic does (log entry
113). -/
def execAred (t : Tok) (op : RedOp) (a b : Src) (x : AmoExt) (s : State) : Host.Outcome State Fault Refusal :=
  runWord .a t s fun c k => do
    if c.scWait.isSome then .error (.wait .plain)
    s.needPour k
    let g ← gather .a s c k [a, b] none sameClock false none fun l => s.holdInjection k s.cur.cell (v0 l) x .red
    if !g.on then pure (skipA s c k t 2)
    else
      let (s1, r) ← s.amoAccess k s.cur.cell (v0 g.vals) x .red
      let s2 ← s1.publishFirst k
      if x.sc then
        pure ((s2.updHere fun c =>
          { c with scWait := some { t := t, len := 2, op := some ⟨r, some (redAmo op), v1 g.vals, 0, x, none, g.clk⟩ } }).noteWait .a
          .plain)
      else
        let red : Red := { ctx := k.ctx, cell := s.cur.cell, task := k.id, id := c.nextFly, pc := c.core.pc.a, r := r, op := op
                           b := v1 g.vals, x := x }
        pure (({ s2 with reds := s2.reds ++ [red] }.frontierDone k.id).retireFly c k t 2 .done [] [] {})

end Sys2Proof.Machine
end

