-- ==== Sys2Proof/Machine/Crypto.lean ====
section
/-! DEFINITION. The digests of the part: SHA-256 and HMAC over it (R85, R368, R397), and the CRC-64 of ECMA-182
(R304, R353). -/

namespace Sys2Proof.Machine

open Sys2Proof

/-! ## SHA-256 -/

/-- The primes that the constants of the function come from: the numbers below 312 that no smaller prime divides. -/
def shaPrimes : List Nat := (List.range' 2 310).filter fun n => [2, 3, 5, 7, 11, 13, 17].all fun d => n = d || n % d != 0

/-- The greatest number with `n` bits whose power `e` is at most `v`, bit by bit from `r`. -/
def rootFrom (e v : Nat) : Nat → Nat → Nat
  | 0, r => r
  | n + 1, r => rootFrom e v n (if (r + 2 ^ n) ^ e ≤ v then r + 2 ^ n else r)

/-- The first 32 bits of the fraction of a prime's `e`-th root: the round constants for 3, the initial hash words for 2. -/
def rootWord (e p : Nat) : BitVec 32 := BitVec.ofNat 32 (rootFrom e (p * 2 ^ (32 * e)) 37 0)

/-- Big-endian bytes of a value. -/
def beBytes (v n : Nat) : List Byte := (leBytes v n).reverse

/-- The big-endian value of bytes. -/
def beNat (bs : List Byte) : Nat := leNat bs.reverse

/-- Three rotations of a word, added bit by bit. -/
def rotations (i j k : Nat) (x : BitVec 32) : BitVec 32 := x.rotateRight i ^^^ x.rotateRight j ^^^ x.rotateRight k

/-- Two rotations and a shift of a word, added bit by bit. -/
def spread (i j k : Nat) (x : BitVec 32) : BitVec 32 := x.rotateRight i ^^^ x.rotateRight j ^^^ (x >>> k)

/-- The schedule of a block with `n` more words; the newest stands first. -/
def shaSchedule : Nat → List (BitVec 32) → List (BitVec 32)
  | 0, w => w
  | n + 1, w =>
    let back (k : Nat) : BitVec 32 := w.getD (k - 1) 0
    shaSchedule n ((back 16 + spread 7 18 3 (back 15) + back 7 + spread 17 19 10 (back 2)) :: w)

/-- The bits of `x` where `e` has ones, those of `y` elsewhere. -/
def pick (e x y : BitVec 32) : BitVec 32 := y ^^^ (e &&& (x ^^^ y))

/-- The bits that two of three words agree on. -/
def most (x y z : BitVec 32) : BitVec 32 := (x &&& (y ||| z)) ||| (y &&& z)

/-- One round on the eight working words; `kw` is the sum of its constant and its schedule word. -/
def shaRound (v : List (BitVec 32)) (kw : BitVec 32) : List (BitVec 32) :=
  match v with
  | [p0, p1, p2, p3, q0, q1, q2, q3] =>
    let x := kw + q3 + pick q0 q1 q2 + rotations 6 11 25 q0
    [x + most p0 p1 p2 + rotations 2 13 22 p0, p0, p1, p2, x + p3, q0, q1, q2]
  | v => v

/-- Words of a block, in order. -/
def beWords : Nat → List Byte → List (BitVec 32)
  | 0, _ => []
  | n + 1, bs => BitVec.ofNat 32 (beNat (bs.take 4)) :: beWords n (bs.drop 4)

/-- One block. -/
def shaBlock (h : List (BitVec 32)) (blk : List Byte) : List (BitVec 32) :=
  let w := (shaSchedule 48 (beWords 16 blk).reverse).reverse
  List.zipWith (· + ·) h ((List.zipWith (fun p x => rootWord 3 p + x) shaPrimes w).foldl shaRound h)

/-- Every block of a padded message; the fuel is at least their number. -/
def shaBlocks : Nat → List (BitVec 32) → List Byte → List (BitVec 32)
  | 0, h, _ => h
  | n + 1, h, bs => if bs.isEmpty then h else shaBlocks n (shaBlock h (bs.take 64)) (bs.drop 64)

/-- SHA-256: the message, a one bit, zeros up to eight bytes before the end of a block, and its length in bits. -/
def sha256 (m : List Byte) : List Byte :=
  let text := m ++ (0x80 : Byte) :: List.replicate ((119 - m.length % 64) % 64) 0 ++ beBytes (8 * m.length) 8
  (shaBlocks (text.length / 64 + 1) ((shaPrimes.take 8).map (rootWord 2)) text).flatMap fun w => beBytes w.toNat 4

/-- HMAC-SHA-256 under a key of at most 64 bytes. -/
def hmac256 (key m : List Byte) : List Byte :=
  let k := key ++ List.replicate (64 - key.length) 0
  sha256 ((k.map fun b => b ^^^ 0x5c) ++ sha256 ((k.map fun b => b ^^^ 0x36) ++ m))

/-! ## CRC-64 (R304) -/

/-- One byte, top bit first. -/
def crcByte (c : Word64) (b : Byte) : Word64 :=
  (List.range 8).foldl (fun (c : Word64) _ => if c.getLsbD 63 then (c <<< 1) ^^^ 0x42F0E1EBA9EA3693 else c <<< 1)
    (c ^^^ (b.setWidth 64 <<< 56))

/-- The CRC-64 of bytes. -/
def crc64 (bs : List Byte) : Word64 := bs.foldl crcByte 0

end Sys2Proof.Machine
end

