-- ==== Sys2Proof/Machine/Loader.lean ====
section
/-! DEFINITION. The loader: a Balmet image, the checks of R89, and a loaded kernel with its tables (R85 to R91, R128, R163,
R294, R410). -/

namespace Sys2Proof.Machine

open Sys2Proof

/-- A field of bytes: offset and size, little-endian. -/
def fieldAt (b : List Byte) (off n : Nat) : Nat := leNat ((b.drop off).take n)

/-- A section entry (R86). -/
structure Section where
  typ : Nat
  stage : Nat
  flags : Nat
  res : Nat
  off : Nat
  size : Nat
  count : Nat
  deriving DecidableEq, Repr

def sectionAt (b : List Byte) (i : Nat) : Section :=
  let e := (b.drop (64 + 32 * i)).take 32
  { typ := fieldAt e 0 2, stage := fieldAt e 2 1, flags := fieldAt e 3 1, res := fieldAt e 4 4 + fieldAt e 28 4
    off := fieldAt e 8 8, size := fieldAt e 16 8, count := fieldAt e 24 4 }

/-- The sections of an image. -/
def sectionsOf (b : List Byte) : List Section := (List.range (fieldAt b 6 2)).map (sectionAt b)

/-- The bytes of a section. -/
def Section.bytes (x : Section) (b : List Byte) : List Byte := (b.drop x.off).take x.size

/-- The section of a type and stage. -/
def findSection (l : List Section) (typ stage : Nat) : Option Section := l.find? fun x => x.typ = typ && x.stage = stage

/-- The stages that an image holds. -/
def stagesOf (l : List Section) : List Nat := (List.range 64).filter fun n => l.any fun x => x.typ = 1 && x.stage = n

/-! ## The checks, in the order of R89 -/

def badHeader (b : List Byte) (len : Nat) : Bool :=
  len < 64 || fieldAt b 0 4 != 0xB1E70A11 || fieldAt b 4 2 != 0x0100 || fieldAt b 16 8 != len || fieldAt b 8 8 != 0 ||
    fieldAt b 56 8 != 0 || fieldAt b 6 2 = 0 || 1024 < fieldAt b 6 2 || len < 64 + 32 * fieldAt b 6 2

def badDigest (b : List Byte) : Bool := (b.drop 24).take 32 != sha256 (b.take 24 ++ List.replicate 32 0 ++ b.drop 56)

/-- The tables of a grinder section: number and bytes after the prefix; none where they do not fill it. Padding bytes are taken
as they are (log entry 88). -/
def tablesOf : Nat → List Byte → Option (List (Nat × List Byte))
  | 0, bs => if bs.isEmpty then some [] else none
  | n + 1, bs =>
    let e := fieldAt bs 8 2
    let len := 8 + (4 * e + 7) / 8 * 8
    if bs.length < 8 + len || e = 0 || 256 < e || fieldAt bs 1 7 != 0 then none
    else (tablesOf n (bs.drop (8 + len))).map fun r => (fieldAt bs 0 1, (bs.drop 8).take len) :: r

/-- The slots of a delay section with their formats and values; none where an entry breaks R410. -/
def delaysOf : Nat → List Byte → Option (List (Nat × Fmt × Word64))
  | 0, _ => some []
  | n + 1, bs =>
    if 63 < fieldAt bs 0 1 || 15 < fieldAt bs 1 1 || fieldAt bs 2 6 != 0 then none
    else (delaysOf n (bs.drop 16)).map fun r => (fieldAt bs 0 1, fmtOf (fieldAt bs 1 1), BitVec.ofNat 64 (fieldAt bs 8 8)) :: r

/-- No number appears twice. -/
def distinct : List Nat → Bool
  | [] => true
  | x :: xs => !(x ∈ xs) && distinct xs

/-- A section's own form (R86, R410). -/
def Section.ok (x : Section) (b : List Byte) : Bool :=
  x.flags = 0 && x.res = 0 && x.off + x.size ≤ b.length &&
    (if x.typ = 6 || x.typ = 7 then x.stage = 0xFF else x.stage < 64) &&
    match x.typ with
    | 1 => x.size = 16 && x.count = 0
    | 2 => x.size = 4 * x.count
    | 3 => x.count = 0
    | 4 => (match tablesOf x.count (x.bytes b) with | some l => distinct (l.map Prod.fst) | none => false)
    | 5 => x.size = 16 * x.count &&
      (match delaysOf x.count (x.bytes b) with | some l => distinct (l.map Prod.fst) | none => false)
    | 6 => x.size = 128 * x.count
    | 7 => x.size = 16 * x.count
    | 8 => x.size = 4 * x.count
    | _ => false

/-- Two byte ranges share a byte. -/
def rangesMeet (a n b m : Nat) : Bool := n != 0 && m != 0 && a < b + m && b < a + n

/-- Some section overlaps a later one. -/
def sectionsMeet : List Section → Bool
  | [] => false
  | x :: xs => xs.any (fun y => rangesMeet x.off x.size y.off y.size) || sectionsMeet xs

def badSection (b : List Byte) : Bool :=
  let l := sectionsOf b
  let head := 64 + 32 * l.length
  let times := fun typ n => l.countP fun x => x.typ = typ && x.stage = n
  l.any (fun x => !x.ok b || rangesMeet x.off x.size 0 head) || sectionsMeet l ||
    1 < times 6 0xFF || 1 < times 7 0xFF ||
    ((List.range 64).any fun n =>
      1 < times 1 n || 1 < times 2 n || times 1 n != times 2 n || 1 < times 3 n || 1 < times 4 n || 1 < times 5 n ||
        1 < times 8 n || (times 1 n = 0 && times 3 n + times 4 n + times 5 n + times 8 n != 0))

/-- A rectangle of enabled cells of a partition that no group holds (R300, R328). -/
def State.rectFree (s : State) (part : Nat) (p : Part) (held : Nat → Bool) (x y z w h d : Nat) : Bool :=
  x + w ≤ 20 && y + h ≤ 16 && z + d ≤ 2 && mget s.parts part == some p &&
    (List.range d).all fun k => (List.range h).all fun j => (List.range w).all fun i =>
      let n := cellAt (x + i) (y + j) (z + k)
      columnOf n ∈ p.cols && !((mget s.phys n).getD {}).disabled && !held n

/-- The origins of the barista's search: increasing z, then y, then x (R300, R330). -/
def origins : List (Nat × Nat × Nat) :=
  (List.range 2).flatMap fun z => (List.range 16).flatMap fun y => (List.range 20).map fun x => (x, y, z)

def badStage (s : State) (part : Nat) (p : Part) (b : List Byte) : Bool :=
  let l := sectionsOf b
  (stagesOf l).any fun n =>
    let d := ((findSection l 1 n).map fun x => x.bytes b).getD []
    let w := fieldAt d 0 1; let h := fieldAt d 1 1; let k := fieldAt d 2 1
    w = 0 || 20 < w || h = 0 || 16 < h || k = 0 || 2 < k || fieldAt d 3 1 != 0 || fieldAt d 4 2 = 0 || 256 < fieldAt d 4 2 ||
      fieldAt d 4 2 ≤ fieldAt d 6 2 || fieldAt d 8 4 = 0 ||
      !(origins.any fun o => s.rectFree part p (fun _ => false) o.1 o.2.1 o.2.2 w h k)

def boundExceeded (p : Part) (b : List Byte) : Bool :=
  let l := sectionsOf b
  (stagesOf l).any fun n => p.safept < fieldAt (((findSection l 1 n).map fun x => x.bytes b).getD []) 8 4

/-- A text that is too long, or an ENTRY outside it, which R87 and R89 both name: the model answers BAD_TEXT (log entry 89). -/
def badText (b : List Byte) : Bool :=
  let l := sectionsOf b
  (stagesOf l).any fun n =>
    let c := ((findSection l 2 n).map Section.count).getD 0
    16384 < c || c ≤ fieldAt (((findSection l 1 n).map fun x => x.bytes b).getD []) 12 4

/-- The offsets of a template-offset section. -/
def offsetsOf (x : Section) (b : List Byte) : List Nat := (List.range x.count).map fun i => fieldAt (x.bytes b) (4 * i) 4

def badTemplate (b : List Byte) : Bool :=
  let l := sectionsOf b
  (l.filter fun x => x.typ = 8).any fun x =>
    let data := ((findSection l 3 x.stage).map fun y => y.bytes b).getD []
    (offsetsOf x b).any fun o =>
      o % 32 != 0 || data.length < o + 32 || !loadCheck (BitVec.ofNat 256 (fieldAt data o 32))

def spadFull (b : List Byte) : Bool := (sectionsOf b).any fun x => x.typ = 3 && 524288 < x.size

/-- The launch records of an image. -/
def recordsOf (b : List Byte) : List (BitVec 1024) :=
  match findSection (sectionsOf b) 6 0xFF with
  | some x => (List.range x.count).map fun i => BitVec.ofNat 1024 (fieldAt (x.bytes b) (128 * i) 128)
  | none => []

/-- The carafe entries that records fill (R294). -/
def entriesOf (l : List (BitVec 1024)) : Nat := (l.map fun r => r.toNat / 2 ^ 672 % 2 ^ 32).sum

def carafeFull (s : State) (ctx : Nat) (b : List Byte) : Bool :=
  4096 < ((s.kernels.filter fun k => k.ctx = ctx).map fun k => entriesOf k.lrecs).sum + entriesOf (recordsOf b)

/-- The carries of an image: sender, receiver, depth. -/
def carriesOf (b : List Byte) : List (Nat × Nat × Nat) :=
  match findSection (sectionsOf b) 7 0xFF with
  | some x => (List.range x.count).map fun i =>
      (fieldAt (x.bytes b) (16 * i) 1, fieldAt (x.bytes b) (16 * i + 1) 1, fieldAt (x.bytes b) (16 * i + 2) 2)
  | none => []

/-- The reserved bytes of a carry entry are not all 0: the last range of R163's table. -/
def badCarryBytes (b : List Byte) : Bool :=
  match findSection (sectionsOf b) 7 0xFF with
  | some x => (List.range x.count).any fun i => fieldAt (x.bytes b) (16 * i + 4) 12 != 0
  | none => false

def badCarry (b : List Byte) : Bool :=
  let st := stagesOf (sectionsOf b)
  let l := carriesOf b
  badCarryBytes b ||
  l.any (fun c => !(c.1 ∈ st) || !(c.2.1 ∈ st) || c.1 = c.2.1 || c.2.2 = 0 || 256 < c.2.2) ||
    st.any fun n => 8 < l.countP (fun c => c.1 = n) || 8 < l.countP fun c => c.2.1 = n

def noSlot (s : State) (ctx : Nat) : Bool := 64 ≤ s.kernels.countP fun k => k.ctx = ctx

/-! ## The table area (R128) -/

/-- Place tables from an offset on: each at the next multiple of 8. -/
def placeTables : Nat → List (Nat × List Byte) → List (Nat × Nat × List Byte)
  | _, [] => []
  | o, t :: ts => (t.1, o, t.2) :: placeTables (o + (t.2.length + 7) / 8 * 8) ts

/-- The stages with tables: stage, offset of the directory, and the tables with their offsets; `o` is the next free offset. -/
def layTables (b : List Byte) : Nat → List Section → List (Nat × Nat × List (Nat × Nat × List Byte))
  | _, [] => []
  | o, x :: xs =>
    let ts := sortBy (fun p q => p.1 ≤ q.1) ((tablesOf x.count (x.bytes b)).getD [])
    let p := placeTables (o + 2048) ts
    (x.stage, o, p) :: layTables b (o + 2048 + (ts.map fun t => (t.2.length + 7) / 8 * 8).sum) xs

/-- The grinder sections of an image by stage. -/
def tableArea (b : List Byte) : List (Nat × Nat × List (Nat × Nat × List Byte)) :=
  layTables b 0 (sortBy (fun p q => p.stage ≤ q.stage) ((sectionsOf b).filter fun x => x.typ = 4))

/-- The size of the area. -/
def areaSize (a : List (Nat × Nat × List (Nat × Nat × List Byte))) : Nat :=
  a.foldl (fun m e => e.2.2.foldl (fun m t => Nat.max m (t.2.1 + t.2.2.length)) (Nat.max m (e.2.1 + 2048))) 0

def badTables (s : State) (b : List Byte) (pa va : Nat) : Bool :=
  let a := tableArea b
  !a.isEmpty && (pa % 65536 != 0 || va % 65536 != 0 || s.hbmCap < pa + areaSize a)

/-- The bytes of a directory: 256 addresses. -/
def directory (va : Nat) (ts : List (Nat × Nat × List Byte)) : List Byte :=
  (List.range 256).flatMap fun g =>
    leBytes (match ts.find? fun t => t.1 = g with | some t => va + t.2.1 | none => 0) 8

/-- The bytes of the area: for each stage its directory, then its tables, which the section pads to multiples of 8. -/
def areaBytes (va : Nat) (a : List (Nat × Nat × List (Nat × Nat × List Byte))) : List Byte :=
  a.flatMap fun e => directory va e.2.2 ++ e.2.2.flatMap fun t => t.2.2

/-! ## A loaded kernel (R91) -/

/-- The status of the first check that fails, or 0. -/
def State.loadStatus (s : State) (part : Nat) (p : Part) (ctx : Nat) (b : List Byte) (len pa va : Nat) : Nat :=
  if badHeader b len then 0x01 else if badDigest b then 0x02 else if badSection b then 0x03
  else if badStage s part p b then 0x04 else if boundExceeded p b then 0x05 else if badText b then 0x06
  else if badTemplate b then 0x07 else if spadFull b then 0x08 else if carafeFull s ctx b then 0x09
  else if badCarry b then 0x0A else if noSlot s ctx then 0x0B else if badTables s b pa va then 0x0C else 0

/-- A stage of an image. -/
def stageOfImage (b : List Byte) (va n : Nat) : Stage :=
  let l := sectionsOf b
  let get := fun t => ((findSection l t n).map fun x => x.bytes b).getD []
  let d := get 1
  { num := n, gw := fieldAt d 0 1, gh := fieldAt d 1 1, gd := fieldAt d 2 1, period := fieldAt d 4 2, phase := fieldAt d 6 2
    maxInstant := fieldAt d 8 4, entry := fieldAt d 12 4
    text := (List.range (((findSection l 2 n).map Section.count).getD 0)).map fun i => BitVec.ofNat 32 (fieldAt (get 2) (4 * i) 4)
    data := get 3
    delays := (delaysOf (((findSection l 5 n).map Section.count).getD 0) (get 5)).getD []
    grinder := ((tableArea b).find? fun e => e.1 = n).map fun e => va + e.2.1 }

/-- The lowest handle that no loaded kernel of a context holds (R91). -/
def State.freeHandle (s : State) (ctx : Nat) : Nat :=
  (((List.range 64).map (· + 1)).find? fun h => (s.getKernel ctx h).isNone).getD 0

/-- The kernel that a good image gives. -/
def kernelOf (b : List Byte) (ctx handle va : Nat) : Kernel :=
  { ctx := ctx, handle := handle, stages := (stagesOf (sectionsOf b)).map (stageOfImage b va), carries := carriesOf b
    lrecs := recordsOf b }

end Sys2Proof.Machine
end

