-- ==== Sys2Proof/Machine/Barista.lean ====
section
/-! DEFINITION. The barista (R300, R301, R330, R331), preparing a group (R92, R332), the start of an instance (R97), and the
commands of the host rings (R93 to R97, R176). -/

namespace Sys2Proof.Machine

open Sys2Proof

/-! ## The visits (R300) -/

/-- The context that a partition runs. -/
def Part.running (p : Part) : Option Nat := if p.slots[0].st == .running && !p.wedged then some p.slots[0].ctx else none

def Part.lowCol (p : Part) : Nat := p.cols.foldl Nat.min 20

/-- The partition whose turn it is: the next by lowest column after the one visited last. -/
def State.nextPart (s : State) : Option Nat :=
  let l := sortBy (fun (a b : Nat × Part) => a.2.lowCol ≤ b.2.lowCol) (s.parts.filter fun p => p.2.running.isSome)
  let last := match s.visit with
    | some v => ((mget s.parts v.part).map Part.lowCol).getD 20
    | none => 20
  ((l.find? fun p => last < p.2.lowCol) <|> l.head?).map Prod.fst

/-- The elements after a number, then the others. -/
def afterLast (last : Nat) (l : List Nat) : List Nat := l.filter (last < ·) ++ l.filter (· ≤ last)

/-! ## Rings (R175, R176) -/

def ringReg (r off : Nat) : Nat := 0x1000 + 0x40 * r + off

def State.ringDepth (s : State) (fn r : Nat) : Nat := 2 ^ ((s.reg fn (ringReg r 8)).toNat % 32)

/-- The unread entries by the pointers. -/
def State.ringLag (s : State) (fn r : Nat) : Nat :=
  ((s.reg fn (ringReg r 0x10)).toNat + 2 ^ 32 - (s.reg fn (ringReg r 0x14)).toNat) % 2 ^ 32

/-- The barista reads the ring: ENABLE is 1 and OVR is 0. -/
def State.ringActive (s : State) (fn r : Nat) : Bool :=
  (s.reg fn (ringReg r 8)).getLsbD 8 && !(s.reg fn (ringReg r 0x18)).getLsbD 0

/-- The next entry of a ring. -/
def State.ringEntry (s : State) (fn r : Nat) : List Byte :=
  readBytes s.mem (hostBase + (s.reg fn (ringReg r 0)).toNat / 4096 * 4096 +
    64 * ((s.reg fn (ringReg r 0x14)).toNat % s.ringDepth fn r)) 64

def entryOp (e : List Byte) : Nat := fieldAt e 0 1
/-- The entry requests a completion. -/
def entryWants (e : List Byte) : Bool := fieldAt e 1 1 % 2 = 1
def entryCookie (e : List Byte) : Nat := fieldAt e 4 4

/-- An entry that cannot yet be acted on (R91, R94, R177). -/
def State.entryHeld (s : State) (part fn r : Nat) (e : List Byte) : Bool :=
  let op := entryOp e
  let loading := s.pending.filter fun q => q.kind = 1 && q.part = part
  (entryWants e && !s.complRoom fn) || (op = 1 && !loading.isEmpty) ||
    (op = 2 && s.pending.any fun q => q.kind = 2 && q.part = part) ||
    ((op = 2 || op = 4) && loading.any fun q => q.fn = fn && q.ring = r) ||
    (3 ≤ op && op ≤ 5 && s.pending.any fun q => q.kind = 2 && q.fn = fn && q.ring = r)

/-- The rings of a partition that have an entry to act on, as numbers 8·fn + r: none while the host link carries nothing (log
entry 107). -/
def State.readyRings (s : State) (part : Nat) : List Nat :=
  if !s.hostUp then [] else
  (sortBy (fun a b => a ≤ b) (s.boundFns part)).flatMap fun fn =>
    ((List.range 8).filter fun r =>
      s.ringActive fn r && 0 < s.ringLag fn r && s.ringLag fn r ≤ s.ringDepth fn r &&
        !s.entryHeld part fn r (s.ringEntry fn r)).map fun r => 8 * fn + r

/-- The entry that a visit reads: its ring, as a number, and its bytes. -/
def State.nextEntry (s : State) (part : Nat) : Option (Nat × List Byte) :=
  ((mget s.parts part).bind fun p => (afterLast p.lastRing (s.readyRings part)).head?).map fun n =>
    (n, s.ringEntry (n / 8) (n % 8))

/-- An overrun ring stops and is reported (R176). -/
def State.markOverruns (s : State) (part : Nat) : State :=
  (s.boundFns part).foldl (fun (s : State) fn =>
    (List.range 8).foldl (fun (s : State) r =>
      if s.ringActive fn r && s.ringDepth fn r < s.ringLag fn r then
        (s.setReg fn (ringReg r 0x18) (s.reg fn (ringReg r 0x18) ||| 1)).report part
          (faultRecord { code := .ringOverrun } 0 0 0 false)
      else s) s) s

/-! ## Placing groups (R298, R300, R301, R330, R334) -/

/-- A task that the barista may place: unplaced, of a Running instance; a child armed `after` waits for its parent's commit. -/
def State.readyTask (s : State) (t : Task) : Bool :=
  t.group.isNone && (match s.getInst t.ctx t.inst with | some i => i.st == .running | none => false) && !s.serialHolds t &&
    !(t.after && match t.parent with | some p => (s.getTask p).isSome | none => false)

/-- The size of a task's rectangle. -/
def State.rectOf (s : State) (t : Task) : Nat × Nat × Nat :=
  if t.launched then (recField t.rcd 77 1, recField t.rcd 78 1, recField t.rcd 79 1)
  else match s.stageOf t with
    | some g => (g.gw, g.gh, g.gd)
    | none => (0, 0, 0)

/-- The origins that a task may be placed at, in the order of the search. -/
def State.originsFor (t : Task) : List (Nat × Nat × Nat) :=
  if t.launched && recField t.rcd 75 1 % 2 = 0 then
    let x := t.org.1 + recSByte t.rcd 72
    let y := t.org.2.1 + recSByte t.rcd 73
    if 0 ≤ x && 0 ≤ y then [(x.toNat, y.toNat, t.org.2.2 + recField t.rcd 74 1)] else []
  else origins

/-- A depth of 2 stands on the floor (R328). -/
def depthOk (d z : Nat) : Bool := d != 2 || z = 0

/-- A cell holds a group, or one left it in this cycle (R333). -/
def State.cellHeld (s : State) (ctx n : Nat) : Bool :=
  (match s.getCell ctx n with | some c => c.group.isSome | none => false) || ((mget s.phys n).getD {}).freed = some s.cycle

/-- The first origin at which a task's rectangle fits, beside the cells that `held` marks. -/
def State.fitAt (s : State) (part : Nat) (t : Task) (held : Nat → Bool) : Option (Nat × Nat × Nat) :=
  match mget s.parts part with
  | none => none
  | some p =>
    let r := s.rectOf t
    (State.originsFor t).find? fun o =>
      depthOk r.2.2 o.2.2 && s.rectFree part p held o.1 o.2.1 o.2.2 r.1 r.2.1 r.2.2

/-- Place a task's group: the cells are held, and the preparation takes 32 cycles and one for each unit of data (R332). -/
def State.place (s : State) (t : Task) (o : Nat × Nat × Nat) : State :=
  let r := s.rectOf t
  let data := ((s.stageOf t).map fun g => g.data.length).getD 0
  let g : Group :=
    { id := s.nextId, ctx := t.ctx, inst := t.inst, stage := t.stage, launched := t.launched, ox := o.1, oy := o.2.1, oz := o.2.2
      w := r.1, h := r.2.1, d := r.2.2, st := .starting, left := 32 + (data + 63) / 64 }
  let s : State := { s with nextId := s.nextId + 1, groups := mset s.groups g.id g }
  let s := g.cells.foldl (fun (s : State) n =>
    s.putCell t.ctx n { ((s.getCell t.ctx n).getD {}) with group := some g.id }) s
  let s : State := if g.d = 2 then
      { s with windows := s.windows.filter fun w => !(w.1 / 4096 = t.ctx && g.covers (w.1 / 8 % 512)) }
    else s
  s.updTask t.id fun u => { u with group := some g.id }

/-- Evict, for the task at the pour line, the latest speculative launched group at the first origin where only launched
groups stand (R301); the latest is the one of the greatest commit key, whatever its instance (log entry 135). -/
def State.evict (s : State) (part : Nat) (t : Task) : State :=
  let stageHolds := fun n => match (s.getCell t.ctx n).bind fun c => c.group.bind fun g => mget s.groups g with
    | some g => !g.launched
    | none => false
  match s.fitAt part t stageHolds with
  | none => s
  | some o =>
    let r := s.rectOf t
    let box : Group := { id := 0, ctx := t.ctx, inst := 0, stage := 0, ox := o.1, oy := o.2.1, oz := o.2.2, w := r.1, h := r.2.1, d := r.2.2 }
    let gs := box.cells.filterMap fun n => (s.getCell t.ctx n).bind Cell.group
    let ts := (s.tasks.map Prod.snd).filter fun u =>
      u.launched && (match u.group with | some g => g ∈ gs | none => false) && !s.atPour u
    match latestFirst ts with
    | u :: _ => s.abortTasks [u]
    | [] => s

/-- The earliest of some tasks. -/
def earliest (ts : List Task) : Option Task := (latestFirst ts).getLast?

/-- What the barista places on a visit, in the three steps of R300. -/
def State.placeOne (s : State) (part ctx : Nat) (p : Part) : State :=
  let ids := afterLast p.lastInst (sortBy (fun a b => a ≤ b)
    ((s.insts.filter fun i => i.ctx = ctx && i.st == .running).map Inst.id))
  let ready := fun i => (s.tasksOf ctx i).filter s.readyTask
  let held := s.cellHeld ctx
  let choose := fun (t : Task) (s : State) =>
    ({ s with parts := mupd s.parts part fun p => { p with lastInst := t.inst } } : State)
  let pour := (ids.flatMap ready).filter s.atPour
  match pour with
  | t :: _ =>
    let s' := choose t s
    match s.fitAt part t held with
    | some o => s'.place t o
    | none => s'.evict part t
  | [] =>
    let block := fun (b : Option Nat) (s : State) =>
      ({ s with parts := mupd s.parts part fun p =>
        { p with blocked := match b with | some t => mset p.blocked ctx t | none => mdel p.blocked ctx } } : State)
    let aged := match (mget p.blocked ctx).bind s.getTask with
      | some t => if t.ctx = ctx && s.readyTask t then some t else none
      | none => none
    match aged <|> ids.findSome? fun i => earliest ((ready i).filter fun t => 256 ≤ t.age) with
    | some t =>
      match s.fitAt part t held with
      | some o => block none ((choose t s).place t o)
      | none => block (some t.id) (choose t s)
    | none =>
      match ids.findSome? fun i => earliest ((ready i).filter fun t => (s.fitAt part t held).isSome) with
      | some t =>
        match s.fitAt part t held with
        | some o => (choose t s).place t o
        | none => s
      | none => s

/-- The ages of the tasks that a visit has found ready and left unplaced, and the visits that a task at the pour line has stayed so. -/
def State.ageTasks (s : State) (found : List Nat) : State :=
  { s with tasks := s.tasks.map fun p =>
      if p.1 ∈ found && s.readyTask p.2 then
        (p.1, { p.2 with age := p.2.age + 1, stall := if s.atPour p.2 then Nat.min (2 ^ 20) (p.2.stall + 1) else 0 })
      else p }

/-- BARISTA_VISIT (R300, R301): at most one visit in a cycle, to the partition whose turn it is. -/
def execBaristaVisit (part : Nat) (s : State) : Host.Outcome State Fault Refusal :=
  let due := s.boot == .ready && s.nextPart == some part && (match s.visit with | some v => v.cycle < s.cycle | none => true)
  match (mget s.parts part).bind fun p => p.running.map fun c => (p, c) with
  | some (p, ctx) =>
    if due then
      let s := s.markOverruns part
      let found := (s.tasks.filter fun q => q.2.ctx = ctx && s.readyTask q.2).map Prod.fst
      .next { (s.placeOne part ctx p).ageTasks found with visit := some { part := part, cycle := s.cycle } }
    else .next s
  | none => .next s

/-- PLACEMENT_STALL (R331): one report for a stage task at the pour line that 2^20 visits left unplaced; a launched
task gives none (log entry 137). -/
def execPlacementStall (part : Nat) (s : State) : Host.Outcome State Fault Refusal :=
  let stuck := (s.tasks.map Prod.snd).find? fun t =>
    !t.launched && t.group.isNone && s.atPour t && t.stall = 2 ^ 20 && !t.stallSent &&
      (match s.partOfCtx t.ctx with | some (p, _) => p = part | none => false)
  match stuck with
  | some t =>
    .next ((s.updTask t.id fun u => { u with stallSent := true }).report part
      (faultRecord { code := .placementStall } 0 t.inst t.ts false))
  | none => .next s

/-! ## Preparing a group (R92) -/

/-- The registers of a cell at the start of a group. -/
def startCore (g : Stage) (entry : Nat) (args : List Word64) : Core :=
  let regs := Vector.ofFn fun (i : Fin 16) => ({ val := if i.val < 8 then args.getD i.val 0 else 0 } : SVal)
  { pc := ⟨entry, entry, entry, entry⟩
    sregs := regs, aregs := regs
    delays := g.delays.foldl (fun v d => v.set (Fin.ofNat 64 d.1) { bits := d.2.2.setWidth 2048, fmt := d.2.1 })
      (Vector.replicate 64 {})
    origins := (unitsOf 0 g.data.length).map fun u => (u, .stage) }

/-- A cell at the start of a group: its licence memory of passes and everything else as R92 says. -/
def startCell (gid tid : Nat) (g : Stage) (entry : Nat) (args : List Word64) : Cell :=
  let core := startCore g entry args
  { core := core, ckpts := [(tid, core)], group := some gid, task := some tid, spad := writeBytes [] 0 g.data }

/-- The arguments and the entry of a task's group (R92, R298). -/
def State.entryOf (s : State) (t : Task) (g : Stage) : Nat × List Word64 :=
  if t.launched then (recField t.rcd 80 4, (List.range 8).map fun i => BitVec.ofNat 64 (recField t.rcd (8 * i) 8))
  else (g.entry, ((s.getInst t.ctx t.inst).map Inst.args).getD [])

/-- A cell that starts keeps the licensed commands that an earlier group has started, and their licence, to their end (R333). -/
def Cell.startOver (c old : Cell) : Cell := { c with cmds := old.cmds, lic := { c.lic with leaving := old.lic.leaving } }

/-- GROUP_PREPARED (R332): the preparation's cycles have passed. -/
def execGroupPrepared (gid : Nat) (s : State) : Host.Outcome State Fault Refusal :=
  match mget s.groups gid with
  | none => .next s
  | some g =>
    match (s.tasks.map Prod.snd).find? fun t => t.group = some gid with
    | none => .next s
    | some t =>
      match s.stageOf t with
      | some st =>
        if g.st == .starting && g.left = 0 then
          let (entry, args) := s.entryOf t st
          let s := g.cells.foldl (fun (s : State) n => s.putCell g.ctx n ((startCell gid t.id st entry args).startOver ((s.getCell g.ctx n).getD {}))) s
          .next { s with groups := mset s.groups gid { g with st := .running } }
        else .next s
      | none => .next s

/-- INSTANCE_START (R97): TSNOW has reached the start time, and no other instance is the partition's writer (R266). An instance of
an image without a stage runs no task and does not retire by itself (log entry 93). -/
def execInstStart (ctx inst : Nat) (s : State) : Host.Outcome State Fault Refusal :=
  match s.getInst ctx inst, s.partOfCtx ctx with
  | some i, some (_, p) =>
    let free := match p.writer with | some w => w = inst | none => true
    if i.st == .queued && p.running == some ctx && i.start ≤ s.tsnow && free then
      let stages := ((s.getKernel ctx i.handle).map Kernel.stages).getD []
      let s := stages.foldl (fun (s : State) g =>
        let ts := 65536 * g.phase + 256 * g.num
        ({ s with nextId := s.nextId + 1 } : State).putTask
          { id := s.nextId, ctx := ctx, inst := inst, stage := g.num, ts := ts, key := [ts, 0] }) s
      .next (s.putInst { i with st := .running })
    else .next s
  | _, _ => .next s

/-! ## Host commands (R93 to R97) -/

/-- The bytes of an entry from `a` to `b` exclusive are 0. -/
def zeroBytes (e : List Byte) (a b : Nat) : Bool := ((e.drop a).take (b - a)).all (· == 0)

/-- The reserved fields of an entry are 0 (R93). -/
def entryOk (e : List Byte) : Bool :=
  fieldAt e 1 1 ≤ 1 && zeroBytes e 2 4 &&
    match entryOp e with
    | 0 => zeroBytes e 8 64
    | 1 => zeroBytes e 32 40 && zeroBytes e 48 64
    | 2 => zeroBytes e 40 64
    | 3 | 4 | 5 => zeroBytes e 8 32 && zeroBytes e 36 64
    | _ => false

/-- The record of an entry itself, when the entry requests one (R411). -/
def State.answer (s : State) (fn : Nat) (e : List Byte) (status id : Nat) : State :=
  if entryWants e then s.complete fn (complRecord (entryCookie e) status 0 (if status = 0 then id else 0)) else s

/-- On its visit the barista reads the next entry, when its OP is one of `ops`; an entry with a reserved field set completes
with BAD_COMMAND. -/
def readEntry (ops : Nat → Bool) (part : Nat) (s : State) (run : Nat → Nat → Nat → List Byte → State → State) :
    Host.Outcome State Fault Refusal :=
  let here := match s.visit with
    | some v => v.part = part && v.cycle = s.cycle && !v.read
    | none => false
  match s.nextEntry part, (mget s.parts part).bind Part.running with
  | some (n, e), some ctx =>
    if here && s.boot == .ready && ops (entryOp e) then
      let fn := n / 8
      let s := s.setReg fn (ringReg (n % 8) 0x14) (BitVec.ofNat 64 (((s.reg fn (ringReg (n % 8) 0x14)).toNat + 1) % 2 ^ 32))
      let s : State := { s with
        visit := s.visit.map fun v => { v with read := true }
        parts := mupd s.parts part fun p => { p with lastRing := n } }
      .next (if entryOk e then run ctx fn (n % 8) e s else s.answer fn e 0x10 0)
    else .next s
  | _, _ => .next s

/-- HOST_NOP; an entry of an unknown OP completes with BAD_COMMAND (R93). -/
def execHostNop (part : Nat) (s : State) : Host.Outcome State Fault Refusal :=
  readEntry (fun op => op = 0 || 5 < op) part s fun _ fn _ e s => s.answer fn e 0 0

/-- LOAD (R89, R93): the loader begins to read the image. -/
def execLoad (part : Nat) (s : State) : Host.Outcome State Fault Refusal :=
  readEntry (· = 1) part s fun ctx fn ring e s =>
    { s with pending := s.pending ++ [{ kind := 1, part := part, ctx := ctx, fn := fn, ring := ring, entry := e }] }

/-- A line of the image cannot be rebuilt (R95, R268). -/
def State.imagePoisoned (s : State) (addr len : Nat) : Bool := s.poison.any fun l => addr < 64 * l + 64 && 64 * l < addr + len

/-- LOAD_DONE (R89, R91): the checks, then the handle, the tables and the record. -/
def execLoadDone (part : Nat) (s : State) : Host.Outcome State Fault Refusal :=
  match s.pending.find? fun q => q.kind = 1 && q.part = part, mget s.parts part with
  | some q, some p =>
    let s : State := { s with pending := s.pending.erase q }
    let addr := fieldAt q.entry 8 8
    let len := fieldAt q.entry 16 8
    let pa := fieldAt q.entry 24 8
    let va := fieldAt q.entry 40 8
    if s.hbmCap < addr + len then .next (s.answer q.fn q.entry 0x01 0)
    else
      let b := readBytes s.mem addr len
      let st := s.loadStatus part p q.ctx b len pa va
      let st := if st != 0x01 && s.imagePoisoned addr len then 0x02 else st
      if st != 0 then .next (s.answer q.fn q.entry st 0)
      else
        let h := s.freeHandle q.ctx
        let a := tableArea b
        let s : State := { s with
          kernels := s.kernels ++ [kernelOf b q.ctx h va]
          ctxs := mupd s.ctxs q.ctx fun x => { x with meas := beNat (sha256 (beBytes x.meas 32 ++ (b.drop 24).take 32)) } }
        .next ((s.blockWrite q.ctx pa (areaBytes va a)).answer q.fn q.entry 0 h)
  | _, _ => .next s

/-- LAUNCH (R94, R95): the checks, in an order of the model's (log entry 91), then the read of the argument block. -/
def execLaunch (part : Nat) (s : State) : Host.Outcome State Fault Refusal :=
  readEntry (· = 2) part s fun ctx fn ring e s =>
    let addr := fieldAt e 8 8
    let key := fieldAt e 24 8
    let g := fieldAt e 36 4
    let next := ((mget s.parts part).map Part.nextInst).getD 1
    if addr % 64 != 0 || (key = 0 && g != 0) || (key != 0 && (g = 0 || 1024 < g)) then s.answer fn e 0x10 0
    else if (s.getKernel ctx (fieldAt e 32 4)).isNone then s.answer fn e 0x11 0
    else if 2 ^ 32 ≤ next then s.answer fn e 0x12 0
    else if 2 ^ 51 < addr + 64 then s.answer fn e 0x16 0
    else { s with pending := s.pending ++ [{ kind := 2, part := part, ctx := ctx, fn := fn, ring := ring, entry := e }] }

/-- The answer to the read of a LAUNCH's arguments: an instance, when it is good. -/
def State.argumentsRead (s : State) (q : Pending) (p : Part) (ok : Bool) : State :=
  let s : State := { s with pending := s.pending.erase q }
  let e := q.entry
  if !ok then s.answer q.fn e 0x16 0
  else if (s.getKernel q.ctx (fieldAt e 32 4)).isNone then s.answer q.fn e 0x11 0
  else
    let b := readBytes s.mem (hostBase + fieldAt e 8 8) 64
    let i : Inst :=
      { part := q.part, ctx := q.ctx, id := p.nextInst, handle := fieldAt e 32 4
        args := (List.range 8).map fun i => BitVec.ofNat 64 (fieldAt b (8 * i) 8), start := fieldAt e 16 8
        gangKey := fieldAt e 24 8, gangWidth := fieldAt e 36 4, cookie := entryCookie e, fn := q.fn, wants := entryWants e
        dmode := (s.reg q.fn 0x1C00).toNat % 4 }
    let s : State := { s with
      insts := s.insts ++ [i]
      parts := mset s.parts q.part { p with nextInst := p.nextInst + 1 } }
    s.answer q.fn e 0 i.id

/-- ARGUMENT_READ_DONE (R95): the host answers over its link, with data or with an error. -/
def execArgumentReadDone (part : Nat) (ok : Bool) (s : State) : Host.Outcome State Fault Refusal :=
  match s.pending.find? fun q => q.kind = 2 && q.part = part, mget s.parts part with
  | some q, some p => .next (if s.hostUp then s.argumentsRead q p ok else s)
  | _, _ => .next s

/-- The instance of a partition that an id names, in any of its contexts: one that is not Retired where there is one, and the first
in the list of several, which a restored context may bring (log entry 42). -/
def State.instOfPart (s : State) (part id : Nat) : Option Inst :=
  (s.insts.find? fun i => i.part = part && i.id = id && i.st != .retired) <|> s.insts.find? fun i => i.part = part && i.id = id

/-- The partition has assigned an id (R95). -/
def State.idAssigned (s : State) (part id : Nat) : Bool :=
  1 ≤ id && ((mget s.parts part).any fun p =>
    (id < p.nextInst && !p.skipped.any fun r => r.1 ≤ id && id < r.2) || (s.instOfPart part id).isSome)

/-- UNLOAD (R94, R96); a LAUNCH of the kernel whose arguments are on the way counts as an instance (log entry 92). -/
def execUnload (part : Nat) (s : State) : Host.Outcome State Fault Refusal :=
  readEntry (· = 4) part s fun ctx fn _ e s =>
    let h := fieldAt e 32 4
    if (s.getKernel ctx h).isNone then s.answer fn e 0x11 0
    else if (s.insts.any fun i => i.ctx = ctx && i.handle = h && i.st != .retired) ||
        (s.pending.any fun q => q.kind = 2 && q.ctx = ctx && fieldAt q.entry 32 4 = h) then s.answer fn e 0x12 0
    else ({ s with kernels := s.kernels.filter fun k => !(k.ctx = ctx && k.handle = h) } : State).answer fn e 0 h

/-- The task of a Faulted instance whose fault has been delivered. -/
def State.faultedTask (s : State) (i : Inst) : Option (Task × HeldFault) :=
  (s.tasksOf i.ctx i.id).findSome? fun t => match t.fault with
    | some f => if f.delivered then some (t, f) else none
    | none => none

/-- RING_RESUME (R95, R97, R306, R364). -/
def execRingResume (part : Nat) (s : State) : Host.Outcome State Fault Refusal :=
  readEntry (· = 5) part s fun ctx fn _ e s =>
    match s.instOfPart part (fieldAt e 32 4) with
    | none => s.answer fn e (if s.idAssigned part (fieldAt e 32 4) then 0x15 else 0x14) 0
    | some i =>
      match s.faultedTask i with
      | some (t, f) =>
        if i.st != .faulted || i.ctx != ctx || !restartable f.code then s.answer fn e 0x15 0
        else if f.code = .digestMismatch then
          if t.frontier || t.direct then s.answer fn e 0x15 0
          else
            -- the task is undone and every later task aborts; the instance runs serially
            let s := s.returnFrom { i with serial := true } t f
            (s.abortTasks ((s.tasksOf i.ctx i.id).filter fun u => !keyLt u.key t.key)).answer fn e 0 i.id
        else (s.returnFrom i t f).answer fn e 0 i.id
      | none => s.answer fn e 0x15 0

end Sys2Proof.Machine
end

