-- ==== Sys2Proof/Machine/Cipher.lean ====
section
/-! DEFINITION. The ciphers of the capsule: AES-256-GCM, HKDF-SHA-256 (R373), RSA with OAEP and PSS (R369, R370). -/

namespace Sys2Proof.Machine

open Sys2Proof

/-! ## AES-256 -/

/-- Multiply by x in the field of AES. -/
def aesDouble (a : Byte) : Byte := if a.getLsbD 7 then (a <<< 1) ^^^ 0x1b else a <<< 1

/-- The product in the field of AES, over the bits of the second factor from `n` - 1 down. -/
def aesMul (a b : Byte) : Nat → Byte
  | 0 => 0
  | n + 1 => (if b.getLsbD (8 - (n + 1)) then a else 0) ^^^ aesMul (aesDouble a) b n

def fieldMul (a b : Byte) : Byte := aesMul a b 8

/-- The inverse in the field of AES, a^254. -/
def fieldInv (a : Byte) : Byte :=
  let a2 := fieldMul a a
  let a4 := fieldMul a2 a2
  let a8 := fieldMul a4 a4
  let a16 := fieldMul a8 a8
  let a32 := fieldMul a16 a16
  let a64 := fieldMul a32 a32
  let a128 := fieldMul a64 a64
  fieldMul a128 (fieldMul a64 (fieldMul a32 (fieldMul a16 (fieldMul a8 (fieldMul a4 a2)))))

/-- The substitution of AES. -/
def subByte (a : Byte) : Byte :=
  let b := fieldInv a
  b ^^^ b.rotateLeft 1 ^^^ b.rotateLeft 2 ^^^ b.rotateLeft 3 ^^^ b.rotateLeft 4 ^^^ 0x63

def xorBytes (a b : List Byte) : List Byte := List.zipWith (· ^^^ ·) a b

/-- The schedule of a 32-byte key: words of four bytes, newest first. -/
def aesSchedule : Nat → Byte → List (List Byte) → List (List Byte)
  | 0, _, w => w
  | n + 1, rc, w =>
    let t := w.headD []
    let i := w.length
    let t' :=
      if i % 8 = 0 then
        let r := (t.drop 1 ++ t.take 1).map subByte
        (r.headD 0 ^^^ rc) :: r.drop 1
      else if i % 8 = 4 then t.map subByte else t
    aesSchedule n (if i % 8 = 0 then aesDouble rc else rc) (xorBytes (w.getD 7 []) t' :: w)

/-- Pieces of `k` bytes. -/
def pieces (k : Nat) : Nat → List Byte → List (List Byte)
  | 0, _ => []
  | n + 1, bs => bs.take k :: pieces k n (bs.drop k)

/-- The fifteen round keys. -/
def aesKeys (key : List Byte) : List (List Byte) :=
  pieces 16 15 ((aesSchedule 52 1 (pieces 4 8 key).reverse).reverse.flatten)

def shiftRows (x : List Byte) : List Byte := (List.range 16).map fun i => x.getD ((i + 4 * (i % 4)) % 16) 0

/-- One column of the mixing step. -/
def mixColumn (c : List Byte) : List Byte :=
  (List.range 4).map fun i =>
    let g (k : Nat) : Byte := c.getD ((i + k) % 4) 0
    aesDouble (g 0) ^^^ (aesDouble (g 1) ^^^ g 1) ^^^ g 2 ^^^ g 3

/-- The encryption of one block under round keys. -/
def aesBlock (keys : List (List Byte)) (x : List Byte) : List Byte :=
  let start := xorBytes x (keys.headD [])
  let mid := (keys.drop 1).take 13
  let y := mid.foldl (fun x k => xorBytes ((pieces 4 4 (shiftRows (x.map subByte))).flatMap mixColumn) k) start
  xorBytes (shiftRows (y.map subByte)) (keys.getD 14 [])

/-! ## GCM -/

/-- The product in the field of GCM, over the bits of the first factor from the top: `i` bits are left. -/
def ghashMul (x : BitVec 128) : Nat → BitVec 128 → BitVec 128 → BitVec 128
  | 0, _, z => z
  | i + 1, v, z =>
    ghashMul x i (if v.getLsbD 0 then (v >>> 1) ^^^ (0xE1 <<< 120) else v >>> 1) (if x.getLsbD i then z ^^^ v else z)

/-- The blocks of a text, the last one filled with zeros. -/
def blocks (bs : List Byte) : List (List Byte) :=
  (pieces 16 ((bs.length + 15) / 16) bs).map fun b => b ++ List.replicate (16 - b.length) 0

def ghash (h : BitVec 128) (bs : List (List Byte)) : BitVec 128 :=
  bs.foldl (fun y b => ghashMul (y ^^^ BitVec.ofNat 128 (beNat b)) 128 h 0) 0

/-- The key stream of a 12-byte IV from counter 2 on. -/
def gcmStream (keys : List (List Byte)) (iv : List Byte) (n : Nat) : List Byte :=
  (List.range n).flatMap fun i => aesBlock keys (iv ++ beBytes (i + 2) 4)

/-- The tag of a ciphertext. -/
def gcmTag (keys : List (List Byte)) (iv ad c : List Byte) : List Byte :=
  let h := BitVec.ofNat 128 (beNat (aesBlock keys (List.replicate 16 0)))
  let lens := beBytes (8 * ad.length) 8 ++ beBytes (8 * c.length) 8
  xorBytes (beBytes (ghash h (blocks ad ++ blocks c ++ [lens])).toNat 16) (aesBlock keys (iv ++ beBytes 1 4))

/-- Encrypt, or decrypt: the text under the key stream. -/
def gcmText (keys : List (List Byte)) (iv text : List Byte) : List Byte :=
  xorBytes text (gcmStream keys iv ((text.length + 15) / 16))

/-! ## HKDF (R373) -/

/-- HKDF-SHA-256 with an output of 32 bytes. -/
def hkdf256 (input salt info : List Byte) : List Byte := hmac256 (hmac256 salt input) (info ++ [1])

/-! ## RSA -/

/-- b^e mod m, over `n` bits of the exponent. -/
def powMod (m : Nat) : Nat → Nat → Nat → Nat
  | 0, _, _ => 1 % m
  | n + 1, b, e => (if e % 2 = 1 then b * powMod m n (b * b % m) (e / 2) else powMod m n (b * b % m) (e / 2)) % m

def rsaPublic (m x : Nat) : Nat := powMod m 17 x 65537
def rsaPrivate (m d x : Nat) : Nat := powMod m 3072 x d

/-- MGF1 with SHA-256. -/
def mgf1 (seed : List Byte) (n : Nat) : List Byte :=
  (((List.range ((n + 31) / 32)).flatMap fun i => sha256 (seed ++ beBytes i 4))).take n

/-- Clear the top bit of a block of bytes. -/
def clearTop (bs : List Byte) : List Byte := match bs with | b :: r => (b &&& 0x7F) :: r | [] => []

/-- The encoding of a message by PSS for a 3,072-bit modulus, with SHA-256 and a salt of 32 bytes. -/
def pssEncode (m salt : List Byte) : List Byte :=
  let h := sha256 (List.replicate 8 0 ++ sha256 m ++ salt)
  let db := List.replicate 318 0 ++ (1 : Byte) :: salt
  clearTop (xorBytes db (mgf1 h 351)) ++ h ++ [0xBC]

/-- A signature of a message. -/
def pssSign (modulus exponent : Nat) (m salt : List Byte) : List Byte :=
  beBytes (rsaPrivate modulus exponent (beNat (pssEncode m salt))) 384

/-- A signature of 384 bytes verifies. -/
def pssVerify (modulus : Nat) (m sig : List Byte) : Bool :=
  let em := beBytes (rsaPublic modulus (beNat sig)) 384
  let h := (em.drop 351).take 32
  let db := clearTop (xorBytes (em.take 351) (mgf1 h 351))
  beNat sig < modulus && em.getD 383 0 == 0xBC && (em.headD 0).toNat < 128 &&
    db.take 319 == List.replicate 318 0 ++ [1] && h == sha256 (List.replicate 8 0 ++ sha256 m ++ db.drop 319)

/-- The message after the zeros and the 1 of an OAEP block. -/
def oaepMessage : List Byte → Option (List Byte)
  | [] => none
  | b :: r => if b = 0 then oaepMessage r else if b = 1 then some r else none

/-- Decrypt 384 bytes by OAEP with SHA-256 and an empty label. -/
def oaepDecrypt (modulus exponent : Nat) (c : List Byte) : Option (List Byte) :=
  let em := beBytes (rsaPrivate modulus exponent (beNat c)) 384
  let seed := xorBytes ((em.drop 1).take 32) (mgf1 (em.drop 33) 32)
  let db := xorBytes (em.drop 33) (mgf1 seed 351)
  if modulus ≤ beNat c || em.headD 1 != 0 || db.take 32 != sha256 [] then none else oaepMessage (db.drop 32)

end Sys2Proof.Machine
end

