-- ==== Sys2Proof/Machine/Commit.lean ====
section
/-! DEFINITION. Committing a task (R286), with determinism checking (R304 to R306), the watchdog (R150) and the checker
(R362). -/

namespace Sys2Proof.Machine

open Sys2Proof

/-! ## Digests (R304 to R306) -/

/-- The lines that a task has written, merged, in ascending address. -/
def State.writtenLines (s : State) (t : Task) : List (Nat × BitVec 64 × BitVec 512) :=
  sortBy (fun a b => a.1 ≤ b.1)
    ((s.linesOf t).foldl (fun w p => addWrote w (p.2.line, p.2.mask, p.2.data)) t.wrote)

/-- What a line contributes: its local physical address (log entry 112), its mask, its bytes with the unwritten ones as 0. -/
def lineDigest (l : Nat × BitVec 64 × BitVec 512) : List Byte :=
  leBytes (64 * l.1) 8 ++ leBytes l.2.1.toNat 8 ++
    (List.range 64).map fun i => if l.2.1.getLsbD i then byteOf l.2.2 i else 0

/-- The record of a task in the digest stream. -/
def State.digestRecord (s : State) (t : Task) : List Byte :=
  leBytes t.inst 4 ++ leBytes 0 4 ++ leBytes t.ts 8 ++ leBytes (crc64 ((s.writtenLines t).flatMap lineDigest)).toNat 8 ++ leBytes 0 8

/-- Where the next record of a function's stream stands; nothing when the stream has ended. -/
def State.digestAt (s : State) (fn : Nat) : Option Nat :=
  let pos := (s.reg fn 0x1C14).toNat
  if pos < (s.reg fn 0x1C10).toNat then some ((s.reg fn 0x1C08).toNat / 32 * 32 + 32 * pos) else none

/-- Advance POS; END is set when it reaches LEN. -/
def State.digestStep (s : State) (fn : Nat) : State :=
  let pos := (s.reg fn 0x1C14).toNat + 1
  let s := s.setReg fn 0x1C14 (BitVec.ofNat 64 pos)
  if pos = (s.reg fn 0x1C10).toNat then s.setReg fn 0x1C18 (s.reg fn 0x1C18 ||| 2) else s

/-- What determinism checking says of a task at its commit point. -/
inductive Verdict | go | again | stop
  deriving DecidableEq, Repr

def State.verdict (s : State) (i : Inst) (t : Task) : Verdict :=
  match s.digestAt i.fn with
  | none => .go
  | some a =>
    if i.dmode != 2 || readBytes s.mem (hostBase + a) 32 == s.digestRecord t then .go
    else if i.mis || t.frontier || t.direct then .stop else .again

/-- The stream after a task that commits. A serial re-execution ends with it, whether the stream goes on or not (R306). -/
def State.digestCommit (s : State) (i : Inst) (t : Task) : State :=
  match s.digestAt i.fn with
  | none => s.putInst { i with serial := false, mis := false }
  | some a =>
    let rcd := s.digestRecord t
    if i.dmode = 1 then (s.hostWrite a rcd).digestStep i.fn
    else if i.dmode = 2 then (s.digestStep i.fn).putInst { i with serial := false, mis := false }
    else s

/-! ## COMMIT (R286) -/

/-- The task has ended in every cell of its group, its copies have moved their bytes, and its reductions have performed, which
happen before every access of a later task (R315, log entry 85). -/
def State.taskEnded (s : State) (t : Task) : Bool :=
  (s.reds.all fun q => !(q.ctx = t.ctx && q.task = t.id)) &&
  match s.groupOf t with
  | some g =>
    g.cells.all fun n => n ∈ t.ended &&
      match s.getCell g.ctx n with
      | some c => c.copies.all fun x => x.task != t.id
      | none => true
  | none => false

/-- The group of a committed task is released when nothing of it remains (R298, R303, R332). -/
def State.endGroup (s : State) (t : Task) : State :=
  match s.groupOf t with
  | some g =>
    if t.launched then (s.freeCarafe t).releaseGroup g.id
    else if g.st == .ending && !(s.tasks.any fun p => p.2.group = some g.id) then s.releaseGroup g.id
    else s
  | none => s

/-- What a commit leaves once its lines are published: carries, versions, records, the group, the instance, and the faults
that are due, where they are delivered (`on`). -/
def State.afterPublish (s : State) (t : Task) (on : Bool) : State :=
  let s := (s.joinCarries t).freeRecords t true
  let s : State := { s with tasks := mdel s.tasks t.id }
  let s := s.endGroup t
  let s := if (s.tasksOf t.ctx t.inst).isEmpty then
      (match s.getInst t.ctx t.inst with | some i => s.retire i 0 | none => s)
    else s
  s.sweepEpisodes.settle t.ctx on

/-- The digest stream of an instance needs the host link for a task that commits (R304, R388, log entry 107). -/
def State.digestHeld (s : State) (i : Inst) : Bool := (i.dmode = 1 || i.dmode = 2) && (s.digestAt i.fn).isSome && !s.hostUp

/-- COMMIT (R286, R287, R306). -/
def execCommit (id : Nat) (s : State) : Host.Outcome State Fault Refusal :=
  match s.getTask id with
  | none => .next s
  | some t =>
    match s.getInst t.ctx t.inst with
    | none => .next s
    | some i =>
      if !(s.mayCommit t.ctx && s.atPour t && t.fault.isNone && s.taskEnded t && i.st == .running) || s.digestHeld i then .next s
      else
        match s.publish t with
        | .error (.lines cell cause va owner) => .next (s.raiseLines t cell cause va owner)
        | .error .checks => .next (s.checkLines t (s.linesOf t))
        | .error _ => .next s
        | .ok s' =>
          match s.verdict i t with
          | .go => .next ((s'.digestCommit i { t with wrote := s.writtenLines t }).afterPublish t (s.mayDeliver t.ctx))
          | .again =>
            let s := s.putInst { i with serial := true, mis := true }
            .next (s.abortTasks ((s.tasksOf t.ctx t.inst).filter fun u => !keyLt u.key t.key))
          | .stop =>
            let s := s.setReg i.fn 0x1C18 (s.reg i.fn 0x1C18 ||| 1)
            .next (s.holdAndSettle t.id { code := .digestMismatch })

/-! ## CANCEL (R95, R97) -/

/-- The commits of an instance that this cycle still has to come perform before its cancel (R97). -/
def State.commitsFirst (s : State) (i : Inst) : State :=
  (s.agenda.takeWhile fun t => t.cycles = 0).foldl (fun (s : State) t =>
    match t.act with
    | .event (.commit id) =>
      if (s.getTask id).any fun k => k.ctx = i.ctx && k.inst = i.id then
        match execCommit id s with
        | .next s' => s'
        | _ => s
      else s
    | _ => s) s

/-- CANCEL (R95, R97). -/
def execCancel (part : Nat) (s : State) : Host.Outcome State Fault Refusal :=
  readEntry (· = 3) part s fun _ fn _ e s =>
    let id := fieldAt e 32 4
    let s := match s.instOfPart part id with
      | some i => s.commitsFirst i
      | none => s
    match s.instOfPart part id with
    | none => s.answer fn e (if s.idAssigned part id then 0x17 else 0x14) 0
    | some i => if i.st == .retired then s.answer fn e 0x17 0 else (s.discard i 0x13).answer fn e 0 i.id

/-! ## The watchdog (R150) -/

/-- INSTANT_OVERRUN: the count has passed MAXINSTANT. -/
def execInstantOverrun (ctx cell : Nat) (s : State) : Host.Outcome State Fault Refusal :=
  match ({ s with cur := ⟨ctx, cell⟩ } : State).here with
  | none => .next s
  | some (c, t) =>
    if s.overran c t && t.fault.isNone then
      let pc := ((c.atWord (s.textOf t) .c).map Prod.fst).getD c.core.pc.c
      .next (s.holdAndSettle t.id { code := .instantOverrun, engine := 0, pc := pc, cell := cell })
    else .next s

/-! ## The checker (R362) -/

/-- CHECKER_MISMATCH: the cell stops at once, the others at their safe points, slot 0 becomes Halted. A SWITCH or HALT in progress
ends as one that is refused (log entry 86). -/
def execCheckerMismatch (ctx cell : Nat) (e : Engine) (s : State) : Host.Outcome State Fault Refusal :=
  match ({ s with cur := ⟨ctx, cell⟩ } : State).here, s.partOfCtx ctx with
  | some (c, t), some (n, p) =>
    if p.slots[0].ctx != ctx || !(p.slots[0].st == .running || p.slots[0].st == .halting) || !s.mayIssue ctx cell c t e then .next s
    else
      let pc := ((c.atWord (s.textOf t) e).map Prod.fst).getD (c.core.pc.get e)
      let s := s.updCell ctx cell fun c => { c with halted := true }
      let s := ({ s with
        parts := mset s.parts n { p with wedged := true, slots := p.slots.set 0 { p.slots[0] with st := .halted } } } : State).endCommand n
      let s := s.report n (faultRecord { code := .checkerMismatch, engine := engineCode e, pc := pc, cell := cell } 0 t.inst t.ts true)
      .next (s.errorAt (clusterOf cell) true 0 cell 6 (placeOf cell) ctx)
  | _, _ => .next s

end Sys2Proof.Machine
end

