-- ==== Sys2Proof/Machine/Stream.lean ====
section
/-! DEFINITION. Stream units: the words that start them and the moves of their elements (R168 to R171). -/

namespace Sys2Proof.Machine

open Sys2Proof

/-! ## Starting a stream -/

/-- Start a stream unit: the word waits for its marker (R169, R171). -/
def startStream (s : State) (c : Cell) (k : Task) (t : Tok) (len : Nat) (kind : StreamKind) (q : QNum) (cls : Fin 16)
    (clk : Clk) : State :=
  (s.updHere fun c => { c with streams := c.streams ++ [{ id := c.nextFly, pc := c.core.pc.a, kind := kind, q := q, cls := cls, clk := clk }] }).retireFly
    c k t len .stream [] [] {}

/-- A free stream unit (R171). -/
def Cell.needUnit (c : Cell) : Except Stop Unit := if c.streams.length < 4 then .ok () else .error (.wait .plain)

/-- The pattern that a record describes (R168), or ILLEGAL_WORD. -/
def patternOf (bs : List Byte) : Except Stop StreamKind :=
  let f (off n : Nat) : Nat := leNat ((bs.drop off).take n)
  if 4 < f 24 1 || 1 < f 25 1 || f 26 6 != 0 then .error (Stop.of .illegalWord)
  else .ok (.pat (f 0 8) (f 8 4) (f 12 4) (signedOf 32 (f 16 4)) (signedOf 32 (f 20 4)) (f 24 1) (f 25 1 == 1))

/-- The loss-of-decoupling stall (R172): a queue that C or V of the cell feeds has an entry to pop (log entry 80). -/
def State.needFed (s : State) (k : Task) (c : Cell) (cell : Nat) (q : QNum) : Except Stop Unit :=
  if q = 1 || q = 3 then (s.popEntry k c cell q.val).map fun _ => () else .ok ()

/-- The record that `pat` reads in the input half (R168, R169), with its checks. -/
def Cell.patRecord (c : Cell) (k : Task) (off : Nat) : Except Stop StreamKind := do
  if !inHalf c.core.phase false off 32 then .error (Stop.of .protection)
  if off % 32 != 0 then .error (Stop.of .align)
  if c.lentOut false off 32 then .error (Stop.of .operandBusy)
  let bs ← c.spadRead k off 32
  patternOf bs

/-- A pattern that stores. -/
def StreamKind.stores : StreamKind → Bool
  | .pat _ _ _ _ _ _ st => st
  | .gth _ _ _ | .sct _ _ _ => false

/-- The number of bytes of a pattern element (R168). -/
def patBytes (esize : Nat) : Nat := if esize = 4 then 256 else 2 ^ esize

/-- A pattern that stores to host memory waits at issue for the pour line and for its task's publication (R282, R316). -/
def State.patHost (s : State) (k : Task) (cell : Nat) : StreamKind → Bool
  | .pat base icount ocount istride ostride esize true =>
    Nat.any ocount fun o _ => Nat.any icount fun i _ =>
      s.touchesHost k cell (.virt (BitVec.ofInt 64 (base + o * ostride + i * istride)).toNat) (patBytes esize)
  | _ => false

/-- pat (R169). -/
def execPat (t : Tok) (q : QNum) (a : Src) (cls : Fin 16) (s : State) : Host.Outcome State Fault Refusal :=
  runWord .a t s fun c k => do
    let cell := s.cur.cell
    let g ← gather .a s c k [a] none (legalForm (s.pushAssigned k cell .a q.val || s.popAssigned k cell .a q.val)) false none fun l => do
      c.needUnit
      match c.patRecord k (v0 l).toNat with
      | .ok kind =>
        if kind.stores && s.popAssigned k cell .a q.val then
          s.needFed k c cell q
          s.hostWait k (s.patHost k cell kind)
      | .error _ => .ok ()
    if !g.on then pure (skipA s c k t 1)
    else
      let kind ← c.patRecord k (v0 g.vals).toNat
      needQueue (if kind.stores then s.popAssigned k cell .a q.val else s.pushAssigned k cell .a q.val)
      let s ← if s.patHost k cell kind then s.publishFirst k else .ok s
      pure (startStream s c k t 1 kind q cls g.clk)

/-- gth (R170). -/
def execGth (t : Tok) (z : Size) (q : QNum) (a : Src) (cls : Fin 16) (qi : QNum) (s : State) :
    Host.Outcome State Fault Refusal :=
  runWord .a t s fun c k => do
    let ok := s.pushAssigned k s.cur.cell .a q.val && s.popAssigned k s.cur.cell .a qi.val
    let g ← gather .a s c k [a] none (legalForm ok) false none fun _ => do
      c.needUnit
      if ok then s.needFed k c s.cur.cell qi
    if !g.on then pure (skipA s c k t 2)
    else
      pure (startStream s c k t 2 (.gth (v0 g.vals).toNat (sizeBytes z) qi) q cls g.clk)

/-- sct (R170). -/
def execSct (t : Tok) (z : Size) (q : QNum) (a : Src) (cls : Fin 16) (qi : QNum) (s : State) :
    Host.Outcome State Fault Refusal :=
  runWord .a t s fun c k => do
    let ok := s.popAssigned k s.cur.cell .a q.val && s.popAssigned k s.cur.cell .a qi.val
    let g ← gather .a s c k [a] none (legalForm ok) false none fun _ => do
      c.needUnit
      if ok then s.needFed k c s.cur.cell qi
    if !g.on then pure (skipA s c k t 2)
    else
      pure (startStream s c k t 2 (.sct (v0 g.vals).toNat (sizeBytes z) qi) q cls g.clk)

/-! ## Moving elements -/

/-- Put a running unit back. -/
def State.putUnit (s : State) (k : Task) (cell : Nat) (u : StreamUnit) : State :=
  s.updCell k.ctx cell fun c => { c with streams := c.streams.map fun x => if x.id = u.id then u else x }

/-- The end of a stream: its word has finished (R169). -/
def State.endUnit (s : State) (k : Task) (cell : Nat) (u : StreamUnit) : State :=
  let s := s.updCell k.ctx cell fun c =>
    { c with
      streams := c.streams.filter fun x => x.id != u.id
      fly := c.fly.map fun f => if f.id = u.id then { f with op := .done } else f }
  s.drainFly k cell (((s.getCell k.ctx cell).map fun c => c.fly.length).getD 0 + 1)

/-- The bytes that a stream no longer stores, because later words of its thread have stored them (R311). -/
def StreamUnit.overAt (u : Option StreamUnit) (line : Nat) : BitVec 64 := ((u.bind fun u => mget u.stored line).getD 0)

/-- Bytes that a stream has moved out reach the words behind it that are still on the way: the loads, and the store lines
that they were issued with (R311). Bytes that go into the write buffer behind a word that stands there unfinished are held with it
(R284, R313). -/
def Cell.showMove (c : Cell) (id : Nat) (stream buffered : Bool) (r : MemRef) (n : StoreLine) : Cell :=
  let own (r : MemRef) (l : List (Option Byte)) : List (Option Byte) :=
    if stream then (l.zip (ownBytes [n] r.pa r.size)).map fun p => p.2.or p.1 else l
  let behind (f : Fly) : Bool := f.id < id && match f.op with | .stored false _ => true | _ => false
  let last := (c.fly.filter behind).getLast?.map Fly.id
  { c with fly := c.fly.map fun f =>
      if f.id ≤ id then
        match f.op with
        | .stored false l => if buffered && last = some f.id then { f with op := .stored false (l ++ [⟨id, r, n.mask, n.data⟩]) } else f
        | _ => f
      else
        { f with
          lines := if buffered || f.op == .stream || f.op == .wst then putLine f.lines n else f.lines
          op := match f.op with
            | .load r l k => .load r (own r l) k
            | .qload r l q => .qload r (own r l) q
            | op => op } }

/-- A direct write of a stream or a copy, of the word of number `id`, performs at once, or is asked of a peer and performs with its answer
(R284, R309, R384). -/
def State.moveDirect (s : State) (k : Task) (cell id : Nat) (va : Word64) (r : MemRef) (l : BitVec 64 × BitVec 512) :
    Except Stop State :=
  let pa := r.pa / 64 * 64
  if !s.linked r.pa then .error (.wait .plain)
  else if !s.asked k.ctx cell (.word id) pa 0 then .error (.ask (.word id) va.toNat pa 0 r.zero (.line l.1 l.2))
  else if s.gone k.ctx cell (.word id) pa 0 then .error (.raise .uncorrectable 0 va 0)
  else
    match (s.taken k.ctx cell (.word id) pa 0).performDirect k cell id r l with
    | (_, some (cause, owner)) => .error (.raise .uncorrectable cause va owner)
    | (s, none) => .ok s

/-- Write bytes of one line for a stream or a copy of number `id`: a store line, or a direct write that performs at once
(R281, R284, R309, R311). `extra` is the bytes of the pop record that goes with it. -/
def State.moveOut (s : State) (k : Task) (cell id : Nat) (u : Option StreamUnit) (cls : Fin 16) (extra : Nat)
    (va : Word64) (bs : List Byte) : Except Stop State := do
  let (p, r) ← s.translate k.ctx cell va .write
  let s := s.cachePage k.ctx cell p
  let r := { r with size := bs.length, cls := cls }
  let l := storeLine r bs
  let n := { l with mask := l.mask &&& ~~~ StreamUnit.overAt u l.line }
  match s.getCell k.ctx cell with
  | none => .ok s
  | some c =>
    if n.mask = 0 then .ok s
    else do
      let (s, op) ← s.storeBytes k cell c id r n extra true
      match op with
      | .direct r mask data =>
        (s.moveDirect k cell id va r (mask, data)).map fun s => s.updCell k.ctx cell fun c => c.showMove id u.isSome false r n
      | _ => .ok (s.updCell k.ctx cell fun c => c.showMove id u.isSome true r n)

/-- Write bytes at an address, line by line. -/
def State.moveOutAll (s : State) (k : Task) (cell id : Nat) (u : Option StreamUnit) (cls : Fin 16) (extra : Nat) :
    List (Word64 × List Byte) → Except Stop State
  | [] => .ok s
  | p :: rest => do
    let s ← s.moveOut k cell id u cls extra p.1 p.2
    s.moveOutAll k cell id u cls extra rest

/-- Cut bytes at an address into pieces that lie in one line each; `n` bounds the pieces. -/
def linePieces (va : Word64) (bs : List Byte) : Nat → List (Word64 × List Byte)
  | 0 => []
  | n + 1 =>
    if bs.isEmpty then []
    else
      let m := 64 - va.toNat % 64
      (va, bs.take m) :: linePieces (va + BitVec.ofNat 64 m) (bs.drop m) n

/-- Whether an address is aligned to an element. -/
def needAlign (ea : Word64) (n : Nat) : Except Stop Unit :=
  if ea.toNat % n = 0 then .ok () else .error (.raise .align 0 ea 0)

/-- Push a stream's entry at once. -/
def State.streamPush (s : State) (k : Task) (cell : Nat) (u : StreamUnit) (e : QEntry) : Except Stop State :=
  (s.pushRoom k cell u.q.val (entryBytes e)).map fun _ => s.deposit k cell u.q.val .a e

/-- The entry that a stream pops, checked (R157), and the bytes of its record. -/
def State.streamPop (s : State) (k : Task) (cell : Nat) (c : Cell) (u : StreamUnit) (q : QNum) (vec : Bool) :
    Except Stop (QEntry × Nat) := do
  let e ← s.popWait k c cell q.val
  needSound (clkBad c.core u.clk)
  let x ← popCheck c.core.qpopFmt[q] u.clk vec e
  pure (x, s.popBytes k e)

/-- Bytes as a stream reads them (R283, R311): over the store lines of its start, with what earlier streams moved since. -/
def State.streamRead (s : State) (k : Task) (cell : Nat) (c : Cell) (u : StreamUnit) (ea : Word64) (n : Nat) :
    Except Stop (State × List Byte) :=
  s.readVirtOver k cell (.word u.id) (((c.fly.find? fun f => f.id = u.id).map Fly.lines).getD []) ea n

/-- The next element or the marker of a pattern (R169). What it pushes is not compared with QPUSHFMT (log entry 103). -/
def patStep (s : State) (k : Task) (cell : Nat) (c : Cell) (u : StreamUnit) (base icount ocount : Nat)
    (istride ostride : Int) (esize : Nat) (store : Bool) : Except Stop State :=
  let vec := esize = 4
  if icount = 0 || ocount ≤ u.o then
    if store then do
      let (e, _) ← s.streamPop k cell c u u.q vec
      if !e.endm then .error (Stop.of .formatMismatch)
      pure ((s.popTake k cell u.q.val).endUnit k cell u)
    else do
      let s ← s.streamPush k cell u (endEntry u.n vec u.clk k.instant)
      pure (s.endUnit k cell u)
  else
    let ea : Word64 := BitVec.ofInt 64 (base + u.o * ostride + u.i * istride)
    let n := patBytes esize
    let u' := if u.i + 1 < icount then { u with i := u.i + 1, n := u.n + 1 } else { u with o := u.o + 1, i := 0, n := u.n + 1 }
    do
    needAlign ea (Nat.min n 64)
    if store then
      let (e, pop) ← s.streamPop k cell c u u.q vec
      if e.endm then .error (Stop.of .formatMismatch)
      let s ← s.moveOutAll k cell u.id (some u) u.cls pop (linePieces ea (bytesFrom e.val 0 n) 5)
      pure ((s.popTake k cell u.q.val).putUnit k cell u')
    else
      let (s, bs) ← s.streamRead k cell c u ea n
      let f := c.pushFmt u.q
      let e := if vec then vectorEntry (BitVec.ofNat 2048 (leNat bs)) u.clk (if f == .int64 then .raw else f) k.instant
        else scalarEntry (BitVec.ofNat 64 (leNat bs)) u.clk f k.instant
      let s ← s.streamPush k cell u e
      pure (s.putUnit k cell u')

/-- The next index of a gather or scatter (R170). -/
def takeIndex (s : State) (k : Task) (cell : Nat) (c : Cell) (u : StreamUnit) (qi : QNum) : Except Stop State := do
  let (e, _) ← s.streamPop k cell c u qi false
  let u' := if e.endm then { u with ended := true } else { u with idx := some (e.val.setWidth 64) }
  pure ((s.popTake k cell qi.val).putUnit k cell u')

/-- The next move of a gather (R170). -/
def gthStep (s : State) (k : Task) (cell : Nat) (c : Cell) (u : StreamUnit) (base size : Nat) (qi : QNum) : Except Stop State :=
  if u.ended then do
    let s ← s.streamPush k cell u (endEntry u.n false u.clk k.instant)
    pure (s.endUnit k cell u)
  else
    match u.idx with
    | none => takeIndex s k cell c u qi
    | some i => do
      let ea : Word64 := BitVec.ofNat 64 base + i * BitVec.ofNat 64 size
      needAlign ea size
      let (s, bs) ← s.streamRead k cell c u ea size
      let s ← s.streamPush k cell u (scalarEntry (BitVec.ofNat 64 (leNat bs)) u.clk (c.pushFmt u.q) k.instant)
      pure (s.putUnit k cell { u with idx := none, n := u.n + 1 })

/-- The next move of a scatter (R170). -/
def sctStep (s : State) (k : Task) (cell : Nat) (c : Cell) (u : StreamUnit) (base size : Nat) (qi : QNum) : Except Stop State :=
  if u.ended then do
    let (e, _) ← s.streamPop k cell c u u.q false
    if !e.endm then .error (Stop.of .formatMismatch)
    pure ((s.popTake k cell u.q.val).endUnit k cell u)
  else
    match u.idx with
    | none => takeIndex s k cell c u qi
    | some i => do
      let ea : Word64 := BitVec.ofNat 64 base + i * BitVec.ofNat 64 size
      let (e, pop) ← s.streamPop k cell c u u.q false
      if e.endm then .error (Stop.of .formatMismatch)
      needAlign ea size
      let s ← s.moveOutAll k cell u.id (some u) u.cls pop [(ea, bytesFrom e.val 0 size)]
      pure ((s.popTake k cell u.q.val).putUnit k cell { u with idx := none, n := u.n + 1 })

/-- The next move of a stream unit. -/
def streamStep (s : State) (k : Task) (cell : Nat) (c : Cell) (u : StreamUnit) : Except Stop State :=
  match u.kind with
  | .pat base ic oc is os es st => patStep s k cell c u base ic oc is os es st
  | .gth base size qi => gthStep s k cell c u base size qi
  | .sct base size qi => sctStep s k cell c u base size qi

end Sys2Proof.Machine
end

