-- ==== Sys2Proof/Machine/Home.lean ====
section
/-! DEFINITION. What happens to accesses after their words have issued: when they perform and what they return (R255, R309
to R324), streams, copies and weight-store writes (R169 to R171, R261, R266), the refetch of the scratchpad (R258), the
slot wheel (R320), and the errors that the tamper and the patrol find (R112, R265, R268, R273). -/

namespace Sys2Proof.Machine

open Sys2Proof

/-! ## The order of one thread (R311, R313, R317, R318) -/

/-- The place that a word of A accesses. -/
def FlyOp.ref : FlyOp → Option MemRef
  | .load r _ _ | .qload r _ _ | .direct r _ _ | .atomic r _ _ _ _ => some r
  | .stored true (h :: _) => some h.r
  | .done | .stored _ _ | .stream | .wst => none

/-- Two accesses overlap. -/
def refsMeet (a b : MemRef) : Bool := a.pa < b.pa + b.size && b.pa < a.pa + a.size

def FlyOp.acquires : FlyOp → Bool
  | .atomic _ _ _ _ x => x.acq || x.sc
  | _ => false

def FlyOp.releases : FlyOp → Bool
  | .atomic _ _ _ _ x => x.rel || x.sc
  | _ => false

/-- A scope that reaches other devices (R310). -/
def farScope (x : Scope) : Bool := x == .dom || x == .sys

/-- A release whose scope reaches other devices. -/
def farRelease (x : AmoExt) : Bool := (x.rel || x.sc) && farScope x.scope

def FlyOp.farReleases : FlyOp → Bool
  | .atomic _ _ _ _ x => farRelease x
  | _ => false

/-- A word that writes memory without reading it. -/
def FlyOp.writesOnly : FlyOp → Bool
  | .direct _ _ _ | .stored _ _ => true
  | _ => false

/-- Whether an access whose words may be cancelled has to wait for an earlier word that may still fault (R255). -/
def FlyOp.lasting : FlyOp → Bool
  | .direct _ _ _ | .stored true _ | .atomic _ _ _ _ _ => true
  | _ => false

/-- A word whose store was held back when its task turned direct: what lasts stays behind it (R318, log entry 123). -/
def FlyOp.heldBack : FlyOp → Bool
  | .stored true _ => true
  | _ => false

/-- A word that may still fault and cancel the words behind it. -/
def FlyOp.unsettled (o : FlyOp) : Bool := o.ref.isSome

def Option.same (a b : Option (Fin 16)) : Bool :=
  match a, b with
  | some x, some y => x == y
  | _, _ => false

def refMeets (a b : Option MemRef) : Bool :=
  match a, b with
  | some x, some y => refsMeet x y
  | _, _ => false

/-- `n` bytes at a virtual address of a thread meet a place of memory. -/
def State.spanMeets (s : State) (ctx cell : Nat) (va : Word64) (n : Nat) (r : MemRef) : Bool :=
  (linePieces va (List.replicate n 0) 5).any fun p =>
    match s.translate ctx cell p.1 .write with
    | .ok (_, q) => refsMeet { q with size := p.2.length } r
    | .error _ => false

/-- An element that a running stream has still to store may meet a place of memory (R311). Those of a scatter are not known
before its indices have come. What a running stream has still to read holds nothing back: it reads what stood there before (`keepOld`). -/
def State.unitMeets (s : State) (ctx cell : Nat) (u : StreamUnit) (r : MemRef) : Bool :=
  match u.kind with
  | .pat base icount ocount istride ostride esize true =>
    Nat.any ocount fun o _ => u.o ≤ o && Nat.any icount fun i _ =>
      (u.o < o || u.i ≤ i) && s.spanMeets ctx cell (BitVec.ofInt 64 (base + o * ostride + i * istride)) (patBytes esize) r
  | .pat _ _ _ _ _ _ false | .gth _ _ _ => false
  | .sct base size _ =>
    match u.idx with
    | some i => s.spanMeets ctx cell (BitVec.ofNat 64 base + i * BitVec.ofNat 64 size) size r || !u.ended
    | none => !u.ended

/-- An earlier word of A meets a place that a later one accesses. A later word that only writes does not wait for a stream:
the stream stores nothing over it, and loads what stood there before (log entry 15). -/
def State.wordMeets (s : State) (ctx cell : Nat) (c : Cell) (e : Fly) (f : FlyOp) : Bool :=
  match e.op, f.ref with
  | .stream, some r => !f.writesOnly && c.streams.any fun u => u.id = e.id && s.unitMeets ctx cell u r
  | o, r => refMeets o.ref r

/-- An earlier word that has not finished orders a later one behind it. -/
def State.orders (s : State) (ctx cell : Nat) (c : Cell) (e f : Fly) : Bool :=
  !e.op.over &&
    (Option.same (c.flyCls e) (c.flyCls f) || s.wordMeets ctx cell c e f.op || e.op.acquires || f.op.releases ||
      (f.op.lasting && (e.op.unsettled || e.op.heldBack)))

/-- A reduction of a thread that has not performed orders a later word of the thread behind it. -/
def Red.orders (q : Red) (ctx cell : Nat) (c : Cell) (f : Fly) : Bool :=
  q.ctx = ctx && q.cell = cell && some q.task == c.task && q.id < f.id &&
    (some q.r.cls == c.flyCls f || refMeets (some q.r) f.op.ref || f.op.releases)

/-- A context stands in slot 0 of its partition: its accesses go on (R354, R359). -/
def State.inFront (s : State) (ctx : Nat) : Bool := (s.partOfCtx ctx).any fun p => p.2.slotOf ctx = 0

/-- An access may perform now: its context is in front, its link carries it, nothing is ordered before it, and what a release at a scope
of several devices comes after has been accepted there (R309, R317). -/
def State.mayPerform (s : State) (ctx cell : Nat) (c : Cell) (f : Fly) : Bool :=
  s.inFront ctx && (f.op.ref.all fun r => s.linked r.pa) && !(f.op.farReleases && s.putsOpen ctx) &&
    ((c.fly.takeWhile fun e => e.id != f.id).all fun e => !s.orders ctx cell c e f) && s.reds.all fun q => !q.orders ctx cell c f

/-- A word of A that has issued in a cell, with the cell and its task. -/
def State.flyOf (s : State) (ctx cell id : Nat) : Option (Cell × Task × Fly) :=
  (s.goTo ctx cell).here.bind fun p => (p.1.fly.find? fun f => f.id = id).map fun f => (p.1, p.2, f)

/-! ## Data and the end of a word -/

/-- Fill a register that awaits the data of a word: it is written, and sound then (R111, log entry 117). -/
def fillVal (id : Nat) (v : Word64) (x : SVal) : SVal :=
  if x.pend = some id then { val := v, tag := x.tag } else x

/-- The data of a word of A arrives in its registers, and in what later words keep of them. -/
def Cell.fillRegs (c : Cell) (id : Nat) (v : Word64) : Cell :=
  { c with
    core := { c.core with cremaA := c.core.cremaA.map (fillVal id v), aregs := c.core.aregs.map (fillVal id v) }
    fly := c.fly.map fun f => { f with regs := ⟨f.regs.crema.map (fillVal id v), f.regs.named.map (fillVal id v)⟩ } }

/-- Mark a word as having nothing left to wait for, and finish what may finish (R103). -/
def State.flyDone (s : State) (t : Task) (cell id : Nat) (g : Fly → Fly) : State :=
  let s := s.updCell t.ctx cell fun c =>
    { c with fly := c.fly.map fun f => if f.id = id then { g f with op := .done } else f }
  s.drainFly t cell (((s.getCell t.ctx cell).map fun c => c.fly.length).getD 0 + 1)

/-- Finish a load with its bytes. -/
def State.finishLoad (s : State) (t : Task) (cell : Nat) (f : Fly) (bs : List Byte) : State :=
  match f.op with
  | .load _ _ k => (s.updCell t.ctx cell fun c => c.fillRegs f.id (ldValue k bs)).flyDone t cell f.id id
  | _ =>
    s.flyDone t cell f.id fun f =>
      { f with push := f.push.map fun p => (p.1, { p.2 with val := BitVec.ofNat 2048 (leNat bs) }) }

/-! ## Cancelling (R255) -/

/-- Put a popped entry back at the head of its queue and drop its record (R161, R165). -/
def State.pushBack (s : State) (t : Task) (cell : Nat) (p : Nat × QEntry) : State :=
  if p.1 < 13 then
    s.updCell t.ctx cell fun c =>
      let c := c.putQueue p.1 { c.queue p.1 with es := p.2 :: (c.queue p.1).es }
      c.putBuf { c.bufOf t.id with pops := (c.bufOf t.id).pops.erase p }
  else
    match s.carryOf t cell p.1 with
    | some (i, _, o) =>
      let k := s.getCarry t.ctx t.inst i o
      (s.putCarry { k with es := p.2 :: k.es }).updCell t.ctx cell fun c =>
        c.putBuf { c.bufOf t.id with carryPops := (c.bufOf t.id).carryPops.erase (i * 1024 + o, p.2) }
    | none => s

/-- The tokens that a cancelled word has popped return. -/
def tokReturn (q : Vector Nat 8) (t : Tok) : Vector Nat 8 := tokBump (tokBump q t.pp (tokPp .a)) t.pn (tokPn .a)

/-- Named registers from a list. -/
def namedOf (l : List SVal) : Vector SVal 16 := Vector.ofFn fun i => l.getD i.val {}

/-- Cancel a word of A and every later one that has issued, without effect. -/
def State.cancelFrom (s : State) (t : Task) (cell : Nat) (f : Fly) : State :=
  match s.getCell t.ctx cell with
  | none => s
  | some c =>
    let gone := c.fly.dropWhile fun e => e.id != f.id
    let s := s.dropAsks t.ctx cell (Asker.since f.id)
    let s := (gone.flatMap Fly.push).foldl (fun (s : State) p => s.reserve t cell p.1 fun n => n - 1) s
    let s := (gone.flatMap Fly.popped).reverse.foldl (fun (s : State) p => s.pushBack t cell p) s
    s.updCell t.ctx cell fun c =>
      let c := c.putBuf { c.bufOf t.id with lines := f.lines }
      let copies := c.copies.filter fun x => x.id < f.id
      { c with
        core := { c.core with
          pc := { c.core.pc with a := f.pc }, cremaA := f.regs.crema, aregs := namedOf f.regs.named
          toks := gone.foldl (fun q e => tokReturn q e.tok) c.core.toks }
        tokRsv := gone.foldl (fun q e => tokRelease q .a e.tok) c.tokRsv
        fly := c.fly.takeWhile fun e => e.id != f.id
        streams := c.streams.filter fun x => x.id < f.id
        copyCount := c.copyCount - (c.copies.filter fun x => f.id ≤ x.id && x.ord < 64).length
        full := c.full.filter (· < f.id), copies := copies, wsts := c.wsts.filter fun x => x.id < f.id, scWait := none }

/-- A word of A takes a fault that its access has met: precise, with every later word cancelled. -/
def State.flyFault (s : State) (t : Task) (cell : Nat) (f : Fly) (code : FaultCode) (cause owner : Nat) : State :=
  let va := ((f.op.ref).map MemRef.va).getD 0
  ((s.cancelFrom t cell f).goTo t.ctx cell).holdAndSettle t.id
    { code := code, cause := cause, engine := 1, va := BitVec.ofNat 64 va, pc := f.pc, cell := cell, owner := owner }

/-! ## Accesses of words (R255, R259, R309, R322) -/

/-- LOAD_DATA_RETURN: the own store lines, then memory; a weight-store macro in its steep window is waited for, and a peer is asked
and answers (R384, log entry 122). A read that ends in a fault is in the read set too (R285). -/
def execLoadDataReturn (ctx cell id : Nat) (s : State) : Host.Outcome State Fault Refusal :=
  match s.flyOf ctx cell id with
  | none => .next s
  | some (c, t, f) =>
    match f.op with
    | .load r own _ | .qload r own _ =>
      if !s.mayPerform ctx cell c f then .next s
      else if own.all Option.isSome then .next (s.finishLoad t cell f (overlayBytes own (List.replicate r.size 0)))
      else if s.steep r.pa then .next s
      else if !s.asked ctx cell (.word id) r.pa r.size then .next (s.askPeer ctx cell (.word id) r.va r.pa r.zero (.read r.size))
      else
        match ((s.taken ctx cell (.word id) r.pa r.size).keepRead ctx cell id r).readLine ctx cell r with
        | (s, .ok bs) => .next ((s.recordRead t.id r.pa).finishLoad t cell f (overlayBytes own bs))
        | (s, .error (cause, owner)) => .next ((s.recordRead t.id r.pa).flyFault t cell f .uncorrectable cause owner)
    | _ => .next s

/-- Perform a direct write of a word of A at its home; one at a peer is asked for, and ends with its answer (R309, R384, R390). -/
def State.flyWrite (s : State) (t : Task) (cell : Nat) (f : Fly) (id : Nat) (r : MemRef) (l : BitVec 64 × BitVec 512)
    (next : FlyOp) : State :=
  let pa := r.pa / 64 * 64
  if !s.asked t.ctx cell (.word f.id) pa 0 then s.askPeer t.ctx cell (.word f.id) r.va pa r.zero (.line l.1 l.2)
  else if s.gone t.ctx cell (.word f.id) pa 0 then s.flyFault t cell f .uncorrectable 0 0
  else
    match (s.taken t.ctx cell (.word f.id) pa 0).performDirect t cell id r l with
    | (s, some (cause, owner)) => s.flyFault t cell f .uncorrectable cause owner
    | (s, none) =>
      if next.over then s.flyDone t cell f.id fun f => f
      else s.updCell t.ctx cell fun c => { c with fly := c.fly.map fun e => if e.id = f.id then { e with op := next } else e }

/-- DIRECT_WRITE_PERFORMED: of a direct write, or of the first of those that a word has held back (R284). -/
def execDirectWritePerformed (ctx cell id : Nat) (s : State) : Host.Outcome State Fault Refusal :=
  match s.flyOf ctx cell id with
  | none => .next s
  | some (c, t, f) =>
    match f.op with
    | .direct r mask data => .next (if s.mayPerform ctx cell c f then s.flyWrite t cell f id r (mask, data) .done else s)
    | .stored true (h :: rest) =>
      .next (if s.mayPerform ctx cell c f then
        s.flyWrite t cell f h.id h.r (h.mask, h.data) (if rest.isEmpty then .done else .stored true rest)
      else s)
    | _ => .next s

/-- ATOMIC_PERFORM: one at a peer's home is asked for, and ends with its answer (R384, R390, log entry 122). -/
def execAtomicPerform (ctx cell id : Nat) (s : State) : Host.Outcome State Fault Refusal :=
  match s.flyOf ctx cell id with
  | none => .next s
  | some (c, t, f) =>
    match f.op with
    | .atomic r op b cmp x =>
      if !s.mayPerform ctx cell c f then .next s
      else if !s.asked ctx cell (.word id) r.pa r.size then
        .next ((s.frontierDone t.id).askPeer ctx cell (.word id) r.va r.pa r.zero (.atomic op x.wide b cmp))
      else if s.gone ctx cell (.word id) r.pa r.size then .next (s.flyFault t cell f .uncorrectable 0 0)
      else
        match (s.taken ctx cell (.word id) r.pa r.size).performRmw ctx cell t.id id r op b cmp (amoWidth x) with
        | (s, .ok old) => .next ((s.updCell ctx cell fun c => c.fillRegs id old).flyDone t cell id fun f => f)
        | (s, .error (cause, owner)) => .next (s.flyFault t cell f .uncorrectable cause owner)
    | _ => .next s

/-! ## Reductions (R323, R324) -/

/-- Two reductions of one thread, the first earlier. -/
def Red.before (q r : Red) : Bool := q.ctx = r.ctx && q.cell = r.cell && q.task = r.task && q.id < r.id

/-- A reduction may perform: no earlier access of its thread that is ordered before it is left (R311, R313, R317). -/
def State.redReady (s : State) (r : Red) : Bool :=
  !(farRelease r.x && s.putsOpen r.ctx) &&
  (s.reds.all fun q => !(q.before r && (q.r.cls == r.r.cls || refsMeet q.r r.r || r.x.rel))) &&
    match s.getCell r.ctx r.cell with
    | some c =>
      some r.task != c.task || c.fly.all fun f =>
        r.id ≤ f.id || f.op.over ||
          !(f.op.heldBack || c.flyCls f == some r.r.cls || s.wordMeets r.ctx r.cell c f (.atomic r.r none 0 0 r.x) || f.op.acquires || r.x.rel)
    | none => true

/-- A fault of a reduction that has been injected: it is its word's (R270, R360, R385, R390). -/
def State.holdRed (s : State) (r : Red) (code : FaultCode) (cause owner : Nat) : State :=
  s.holdAndSettle r.task
    { code := code, cause := cause, engine := 1, va := BitVec.ofNat 64 r.r.va, pc := r.pc, cell := r.cell, owner := owner }

/-- A reduction to a window of a peer goes as an update in transit, of the context's gang (R324, R384). -/
def State.redWin (s : State) (r : Red) : Option Nat := if r.r.rwin then some (s.winGang r.ctx true) else none

/-- The home of a reduction is here, or has answered. -/
def State.redAsked (s : State) (r : Red) : Bool := s.asked r.ctx r.cell (.red r.id) r.r.pa r.r.size

/-- Ask the peer at which a reduction has its home (R384). -/
def State.askRed (s : State) (r : Red) : State :=
  s.askPeer r.ctx r.cell (.red r.id) r.r.va r.r.pa r.r.zero (.atomic (some (redAmo r.op)) r.x.wide r.b 0) (s.redWin r)

/-- Apply one contribution at its home: here, or by the answer of a peer that has been asked. A poisoned line of a KILL page, and a lost
peer, are against its task (R270, R390). -/
def State.applyRed (s : State) (r : Red) : State :=
  let gone := s.gone r.ctx r.cell (.red r.id) r.r.pa r.r.size
  let s := s.taken r.ctx r.cell (.red r.id) r.r.pa r.r.size
  if gone then s.holdRed r .uncorrectable 0 0
  else
    match s.performRmw r.ctx r.cell r.task r.id r.r (some (redAmo r.op)) r.b 0 (amoWidth r.x) with
    | (s, .ok _) => s
    | (s, .error (cause, owner)) => s.holdRed r .uncorrectable cause owner

/-- REDUCTION_PERFORM: a reduction, with those that routers have merged with it. Those at a peer's home are asked for first (R384). -/
def execReductionPerform (n : Nat) (s : State) : Host.Outcome State Fault Refusal :=
  match s.reds[n]? with
  | none => .next s
  | some r =>
    let set := match r.grp with
      | none => [r]
      | some g => s.reds.filter fun q => q.grp = some g
    if !set.all s.redReady || !set.all fun q => s.linked q.r.pa then .next s
    else if !set.all s.redAsked then .next (set.foldl State.askRed s)
    else .next (set.foldl State.applyRed { s with reds := s.reds.filter fun q => !(q ∈ set) })

/-- COMBINE: two updates of one window address merge on their way; the merged update is applied as one (R324). -/
def execCombine (n m : Nat) (s : State) : Host.Outcome State Fault Refusal :=
  match s.reds[n]?, s.reds[m]? with
  | some a, some b =>
    if n != m && a.r.rwin && b.r.rwin && a.op == b.op && a.r.pa = b.r.pa && a.x.wide == b.x.wide && s.redReady a && s.redReady b then
      let g := s.nextId
      let same (q : Red) : Bool := q == a || q == b || (q.grp.isSome && (q.grp == a.grp || q.grp == b.grp))
      .next { s with nextId := g + 1, reds := s.reds.map fun q => if same q then { q with grp := some g } else q }
    else .next s
  | _, _ => .next s

/-! ## The slot wheel (R320, R321) -/

/-- A cell whose operation waits for the wheel: it goes on, with its task at the pour line (R150). -/
def State.slotWaits (s : State) (ctx cell : Nat) : Option (Cell × Task × ScWait) :=
  match s.sideOf ctx cell .a with
  | some (c, t) => c.scWait.map fun w => (c, t, w)
  | none => none

/-- Every earlier access of a waiting cell's thread has performed, for the threads of other devices too where the operation's scope has
them, and the operation's link carries it. -/
def State.slotReady (s : State) (ctx cell : Nat) (c : Cell) (t : Task) : Bool :=
  c.fly.isEmpty && (s.reds.all fun q => !(q.ctx = ctx && q.cell = cell && q.task = t.id)) &&
    (c.scWait.bind ScWait.op).all fun a => s.linked a.r.pa && !(farRelease a.x && s.putsOpen ctx)

/-- The scope of an SC operation: that of its atomic, or the device for `fsc` (R321). -/
def ScWait.scope (w : ScWait) : Scope :=
  match w.op with
  | some a => a.x.scope
  | none => .dev

/-- Two cells stand in the scope of each other's operation (R310, R320). -/
def State.scopesMeet (s : State) (a : Nat) (sa : Scope) (b : Nat) (sb : Scope) : Bool :=
  let within (x : Scope) : Bool :=
    match x with
    | .eng | .cel => a = b
    | .twn => pairOf a = pairOf b
    | .clu => columnOf a = columnOf b
    | .prt => (s.partOfColumn (columnOf a)).map Prod.fst == (s.partOfColumn (columnOf b)).map Prod.fst
    | .dev | .dom | .sys => true
  within sa && within sb

/-- An operation that has an earlier slot, in the scope of this one, has not performed: this one comes after it in the order
S of the device (R320). -/
def State.slotBehind (s : State) (cell : Nat) (w : ScWait) : Bool :=
  s.cells.any fun p =>
    match p.2.scWait, w.slot with
    | some v, some n => (match v.slot with | some m => m < n | none => false) &&
        s.scopesMeet cell w.scope (p.1 % 1024) v.scope
    | _, _ => false

/-- The position of the wheel belongs to a partition and has carried no operation. -/
def State.slotOpen (s : State) (p : Part) : Bool :=
  s.cycle % 64 < 60 && s.cycle % 64 / 3 ∈ p.cols && p.scCycle ≤ s.cycle

/-- The operation performs in its slot. -/
def slotDone (s : State) (c : Cell) (t : Task) (w : ScWait) : State :=
  let s := s.putHere { c with scWait := none }
  let pc := c.core.pc.a + w.len
  match w.op with
  | none => finish .a (s.frontierDone t.id) c t w.t pc {}
  | some a =>
    if s.gone t.ctx s.cur.cell (.word c.nextFly) a.r.pa a.r.size then
      (s.dropAsks t.ctx s.cur.cell (· == .word c.nextFly)).raiseAt .a c t .uncorrectable 0 (BitVec.ofNat 64 a.r.va) 0
    else
      match (s.taken t.ctx s.cur.cell (.word c.nextFly) a.r.pa a.r.size).performRmw t.ctx s.cur.cell t.id c.nextFly a.r a.op a.b a.cmp
          (amoWidth a.x) with
      | (s, .ok old) => finish .a s c t w.t pc (match a.d with | some d => resultOf d a.clk true old | none => {})
      | (s, .error (cause, owner)) => s.raiseAt .a c t .uncorrectable cause (BitVec.ofNat 64 a.r.va) owner

/-- The slot of an operation: one at a peer's home is asked for in it, and ends with its answer (R384). -/
def slotPerform (s : State) (c : Cell) (t : Task) (w : ScWait) : State :=
  match w.op.filter fun a => !s.asked t.ctx s.cur.cell (.word c.nextFly) a.r.pa a.r.size with
  | some a =>
    (s.frontierDone t.id).askPeer t.ctx s.cur.cell (.word c.nextFly) a.r.va a.r.pa a.r.zero (.atomic a.op a.x.wide a.b a.cmp)
  | none => slotDone s c t w

/-- The cells of a context that wait for a position, from the one after the cell last served on (R320). -/
def State.slotTurns (s : State) (ctx : Nat) (p : Part) : List Nat :=
  let ns := (s.cells.map Prod.fst).filter fun k => k / 1024 = ctx &&
    match s.slotWaits ctx (k % 1024) with
    | some (_, _, w) => w.slot.isNone
    | none => false
  let cs := ns.map (· % 1024)
  cs.filter (p.scLast < ·) ++ cs.filter (· ≤ p.scLast)

/-- SC_SLOT: the waiting cells of a partition take its positions in turn; an operation performs in its slot once every earlier
access of its thread, and every operation before it in the order S, has performed (R320). -/
def execScSlot (ctx cell : Nat) (s : State) : Host.Outcome State Fault Refusal :=
  match s.partOfCtx ctx, s.slotWaits ctx cell with
  | some (n, p), some (c, t, w) =>
    let perform (s : State) (c : Cell) (w : ScWait) : State :=
      if s.slotReady ctx cell c t && !s.slotBehind cell w then slotPerform (s.goTo ctx cell) c t w else s
    if w.slot.isSome then .next (perform s c w)
    else if s.slotOpen p && (s.slotTurns ctx p).head? == some cell then
      let w' := { w with slot := some s.cycle }
      let c' := { c with scWait := some w' }
      .next (perform ({ s with parts := mset s.parts n { p with scLast := cell, scCycle := s.cycle + 1 } }.putCell ctx cell c') c' w')
    else .next s
  | _, _ => .next s

/-! ## Streams, copies and weight-store writes -/

/-- A stream or a copy moves once every earlier word of A but streams has finished, in the order of its class, and once the
thread's earlier reductions of its class, and those that meet the places `rs` of a stream's element, have performed (log entry
15). -/
def State.mayMove (s : State) (ctx cell : Nat) (c : Cell) (id : Nat) (cls : Fin 16) (rs : List MemRef) : Bool :=
  (c.fly.all fun f => id ≤ f.id || f.op.past) &&
    (c.streams.all fun u => id ≤ u.id || !(u.cls == cls || rs.any (s.unitMeets ctx cell u))) &&
    (c.copies.all fun x => id ≤ x.id || x.cls != cls) &&
    s.reds.all fun q => !(q.ctx = ctx && q.cell = cell && some q.task == c.task && q.id < id && (q.r.cls == cls || rs.any (refsMeet q.r)))

/-- The places of `n` bytes at a virtual address. -/
def State.placesOf (s : State) (ctx cell : Nat) (va : Word64) (n : Nat) : List MemRef :=
  (linePieces va (List.replicate n 0) 5).filterMap fun p =>
    match s.translate ctx cell p.1 .read with
    | .ok (_, q) => some { q with size := p.2.length }
    | .error _ => none

/-- The places that the next element of a load stream reads (R311); a store stream stores nothing over later words, and its
bytes stand before those of earlier streams in no order but that of their words. -/
def State.nextPlaces (s : State) (ctx cell : Nat) (u : StreamUnit) : List MemRef :=
  match u.kind with
  | .pat base icount ocount istride ostride esize false =>
    if icount = 0 || ocount ≤ u.o then []
    else s.placesOf ctx cell (BitVec.ofInt 64 (base + u.o * ostride + u.i * istride)) (patBytes esize)
  | .gth base size _ =>
    match u.idx with
    | some i => s.placesOf ctx cell (BitVec.ofNat 64 base + i * BitVec.ofNat 64 size) size
    | none => []
  | .pat _ _ _ _ _ _ true | .sct _ _ _ => []

/-- A move waits: for the pour line or for room, which stops the count of R150 until it has moved, or for anything else. -/
def State.noteMove (s : State) (id : Nat) (k : WaitKind) : State :=
  s.updHere fun c =>
    let l := c.full.filter (· != id)
    { c with full := if k == .pourLine || k == .bufferFull then id :: l else l }

/-- Who asks a peer for a move: a word, or a refetch (`none`). -/
def moveAsker : Option Nat → Asker
  | some n => .word n
  | none => .issue

/-- A fault that a move has met is held with the task (R171, R262). -/
def State.moveFault (s : State) (t : Task) (id : Option Nat) (pc : Nat) (f : FaultCode) (cause : Nat) (va : Word64) (owner : Nat)
    (access : Option Access := none) : State :=
  (s.dropAsks s.cur.ctx s.cur.cell (· == moveAsker id)).holdAndSettle t.id
    { code := f, cause := cause, engine := 1, va := va, pc := pc, cell := s.cur.cell, owner := owner, access := access }

/-- What a wait of a move leaves: the abort or the direct writing that it calls for (R284, R358), or the wait. -/
def State.moveWait (s : State) (t : Task) (id : Option Nat) (k : WaitKind) : State :=
  let note (s : State) : State := match id with | some n => s.noteMove n k | none => s
  if s.abortsInstead t k then s.abortTasks [t]
  else if k == .bufferFull && s.atPour t && !t.direct then
    match s.goLate t with
    | .ok s => s
    | .error (.lines cell cause va owner) => s.raiseLines t cell cause va owner
    | .error .checks => note (s.checkLines t ((s.splitLate t).linesOf t))
    | .error _ => s
  else note s

/-- What a move of word `id`, or of a refetch (`none`), that did not complete leaves: a wait, a refetch (R258), a request to a peer (R384),
or a fault. -/
def State.moveStop (t : Task) (id : Option Nat) (pc : Nat) (s : State) : Stop → State
  | .wait k => s.moveWait t id k
  | .spad true => (s.spadError s.cur.ctx s.cur.cell).startRefetch t
  | .spad false => (s.spadError s.cur.ctx s.cur.cell).moveFault t id pc .uncorrectable 0 0 0
  | .walk f cause va k => s.moveFault t id pc f cause va 0 (some k)
  | .raise f cause va owner =>
    (if f = .uncorrectable && cause != 0 then s.noteConsume s.cur.ctx s.cur.cell va else s).moveFault t id pc f cause va owner
  | .lines cell cause va owner => s.raiseLines t cell cause va owner
  | .ask who va pa _ zero op => s.askPeer s.cur.ctx s.cur.cell who va pa zero op
  | .checks => s.checkLines t ((s.splitLate t).linesOf t)
  | .read ls rs x => State.moveStop t id pc (s.updTask t.id fun u => { u with reads := ls, regions := rs }) x

/-- The outcome of a move of word `id`. -/
def finishMove (s : State) (t : Task) (id pc : Nat) : Except Stop State → Host.Outcome State Fault Refusal
  | .ok s' => .next (s'.noteMove id .none)
  | .error e => .next (State.moveStop t (some id) pc s e)

/-- A cell whose streams and copies run: it goes on with its task (R149, R171, R262). -/
def State.moving (s : State) (ctx cell : Nat) : Option (Cell × Task) :=
  match (s.goTo ctx cell).here with
  | some (c, t) => if s.goes ctx cell c t && s.boot == .ready then some (c, t) else none
  | none => none

/-- STREAM_ELEMENT (R169 to R171): the next element or the end marker of a stream. -/
def execStreamElement (ctx cell id : Nat) (s : State) : Host.Outcome State Fault Refusal :=
  match s.moving ctx cell with
  | none => .next s
  | some (c, t) =>
    match c.streams.find? fun u => u.id = id with
    | none => .next s
    | some u =>
      if s.mayMove ctx cell c id u.cls (s.nextPlaces ctx cell u) then
        finishMove (s.goTo ctx cell) t id u.pc (streamStep (s.goTo ctx cell) t cell c u)
      else .next s

/-- The next bytes of a source, for the word of number `id`. -/
def sourceBytes (s : State) (t : Task) (cell id : Nat) (c : Cell) (src : CopyEnd) (pos n : Nat) : Except Stop (State × List Byte) :=
  match src with
  | .spad off => (c.spadRead t (off + pos) n).map fun bs => (s, bs)
  | .virt va => s.readVirt t cell (.word id) (BitVec.ofNat 64 (va + pos)) n

/-- The origin of a unit after the copy of the word at `pc` from a virtual source has written bytes `lo` to `hi` exclusive of
it (R258). -/
def mergeOrigin (old : Option Origin) (pc va lo hi : Nat) : Origin :=
  match old with
  | some (.copied _ va' lo' hi') =>
    if va' = va && lo ≤ hi' && lo' ≤ hi then .copied pc va (Nat.min lo lo') (Nat.max hi hi') else .copied pc va lo hi
  | _ => .copied pc va lo hi

/-- Note the origins of the units that a copy has written at `off`, from a source whose byte for `off` lies at `va`. -/
def Cell.noteOrigins (c : Cell) (old : AMap Origin) (pc off va n : Nat) : Cell :=
  { c with core := { c.core with origins := (unitsOf off n).foldl (fun m u =>
      let lo := Nat.max off (64 * u) - 64 * u
      let hi := Nat.min (off + n) (64 * u + 64) - 64 * u
      mset m u (mergeOrigin (mget old u) pc ((va + 2 ^ 64 + 64 * u - off) % 2 ^ 64) lo hi)) c.core.origins } }

/-- The bytes of a copy's next unit: those of one line of a virtual source, so that each poisoned line of it is one access (R271,
R276, log entry 121), or 64 bytes of the scratchpad. -/
def Copy.unit (x : Copy) : Nat :=
  match x.src with
  | .virt va => Nat.min (64 - (va + x.pos) % 64) (x.len - x.pos)
  | .spad _ => Nat.min 64 (x.len - x.pos)

/-- Move the next unit of a copy (R261). -/
def copyStep (s : State) (t : Task) (cell : Nat) (c : Cell) (x : Copy) : Except Stop State := do
  let n := x.unit
  let (s, bs) ← sourceBytes s t cell x.id c x.src x.pos n
  let s ← s.keepReads t.id <| match x.dst with
    | .spad off => do
      let s ← s.spadStore t.ctx t.inst t.stage cell t.id (off + x.pos) bs
      match x.src with
      | .virt va =>
        pure (if x.ord < 64 then s.updCell t.ctx cell fun c' => c'.noteOrigins c.core.origins x.pc (off + x.pos) (va + x.pos) n else s)
      | .spad _ => pure s
    | .virt va => s.moveOutAll t cell x.id none x.cls 0 (linePieces (BitVec.ofNat 64 (va + x.pos)) bs 2)
  pure (s.updCell t.ctx cell fun c =>
    { c with copies := if x.pos + n < x.len then c.copies.map fun y => if y.id = x.id then { y with pos := x.pos + n } else y
        else c.copies.filter fun y => y.id != x.id })

/-- COPY_UNIT (R261, R262). -/
def execCopyUnit (ctx cell id : Nat) (s : State) : Host.Outcome State Fault Refusal :=
  match s.moving ctx cell with
  | none => .next s
  | some (c, t) =>
    match c.copies.find? fun x => x.id = id with
    | none => .next s
    | some x =>
      if s.mayMove ctx cell c id x.cls [] then finishMove (s.goTo ctx cell) t id x.pc (copyStep (s.goTo ctx cell) t cell c x) else .next s

/-- The next bytes of a weight-store write (R266): those of a virtual source over the store lines that stood before the word (R311). -/
def wstBytes (s : State) (t : Task) (cell : Nat) (c : Cell) (w : Wst) : Except Stop (State × List Byte) :=
  match w.src with
  | .spad off => (c.spadRead t (off + w.pos) 64).map fun bs => (s, bs)
  | .virt va =>
    s.readVirtOver t cell (.word w.id) (((c.fly.find? fun f => f.id = w.id).map Fly.lines).getD []) (BitVec.ofNat 64 (va + w.pos)) 64

/-- Write the next unit of a `wst` (R265, R266); it is never undone. -/
def wstStep (s : State) (t : Task) (cell : Nat) (c : Cell) (w : Wst) : Except Stop State := do
  let pa := wsBase + clusterOf cell * 0x4000000 + w.off + w.pos
  if s.steep pa then .error (.wait .plain)
  let (s, bs) ← wstBytes s t cell c w
  let s : State := { s with
    mem := writeBytes s.mem pa bs, wsBad := s.wsBad.filter fun b => !(pa / 8 ≤ b && b < pa / 8 + 8) }
  if w.pos + 64 < w.len then
    pure (s.updCell t.ctx cell fun c =>
      { c with wsts := c.wsts.map fun y => if y.id = w.id then { y with pos := w.pos + 64 } else y })
  else
    pure ((s.updCell t.ctx cell fun c => { c with wsts := c.wsts.filter fun y => y.id != w.id }).flyDone t cell w.id fun f => f)

/-- WST_UNIT_WRITTEN. -/
def execWstUnitWritten (ctx cell id : Nat) (s : State) : Host.Outcome State Fault Refusal :=
  match s.moving ctx cell with
  | none => .next s
  | some (c, t) =>
    match c.wsts.find? fun w => w.id = id with
    | none => .next s
    | some w =>
      if (c.fly.takeWhile fun f => f.id != id).all fun f => !f.op.unsettled then
        finishMove (s.goTo ctx cell) t id w.pc (wstStep (s.goTo ctx cell) t cell c w)
      else .next s

/-! ## The refetch (R258) -/

/-- Fetch one unit of the input half from its origin. The bytes of a poisoned word that no copy has written have no recorded
source: their values are open (log entry 81). -/
def refetchUnit (t : Task) (cell : Nat) (s : State) (u : Nat) : Except Stop State :=
  match (s.getCell t.ctx cell).bind fun c => mget c.core.origins u with
  | some .stage =>
    let data := ((s.stageOf t).map Stage.data).getD []
    let bs := (List.range 64).map fun i => data.getD (64 * u + i) 0
    .ok (s.updCell t.ctx cell fun c =>
      { c with spad := writeBytes c.spad (64 * u) bs, spadBad := c.spadBad.filter fun w => w / 8 != u })
  | some (.copied _ va lo hi) => do
    let lines := ((s.getCell t.ctx cell).map fun c => (c.bufOf t.id).lines).getD []
    let (s, bs) ← s.readVirtLines t cell .issue lines (BitVec.ofNat 64 (va + lo)) 3 (hi - lo)
    let (s, fs) := s.freeBytes 64
    pure (s.updCell t.ctx cell fun c =>
      let old := readBytes c.spad (64 * u) 64
      let new := (List.range 64).map fun i =>
        if lo ≤ i && i < hi then bs.getD (i - lo) 0
        else if 8 * u + i / 8 ∈ c.spadBad then fs.getD i 0 else old.getD i 0
      { c with spad := writeBytes c.spad (64 * u) new, spadBad := c.spadBad.filter fun w => w / 8 != u })
  | none => .ok s

/-- The word that copied a unit, or 0 for stage data, which a refetch takes without a fault. -/
def Cell.originPc (c : Cell) (u : Nat) : Nat :=
  match mget c.core.origins u with
  | some (.copied pc _ _ _) => pc
  | _ => 0

/-- Fetch units in turn. One that faults leaves the fault of the copy that wrote it (R258, R262). -/
def refetchUnits (ctx cell : Nat) (c : Cell) (t : Task) (s : State) : List Nat → Host.Outcome State Fault Refusal
  | [] => .next (s.updCell ctx cell fun c => { c with refetch := false })
  | u :: us =>
    match refetchUnit t cell s u with
    | .ok s => refetchUnits ctx cell c t s us
    | .error e => .next (State.moveStop t none (c.originPc u) s e)

/-- SCRATCHPAD_REFETCH: every poisoned refetchable unit of the input half, and then the instant starts again. -/
def execScratchpadRefetch (ctx cell : Nat) (s : State) : Host.Outcome State Fault Refusal :=
  match s.moving ctx cell with
  | none => .next s
  | some (c, t) =>
    if !c.refetch then .next s
    else
      let us := ((c.badWords (halfBase c.core.phase false) 0x80000).filter c.refetchable).map (· / 8)
      refetchUnits ctx cell c t (s.goTo ctx cell) us.eraseDups

/-! ## Errors of memories (R112, R265, R268, R273) -/

/-- The next steep window opens once the present one has run out (R265). -/
def execRefreshWindow (s : State) : Host.Outcome State Fault Refusal :=
  if s.wrefLeft = 0 then .next { s with wrefCur := s.wrefCur + 1, wrefLeft := 3600 } else .next s

/-- The `i`-th entry of a crema changed; entries that nothing has dropped read 0 with tag k0 (R106). -/
def modifyCrema (l : List SVal) (i : Nat) (f : SVal → SVal) : List SVal :=
  (l ++ List.replicate (i + 1 - l.length) ({} : SVal)).modify i f

/-- Poison a word of a register, or its tags (R110, R111). -/
def Core.poisonReg (c : Core) (f : RegFile) (i : Nat) (w : Option Nat) : Core :=
  let sval (v : SVal) : SVal := match w with | some n => { v with bad := v.bad ||| (1 <<< n) } | none => { v with tagBad := true }
  let on (n : Nat) : BitVec 64 := 1 <<< n
  match f with
  | .cremaC => { c with cremaC := modifyCrema c.cremaC (i % 16) sval }
  | .cremaA => { c with cremaA := modifyCrema c.cremaA (i % 16) sval }
  | .sreg => { c with sregs := c.sregs.set (Fin.ofNat 16 i) (sval c.sregs[Fin.ofNat 16 i]) }
  | .areg => { c with aregs := c.aregs.set (Fin.ofNat 16 i) (sval c.aregs[Fin.ofNat 16 i]) }
  | .vreg =>
    let v := c.vregs[Fin.ofNat 32 i]
    let v := match w with | some n => { v with bad := v.bad ||| on n } | none => { v with tagBad := true }
    { c with vregs := c.vregs.set (Fin.ofNat 32 i) v }
  | .mask =>
    let v := c.masks[Fin.ofNat 8 i]
    { c with masks := c.masks.set (Fin.ofNat 8 i) { v with bad := v.bad ||| (on (w.getD 0)).setWidth 2 } }
  | .clk => { c with clks := c.clks.set (Fin.ofNat 16 i) { c.clks[Fin.ofNat 16 i] with bad := true } }
  | .delay =>
    let v := c.delays[Fin.ofNat 64 i]
    let v := match w with | some n => { v with bad := v.bad ||| on n } | none => { v with tagBad := true }
    { c with delays := c.delays.set (Fin.ofNat 64 i) v }
  | .tmpl =>
    let v := c.tmpls[Fin.ofNat 64 i]
    { c with tmpls := c.tmpls.set (Fin.ofNat 64 i) { v with bad := v.bad ||| (on (w.getD 0)).setWidth 8 } }
  | .window => c

/-- Poison a word of a twin-window register, or its tag. -/
def TwReg.poison (r : TwReg) (w : Option Nat) : TwReg :=
  match w with
  | some n => { r with bad := r.bad ||| (1 <<< n) }
  | none => { r with tagBad := true }

/-- A finding in a cell: ERRST and the bank of its cluster. `n` is the ERRST bit of a corrected error. -/
def State.found (s : State) (ctx cell n kind : Nat) (double : Bool) : State :=
  (s.markErrst cell (2 ^ (if double then n + 1 else n)) (!double)).errorAt (clusterOf cell) double 0 cell kind (placeOf cell) ctx

/-- TAMPER_READ: a word with one bit in error is corrected, a word with two is poisoned. -/
def execTamperRead (place : TamperPlace) (double : Bool) (s : State) : Host.Outcome State Fault Refusal :=
  if s.boot = .off then .next s
  else match place with
  | .reg ctx cell f i w =>
    let s := s.found ctx cell 0 0 double
    if !double then .next s
    else if f = .window then
      let k := windowKey ctx cell (Fin.ofNat 8 i)
      .next { s with windows := mset s.windows k (((mget s.windows k).getD {}).poison w) }
    else .next (s.updCell ctx cell fun c => { c with core := c.core.poisonReg f i w })
  | .spad ctx cell w =>
    let s := s.found ctx cell 2 1 double
    .next (if double && w < 0x20000 then
      s.updCell ctx cell fun c => { c with spadBad := if w ∈ c.spadBad then c.spadBad else w :: c.spadBad } else s)
  | .acc ctx cell w =>
    let s := s.found ctx cell 4 2 double
    .next (if double && w < 0x10000 then
      s.updCell ctx cell fun c => { c with accBad := if w ∈ c.accBad then c.accBad else w :: c.accBad } else s)
  | .weight w =>
    let pa := 8 * w
    if wsBase ≤ pa && pa < wsBase + 40 * 0x4000000 && !s.steep pa then
      let n := (pa - wsBase) / 0x4000000
      let m := (pa - wsBase) % 0x4000000 / 0x400000
      let s := s.errorAt n double 1 (16 * n + m) 3 (pa / 64) 0
      .next (if double then { s with wsBad := if w ∈ s.wsBad then s.wsBad else w :: s.wsBad } else s)
    else .next s

/-- The stacks in service for a pseudo-channel, ascending (R267). -/
def State.members (s : State) (p : Nat) : List Nat := (List.range 12).filter fun k => !((k, p) ∈ s.dropped)

/-- The data members in the order of the interleave (R267). -/
def State.stripes (s : State) : List (Nat × Nat) :=
  (List.range 11).flatMap fun j => ((List.range 64).filter fun p => j + 1 < (s.members p).length).map fun p => (p, j)

/-- The stack and the pseudo-channel that hold a local address (R267). -/
def State.stackOf (s : State) (pa : Nat) : Nat × Nat :=
  let l := s.stripes
  let c := pa / 256
  let (p, j) := l.getD (c % l.length) (0, 0)
  let m := s.members p
  (m.getD ((c / l.length % m.length + 1 + j) % m.length) 0, p)

/-- PATROL_READ: a line that fails its ECC is rebuilt, or poisoned when the rebuild fails too (R268). -/
def execPatrolRead (line : Nat) (fails : Bool) (s : State) : Host.Outcome State Fault Refusal :=
  if s.boot != .off && 64 * line < s.hbmCap && !(line ∈ s.poison) then
    let (k, p) := s.stackOf (64 * line)
    let s := s.errorAt (40 + k) fails 2 (64 * k + p) 4 line (s.ownerOf line)
    .next (if fails then { s with poison := line :: s.poison, consumed := s.consumed.filter (· != line) } else s)
  else .next s

end Sys2Proof.Machine
end

