-- ==== Sys2Proof/Machine/HostRegs.lean ====
section
/-! DEFINITION. What the host writes into the registers of the functions (R7, R8): plain registers, the rings (R175 to
R177), invalidation (R254) and repair (R272). -/

namespace Sys2Proof.Machine

open Sys2Proof

/-- An enabled virtual function that the blob binds to a partition answers (R395). -/
def State.answers (s : State) (fn : Nat) : Bool := s.boot == .ready && fn ∈ s.fnOn && (mget s.blob.bindings fn).isSome

/-- The partition of a function that answers. -/
def State.fnPart (s : State) (fn : Nat) : Option Nat := if s.answers fn then mget s.blob.bindings fn else none

/-! ## Plain registers -/

/-- Bits `hi` to `lo` set. -/
def fieldMask (hi lo : Nat) : Word64 := BitVec.ofNat 64 (2 ^ (hi + 1) - 2 ^ lo)

/-- A LOG2DEPTH field takes 4 to 16; other values are written as 4 (R175, R360). -/
def depthField (v : Word64) : Word64 := if 4 ≤ v.toNat % 32 && v.toNat % 32 ≤ 16 then v &&& 31 else 4

/-- The RW bits of a virtual function's plain register (R175, R254, R305, R352, R360, R368, R386). -/
def vfMask (off : Nat) : Option Word64 :=
  if off = 0x408 || off = 0x618 || off = 0x620 then some (fieldMask 63 0)
  else if off = 0x400 then some 0x3F0F
  else if off = 0x410 then some (fieldMask 32 16 ||| fieldMask 9 0)
  else if off = 0x418 then some (fieldMask 51 11)
  else if off = 0x420 then some (fieldMask 51 21)
  else if off = 0x500 || off = 0x1400 then some (fieldMask 63 12)
  else if off = 0x514 || off = 0x1C10 then some (fieldMask 31 0)
  else if off = 0x600 then some 0x3F3F0F
  else if off = 0x608 || off = 0x628 then some (fieldMask 51 0)
  else if 0x700 ≤ off && off < 0x900 then
    (if off % 32 = 0 || off % 32 = 8 then some (fieldMask 63 0) else if off % 32 = 16 then some 0x1FFFF else none)
  else if off = 0x1800 then some (fieldMask 55 16)
  else if off = 0x1808 then some 0x13F
  else if off = 0x1C08 then some (fieldMask 63 5)
  else none

/-- The RW bits of a plain register of the physical function (R272, R382, R385). -/
def pfMask (off : Nat) : Option Word64 :=
  if off = 0x2000 then some 0x3F0F
  else if off = 0x2900 then some (fieldMask 51 30)
  else if off = 0x2908 then some (fieldMask 9 0)
  else if 0x2A00 ≤ off && off < 0x2B00 then
    (if off % 16 = 0 then some (fieldMask 51 21 ||| 3) else if off % 16 = 8 then some (fieldMask 51 21) else none)
  else none

/-- Write the RW bits of a register; its other bits stay. -/
def State.writeMasked (s : State) (fn off : Nat) (m v : Word64) : State := s.setReg fn off ((s.reg fn off &&& ~~~m) ||| (v &&& m))

/-- CTXID.BRK as it stood at the start of the cycle, which governs a `brkp` of the cycle of a write (R365). -/
def State.noteBrk (s : State) (fn : Nat) : State :=
  match mget s.brkPast fn with
  | some (n, _) => if n = s.cycle then s else { s with brkPast := mset s.brkPast fn (s.cycle, (s.reg fn 0x410).getLsbD 32) }
  | none => { s with brkPast := mset s.brkPast fn (s.cycle, (s.reg fn 0x410).getLsbD 32) }

/-- A write to a ring's RBASE or RCFG: BASE and LOG2DEPTH are ignored while ENABLE is 1, and ENABLE may be cleared (R175). -/
def State.writeRing (s : State) (fn r off : Nat) (v : Word64) : State :=
  let cfg := s.reg fn (ringReg r 8)
  if off = 0 then (if cfg.getLsbD 8 then s else s.setReg fn (ringReg r 0) (v &&& fieldMask 63 12))
  else if off = 8 then
    if cfg.getLsbD 8 then (if v.getLsbD 8 then s else s.setReg fn (ringReg r 8) (cfg &&& 31))
    else s.setReg fn (ringReg r 8) (depthField v)
  else s

/-- A write to an error bank's EBCNT: CEV and UEV free their slots (R363). The errors of the cycle keep the order of their SEQ. -/
def State.writeBank (s : State) (b : Nat) (v : Word64) : State :=
  let clear (m : AMap ErrBank) : AMap ErrBank := mset m b (((mget m b).getD {}).clear (v.getLsbD 32) (v.getLsbD 33))
  match s.errNow with
  | some n =>
    if n.cycle = s.cycle then
      let hit (e : ErrEvent) : Bool := e.bank = b && (if e.ue then v.getLsbD 33 else v.getLsbD 32)
      let n : ErrCycle := { n with banks := clear n.banks, evs := n.evs.map fun e => if hit e then { e with gone := true } else e }
      { s with errBanks := enterErrors n.banks n.seq n.evs, errNow := some n }
    else { s with errBanks := clear s.errBanks }
  | none => { s with errBanks := clear s.errBanks }

/-- REGISTER_WRITE (R7, R8). -/
def execRegisterWrite (fn off : Nat) (v : Word64) (s : State) : Host.Outcome State Fault Refusal :=
  if fn = 0 then
    if s.boot != .ready then .next s
    else
      match pfMask off with
      | some m => .next (s.writeMasked 0 off m v)
      | none =>
        if 0x3000 ≤ off && off < 0x3000 + 0x40 * 53 && off % 0x40 = 0x20 then .next (s.writeBank ((off - 0x3000) / 0x40) v)
        else .next s
  else if !s.answers fn then .next s
  else if 0x1000 ≤ off && off < 0x1200 then .next (s.writeRing fn ((off - 0x1000) / 0x40) (off % 0x40) v)
  else if off = 0x508 then .next (s.setReg fn off (depthField v))
  else if off = 0x1408 then .next ((s.setReg fn off (depthField v)).flushCompl fn)
  else if off = 0x518 then .next (if v.getLsbD 16 then s.setReg fn off 0 else s)
  else if off = 0x1C00 then .next (s.setReg fn off (if v.toNat % 4 = 3 then 0 else v &&& 3))
  else if off = 0x1C18 then .next (s.setReg fn off (s.reg fn off &&& ~~~(v &&& 3)))
  else
    match vfMask off with
    | some m => .next ((if off = 0x410 then s.noteBrk fn else s).writeMasked fn off m v)
    | none => .next s

/-! ## Rings (R175 to R177) -/

/-- DOORBELL: the host writes WP. -/
def execDoorbell (fn ring : Nat) (v : Word32) (s : State) : Host.Outcome State Fault Refusal :=
  .next (if s.answers fn && ring < 8 then s.setReg fn (ringReg ring 0x10) (v.setWidth 64) else s)

/-- RING_ENABLE: RP takes the current WP, so that the ring starts empty. -/
def execRingEnable (fn ring : Nat) (s : State) : Host.Outcome State Fault Refusal :=
  let cfg := s.reg fn (ringReg ring 8)
  .next (if s.answers fn && ring < 8 && !cfg.getLsbD 8 then
    (s.setReg fn (ringReg ring 8) (cfg ||| 0x100)).setReg fn (ringReg ring 0x14) (s.reg fn (ringReg ring 0x10))
  else s)

/-- RING_OVERRUN_CLEAR: the host writes 1 to OVR. -/
def execRingOverrunClear (fn ring : Nat) (s : State) : Host.Outcome State Fault Refusal :=
  .next (if s.answers fn && ring < 8 then s.setReg fn (ringReg ring 0x18) (s.reg fn (ringReg ring 0x18) &&& ~~~1) else s)

/-- COMPLETION_READ_POINTER: a CRD that would leave more records than the depth is ignored; room lets held records out. -/
def execCompletionReadPointer (fn : Nat) (v : Word32) (s : State) : Host.Outcome State Fault Refusal :=
  let lag := ((s.reg fn 0x1410).toNat + 2 ^ 32 - v.toNat) % 2 ^ 32
  .next (if s.answers fn && lag ≤ 2 ^ ((s.reg fn 0x1408).toNat % 32) then
    (s.setReg fn 0x1414 (v.setWidth 64)).flushCompl fn
  else s)

/-! ## Invalidation (R254) -/

/-- The contexts in the slots that an invalidation names. -/
def State.invContexts (s : State) (fn slot : Nat) : List Nat :=
  match (s.fnPart fn).bind fun n => mget s.parts n with
  | some p => (p.slots.toList.zipIdx.filter fun q => q.1.st != .empty && (slot = 63 || q.2 = slot)).map fun q => q.1.ctx
  | none => []

/-- INVALIDATE: the host writes INVCTL with GO set. What it names then is what is invalidated. While BUSY is 1 the write changes CTX and
ALL alone. -/
def execInvalidate (fn : Nat) (v : Word64) (s : State) : Host.Outcome State Fault Refusal :=
  if !s.answers fn then .next s
  else
    let s := s.writeMasked fn 0x1808 0x13F v
    if (mget s.invBusy fn).isSome then .next s else
    let b : InvBusy := { va := (s.reg fn 0x1800).toNat, ctxs := s.invContexts fn (v.toNat % 64), all := v.getLsbD 8 }
    .next { s with invBusy := mset s.invBusy fn b }

/-- A virtual address lies in the invalidated range of a translation. -/
def InvBusy.covers (b : InvBusy) (base size : Nat) : Bool := b.all || (base ≤ b.va && b.va < base + size)

/-- A translation is invalidated. -/
def InvBusy.hits (b : InvBusy) (t : TlbEntry) : Bool := t.ctx ∈ b.ctxs && b.covers t.base t.size

/-- `n` bytes at a virtual address of a cell use a translation. -/
def TlbEntry.holds (t : TlbEntry) (ctx cell va n : Nat) : Bool :=
  t.ctx = ctx && t.cell = cell && t.base < va % 2 ^ 56 + n && va % 2 ^ 56 < t.base + t.size

/-- The virtual ranges of a cell that have translated and not performed: the accesses of A and its store lines. -/
def Cell.openRefs (c : Cell) : List (Nat × Nat) :=
  (c.fly.filterMap (fun f => f.op.ref) ++ (match c.scWait.bind ScWait.op with | some a => [a.r] | none => [])).map
    (fun r => (r.va, r.size)) ++ c.bufs.flatMap fun b => b.lines.map fun l => (l.va, 64)

/-- INVALIDATE_DONE: every access that used an invalidated translation has performed, buffered stores among them, and no TLB
holds one. -/
def execInvalidateDone (fn : Nat) (s : State) : Host.Outcome State Fault Refusal :=
  match mget s.invBusy fn with
  | none => .next s
  | some b =>
    let used := (s.tlb.filter b.hits).any fun t =>
      (s.cells.any fun p => p.2.openRefs.any fun r => t.holds (p.1 / 1024) (p.1 % 1024) r.1 r.2) ||
        s.reds.any fun q => t.holds q.ctx q.cell q.r.va q.r.size
    if used then .next s
    else .next { s with tlb := s.tlb.filter fun t => !b.hits t, invBusy := mdel s.invBusy fn }

/-! ## Repair (R267, R272) -/

/-- A partition that is not halted: after a checker mismatch it is once its cells have stopped (R362). -/
def State.partRuns (s : State) (p : Part) : Bool :=
  p.slots[0].st == .running || p.slots[0].st == .halting || (p.slots[0].st == .halted && !s.allStopped p.slots[0].ctx)

/-- REPAIR: the host writes REPAIR with GO set. While BUSY is 1 the write changes STACK and PC alone (log entry 128). -/
def execRepair (v : Word64) (s : State) : Host.Outcome State Fault Refusal :=
  if s.boot != .ready then .next s
  else
    let s := s.writeMasked 0 0x2000 0x3F0F v
    if s.repairBusy.isSome then .next s else
    let k := v.toNat % 16
    let p := v.toNat / 256 % 64
    let status (s : State) (n : Nat) : State := s.writeMasked 0 0x2000 (fieldMask 19 18) (BitVec.ofNat 64 (n * 2 ^ 18))
    if s.parts.any fun q => s.partRuns q.2 then .next (status s 1)
    else if !(k ∈ s.members p) then .next (status s 3)
    else if (s.members p).length < 3 then .next (status s 2)
    else .next { status s 0 with repairBusy := some (k, p) }

/-- REPAIR_DONE: the member named at GO is gone, and the bytes above the new capacity are discarded. -/
def execRepairDone (s : State) : Host.Outcome State Fault Refusal :=
  match s.repairBusy with
  | none => .next s
  | some m =>
    let old := s.hbmCap
    let s : State := { s with dropped := m :: s.dropped, repairBusy := none }
    let t := s.stripes.length
    let gone (a : Nat) : Bool := t * 2 ^ 30 ≤ a && a < old
    .next { s with
      hbmGiB := t
      mem := s.mem.filter fun c => !gone c.1
      poison := s.poison.filter fun l => !gone (64 * l)
      consumed := s.consumed.filter fun l => !gone (64 * l)
      owners := s.owners.filter fun o => !gone (64 * o.1) }

end Sys2Proof.Machine
end

