-- ==== Sys2Proof/Machine/Link.lean ====
section
/-! DEFINITION. What arrives over the links: link states (R388, R389), flows and their packets (R384, R387), the requests and
answers of peers (R385, R390), accesses of the host through the window (R381, R382). -/

namespace Sys2Proof.Machine

open Sys2Proof

/-! ## Ports (R388, R389) -/

/-- RETRAIN: a port that is Down or Failed starts its training. -/
def execRetrain (port : Nat) (s : State) : Host.Outcome State Fault Refusal :=
  let p := s.port port
  if s.boot != .ready || 27 ≤ port then .next s
  else if p.st = 0 then .next (s.putPort port { p with st := 1 })
  else if p.st = 4 then .next (s.putPort port { p with st := 1, fails := 0 })
  else .next s

/-- The widths at which a port trains, and whether one is its full width: up to four lanes of UALink (R383), 16, 8 or 4 of the
host link (R380). -/
def portTrains (port lanes : Nat) (full : Bool) : Bool :=
  if port < 24 then 1 ≤ lanes && lanes ≤ 4 && full == decide (lanes = 4)
  else if port = 26 then (lanes = 16 || lanes = 8 || lanes = 4) && full == decide (lanes = 16)
  else 1 ≤ lanes

/-- LINK_TRAINED: at full width Up, at reduced width Degraded; a port that trains at no width of its own stays in training until
its time is over (R380). A peer that a UALink port reaches again is backed (R249); what waited for a path, or was held back for the host,
goes out. -/
def execLinkTrained (port lanes peer : Nat) (full : Bool) (s : State) : Host.Outcome State Fault Refusal :=
  let p := s.port port
  if p.st = 1 && portTrains port lanes full then
    let q : Port := { p with st := if full then 2 else 3, lanes := lanes, peer := if port < 24 then peer % 65536 else 0 }
    let s := s.putPort port q
    let s : State := if port < 24 then { s with peerDown := s.peerDown.filter fun d => !q.leads d } else if port = 26 then s.hostBack else s
    .next { s with flows := s.flows.map fun f => (f.1, s.fillFlow f.1 f.2) }
  else .next s

/-- TRAINING_TIMEOUT: the port is Down; after eight failures it is Failed. -/
def execTrainingTimeout (port : Nat) (s : State) : Host.Outcome State Fault Refusal :=
  let p := s.port port
  if p.st = 1 then .next (s.putPort port { p with st := if 8 ≤ p.fails + 1 then 4 else 0, fails := p.fails + 1, lanes := 0 })
  else .next s

/-- LINK_LOSS: the port trains again, and unacknowledged packets go out on other ports. -/
def execLinkLoss (port : Nat) (s : State) : Host.Outcome State Fault Refusal :=
  let p := s.port port
  if p.carries then
    let s := s.putPort port { p with st := 1, lanes := 0 }
    .next { s with flows := s.flows.map fun f => (f.1, { f.2 with unacked := f.2.unacked.map fun k => { k with lost := true } }) }
  else .next s

/-! ## Retransmission (R387) -/

/-- 10 µs in cycles of the arithmetic clock. -/
def retryCycles : Nat := 18000

/-- RETRANSMIT: a packet that has stayed unacknowledged goes out again on a port to its destination, at most 64 times. -/
def execRetransmit (flow seq : Nat) (s : State) : Host.Outcome State Fault Refusal :=
  let due (p : Packet) : Bool := p.seq = seq && p.tries < 64 && (p.lost || p.sent + retryCycles ≤ s.cycle)
  match mget s.flows flow with
  | some f =>
    if s.path (flowEnd flow) && f.unacked.any due then
      .next { s with flows := mset s.flows flow { f with
        unacked := f.unacked.map fun p => if due p then { p with tries := p.tries + 1, sent := s.cycle, lost := false } else p } }
    else .next s
  | none => .next s

/-! ## Requests of peers (R385) -/

/-- A peer-access entry covers an address, for the kind of access. -/
def State.peerEntry (s : State) (n pa : Nat) (write : Bool) : Bool :=
  let b := (s.reg 0 (0x2A00 + 0x10 * n)).toNat
  let l := (s.reg 0 (0x2A08 + 0x10 * n)).toNat
  b % 2 = 1 && (!write || b / 2 % 2 = 1) && b / 2 ^ 21 ≤ pa / 2 ^ 21 && pa / 2 ^ 21 ≤ l / 2 ^ 21

/-- The home device performs a request of a device of its domain, to a line that its table covers. -/
def State.peerMay (s : State) (dev pa : Nat) (write : Bool) : Bool :=
  dev ∈ s.blob.domain && dev != s.blob.device && pa < s.hbmCap && (List.range 16).any fun n => s.peerEntry n pa write

/-- The bytes that a request names. -/
def peerSize : PeerOp → Nat
  | .read n => n
  | .write bs => bs.length
  | .line _ _ | .check => 64
  | .atomic _ wide _ _ => if wide then 8 else 4

def peerWrites : PeerOp → Bool
  | .read _ => false
  | .write _ | .line _ _ | .atomic _ _ _ _ | .check => true

/-- Perform a request at the home: the state and the answer, which names the address as the requester does (log entry 122). A poisoned
line follows the POISON field of the requester's leaf: on a ZERO page it fills, on a KILL page nothing performs (R270). -/
def State.performPeer (s : State) (owner pa : Nat) (zero : Bool) (req : PeerOp) : State × Payload :=
  let line := pa / 64
  let bad := line ∈ s.poison
  let at_ := peerBase + s.blob.device * 2 ^ 40 + pa
  let lost := if bad then some (s.ownerOf line) else none
  let old : List Byte := if bad then List.replicate (peerSize req) 0 else readBytes s.mem pa (peerSize req)
  let no : Payload := .poisoned (s.ownerOf line) (at_ / 64)
  let put (l : BitVec 64 × BitVec 512) : State × Payload :=
    if bad && !zero && l.1 != BitVec.allOnes 64 then (s, no) else (s.writeLine owner line l.1 l.2, .done at_ lost)
  match req with
  | .read _ => (s, if bad then no else .data at_ old none)
  | .write bs => put (lineOf (pa % 64) bs)
  | .line mask data => put (mask, data)
  | .check => (s, .done at_ lost)
  | .atomic op wide b cmp =>
    if bad && !zero then (s, no)
    else
      let w := if wide then 64 else 32
      match amoWrite op w (BitVec.ofNat w (leNat old)) (b.setWidth w) (cmp.setWidth w) with
      | some v =>
        let l := lineOf (pa % 64) (leBytes v.toNat (w / 8))
        (s.writeLine owner line l.1 l.2, .data at_ old lost)
      | none => (if bad then s.writeLine owner line 0 0 else s, .data at_ old lost)

/-- A request of 64 bytes or less in one line (R383). -/
def peerFits (pa : Nat) (req : PeerOp) : Bool := 0 < peerSize req && pa % 64 + peerSize req ≤ 64

/-- Serve a request: perform it, or refuse it, and answer in the flow of the requester's context (R384). The part has no larger
requests: one is dropped. -/
def State.servePeer (s : State) (dev owner pa : Nat) (zero : Bool) (req : PeerOp) : State :=
  let k := flowKey owner 1 dev
  if !peerFits pa req then s
  else if s.peerMay dev pa (peerWrites req) then
    let r := s.performPeer owner pa zero req
    r.1.send k r.2
  else s.send k .refusal

/-- PEER_REQUEST: a request arrives over a port of its device. -/
def execPeerRequest (dev owner pa : Nat) (zero : Bool) (req : PeerOp) (s : State) : Host.Outcome State Fault Refusal :=
  .next (if s.boot == .ready && s.path dev then s.servePeer dev owner pa zero req else s)

/-! ## Arriving packets (R345, R348, R386, R387) -/

/-- Merge candidates into what a filter keeps: the k greatest by the order of R202, the lower index first among equals
(R348). -/
def mergeCands (k : Nat) (a : List (Word32 × Nat)) (b : Candidates) : List (Word32 × Nat) :=
  (sortBy (fun x y =>
    let p := rankKey b.fmt x.1.toNat
    let q := rankKey b.fmt y.1.toNat
    decide (q < p) || (decide (p = q) && decide (x.2 ≤ y.2))) (a ++ b.list)).take k

/-- What the filter of a collective keeps. -/
def State.filterCands (s : State) (ctx id k : Nat) (l : Candidates) : State :=
  let old := (s.filters.find? fun f => f.ctx = ctx && f.id = id).map Filter.cands
  { s with filters := { ctx := ctx, id := id, cands := mergeCands k (old.getD []) l } :: s.filters.filter fun f => !(f.ctx = ctx && f.id = id) }

/-- FILTER: candidates of a format reach a router that filters (R348), which keeps them, or sends what it keeps to the router of
another device of the domain (R345, R384, log entry 106). From a switch to the restore, the candidates of the context wait (R359). -/
def execFilter (ctx id k : Nat) (f : Offer) (s : State) : Host.Outcome State Fault Refusal :=
  if (mget s.ctxs ctx).isNone || !s.ctxRuns ctx then .next s
  else
    match f.dest with
    | none => .next (s.filterCands ctx id k f.cands)
    | some d =>
      if !(d ∈ s.blob.domain && d != s.blob.device) then .next s
      else
        let s := s.filterCands ctx id k f.cands
        let mine (f : Filter) : Bool := f.ctx = ctx && f.id = id
        let l := ((s.filters.find? mine).map Filter.cands).getD []
        .next (({ s with filters := s.filters.filter fun f => !mine f } : State).send (flowKey ctx 2 d)
          (.candidates ctx id k { f.cands with list := l }))

/-- An enabled bridge entry, by its number (R386). -/
def State.bridgeOn (s : State) (d : Nat) : Bool :=
  let fn := (d - 1024) / 16
  fn ∈ s.fnOn && (s.reg fn (0x710 + 0x20 * ((d - 1024) % 16))).toNat / 65536 % 2 = 1

/-- The contexts of this device that a bridge's contributions are for: those in a gang of the partition that its function serves. -/
def State.bridgeCtxs (s : State) (dev : Nat) : List Nat :=
  (s.ctxs.filter fun x => x.2.gang != 0 &&
    match mget s.blob.bindings ((dev - 1024) / 16), s.partOfCtx x.1 with
    | some p, some q => p = q.1
    | _, _ => false).map Prod.fst

/-- What a bridge brings for a word of a window of the domain, by its global address: it is added where the word lies (R386). The release
that follows waits for the answer of a peer. -/
def State.bridgeUpdate (s : State) (dev owner pa : Nat) (zero : Bool) (op : AmoOp) (wide : Bool) (b : Word64) : State :=
  let here := s.localPa pa
  if here < s.hbmCap then (s.performPeer owner here zero (.atomic (some op) wide b 0)).1
  else if (s.peerOf here).isNone then s
  else
    s.askNew { ctx := (s.bridgeCtxs dev).headD owner, cell := 0, who := .router, va := 0, pa := here, n := 0 } zero
      (.atomic (some op) wide b 0) (some 0)

/-- A reduction update arrives. A bridge's contributions need the bridge's entry and no other (R386). A domain peer's is for a window
of this home, which answers it, or, with a global address, what a gang's devices have gathered for its root. -/
def State.applyUpdate (s : State) (dev owner gang pa : Nat) (zero : Bool) (op : AmoOp) (wide : Bool) (b : Word64) : State :=
  if 1024 ≤ dev then (if s.bridgeOn dev then s.bridgeUpdate dev owner pa zero op wide b else s)
  else if peerBase ≤ pa then (if dev ∈ s.blob.domain then s.addSums gang pa op wide b else s)
  else s.servePeer dev owner pa zero (.atomic (some op) wide b 0)

/-- The contexts of this device that a collective packet is for: those of its gang, or those that a bridge serves. -/
def State.packetCtxs (s : State) (body : Payload) : List Nat :=
  match body with
  | .update dev _ gang _ _ _ _ _ =>
    if 1024 ≤ dev then s.bridgeCtxs dev else (s.ctxs.filter fun x => x.2.gang != 0 && x.2.gang = gang).map Prod.fst
  | .candidates ctx _ _ _ => if (mget s.ctxs ctx).isSome then [ctx] else []
  | _ => []

/-- The release of an episode reaches the instances of its gang on this device. What was heard of it goes, and an episode
that no cell waits for. -/
def State.releaseGang (s : State) (key gang bar gen : Nat) : State :=
  let mine (e : Episode) : Bool := e.scope == .dom && e.key = key && e.bar = bar && e.gen = gen && e.gang = gang
  { s with
    episodes := s.episodes.filterMap fun e =>
      if !mine e then some e else if e.cells.isEmpty then none else some { e with complete := true }
    heard := s.heard.filter fun h => !(h.key = key && h.bar = bar && h.gen = gen && h.gang = gang) }

/-- The routers take a collective packet (R345). -/
def State.collect (s : State) (body : Payload) : State :=
  match body with
  | .update dev owner gang pa zero op wide b => s.applyUpdate dev owner gang pa zero op wide b
  | .candidates ctx id k l => s.filterCands ctx id k l
  | _ => s

/-- A collective packet of a context that does not run, from AT of its switch on, goes into the context's receive buffer, and is replayed
when it goes on (R359). -/
def State.receive (s : State) (body : Payload) : State :=
  match s.packetCtxs body with
  | [] => s.collect body
  | x :: xs => if (x :: xs).any s.ctxRuns then s.collect body else { s with recv := s.recv ++ [(x, body)] }

/-- The receive buffer of a context is replayed into the routers (R359). -/
def State.replay (s : State) (ctx : Nat) : State :=
  (s.recv.filter fun r => r.1 = ctx).foldl (fun (s : State) r => s.collect r.2) { s with recv := s.recv.filter fun r => r.1 != ctx }

/-- The line of a request of this device is lost (R270). One that has been published leaves a fault. -/
def State.answerLost (s : State) (ctx owner line : Nat) : State :=
  let fits (a : Ask) : Bool := a.ctx = ctx && a.isOpen && a.pa / 64 = line
  match s.asks.find? fits with
  | some a =>
    let s := s.answerAsk ctx (fun a => a.pa / 64 = line) (.poisoned owner)
    match a.who with
    | .line _ => s.holdLate a .uncorrectable (if owner = ctx then 1 else 2) owner
    | _ => s
  | none => s

/-- What a packet of a flow does when it is delivered. A refusal has its effect as PEER_REFUSAL (log entry 102). -/
def State.deliverPacket (s : State) (flow : Nat) (body : Payload) : State :=
  match body with
  | .arrival key gang bar gen dev ctx => { s with heard := ⟨key, gang, bar, gen, dev, ctx⟩ :: s.heard }
  | .release key gang bar gen => s.releaseGang key gang bar gen
  | .update _ _ _ _ _ _ _ _ | .candidates _ _ _ _ => s.receive body
  | .request dev owner pa zero req => s.servePeer dev owner pa zero req
  | .data pa bs lost => s.answerAsk (flowCtx flow) (fun a => a.pa = pa && a.n = bs.length) (.data bs lost)
  | .done pa lost => s.answerAsk (flowCtx flow) (fun a => a.pa = pa && a.n = 0) (.done lost)
  | .poisoned owner line => s.answerLost (flowCtx flow) owner line
  | .refusal | .ack _ _ | .void => s

/-- Deliver the held packets of a flow while the next one is held; `n` bounds them. -/
def State.deliverHeld (s : State) (k : Nat) : Nat → State
  | 0 => s
  | n + 1 =>
    let f := s.inflow k
    match f.held.find? fun p => p.seq = f.expect with
    | none => s
    | some p =>
      let s : State := { s with inflows := mset s.inflows k { f with
        expect := (f.expect + 1) % 2 ^ 32, held := f.held.filter fun q => q.seq != p.seq } }
      (s.deliverPacket k p.body).deliverHeld k n

/-- The place of a packet's number before the next expected one (R387). -/
def seqLead (seq expect : Nat) : Nat := (seq + 2 ^ 32 - expect % 2 ^ 32) % 2 ^ 32

/-- PACKET_ARRIVAL: an acknowledgement, which lets packets out that wait, or a packet of a flow that is delivered, held or discarded. A
packet that is accepted, or comes again, is acknowledged (R387, log entry 108). -/
def execPacketArrival (flow seq : Nat) (body : Payload) (s : State) : Host.Outcome State Fault Refusal :=
  if s.boot != .ready then .next s
  else
    match body with
    | .ack k n =>
      let f := s.flow k
      .next (if s.path (flowEnd k) && f.unacked.any fun p => p.seq = n then
        { s with flows := mset s.flows k (({ f with unacked := f.unacked.filter fun p => p.seq != n } : Flow).fill s.cycle) } else s)
    | _ =>
      let f := s.inflow flow
      let d := seqLead seq f.expect
      let f' : Inflow := { f with acked := some (seq % 2 ^ 32, s.cycle) }
      if !s.path (flowEnd flow) then .next s
      else if d = 0 then
        let s : State := { s with inflows := mset s.inflows flow { f' with expect := (f.expect + 1) % 2 ^ 32 } }
        .next ((s.deliverPacket flow body).deliverHeld flow f.held.length)
      else if d < 4096 then
        let held := if f.held.any fun p => p.seq = seq % 2 ^ 32 then f.held else f.held ++ [{ seq := seq % 2 ^ 32, body := body }]
        .next { s with inflows := mset s.inflows flow { f' with held := held } }
      else if 2 ^ 31 ≤ d then .next { s with inflows := mset s.inflows flow f' }
      else .next s

/-! ## Refusals (R385) -/

/-- Hold a fault of A that an access of a word has met after its issue. -/
def State.holdAt (s : State) (task cell pc va : Nat) (f : FaultCode) : State :=
  s.holdAndSettle task { code := f, engine := 1, va := BitVec.ofNat 64 va, pc := pc, cell := cell }

/-- PROTECTION at an access of a word that has issued. -/
def State.refuseFly (s : State) (ctx cell id : Nat) : Option State :=
  (s.flyOf ctx cell id).bind fun (_, t, f) => if f.op.ref.isSome then some (s.flyFault t cell f .protection 0 0) else none

/-- PROTECTION at an atomic that waits for its slot. -/
def State.refuseAtomic (s : State) (ctx cell id : Nat) : Option State :=
  (s.goTo ctx cell).here.bind fun (c, t) => (c.scWait.bind ScWait.op).bind fun a =>
    if c.nextFly = id then
      some (((s.updCell ctx cell fun c => { c with scWait := none }).goTo ctx cell).raiseAt .a c t .protection 0
        (BitVec.ofNat 64 a.r.va) 0)
    else none

/-- PROTECTION at a reduction. -/
def State.refuseRed (s : State) (ctx cell id : Nat) : Option State :=
  (s.reds.find? fun r => r.ctx = ctx && r.cell = cell && r.id = id).map fun r =>
    { s with reds := s.reds.erase r }.holdRed r .protection 0 0

/-- The word of a copy, a weight-store write or a stream of number `id`. -/
def Cell.movePc (c : Cell) (id : Nat) : Option Nat :=
  ((c.copies.find? fun x => x.id = id).map Copy.pc <|> (c.wsts.find? fun w => w.id = id).map Wst.pc) <|>
    (c.streams.find? fun u => u.id = id).map StreamUnit.pc

/-- PROTECTION at a copy, a weight-store write or a stream. -/
def State.refuseMove (s : State) (ctx cell id va : Nat) : Option State :=
  (s.goTo ctx cell).here.bind fun (c, t) => (c.movePc id).map fun pc => s.holdAt t.id cell pc va .protection

/-- The word whose copy wrote the byte of the scratchpad that came from a virtual address. -/
def Cell.originAt (c : Cell) (va : Nat) : Nat :=
  (c.core.origins.findSome? fun p => match p.2 with
    | .copied pc v lo hi => if v + lo ≤ va && va < v + hi then some pc else none
    | .stage => none).getD 0

/-- PROTECTION at the table read of a `bksel` (R129), or at the read of a refetch (R258). -/
def State.refuseIssue (s : State) (ctx cell va : Nat) : State :=
  match (s.goTo ctx cell).here with
  | some (c, t) =>
    if c.refetch then s.holdAt t.id cell (c.originAt va) va .protection
    else (s.goTo ctx cell).raiseAt .c c t .protection 0 (BitVec.ofNat 64 va) 0
  | none => s

/-- PROTECTION at the publication of a line that its home has refused at the check (log entry 100). -/
def State.refuseCheck (s : State) (ctx cell line va : Nat) : State :=
  let lines (t : Task) : List StoreLine := ((s.getCell ctx cell).map fun c => (c.bufOf t.id).lines).getD []
  match (s.tasks.map Prod.snd).find? fun t => t.ctx = ctx && s.atPour t && (lines t).any fun l => l.line = line with
  | some t => s.holdAndSettle t.id { code := .protection, va := BitVec.ofNat 64 va, cell := cell }
  | none => s

/-- The number that PEER_REFUSAL gives a request: that of its word or reduction; from 2^32 on, the other ones. -/
def Asker.number : Asker → Nat
  | .word n | .red n => n
  | .issue => 2 ^ 32
  | .capsule => 2 ^ 32 + 1
  | .router => 2 ^ 32 + 2
  | .check l | .line l => 2 ^ 33 + l

/-- What the refusal of a request does: PROTECTION at its access, or at the publication of its line. Nothing is left of one for which
nothing waits, nor of what a router has sent on. -/
def State.refuse (s : State) (a : Ask) : State :=
  if a.dead then s
  else
    match a.who with
    | .word id => (s.refuseFly a.ctx a.cell id <|> s.refuseAtomic a.ctx a.cell id <|> s.refuseMove a.ctx a.cell id a.va).getD s
    | .red id => (s.refuseRed a.ctx a.cell id).getD s
    | .issue => s.refuseIssue a.ctx a.cell a.va
    | .check l => s.refuseCheck a.ctx a.cell l a.va
    | .line _ => s.holdLate a .protection 0 0
    | .capsule => { s with asks := s.asks ++ [{ a with ans := some .refused }] }
    | .router => s

/-- PEER_REFUSAL: the oldest open request of a cell with a number is refused (log entry 100). -/
def execPeerRefusal (ctx cell id : Nat) (s : State) : Host.Outcome State Fault Refusal :=
  match s.asks.find? fun a => a.ctx = ctx && a.cell = cell && a.isOpen && a.who.number = id with
  | some a => .next (({ s with asks := s.asks.erase a } : State).refuse a)
  | none => .next s

/-! ## Lost peers (R390) -/

/-- A request to a lost peer that nothing waits for any more, or that only asks. -/
def Ask.idle (a : Ask) : Bool := a.dead || match a.who with | .check _ => true | _ => false

/-- An outstanding request to a lost peer ends, and writes a record: what a router has sent on is gone, a published line leaves a fault,
and the rest ends at its access (log entry 122). -/
def State.loseAsk (s : State) (a : Ask) : State :=
  let s := s.linkError a.ctx a.pa
  match a.who with
  | .router => { s with asks := s.asks.erase a }
  | .line _ => ({ s with asks := s.asks.erase a } : State).holdLate a .uncorrectable 0 0
  | _ => { s with asks := s.asks.map fun b => if b == a then b.lose else b }

/-- The requests to a lost peer have no answer to come. -/
def State.loseAsks (s : State) (dev : Nat) : State :=
  let lost (a : Ask) : Bool := s.peerOf a.pa = some dev && a.isOpen
  (s.asks.filter fun a => lost a && !a.idle).foldl State.loseAsk { s with asks := s.asks.filter fun a => !(lost a && a.idle) }

/-- A collective packet that is on its way to a lost peer. Each cell that waits for the episode of an arrival faults at its `barv` (log
entry 101); the update of a window is its word's request; what a router has sent leaves the record alone. -/
def State.loseCollective (s : State) (ctx : Nat) (body : Payload) : State :=
  match body with
  | .arrival _ _ bar gen _ ctx =>
    (s.cells.filter fun q => q.1 / 1024 = ctx).foldl (fun (s : State) q =>
      let b := q.2.core.bars[Fin.ofNat 32 bar]
      match q.2.task with
      | some t =>
        if b.st == .arrived && b.gen = gen && b.scope == .dom then
          s.holdAndSettle t { code := .uncorrectable, engine := 0, pc := b.pc, cell := q.1 % 1024 }
        else s
      | none => s) (s.linkError ctx 0)
  | .update _ _ _ pa _ _ _ _ => if peerBase ≤ pa then s.linkError ctx 0 else s
  | .candidates _ _ _ _ | .release _ _ _ _ => s.linkError ctx 0
  | _ => s

/-- The collective packets that a lost peer has not acknowledged. -/
def State.loseCollectives (s : State) (dev : Nat) : State :=
  (s.flows.filter fun f => flowClass f.1 = 2 && flowEnd f.1 = dev).foldl (fun (s : State) f =>
    (f.2.unacked.map Packet.body ++ f.2.waiting).foldl (fun (s : State) b => s.loseCollective (flowCtx f.1) b) s) s

/-- What a flow has on its way has ended: its packets keep their numbers and do nothing any more. -/
def Flow.emptied (f : Flow) : Flow := { f with unacked := f.unacked.map fun p => { p with body := .void }, waiting := [] }

/-- The requests and collective packets to a lost peer are over; what it has asked for is still answered. -/
def State.loseFlows (s : State) (dev : Nat) : State :=
  { s with flows := s.flows.map fun f => if flowEnd f.1 = dev && flowClass f.1 != 1 then (f.1, f.2.emptied) else f }

/-- PEER_UNREACHABLE: no path is left to a device of the domain; its range is unbacked, and what is outstanding ends. -/
def execPeerUnreachable (dev : Nat) (s : State) : Host.Outcome State Fault Refusal :=
  if s.boot != .ready || s.path dev || dev ∈ s.peerDown || dev = s.blob.device || !(dev ∈ s.blob.domain) then .next s
  else .next ((({ s with peerDown := dev :: s.peerDown } : State).loseCollectives dev).loseAsks dev |>.loseFlows dev)

/-! ## The host's window (R269, R270, R381, R382) -/

/-- The local address of a window offset; nothing beyond the window or the memory. -/
def State.windowPa (s : State) (off size : Nat) : Option Nat :=
  let base := (s.reg 0 0x2900).toNat
  let gib := (s.reg 0 0x2908).toNat
  if off + size ≤ gib * 2 ^ 30 && base + off + size ≤ s.hbmCap then some (base + off) else none

/-- The first consumption of a poisoned line by the host (R270). -/
def State.hostConsume (s : State) (line : Nat) : State :=
  if line ∈ s.consumed then s else { s.errorAt 52 true 4 0 4 line (s.ownerOf line) with consumed := line :: s.consumed }

/-- HOST_MEM_ACCESS: a read, or a write of the bytes that `data` holds, in one line, over a host link that carries it. Outside the
window it changes nothing. -/
def execHostMemAccess (off size : Nat) (data : Option (List Byte)) (s : State) : Host.Outcome State Fault Refusal :=
  let n := match data with | some bs => bs.length | none => size
  match s.windowPa off n with
  | none => .next s
  | some pa =>
    if s.boot != .ready || !(s.port 26).carries || n = 0 || 64 < pa % 64 + n then .next s
    else
      match data with
      | none => .next (if pa / 64 ∈ s.poison then s.hostConsume (pa / 64) else s)
      | some bs =>
        let l := lineOf (pa % 64) bs
        if pa / 64 ∈ s.poison && l.1 != BitVec.allOnes 64 then .next (s.hostConsume (pa / 64))
        else .next (s.writeLine 0 (pa / 64) l.1 l.2)

end Sys2Proof.Machine
end

