-- ==== Sys2Proof/Machine/Contexts.lean ====
section
/-! DEFINITION. Contexts: their slots and save areas (R351 to R356), and the gang switch with its role flip (R355 to R359,
R238, R239). -/

namespace Sys2Proof.Machine

open Sys2Proof

/-! ## Slots -/

def Part.slot (p : Part) (n : Nat) : Slot := (p.slots[n]?).getD {}

def Part.setSlot (p : Part) (n : Nat) (q : Slot) : Part := if h : n < 34 then { p with slots := p.slots.set n q } else p

/-- A capsule command works on a slot (R379). -/
def State.slotInCapsule (s : State) (part slot : Nat) : Bool := s.capBusy.any fun b => b.part = part && b.slot = slot

/-- A context command changes a slot (R379): FETCH and PARK their slot and slot 1, SWITCH slots 0 and 1, HALT slot 0. -/
def Part.slotInCommand (p : Part) (slot : Nat) : Bool :=
  match p.busy with
  | some b => if b.op = 2 || b.op = 3 then slot = b.slot || slot = 1 else if b.op = 4 then slot < 2 else slot = 0
  | none => false

/-- The seal key of a slot goes with the context (R370). -/
def State.moveKey (s : State) (part a b : Nat) : State :=
  match mget s.sealKeys (64 * part + a) with
  | some k => { s with sealKeys := mset (mdel s.sealKeys (64 * part + a)) (64 * part + b) k }
  | none => { s with sealKeys := mdel s.sealKeys (64 * part + b) }

/-! ## Save areas (R353) -/

/-- The cells of a partition in increasing CELLXYZ. -/
def Part.cellList (p : Part) : List Nat := (List.range 640).filter fun n => columnOf n ∈ p.cols

def mib : Nat := 2 ^ 20
/-- The bytes of one cell record. -/
def cellRecord : Nat := 1408 * 1024
/-- The bytes of a save area of `n` columns. -/
def saveSize (n : Nat) : Nat := n * 48 * mib
/-- The offset of the fields after the scratchpad and the banks, and of the region that the host may not write. -/
def fieldBase : Nat := mib + 262144
def closedBase : Nat := fieldBase + 384
def closedSize : Nat := 130688

/-- A region without a stated layout, with the CRC-64 over it as its last eight bytes. -/
def State.closedRegion (s : State) (n : Nat) : State × List Byte :=
  let (s, bs) := s.freeBytes (n - 8)
  (s, bs ++ leBytes (crc64 bs).toNat 8)

/-- The fields of a cell record from 1.25 MiB on that the host may write. -/
def Cell.recordFields (c : Cell) : List Byte :=
  let k := c.core
  let regs := k.sregs.toList ++ k.aregs.toList
  let phase := match c.ckpts.head? with | some p => p.2.phase | none => k.phase
  leBytes k.pc.c 8 ++ leBytes k.pc.a 8 ++ leBytes k.pc.v 8 ++ leBytes k.pc.m 8 ++ leBytes k.callDepth 8 ++ leBytes 0 24 ++
    (regs.flatMap fun r => leBytes r.val.toNat 8) ++ (regs.flatMap fun r => leBytes r.tag.val 1) ++
    leBytes k.bankMap.toNat 16 ++ leBytes phase.toNat 8 ++ leBytes 0 8

/-- The bytes of a cell's banks in their order (R245). -/
def Cell.allBanks (c : Cell) : List Byte := (List.range 128).flatMap fun b => bankBytes (bankRows c.banks b)

/-- The tasks of a context that have not committed, the latest first. -/
def State.openIds (s : State) (ctx : Nat) : List Nat :=
  (latestFirst ((s.tasks.map Prod.snd).filter fun t => t.ctx = ctx)).map Task.id

/-- The scratchpad as the committed instants left it: without the writes of the tasks `ids`, the latest first. -/
def Cell.committedSpad (c : Cell) (ids : List Nat) : Memory := undoSpad c.spad (ids.flatMap fun n => (c.bufOf n).undo)

/-- Write one cell record. -/
def State.saveCell (s : State) (ctx base cell : Nat) : State :=
  let c := (s.getCell ctx cell).getD {}
  let (s, bs) := s.closedRegion closedSize
  s.blockWrite ctx base (readBytes (c.committedSpad (s.openIds ctx)) 0 mib ++ c.allBanks ++ c.recordFields ++ bs)

/-- Write a context's save area: the cell records, then the partition record. -/
def State.saveContext (s : State) (x : Ctx) (p : Part) : State :=
  let l := p.cellList
  let s := l.zipIdx.foldl (fun (s : State) n => s.saveCell x.num (x.save + cellRecord * n.2) n.1) s
  let at_ := cellRecord * l.length
  let (s, bs) := s.closedRegion (saveSize p.cols.length - at_)
  s.blockWrite x.num (x.save + at_) bs

/-- The CRC at the end of a region agrees. -/
def State.crcOk (s : State) (a n : Nat) : Bool :=
  let bs := readBytes s.mem a (n - 8)
  readLe s.mem (a + n - 8) 8 = (crc64 bs).toNat

/-- A cell record that a FETCH accepts: its CRC, its reserved bits, its call depth. -/
def State.recordOk (s : State) (base : Nat) : Bool :=
  let f := base + fieldBase
  s.crcOk (base + closedBase) closedSize && readLe s.mem (f + 32) 8 ≤ 255 && readLe s.mem (f + 40) 24 = 0 &&
    ((readBytes s.mem (f + 320) 32).all fun b => b.toNat < 16) && readLe s.mem (f + 368) 8 < 2

/-- A save area that a FETCH accepts: no line of it is lost, and every record is good. -/
def State.saveOk (s : State) (x : Ctx) (p : Part) : Bool :=
  let l := p.cellList
  let at_ := cellRecord * l.length
  let n := saveSize p.cols.length
  !(s.poison.any fun q => x.save < 64 * q + 64 && 64 * q < x.save + n) &&
    (l.zipIdx.all fun n => s.recordOk (x.save + cellRecord * n.2)) && s.crcOk (x.save + at_) (n - at_)

/-- A register of a cell record: it is written, and sound then (R111, log entry 117). One that awaits data goes on doing so. -/
def recordReg (m : Memory) (f i : Nat) (old : SVal) : SVal :=
  { val := BitVec.ofNat 64 (readLe m (f + 64 + 8 * i) 8), tag := Fin.ofNat 16 (readLe m (f + 320 + i) 1), pend := old.pend }

/-- A cell over another committed scratchpad: the units that uncommitted tasks have written keep their bytes, and the
earliest undo record of each unit takes the committed bytes (log entry 94). -/
def Cell.rebase (c : Cell) (m : Memory) (ids : List Nat) : Cell :=
  let undone (n : Nat) : List Nat := (c.bufOf n).undo.map Prod.fst
  { c with
    spad := (ids.flatMap undone).eraseDups.foldl (fun x u => writeBytes x (64 * u) (readBytes c.spad (64 * u) 64)) m
    bufs := c.bufs.map fun b =>
      let earlier := (ids.dropWhile (· != b.task)).drop 1
      { b with undo := b.undo.map fun r =>
          if earlier.any fun n => r.1 ∈ undone n then r else (r.1, (lineOf 0 (readBytes m (64 * r.1) 64)).2) } }

/-- A cell as its record has it: the fields that the host may have written come from memory. -/
def Cell.ofRecord (c : Cell) (m : Memory) (base : Nat) (ids : List Nat) : Cell :=
  let f := base + fieldBase
  let k := c.core
  let ph := readLe m (f + 368) 8 = 1
  let core : Core := { k with
    pc := ⟨readLe m f 8, readLe m (f + 8) 8, readLe m (f + 16) 8, readLe m (f + 24) 8⟩
    callDepth := readLe m (f + 32) 8
    sregs := Vector.ofFn fun i => recordReg m f i.val k.sregs[i]
    aregs := Vector.ofFn fun i => recordReg m f (16 + i.val) k.aregs[i]
    bankMap := BitVec.ofNat 128 (readLe m (f + 352) 16)
    phase := if c.ckpts.isEmpty then ph else k.phase }
  { c.rebase (writeBytes [] 0 (readBytes m base mib)) ids with
    core := core
    ckpts := match c.ckpts with
      | [] => []
      | q :: rest => (q.1, { q.2 with phase := ph }) :: rest
    banks := (List.range 128).foldl (fun b i => setRows b i 0 (bankOfBytes 8 (readBytes m (base + mib + 2048 * i) 2048))) [] }

/-- Take a context's cells from its save area. -/
def State.loadContext (s : State) (x : Ctx) (p : Part) : State :=
  p.cellList.zipIdx.foldl (fun (s : State) n =>
    s.putCell x.num n.1 (((s.getCell x.num n.1).getD {}).ofRecord s.mem (x.save + cellRecord * n.2) (s.openIds x.num))) s

/-! ## Context commands (R352, R356) -/

/-- The STATUS of a function's CTXCMD. -/
def State.ctxStatus (s : State) (fn n : Nat) : State := s.writeMasked fn 0x400 (fieldMask 22 20) (BitVec.ofNat 64 (n * 2 ^ 20))

/-- Put a partition. -/
def State.putPart (s : State) (n : Nat) (p : Part) : State := { s with parts := mset s.parts n p }

/-- The function that writes a context command's GO on a turn. -/
def Act.ctxFn : Act → Option Nat
  | .event (.setup f _) | .event (.fetch f _) | .event (.park f _) | .event (.switch f _) | .event (.halt f _)
  | .event (.ctxResume f _) | .event (.ctxEnd f _) => some f
  | _ => none

/-- The function that writes a capsule command's GO on a turn. -/
def Act.capFn : Act → Option Nat
  | .event (.attest f _ _) | .event (.keywrap f _ _) | .event (.seal f _ _) | .event (.restore f _ _)
  | .event (.ctrquote f _ _) | .event (.ctrfree f _ _) => some f
  | _ => none

/-- A function of lower number that is bound to the same partition writes its GO in the same cycle, earlier (`go`) or on a
later turn of the agenda (R352, R368, log entry 87). -/
def State.outranked (s : State) (part fn : Nat) (go : Option (Nat × Nat)) (who : Act → Option Nat) : Bool :=
  (go.any fun g => g.1 = s.cycle && g.2 < fn) ||
    (s.agenda.takeWhile fun t => t.cycles = 0).any fun t =>
      (who t.act).any fun f => f < fn && s.fnPart f == some part

/-- A command's GO: ignored while BUSY is 1, and beside one of a lower function in the same cycle. -/
def ctxGo (op fn slot : Nat) (s : State) (run : Nat → Part → State → State) : Host.Outcome State Fault Refusal :=
  match s.fnPart fn with
  | none => .next s
  | some n =>
    match mget s.parts n with
    | none => .next s
    | some p =>
      if s.outranked n fn p.go Act.ctxFn then .next s
      else
        let p : Part := { p with go := some (s.cycle, fn) }
        let s := (s.putPart n p).writeMasked fn 0x400 0x3F0F (BitVec.ofNat 64 (op + 256 * slot))
        .next (if p.busy.isSome then s else run n p s)

/-- The column mask and SAFEPTMAX that a measurement begins with (R366). -/
def Part.cfgBytes (p : Part) : List Byte := leBytes ((p.cols.eraseDups.map fun c => 2 ^ c).sum + 2 ^ 32 * p.safept) 8

/-- Two ranges of bytes overlap. -/
def overlaps (a n b m : Nat) : Bool := a < b + m && b < a + n

/-- A context number that no context of the device has, nor a RESTORE in progress makes (R351). -/
def State.numberFree (s : State) (n : Nat) : Bool :=
  n != 0 && (mget s.ctxs n).isNone && s.capBusy.all fun b => b.target.all fun x => x.num != n

/-- A save area that lies in local memory and meets no other, nor one that a RESTORE in progress fills (R353). -/
def State.saveFree (s : State) (base n : Nat) : Bool :=
  let size (p : Option Part) : Nat := saveSize ((p.map fun q => q.cols.length).getD 0)
  base + n ≤ s.hbmCap && (s.ctxs.all fun x => !overlaps base n x.2.save (size ((s.partOfCtx x.1).map Prod.snd))) &&
    s.capBusy.all fun b => b.target.all fun x => !overlaps base n x.save (size (mget s.parts b.part))

/-- The context that the registers of a function describe. -/
def State.ctxOfRegs (s : State) (fn meas : Nat) : Ctx :=
  { num := (s.reg fn 0x410).toNat % 1024, gang := (s.reg fn 0x410).toNat / 65536 % 65536
    root := (s.reg fn 0x418).toNat, save := (s.reg fn 0x420).toNat, meas := meas }

/-- SETUP: a new Parked context. -/
def execSetup (fn slot : Nat) (s : State) : Host.Outcome State Fault Refusal :=
  ctxGo 1 fn slot s fun n p s =>
    let x := s.ctxOfRegs fn (beNat (sha256 (List.replicate 32 0 ++ p.cfgBytes)))
    if slot < 2 || 33 < slot || (p.slot slot).st != .empty || s.slotInCapsule n slot then s.ctxStatus fn 1
    else if !s.saveFree x.save (saveSize p.cols.length) then s.ctxStatus fn 2
    else if !s.numberFree x.num then s.ctxStatus fn 4
    else
      let s : State := { s with ctxs := mset s.ctxs x.num x }
      let s := s.putPart n (p.setSlot slot { st := .parked, ctx := x.num })
      (s.saveContext x p).ctxStatus fn 0

/-- FETCH: the copy into the shadow storage begins. -/
def execFetch (fn slot : Nat) (s : State) : Host.Outcome State Fault Refusal :=
  ctxGo 2 fn slot s fun n p s =>
    if (p.slot slot).st != .parked || (p.slot 1).st != .empty || s.slotInCapsule n slot || s.slotInCapsule n 1 then s.ctxStatus fn 1
    else s.putPart n { p with busy := some { op := 2, slot := slot, fn := fn, at_ := 0 } }

/-- FETCH_DONE (R353, R355). -/
def execFetchDone (part : Nat) (s : State) : Host.Outcome State Fault Refusal :=
  match mget s.parts part with
  | none => .next s
  | some p =>
    match p.busy with
    | some b =>
      if b.op != 2 then .next s
      else
        let s := s.putPart part { p with busy := none }
        match mget s.ctxs (p.slot b.slot).ctx with
        | some x =>
          if s.saveOk x p then
            let q := ({ p with busy := none }.setSlot b.slot {}).setSlot 1 { st := .shadow, ctx := x.num }
            .next ((((s.loadContext x p).putPart part q).moveKey part b.slot 1).ctxStatus b.fn 0)
          else .next (s.ctxStatus b.fn 3)
        | none => .next (s.ctxStatus b.fn 1)
    | none => .next s

/-- PARK: the copy of the shadow storage to the save area begins. -/
def execPark (fn slot : Nat) (s : State) : Host.Outcome State Fault Refusal :=
  ctxGo 3 fn slot s fun n p s =>
    if slot < 2 || 33 < slot || (p.slot slot).st != .empty || (p.slot 1).st != .shadow || s.slotInCapsule n slot ||
        s.slotInCapsule n 1 then s.ctxStatus fn 1
    else s.putPart n { p with busy := some { op := 3, slot := slot, fn := fn, at_ := 0 } }

/-- PARK_DONE. -/
def execParkDone (part : Nat) (s : State) : Host.Outcome State Fault Refusal :=
  match mget s.parts part with
  | none => .next s
  | some p =>
    match p.busy with
    | some b =>
      if b.op != 3 then .next s
      else
        match mget s.ctxs (p.slot 1).ctx with
        | some x =>
          let q := ({ p with busy := none }.setSlot 1 {}).setSlot b.slot { st := .parked, ctx := x.num }
          .next ((((s.saveContext x p).putPart part q).moveKey part 1 b.slot).ctxStatus b.fn 0)
        | none => .next ((s.putPart part { p with busy := none }).ctxStatus b.fn 1)
    | none => .next s

/-- SWITCH: a gang switch is requested. It and HALT act at the AT that stands at GO (log entry 114), in
a Halted slot too (log entry 139). -/
def execSwitch (fn slot : Nat) (s : State) : Host.Outcome State Fault Refusal :=
  ctxGo 4 fn slot s fun n p s =>
    let z := p.slot 0
    if z.st == .ended || p.wedged || (z.st == .empty && (p.slot 1).st != .shadow) || s.slotInCapsule n 0 || s.slotInCapsule n 1 then
      s.ctxStatus fn 1
    else s.putPart n { p with busy := some { op := 4, slot := slot, fn := fn, at_ := (s.reg fn 0x408).toNat } }

/-- HALT: a halt is requested. -/
def execHalt (fn slot : Nat) (s : State) : Host.Outcome State Fault Refusal :=
  ctxGo 5 fn slot s fun n p s =>
    if (p.slot 0).st != .running || s.slotInCapsule n 0 then s.ctxStatus fn 1
    else s.putPart n { p with busy := some { op := 5, slot := slot, fn := fn, at_ := (s.reg fn 0x408).toNat } }

/-! ## When a switch or a halt falls due (R238, R239, R357) -/

/-- Who has first claim in a pair: whether the floor twin, whether the crown twin. -/
def firstClaim (a b : Licence) : Bool × Bool :=
  let yields (x y : Licence) : Bool := x.pass || (x.cyc ≤ x.age && y.claim)
  if a.held then (!yields a b, yields a b)
  else if b.held then (yields b a, !yields b a)
  else (false, false)

/-- Record the first claims of a context's pairs. -/
def State.recordFirst (s : State) (ctx : Nat) (p : Part) : State :=
  (p.cellList.filter (· < 320)).foldl (fun (s : State) n =>
    let lic (k : Nat) : Licence := ((s.getCell ctx k).map Cell.lic).getD {}
    let f := firstClaim (lic n) (lic (n + 320))
    (s.updCell ctx n fun c => { c with lic := { c.lic with firstNext := f.1 } }).updCell ctx (n + 320) fun c =>
      { c with lic := { c.lic with firstNext := f.2 } }) s

/-- A switch or halt has fallen due: cells that have already stopped give up their licence, which is not saved; any other licence that
is held is Halting until its cell's safe point (R238). -/
def State.dropLicences (s : State) (ctx : Nat) : State :=
  { s with cells := s.cells.map fun q =>
      if q.1 / 1024 != ctx then q
      else (q.1, if s.cellStopped q.2 then q.2.giveLicence else { q.2 with lic := { q.2.lic with halting := q.2.lic.held } }) }

/-- A command's time has come: TSNOW has reached AT, and a device that has not been synchronised holds commands with an AT
(R356, R396). -/
def State.isDue (s : State) (b : CtxBusy) : Bool := !b.due && (b.at_ = 0 || (s.synced && b.at_ ≤ s.tsnow))

/-- The switch or halt takes effect in every cell of the partition. -/
def State.fallDue (s : State) (part : Nat) (p : Part) (b : CtxBusy) : State :=
  let p : Part := { p with busy := some { b with due := true } }
  if (p.slot 0).st == .running then
    let ctx := (p.slot 0).ctx
    ((s.putPart part (p.setSlot 0 { p.slot 0 with st := .halting })).recordFirst ctx p).dropLicences ctx
  else s.putPart part p

/-- SWITCH_DUE. -/
def execSwitchDue (part : Nat) (s : State) : Host.Outcome State Fault Refusal :=
  match mget s.parts part with
  | none => .next s
  | some p =>
    match p.busy with
    | some b => .next (if b.op = 4 && s.isDue b && !p.wedged then s.fallDue part p b else s)
    | none => .next s

/-- HALT_DUE. -/
def execHaltDue (part : Nat) (s : State) : Host.Outcome State Fault Refusal :=
  match mget s.parts part with
  | none => .next s
  | some p =>
    match p.busy with
    | some b => .next (if b.op = 5 && s.isDue b && !p.wedged then s.fallDue part p b else s)
    | none => .next s

/-! ## The role flip (R355, R356) -/

/-- The cells of a context stand still; the licence is not saved. -/
def State.stopCells (s : State) (ctx : Nat) : State :=
  { s with cells := s.cells.map fun q =>
      if q.1 / 1024 = ctx then
        (q.1, { q.2.giveLicence with halted := true, lic := { q.2.giveLicence.lic with first := false } })
      else q }

/-- The cells of a context issue again; the recorded first claims take effect (R236, R239), but in a disabled cell (R29). -/
def State.startCells (s : State) (ctx : Nat) (p : Part) : State :=
  { s with
    cells := s.cells.map fun q =>
      if q.1 / 1024 = ctx then
        let first := q.2.lic.firstNext && !s.cellOff (q.1 % 1024)
        (q.1, { q.2 with
          halted := false
          lic := { q.2.lic with held := false, halting := false, claim := first, first := first, firstNext := false
                                pass := false, used := 0, age := 0 } })
      else q
    pairs := (p.cellList.filter (· < 320)).foldl (fun m n =>
      mset m n { (mget m n).getD {} with firstCyc := 0, passing := none }) s.pairs }

/-- The running copy and the shadow copy change places, each with its seal key (R370). The context that comes to the front takes its
receive buffers first (R359), and then what it owes. -/
def State.flip (s : State) (part : Nat) (p : Part) : State :=
  let a := p.slot 0
  let b := p.slot 1
  let s := if a.st == .empty then s else s.stopCells a.ctx
  let s := if b.st == .empty then s else s.startCells b.ctx p
  let q := (p.setSlot 0 (if b.st == .empty then {} else { b with st := .running })).setSlot 1
    (if a.st == .empty then {} else { a with st := .shadow })
  let k0 := if a.st == .empty then none else mget s.sealKeys (64 * part)
  let k1 := if b.st == .empty then none else mget s.sealKeys (64 * part + 1)
  let put (m : AMap SealKey) (i : Nat) (k : Option SealKey) : AMap SealKey := match k with | some k => mset m i k | none => mdel m i
  let s : State := { s.putPart part q with sealKeys := put (put s.sealKeys (64 * part) k1) (64 * part + 1) k0 }
  if b.st == .empty then s else (s.replay b.ctx).thaw b.ctx

/-- An access of a word that has issued is on its way: nothing keeps it from performing, and its link carries it. -/
def State.inFlight (s : State) (ctx cell : Nat) (c : Cell) (f : Fly) : Bool := s.mayPerform ctx cell c f && f.op.ref.isSome

/-- Every cell of a context has halted, its reductions and accesses in flight have performed (R357), and its M engines have
completed every started command (R231). -/
def State.drained (s : State) (ctx : Nat) : Bool :=
  s.allStopped ctx && (s.reds.all fun r => r.ctx != ctx) && s.cells.all fun p =>
    p.1 / 1024 != ctx || (p.2.cmds.isEmpty && p.2.fly.all fun f => !s.inFlight ctx (p.1 % 1024) p.2 f)

/-- ROLE_FLIP_DONE: the last cell has halted; a switch flips the roles, a halt leaves slot 0 Halted. -/
def execRoleFlipDone (part : Nat) (s : State) : Host.Outcome State Fault Refusal :=
  match mget s.parts part with
  | none => .next s
  | some p =>
    match p.busy with
    | some b =>
      let z := p.slot 0
      if (b.op != 4 && b.op != 5) || !b.due || p.wedged || (z.st == .halting && !s.drained z.ctx) then .next s
      else
        let p : Part := { p with busy := none }
        if b.op = 4 then .next ((s.flip part p).ctxStatus b.fn 0)
        else .next (((s.stopCells z.ctx).putPart part (p.setSlot 0 { z with st := .halted })).ctxStatus b.fn 0)
    | none => .next s

/-- CTX_RESUME: a Halted slot runs again, and takes its receive buffers (R359). -/
def execCtxResume (fn slot : Nat) (s : State) : Host.Outcome State Fault Refusal :=
  ctxGo 6 fn slot s fun n p s =>
    let z := p.slot 0
    if z.st != .halted || p.wedged || s.slotInCapsule n 0 then s.ctxStatus fn 1
    else ((((s.startCells z.ctx p).putPart n (p.setSlot 0 { z with st := .running })).replay z.ctx).thaw z.ctx).ctxStatus fn 0

/-- What a context leaves when its slot is emptied: the marks of its joined instances (R337), the licensed commands that have started,
with their licence, until they complete (R19, R333), and the flows of its number, whose packets are counted at the other ends too (R387),
with the requests that have no answer (log entry 99). -/
def State.forget (s : State) (ctx : Nat) : State :=
  let gang := ((mget s.ctxs ctx).map Ctx.gang).getD 0
  let alone := s.ctxs.all fun x => x.1 = ctx || x.2.gang != gang
  { s with
    ctxs := mdel s.ctxs ctx
    cells := (s.cells.filter fun c => c.1 / 1024 != ctx || !c.2.licensedCmds.isEmpty).map fun c =>
      if c.1 / 1024 = ctx then (c.1, c.2.emptied) else c
    asks := (s.asks.filter fun a => a.ctx != ctx || a.isOpen).map fun a => if a.ctx = ctx then { a with dead := true } else a
    recv := s.recv.filter fun r => r.1 != ctx
    kernels := s.kernels.filter fun k => k.ctx != ctx
    carafe := s.carafe.filter fun k => k.1 != ctx
    insts := s.insts.filter fun i => i.ctx != ctx
    parts := s.parts.map fun p => (p.1, { p.2 with blocked := mdel p.2.blocked ctx })
    groups := s.groups.filter fun g => g.2.ctx != ctx
    tasks := s.tasks.filter fun t => t.2.ctx != ctx
    carries := s.carries.filter fun k => k.ctx != ctx
    episodes := s.episodes.filterMap fun e => if e.ctx != ctx then some e else if e.gen = 0 then some { e with ctx := 0 } else none
    windows := s.windows.filter fun w => w.1 / 4096 != ctx
    filters := s.filters.filter fun f => f.ctx != ctx
    bridgeSums := if alone then s.bridgeSums.filter fun b => b.gang != gang else s.bridgeSums }

/-- END: a slot is emptied, and its instances are discarded (R97, R356, R370). -/
def execCtxEnd (fn slot : Nat) (s : State) : Host.Outcome State Fault Refusal :=
  ctxGo 7 fn slot s fun n p s =>
    let z := p.slot slot
    if !(z.st == .parked || z.st == .shadow || z.st == .halted || z.st == .ended) || s.slotInCapsule n slot then s.ctxStatus fn 1
    else
      let s := (s.insts.filter fun i => i.ctx = z.ctx).foldl (fun (s : State) i => s.discard i 0x13) s
      let s := (s.dropPending z.ctx).forget z.ctx
      let p := (mget s.parts n).getD p
      let s := s.putPart n ({ p with wedged := p.wedged && slot != 0 }.setSlot slot {})
      ({ s with sealKeys := mdel s.sealKeys (64 * n + slot) } : State).ctxStatus fn 0

end Sys2Proof.Machine
end

