-- ==== Sys2Proof/Machine/Capsule.lean ====
section
/-! DEFINITION. Capsules: measurement and identity (R366, R367), attestation and seal keys (R369, R370), counters (R371,
R372, R397), sealing (R373 to R375, R378) and restoring (R376, R377). -/

/-- The context that a record of another device holds: its layout is not stated (log entry 16). -/
opaque Sys2Proof.Config.foreignContext : Nat → Sys2Proof.Machine.Snapshot

namespace Sys2Proof.Machine

open Sys2Proof

/-! ## The identity of the device (R367) -/

def idkBytes : List Byte := beBytes Config.idkModulus.toNat 384
def sidh : List Byte := sha256 idkBytes

/-- A body with its signature under the identity key. -/
def idkSigned (body salt : List Byte) : List Byte :=
  body ++ pssSign Config.idkModulus.toNat Config.idkExponent.toNat body salt

/-! ## Commands (R368, R374) -/

/-- The status codes of R374. -/
inductive CapStatus | done | slot | nokey | stale | noattest | auth | meas | map | ctrfail | ccert | owner | number
  deriving DecidableEq, Repr

def CapStatus.code : CapStatus → Nat
  | .done => 0 | .slot => 1 | .nokey => 2 | .stale => 3 | .noattest => 4 | .auth => 5 | .meas => 6 | .map => 7
  | .ctrfail => 8 | .ccert => 9 | .owner => 10 | .number => 11

/-- The STATUS of a function's CAPCMD. -/
def State.capStatus (s : State) (fn : Nat) (c : CapStatus) : State :=
  s.writeMasked fn 0x600 (fieldMask 31 28) (BitVec.ofNat 64 (c.code * 2 ^ 28))

/-- A command's GO, which comes over the host link (R388): ignored while BUSY is 1, and beside one of a lower function in the same
cycle. -/
def capGo (op fn slot cidx : Nat) (s : State) (run : Nat → Part → State → State) : Host.Outcome State Fault Refusal :=
  match s.fnPart fn with
  | none => .next s
  | some n =>
    match mget s.parts n with
    | none => .next s
    | some p =>
      if !s.hostUp || s.outranked n fn p.capGo Act.capFn then .next s
      else
        let p : Part := { p with capGo := some (s.cycle, fn) }
        let s := (s.putPart n p).writeMasked fn 0x600 0x3F3F0F (BitVec.ofNat 64 (op + 256 * (slot % 64) + 65536 * (cidx % 64)))
        .next (if s.capBusy.any fun b => b.part = n then s else run n p s)

/-- CAPADDR and CAPAUX of a function. -/
def State.capAddr (s : State) (fn : Nat) : Nat := (s.reg fn 0x608).toNat
def State.capAux (s : State) (fn : Nat) : Nat := (s.reg fn 0x628).toNat

/-- The bytes of NONCE. -/
def State.capNonce (s : State) (fn : Nat) : List Byte := leBytes (s.reg fn 0x618).toNat 8 ++ leBytes (s.reg fn 0x620).toNat 8

/-! ### Memory of the commands (R249, R270, R273, R384) -/

/-- The lines of a range that lie on a peer. -/
def State.peerLines (s : State) (a n : Nat) : List Nat := if (s.peerOf a).isSome then unitsOf a n else []

/-- Bytes of the controller go to a peer, line by line; nothing waits for the answers. -/
def State.sendBytes (s : State) (ctx a : Nat) (bs : List Byte) : State :=
  (s.peerLines a bs.length).foldl (fun (s : State) l =>
    let lo := Nat.max a (64 * l)
    let part := (bs.drop (lo - a)).take (Nat.min (a + bs.length) (64 * l + 64) - lo)
    s.askNew { ctx := ctx, cell := 0, who := .capsule, va := 0, pa := lo, n := 0, dead := true } false (.write part)) s

/-- Write bytes of the controller, wherever they lie. -/
def State.controllerWrite (s : State) (ctx a : Nat) (bs : List Byte) : State :=
  let a := s.localPa a
  if (s.peerOf a).isSome then s.sendBytes ctx a bs else s.blockWrite ctx a bs

/-- Write an answer of the controller at ADDR and its length into CAPLEN. -/
def State.capAnswer (s : State) (fn addr : Nat) (bs : List Byte) : State :=
  ((s.controllerWrite 0 addr bs).setReg fn 0x610 (BitVec.ofNat 64 bs.length)).capStatus fn .done

/-- Read lines for the controller: a poisoned line of a KILL page ends the read, one of a ZERO page gives zeros; its first
consumption is recorded (R270). A lost word of a weight store ends it too (R273). -/
def State.controllerRead (s : State) (addr n : Nat) (zero : Bool := false) : State × Option (List Byte) :=
  let a := s.localPa addr
  let bad := (unitsOf a n).filter fun l => l ∈ s.poison
  let s := bad.foldl (fun (s : State) l =>
    if l ∈ s.consumed then s
    else { s.errorAt 52 true 4 0 4 l (s.ownerOf l) with consumed := l :: s.consumed }) s
  if (!zero && !bad.isEmpty) || s.wsBad.any fun w => a < 8 * w + 8 && 8 * w < a + n then (s, none)
  else (s, some ((List.range n).map fun i => if (a + i) / 64 ∈ bad then 0 else readByte s.mem (a + i)))

/-- Read at ADDR or AUX. A command whose GO ends it does not wait for a peer: what it has from there is open (log entry 129). -/
def State.addrRead (s : State) (addr n : Nat) : State × Option (List Byte) :=
  if (s.peerOf (s.localPa addr)).isSome then ((s.freeBytes n).1, some (s.freeBytes n).2) else s.controllerRead addr n

/-- The requests of a capsule command, under the number of its context. -/
def State.capAsks (s : State) (ctx : Nat) : List Ask := s.asks.filter fun a => a.ctx = ctx && a.who == .capsule && !a.dead

/-- A capsule command asks peers for lines, each once. -/
def State.askLines (s : State) (ctx : Nat) (ls : List Nat) : State :=
  ls.foldl (fun (s : State) l => s.askPeer ctx 0 .capsule 0 (64 * l) false (.read 64)) s

/-- Lines of peers have been answered. -/
def State.linesAsked (s : State) (ctx : Nat) (ls : List Nat) : Bool := ls.all fun l => s.asked ctx 0 .capsule (64 * l) 64

/-- Some request of a capsule command has a certain answer. -/
def State.capGot (s : State) (ctx : Nat) (x : Answer) : Bool := (s.capAsks ctx).any fun a => a.ans == some x

/-- What the peers have answered, as this device's view of them. -/
def State.hearCaps (s : State) (ctx : Nat) : State :=
  (s.capAsks ctx).foldl (fun (s : State) a => match a.ans with | some x => s.hear a.pa x | none => s) s

/-- The requests of a capsule command end with it. -/
def State.endCaps (s : State) (ctx : Nat) : State :=
  { s with asks := s.asks.filter fun a => !(a.ctx = ctx && a.who == .capsule && !a.dead) }

/-- The host link carries what a command reads and writes in the host's memory (R388). -/
def State.capLinked (s : State) (as : List Nat) : Bool := s.hostUp || as.all fun a => s.localPa a < hostBase

/-! ## Attestation and keys (R369, R370) -/

/-- The column mask of a partition. -/
def Part.columnMask (p : Part) : Nat := (p.cols.eraseDups.map fun c => 2 ^ c).sum

/-- ATTEST: the quote, and the partition's attestation nonce. -/
def execAttest (fn slot cidx : Nat) (s : State) : Host.Outcome State Fault Refusal :=
  capGo 1 fn slot cidx s fun n p s =>
    let (s, salt) := s.freeBytes 32
    let body := leBytes 0xA77E0001 4 ++ leBytes 0 4 ++ sidh ++ sha256 s.firmware ++ sha256 s.blob.bytes ++ s.capNonce fn ++
      leBytes p.columnMask 4 ++ leBytes 0 4 ++ beBytes Config.trkModulus.toNat 384
    let s : State := { s with capNonces := mset s.capNonces n (leNat (s.capNonce fn)) }
    s.capAnswer fn (s.capAddr fn) (idkSigned body salt)

/-- The checks of KEYWRAP and what it keeps. The nonce is consumed by its check. -/
def State.keywrap (s : State) (fn slot n : Nat) (p : Part) : State :=
  let (s, text) := s.addrRead (s.capAddr fn) 384
  match text.bind (oaepDecrypt Config.trkModulus.toNat Config.trkExponent.toNat) with
  | none => s.capStatus fn .auth
  | some m =>
    if m.length != 80 then s.capStatus fn .auth
    else
      let good := mget s.capNonces n == some (leNat (m.drop 64))
      let s : State := { s with capNonces := mdel s.capNonces n }
      let q := p.slot slot
      let meas := ((mget s.ctxs q.ctx).map Ctx.meas).getD 0
      if !good then s.capStatus fn .noattest
      else if 33 < slot || !(q.st == .empty || q.st == .parked) then s.capStatus fn .slot
      else if q.st == .parked && meas != beNat ((m.drop 32).take 32) then s.capStatus fn .meas
      else
        let k : SealKey := { key := beNat (m.take 32), meas := beNat ((m.drop 32).take 32) }
        ({ s with sealKeys := mset s.sealKeys (64 * n + slot) k } : State).capStatus fn .done

/-- KEYWRAP: a seal key for a slot, but for one that a context command is changing (R379). -/
def execKeywrap (fn slot cidx : Nat) (s : State) : Host.Outcome State Fault Refusal :=
  capGo 2 fn slot cidx s fun n p s => if p.slotInCommand slot then s.capStatus fn .slot else s.keywrap fn slot n p

/-! ## Counters (R371, R372) -/

def State.counter (s : State) (i : Nat) : Counter := (mget s.counters i).getD {}

/-- The owner that a key makes. -/
def SealKey.owner (k : SealKey) : Nat := beNat (sha256 (beBytes k.key 32))

/-- CTRQUOTE: a signed certificate of a counter. -/
def execCtrquote (fn slot cidx : Nat) (s : State) : Host.Outcome State Fault Refusal :=
  capGo 5 fn slot cidx s fun _ _ s =>
    let i := cidx % 64
    let (s, salt) := s.freeBytes 32
    let body := leBytes 0xCC7E0001 4 ++ leBytes i 2 ++ leBytes 0 2 ++ leBytes (s.counter i).val 8 ++ s.capNonce fn ++ sidh ++ idkBytes
    s.capAnswer fn (s.capAddr fn) (idkSigned body salt)

/-- A command asks the store, under a fresh nonce (R397). -/
def State.askStore (s : State) (b : CapBusy) : State :=
  let (s, nonce) := s.freeBytes 16
  { s with capBusy := s.capBusy ++ [{ b with store := true, nonce := leNat nonce }] }

/-- CTRFREE: the owner of a counter is to be cleared; the store answers. -/
def execCtrfree (fn slot cidx : Nat) (s : State) : Host.Outcome State Fault Refusal :=
  capGo 6 fn slot cidx s fun n p s =>
    if p.slotInCommand slot then s.capStatus fn .slot
    else
      match mget s.sealKeys (64 * n + slot) with
      | none => s.capStatus fn .nokey
      | some k =>
        if (s.counter (cidx % 64)).owner != k.owner then s.capStatus fn .owner
        else
          s.askStore { op := 6, fn := fn, part := n, slot := slot, cidx := cidx % 64, addr := s.capAddr fn, aux := s.capAux fn }

/-- A response of the store is good: the nonce of the request, a write count that advances as written, and the tag over both (R397, log
entry 120). -/
def State.storeOk (s : State) (b : CapBusy) (r : StoreAnswer) : Bool :=
  r.nonce = b.nonce && r.count = s.storeWrites + 1 &&
    r.tag == hmac256 (beBytes s.storeKey.toNat 32) (leBytes r.nonce 16 ++ leBytes r.count 8)

/-- STORE_RESPONSE: the store answers what a command asked for (R371, R397): CTRFAIL, or it is done. The owner may have changed
since the command began: a SEAL or CTRFREE with another key ends in OWNER. -/
def execStoreResponse (part : Nat) (r : StoreAnswer) (s : State) : Host.Outcome State Fault Refusal :=
  match s.capBusy.find? fun b => b.part = part && b.store with
  | none => .next s
  | some b =>
    let rest := s.capBusy.erase b
    let c := s.counter b.cidx
    let ends (s : State) (st : CapStatus) : State := ({ s with capBusy := rest } : State).capStatus b.fn st
    if !s.storeOk b r then .next (ends s .ctrfail)
    else
      let s : State := { s with storeWrites := s.storeWrites + 1 }
      match mget s.sealKeys (64 * part + b.slot) with
      | none => .next (ends s .nokey)
      | some k =>
        if c.owner != k.owner && (b.op = 6 || c.owner != 0) then .next (ends s .owner)
        else if b.op = 6 then .next (ends { s with counters := mset s.counters b.cidx { c with owner := 0 } } .done)
        else
          let (s, salt) := s.freeBytes 16
          .next { s with
            capBusy := rest ++ [{ b with store := false, ctr := c.val + 1, salt := leNat salt }]
            counters := mset s.counters b.cidx { val := c.val + 1, owner := k.owner } }

/-! ## The page list (R375) -/

/-- A page may be read, or written (R249, R253): all of it is backed, and what only `wst` writes is not written. -/
def State.pageServes (s : State) (ctx : Nat) (write : Bool) (p : Page) : Bool :=
  let pa := s.localPa p.pbase
  p.entry.testBit (if write then 3 else 2) && !(write && wsBase ≤ pa && pa < wsBase + 40 * 0x4000000) &&
    (List.range ((p.size + 0x3FFFFFF) / 0x4000000)).all fun i => s.backing ctx (pa + 0x4000000 * i) != .absent

/-- The page that an entry of the list names, by its first address (log entry 118), in the tables under a root: a leaf of exactly its
size that may be read, or written. -/
def State.pageEntry (s : State) (x : Ctx) (write : Bool) (e : List Byte) : Option Page :=
  let root := x.root
  let va : Word64 := BitVec.ofNat 64 (fieldAt e 0 8)
  let size := match fieldAt e 8 1 with | 0 => 2 ^ 16 | 1 => 2 ^ 21 | 2 => 2 ^ 30 | _ => 0
  if !canonical va || !zeroBytes e 9 16 || s.hbmCap < root + 2048 then none
  else
    match walkFrom s va (va.toNat % 2 ^ 56) levels root with
    | .ok p => if p.size = size && p.vbase = va.toNat % 2 ^ 56 && s.pageServes x.num write p then some p else none
    | .error _ => none

/-- The entries of a list. -/
def listEntries (bs : List Byte) (n : Nat) : List (List Byte) := pieces 16 n bs


/-! ## Sealing (R373, R375, R378) -/

/-- Read the page list at AUX: at most 2^20 entries, and none of them lost (log entry 95). -/
def State.readPageList (s : State) (aux : Nat) : State × Option (List Byte) :=
  match s.addrRead aux 8 with
  | (s, some n) => if 2 ^ 20 < leNat n then (s, none) else s.addrRead (aux + 8) (16 * leNat n)
  | (s, none) => (s, none)

/-- SEAL: the checks up to the counter; the store answers the increment. The page list is kept as it was checked. -/
def execSeal (fn slot cidx : Nat) (s : State) : Host.Outcome State Fault Refusal :=
  capGo 3 fn slot cidx s fun n p s =>
    let q := p.slot slot
    let c := s.counter (cidx % 64)
    if q.st != .parked || p.slotInCommand slot then s.capStatus fn .slot
    else
      match mget s.sealKeys (64 * n + slot), mget s.ctxs q.ctx with
      | some k, some x =>
        let aux := s.capAux fn
        if c.owner != 0 && c.owner != k.owner then s.capStatus fn .owner
        else
          match s.readPageList aux with
          | (s, some list) =>
            if (listEntries list (list.length / 16)).any fun e => (s.pageEntry x false e).isNone then s.capStatus fn .map
            else
              s.askStore { op := 3, fn := fn, part := n, slot := slot, cidx := cidx % 64, addr := s.capAddr fn, aux := aux, text := list }
          | (s, none) => s.capStatus fn .map
      | none, _ => s.capStatus fn .nokey
      | _, none => s.capStatus fn .slot

/-- The header of a capsule (R373). -/
def capHeader (meas : Nat) (cidx ctr len ncol npage salt : Nat) : List Byte :=
  leBytes 0xCA950CE1 4 ++ leBytes 0x0100 2 ++ leBytes 0 2 ++ sidh ++ beBytes meas 32 ++ leBytes cidx 2 ++ leBytes 0 6 ++
    leBytes ctr 8 ++ leBytes len 8 ++ leBytes ncol 4 ++ leBytes npage 4 ++ leBytes salt 16 ++ leBytes 0 8

/-- The ASCII bytes of EWM900-CAP. -/
def capLabel : List Byte := [0x45, 0x57, 0x4D, 0x39, 0x30, 0x30, 0x2D, 0x43, 0x41, 0x50]

/-- The key of a capsule, from the seal key and the header. -/
def capKey (k : SealKey) (header : List Byte) : List (List Byte) :=
  aesKeys (hkdf256 (beBytes k.key 32) ((header.drop 104).take 16)
    (capLabel ++ (header.drop 40).take 32 ++ (header.drop 80).take 8 ++ (header.drop 8).take 32))

def chunkSize : Nat := 65536
def chunkCount (n : Nat) : Nat := (n + chunkSize - 1) / chunkSize
def chunkIv (i : Nat) : List Byte := leBytes i 8 ++ leBytes 0 4

/-- The stored form of a body. -/
def sealBody (keys : List (List Byte)) (header body : List Byte) : List Byte :=
  (pieces chunkSize (chunkCount body.length) body).zipIdx.flatMap fun c =>
    let t := gcmText keys (chunkIv c.2) c.1
    t ++ gcmTag keys (chunkIv c.2) header t

/-- Read every page of a list. -/
def State.readPages (s : State) (x : Ctx) : List (List Byte) → State × Option (List Byte)
  | [] => (s, some [])
  | e :: rest =>
    match s.pageEntry x false e with
    | none => (s, none)
    | some p =>
      match s.controllerRead p.pbase p.size (zero := p.entry / 16 % 4 == 1) with
      | (s, none) => (s, none)
      | (s, some b) =>
        match s.readPages x rest with
        | (s, none) => (s, none)
        | (s, some bs) => (s, some (b ++ bs))

/-- What a context holds, by cell and by id. -/
def State.snapshot (s : State) (ctx : Nat) : Snapshot :=
  let gang := ((mget s.ctxs ctx).map Ctx.gang).getD 0
  { cells := (s.cells.filter fun c => c.1 / 1024 = ctx).map fun c => (c.1 % 1024, c.2)
    windows := (s.windows.filter fun w => w.1 / 4096 = ctx).map fun w => (w.1 % 4096, w.2)
    insts := s.insts.filter fun i => i.ctx = ctx, kernels := s.kernels.filter fun k => k.ctx = ctx
    carafe := s.carafe.filter fun k => k.1 = ctx, groups := s.groups.filter fun g => g.2.ctx = ctx
    tasks := s.tasks.filter fun t => t.2.ctx = ctx, carries := s.carries.filter fun k => k.ctx = ctx
    episodes := s.episodes.filter fun e => e.ctx = ctx, heard := s.heard.filter fun h => h.gang = gang
    flows := (s.flows.filter fun f => flowCtx f.1 = ctx).map fun f => (f.1 % 32768, f.2)
    inflows := (s.inflows.filter fun f => flowCtx f.1 = ctx).map fun f => (f.1 % 32768, f.2)
    filters := s.filters.filter fun f => f.ctx = ctx, sums := s.bridgeSums.filter fun b => b.gang = gang
    recv := (s.recv.filter fun r => r.1 = ctx).map Prod.snd
    asks := s.asks.filter fun a => a.ctx = ctx && a.ans.isSome && a.who != .capsule }

/-- The name of what a capsule holds beside the fields that the host may write: its header, and the CRC of its partition record. -/
def capName (header area : List Byte) : Nat := leNat (area.drop (area.length - 8)) + 2 ^ 64 * leNat header

/-- The header of a SEAL in progress, and the bytes of its body. -/
def State.sealHeader (s : State) (b : CapBusy) (p : Part) (x : Ctx) : List Byte × Nat :=
  let count := b.text.length / 16
  let pages := (listEntries b.text count).filterMap fun e => s.pageEntry x false e
  let n := b.text.length + saveSize p.cols.length + (pages.map Page.size).sum
  (capHeader x.meas b.cidx b.ctr (128 + n + 16 * chunkCount n) p.cols.length count b.salt, n)

/-- The text of a body whose tags never verify: free bytes, each chunk's tag complemented (log entry 96). -/
def brokenBody (keys : List (List Byte)) (header body : List Byte) : List Byte :=
  (pieces chunkSize (chunkCount body.length) body).zipIdx.flatMap fun c =>
    c.1 ++ (gcmTag keys (chunkIv c.2) header c.1).map fun t => ~~~t

/-- A fault, or the loss of power, while a capsule is written leaves a Broken one at ADDR (R378). -/
def State.breakSeal (s : State) (b : CapBusy) : State :=
  match mget s.parts b.part, mget s.sealKeys (64 * b.part + b.slot) with
  | some p, some k =>
    match mget s.ctxs (p.slot b.slot).ctx with
    | some x =>
      let (header, n) := s.sealHeader b p x
      let (s, text) := s.freeBytes n
      s.controllerWrite 0 b.addr (header ++ brokenBody (capKey k header) header text)
    | none => s
  | _, _ => s

/-- Every capsule that is being written breaks. -/
def State.breakSeals (s : State) : State :=
  (s.capBusy.filter fun b => b.op = 3 && !b.store).foldl (fun (s : State) b => s.breakSeal b) s

/-- What a SEAL writes once its pages have been read: the capsule, or a Broken one. -/
def State.finishSeal (s : State) (b : CapBusy) (p : Part) (x : Ctx) (k : SealKey) : State :=
  match s.controllerRead x.save (saveSize p.cols.length) with
  | (s, none) => (s.breakSeal b).capStatus b.fn .auth
  | (s, some area) =>
    match s.readPages x (listEntries b.text (b.text.length / 16)) with
    | (s, none) => (s.breakSeal b).capStatus b.fn .auth
    | (s, some pages) =>
      let header := (s.sealHeader b p x).1
      let s : State := { s with sealed := (capName header area, s.snapshot x.num) :: s.sealed }
      s.capAnswer b.fn b.addr (header ++ sealBody (capKey k header) header (b.text ++ area ++ pages))

/-- The pages that a SEAL reads. -/
def State.sealPages (s : State) (b : CapBusy) (x : Ctx) : List Page :=
  (listEntries b.text (b.text.length / 16)).filterMap fun e => s.pageEntry x false e

/-- SEAL_DONE: the capsule is written; the context stays as it is. Pages of peers are asked for first, and the last chunk is written when
they have answered; a refusal there is one of the page (log entry 129). -/
def execSealDone (part : Nat) (s : State) : Host.Outcome State Fault Refusal :=
  match s.capBusy.find? fun b => b.part = part && b.op = 3 && !b.store, mget s.parts part with
  | some b, some p =>
    let done : State := { s with capBusy := s.capBusy.erase b }
    match mget s.ctxs (p.slot b.slot).ctx, mget s.sealKeys (64 * part + b.slot) with
    | some x, some k =>
      let ps := s.sealPages b x
      let ls := ps.flatMap fun q => s.peerLines (s.localPa q.pbase) q.size
      if !s.capLinked (b.addr :: ps.map Page.pbase) then .next s
      else if !s.linesAsked x.num ls then .next (s.askLines x.num ls)
      else if s.capGot x.num .refused then .next (((done.endCaps x.num).breakSeal b).capStatus b.fn .map)
      else .next ((((done.hearCaps x.num).endCaps x.num)).finishSeal b p x k)
    | _, _ => .next (done.capStatus b.fn .slot)
  | _, _ => .next s

/-! ## Restoring (R376, R377) -/

/-- A header that step 3 accepts. -/
def headerOk (h : List Byte) (ncol : Nat) : Bool :=
  let len := fieldAt h 88 8
  let least := 16 * fieldAt h 100 4 + saveSize ncol
  fieldAt h 0 4 = 0xCA950CE1 && fieldAt h 4 2 = 0x0100 && fieldAt h 6 2 = 0 && fieldAt h 74 6 = 0 && fieldAt h 120 8 = 0 &&
    fieldAt h 96 4 = ncol && 128 + least + 16 * chunkCount least ≤ len &&
    ((len - 128) % (chunkSize + 16) = 0 || 16 < (len - 128) % (chunkSize + 16))

/-- The certificate `c` of a peer's counter: its value, when it is good (R372, R376). -/
def State.certificate (s : State) (part : Nat) (c h : List Byte) : Option Nat :=
  let body := c.take 448
  if pssVerify (beNat ((body.drop 64).take 384)) body (c.drop 448) && fieldAt c 0 4 = 0xCC7E0001 &&
      sha256 ((body.drop 64).take 384) == (h.drop 8).take 32 && fieldAt c 4 2 = fieldAt h 72 2 &&
      mget s.capNonces part == some (fieldAt c 16 16) then some (fieldAt c 8 8)
  else none

/-- RESTORE: the checks of steps 1 to 5. -/
def execRestore (fn slot cidx : Nat) (s : State) : Host.Outcome State Fault Refusal :=
  capGo 4 fn slot cidx s fun n p s =>
    let addr := s.capAddr fn
    let aux := s.capAux fn
    let x := s.ctxOfRegs fn 0
    if slot < 2 || 33 < slot || (p.slot slot).st != .empty || p.slotInCommand slot || !s.saveFree x.save (saveSize p.cols.length) then
      s.capStatus fn .slot
    else if !s.numberFree x.num then s.capStatus fn .number
    else
      match mget s.sealKeys (64 * n + slot) with
      | none => s.capStatus fn .noattest
      | some k =>
        let (s, text) := s.addrRead addr 128
        let h := text.getD []
        let meas := beNat ((h.drop 40).take 32)
        if !headerOk h p.cols.length then s.capStatus fn .auth
        else if k.meas != meas then s.capStatus fn .meas
        else
          let go (s : State) : State :=
            { s.putPart n (p.setSlot slot { st := .restoring }) with
              capBusy := s.capBusy ++ [{ op := 4, fn := fn, part := n, slot := slot, cidx := cidx % 64, addr := addr, aux := aux
                                         target := some { x with meas := meas }, text := h }] }
          if (h.drop 8).take 32 == sidh then
            if aux != 0 then s.capStatus fn .ccert
            else if fieldAt h 80 8 < (s.counter (fieldAt h 72 2)).val then s.capStatus fn .stale
            else go s
          else
            let (s, c) := s.addrRead aux 832
            let v := c.bind fun c => s.certificate n c h
            let s : State := { s with capNonces := mdel s.capNonces n }
            match v with
            | none => s.capStatus fn .ccert
            | some v => if fieldAt h 80 8 < v then s.capStatus fn .stale else go s

/-- The plaintext of a capsule's chunks, when every tag verifies. -/
def openBody (keys : List (List Byte)) (header : List Byte) : Nat → Nat → List Byte → Option (List Byte)
  | 0, _, _ => some []
  | n + 1, i, bs =>
    if bs.isEmpty then some []
    else
      let c := bs.take (chunkSize + 16)
      let t := c.take (c.length - 16)
      if gcmTag keys (chunkIv i) header t == c.drop (c.length - 16) then
        (openBody keys header n (i + 1) (bs.drop (chunkSize + 16))).map fun r => gcmText keys (chunkIv i) t ++ r
      else none

/-- The plaintext of a capsule's chunks, whether their tags verify or not. -/
def rawBody (keys : List (List Byte)) : Nat → Nat → List Byte → List Byte
  | 0, _, _ => []
  | n + 1, i, bs =>
    let c := bs.take (chunkSize + 16)
    gcmText keys (chunkIv i) (c.take (c.length - 16)) ++ rawBody keys n (i + 1) (bs.drop (chunkSize + 16))

/-- Numbers of a snapshot in their new context: the context, ids shifted by `d`, cells as `f` places them. -/
structure Renumber where
  ctx : Nat
  d : Nat
  f : Nat → Nat

def Renumber.cell (r : Renumber) (c : Cell) : Cell :=
  { c with
    ckpts := c.ckpts.map fun k => (k.1 + r.d, k.2)
    group := c.group.map (· + r.d), task := c.task.map (· + r.d), halted := true
    undoImgs := c.undoImgs.map fun i => (i.1, { i.2 with task := i.2.task + r.d })
    batches := c.batches.map fun b => { b with members := b.members.map fun m => { m with task := m.task + r.d } }
    cmds := c.cmds.map fun k => { k with id := k.id + r.d, task := k.task + r.d, partner := k.partner.map (· + r.d) }
    bufs := c.bufs.map fun b => { b with task := b.task + r.d }
    copies := c.copies.map fun k => { k with task := k.task + r.d } }

def Renumber.task (r : Renumber) (t : Task) : Task :=
  { t with
    id := t.id + r.d, ctx := r.ctx, parent := t.parent.map (· + r.d), group := t.group.map (· + r.d)
    ended := t.ended.map r.f, fault := t.fault.map fun x => { x with cell := r.f x.cell } }

def Renumber.group (r : Renumber) (g : Group) : Group :=
  let o := r.f (cellAt g.ox g.oy g.oz)
  { g with id := g.id + r.d, ctx := r.ctx, ox := xOf o, oy := yOf o, oz := zOf o, exited := g.exited.map r.f }

/-- A collective packet in the receive buffer of a context with another number, in a gang with another one. -/
def renumberPacket (ctx gang : Nat) : Payload → Payload
  | .candidates _ id k l => .candidates ctx id k l
  | .update dev owner _ pa zero op wide b => .update dev owner gang pa zero op wide b
  | p => p

/-- The ids that a partition gives from now on stand above those of restored instances (R95, log entry 42). -/
def Part.above (p : Part) (ids : List Nat) : Part :=
  let n := ids.foldl (fun m i => Nat.max m (i + 1)) p.nextInst
  { p with nextInst := n, skipped := if p.nextInst < n then p.skipped ++ [(p.nextInst, n)] else p.skipped }

/-- Put an entry where there is none: a flow that this device has kept counts its packets further (R387, log entry 99). -/
def mkeep {α : Type} (m : AMap α) (k : Nat) (x : α) : AMap α := if (mget m k).isSome then m else mset m k x

/-- Put a snapshot into the machine as a context. -/
def State.install (s : State) (r : Renumber) (part : Nat) (x : Snapshot) : State :=
  let gang := ((mget s.ctxs r.ctx).map Ctx.gang).getD 0
  let known := s.ctxs.any fun y => y.1 != r.ctx && y.2.gang = gang
  let put (m : AMap Cell) (k : Nat) (c : Cell) : AMap Cell :=
    mset m k (match mget m k with | some old => c.startOver old | none => c)
  let top := (x.tasks.map Prod.fst ++ x.groups.map Prod.fst ++ x.cells.flatMap fun c => c.2.cmds.map Cmd.id).foldl Nat.max 0
  let s : State := { s with
    nextId := r.d + top + 1
    cells := x.cells.foldl (fun m c => put m (cellKey r.ctx (r.f c.1)) (r.cell c.2)) s.cells
    windows := x.windows.foldl (fun m w => mset m (r.ctx * 4096 + pairOf (r.f (w.1 / 8)) * 8 + w.1 % 8) w.2) s.windows
    insts := s.insts ++ x.insts.map fun i => { i with ctx := r.ctx, part := part, faultGroup := i.faultGroup.map (· + r.d) }
    parts := mupd s.parts part fun p => p.above (x.insts.map Inst.id)
    kernels := s.kernels ++ x.kernels.map fun k => { k with ctx := r.ctx }
    carafe := s.carafe ++ x.carafe.map fun k => (r.ctx, k.2)
    groups := x.groups.foldl (fun m g => mset m (g.1 + r.d) (r.group g.2)) s.groups
    tasks := x.tasks.foldl (fun m t => mset m (t.1 + r.d) { r.task t.2 with id := t.1 + r.d }) s.tasks
    carries := s.carries ++ x.carries.map fun k => { k with ctx := r.ctx }
    episodes := s.episodes ++ x.episodes.map fun e =>
      { e with ctx := r.ctx, gang := gang, unit := ((e.cells.head?).map fun n => unitOf e.scope (r.f n)).getD e.unit
               cells := e.cells.map r.f, released := e.released.map r.f }
    heard := s.heard ++ (x.heard.map fun h => { h with gang := gang }).filter fun h => !(h ∈ s.heard)
    flows := x.flows.foldl (fun m f => mkeep m (r.ctx * 32768 + f.1) f.2) s.flows
    inflows := x.inflows.foldl (fun m f => mkeep m (r.ctx * 32768 + f.1) f.2) s.inflows
    filters := s.filters ++ x.filters.map fun f => { f with ctx := r.ctx }
    bridgeSums := if known then s.bridgeSums else s.bridgeSums ++ x.sums.map fun b => { b with gang := gang }
    recv := s.recv ++ x.recv.map fun p => (r.ctx, renumberPacket r.ctx gang p)
    asks := s.asks ++ x.asks.map fun a => { a with ctx := r.ctx, cell := r.f a.cell } }
  s

/-- Write the pages of a list that do not lie on peers, in list order. -/
def State.writePages (s : State) (ctx : Nat) : List Page → List Byte → State
  | [], _ => s
  | p :: rest, bs =>
    let a := s.localPa p.pbase
    (if (s.peerOf a).isSome then s else s.blockWrite ctx a (bs.take p.size)).writePages ctx rest (bs.drop p.size)

/-- What a list's pages on peers get, line by line. -/
def State.farWrites (s : State) : List Page → List Byte → List (Nat × List Byte)
  | [], _ => []
  | p :: rest, bs =>
    ((s.peerLines (s.localPa p.pbase) p.size).zip (pieces 64 (p.size / 64) (bs.take p.size))) ++ s.farWrites rest (bs.drop p.size)

/-- The lines of pages on peers are sent, each once. -/
def State.askWrites (s : State) (ctx : Nat) (ws : List (Nat × List Byte)) : State :=
  ws.foldl (fun (s : State) w => s.askPeer ctx 0 .capsule 0 (64 * w.1) false (.write w.2)) s

/-- A restore that fails at step 6 or 7: the save area and the listed pages hold unspecified bytes (R377). -/
def State.spoil (s : State) (x : Ctx) (n : Nat) (ps : List Page) : State :=
  let (s, bs) := s.freeBytes n
  let s := s.blockWrite x.num x.save bs
  ps.foldl (fun (s : State) p =>
    let (s, bs) := s.freeBytes p.size
    s.controllerWrite x.num p.pbase bs) s

/-- A restore ends with a status of step 6 or 7, and its slot is Empty (R377). -/
def State.failRestore (s : State) (b : CapBusy) (p : Part) (x : Ctx) (ps : List Page) (c : CapStatus) : State :=
  ((((s.endCaps x.num).spoil x (saveSize p.cols.length) ps).putPart b.part (p.setSlot b.slot {}))).capStatus b.fn c

/-- The end of a restore whose pages on peers have been written: the other pages, the save area, and the Parked context. -/
def State.finishRestore (s : State) (b : CapBusy) (p : Part) (x : Ctx) (ps : List Page) (area pages : List Byte) : State :=
  let s := ((s.endCaps x.num).blockWrite x.num x.save area).writePages x.num ps pages
  let name := capName b.text area
  let snap := match s.sealed.find? fun q => q.1 = name with
    | some q => q.2
    | none => Config.foreignContext name
  -- the i-th cell of the sealed partition becomes the i-th cell of this one
  let from_ := snap.cells.map Prod.fst
  let place (n : Nat) : Nat := match from_.findIdx? (· = n) with | some i => p.cellList.getD i n | none => n
  let s : State := { s with ctxs := mset s.ctxs x.num x }
  let s := s.install ⟨x.num, s.nextId, place⟩ b.part snap
  let q := (mget s.parts b.part).getD p
  (s.putPart b.part (q.setSlot b.slot { st := .parked, ctx := x.num })).capStatus b.fn .done

/-- Steps 6 and 7 of a restore over a body of `len` bytes (R376). The header is the one that the checks read; where a tag fails, the pages
are those that the text lists as it stands. Pages on peers are written by requests; the peer's refusal is one of the page, and its loss
ends the restore as a lost capsule does (log entry 129). -/
def State.restoreBody (s : State) (b : CapBusy) (p : Part) (x : Ctx) (k : SealKey) (at_ len : Nat) : State :=
  let h := b.text
  let area := saveSize p.cols.length
  let count := fieldAt h 100 4
  let done : State := { s with capBusy := s.capBusy.erase b }
  let pagesOf (body : List Byte) : List Page := (listEntries body count).filterMap fun e => s.pageEntry x true e
  let text := readBytes s.mem at_ len
  let lost := s.poison.any fun q => overlaps at_ len (64 * q) 64
  match if lost then none else openBody (capKey k h) h (chunkCount len) 0 text with
  | none => done.failRestore b p x (pagesOf (rawBody (capKey k h) (chunkCount len) 0 text)) .auth
  | some body =>
    let ps := pagesOf body
    let pages := body.drop (16 * count + area)
    let far := s.farWrites ps pages
    if ps.length != count then done.failRestore b p x ps .map
    else if body.length != 16 * count + area + (ps.map Page.size).sum then done.failRestore b p x ps .auth
    else if !s.capLinked (ps.map Page.pbase) then s
    else if !far.all fun w => s.asked x.num 0 .capsule (64 * w.1) 0 then s.askWrites x.num far
    else if s.capGot x.num .refused then done.failRestore b p x ps .map
    else if s.capGot x.num .gone then done.failRestore b p x ps .auth
    else done.finishRestore b p x ps ((body.drop (16 * count)).take area) pages

/-- RESTORE_DONE: steps 6 and 7, and the Parked context. A capsule on a peer is asked for first. -/
def execRestoreDone (part : Nat) (s : State) : Host.Outcome State Fault Refusal :=
  match s.capBusy.find? fun b => b.part = part && b.op = 4, mget s.parts part with
  | some b, some p =>
    match b.target, mget s.sealKeys (64 * part + b.slot) with
    | some x, some k =>
      let at_ := s.localPa b.addr + 128
      let len := fieldAt b.text 88 8 - 128
      let ls := s.peerLines at_ len
      if !s.capLinked [b.addr] then .next s
      else if !s.linesAsked x.num ls then .next (s.askLines x.num ls)
      else if (ls.any fun l => (s.askOf x.num 0 .capsule (64 * l) 64).any fun a => a.ans == some .refused) then
        .next (({ s with capBusy := s.capBusy.erase b } : State).failRestore b p x [] .auth)
      else .next ((s.hearCaps x.num).restoreBody b p x k at_ len)
    | _, _ => .next (({ s with capBusy := s.capBusy.erase b } : State).capStatus b.fn .noattest)
  | _, _ => .next s

end Sys2Proof.Machine
end

