-- ==== Sys2Proof/Machine/Board.lean ====
section
/-! DEFINITION. The board: the current arbiter (R392), the sensors (R393), bring-up and the configuration blob (R394, R395),
time (R396), the lifetime record (R398), and the loss of power (R378, R393). -/

namespace Sys2Proof.Machine

open Sys2Proof

/-! ## The lifetime record (R398) -/

/-- An hour in cycles of the arithmetic clock. -/
def hourCycles : Nat := 3600 * 1800000000

/-- The cells of a cluster, in increasing number. -/
def clusterCells (n : Nat) : List Nat := (List.range 640).filter fun c => clusterOf c = n

def State.cluster (s : State) (n : Nat) : Cluster := (mget s.clusters n).getD {}

/-- The bin of the hottest sensor: 5 °C steps from 40 °C (R398). -/
def State.heatBin (s : State) : Nat :=
  let t := s.clusters.foldl (fun m c => Nat.max m c.2.temp) 0
  Nat.min 15 ((t - 40) / 5)

/-- Add at a place of the record. -/
def addAt (l : List Nat) (i n : Nat) : List Nat := l.set i (l.getD i 0 + n)

/-- The record has the hours, the corrected and uncorrectable errors of the kinds 0 to 6, the rises of the sensors, and the 16
bins. Add what has come since the last time: whole hours, and what is left of one counts with the next (log entry 53). -/
def State.addLifetime (s : State) : State :=
  let rcd := s.lifetime ++ List.replicate (32 - s.lifetime.length) 0
  let powered := s.lifeFrac + (s.cycle - s.lastLife)
  let rises := (s.clusters.map fun c => c.2.events - c.2.counted).sum
  let rcd := s.errKinds.foldl (fun l k => if k.1 < 14 then addAt l (1 + k.1) k.2 else l) (addAt rcd 0 (powered / hourCycles))
  { s with
    lifetime := addAt (addAt rcd 15 rises) (16 + s.heatBin) 1
    errKinds := []
    clusters := s.clusters.map fun c => (c.1, { c.2 with counted := c.2.events })
    lastLife := s.cycle
    lifeFrac := powered % hourCycles
    storeWrites := s.storeWrites + 1 }

/-- LIFETIME_UPDATE: every hour that the controller's firmware runs (R394). -/
def execLifetimeUpdate (s : State) : Host.Outcome State Fault Refusal :=
  .next (if (s.boot == .blob || s.boot == .ready) && hourCycles ≤ s.lifeFrac + (s.cycle - s.lastLife) then s.addLifetime else s)

/-! ## Power (R378, R393, R394, R398) -/

/-- Power is removed: nothing is left on the part, and a capsule that is being written breaks. The boot ROM, the board's replay-protected store,
the host's and the peers' memories, and the capsules that are written stay. This is the one partition reset of the model (log
entry 97). -/
def State.losePower (s : State) : State :=
  let s := s.breakSeals
  { State.reset with
    agenda := s.agenda, free := s.free, nextId := s.nextId, cycle := s.cycle
    counters := s.counters, storeWrites := s.storeWrites, storeKey := s.storeKey, lifetime := s.lifetime, lifeFrac := s.lifeFrac
    sealed := s.sealed, romHash := s.romHash
    mem := s.mem.filter fun c => peerBase ≤ c.1 }

/-- POWER_UP: only the boot window answers, and the ports train (R388). -/
def execPowerUp (s : State) : Host.Outcome State Fault Refusal :=
  .next (if s.boot == .off then
    { s with boot := .boot, ports := (List.range 27).map fun n => (n, ({ st := 1 } : Port)), lastLife := s.cycle, lastGrant := s.cycle }
  else s)

/-- POWER_DOWN, in any state with power: the lifetime record is written, and power goes. -/
def execPowerDown (s : State) : Host.Outcome State Fault Refusal :=
  .next (if s.boot == .off then s else s.addLifetime.losePower)

/-- POWER_LOSS. -/
def execPowerLoss (s : State) : Host.Outcome State Fault Refusal := .next s.losePower

/-! ## The current arbiter (R392) -/

/-- An array of a cell that runs a started licensed command. -/
def State.arrayRuns (s : State) (cell : Nat) : Bool :=
  s.cells.any fun p => p.1 % 1024 = cell && p.2.cmds.any fun k => k.licensed && k.arrayBusy

/-- A cell that holds or claims the licence. -/
def State.arrayWants (s : State) (cell : Nat) : Bool :=
  s.cells.any fun p => p.1 % 1024 = cell && (p.2.lic.held || p.2.lic.claim)

def State.cellEnabled (s : State) (cell : Nat) : Bool := !((mget s.phys cell).getD {}).disabled

/-- The array slots of a limit of `plim` watts with `n` clusters enabled: none when the base is below 30 W. -/
def arraySlots (plim n : Nat) : Nat := if 600 + 30 * n ≤ plim then (plim - 600 - 30 * n) * 2 / 11 else 0

/-- One round of grants: a slot for each cluster of the order that still asks, while the budget lasts. The state is the
slots left, the slots granted by cluster, and the cluster that received the last one. -/
def grantRound (want : Nat → Nat) (order : List Nat) (a : Nat × List Nat × Nat) : Nat × List Nat × Nat :=
  order.foldl (fun a c =>
    if 0 < a.1 && a.2.1.getD c 0 < want c then (a.1 - 1, addAt a.2.1 c 1, c) else a) a

/-- Rounds until the budget or the requests run out: a cluster has 16 arrays. -/
def grantRounds (want : Nat → Nat) (order : List Nat) : Nat → Nat × List Nat × Nat → Nat × List Nat × Nat
  | 0, a => a
  | n + 1, a => grantRounds want order n (grantRound want order a)

/-- ARBITER_GRANT: every microsecond, first to the arrays that run a started command, then to holders and claimants; the round of
each class starts after the cluster that received the last slot of the previous microsecond. A warm cluster receives half of its slots, a hot one none (R393). -/
def execArbiterGrant (s : State) : Host.Outcome State Fault Refusal :=
  if s.boot != .ready || s.cycle < s.lastGrant + 1800 then .next s
  else
    let on (n : Nat) : List Nat := (clusterCells n).filter s.cellEnabled
    let n := ((List.range 40).filter fun n => !(on n).isEmpty).length
    let order := (List.range 40).map fun i => (s.lastSlot + 1 + i) % 40
    let runs := (List.range 40).map fun n => ((on n).filter s.arrayRuns).length
    let all := (List.range 40).map fun n => ((on n).filter fun c => s.arrayRuns c || s.arrayWants c).length
    let a := grantRounds (runs.getD · 0) order 16 (arraySlots s.blob.plim n, List.replicate 40 0, s.lastSlot)
    let b := grantRounds (all.getD · 0) order 16 a
    let give (n : Nat) : Nat := match (s.cluster n).lvl with | 0 => b.2.1.getD n 0 | 1 => b.2.1.getD n 0 / 2 | _ => 0
    .next { s with
      lastGrant := s.cycle
      lastSlot := b.2.2
      clusters := (List.range 40).map fun n =>
        (n, { s.cluster n with grant := give n, users := ((on n).filter s.arrayRuns).take (give n) }) }

/-! ## Temperature (R393) -/

/-- The level that a temperature rises to. -/
def heatLevel (t : Nat) : Nat := if 105 ≤ t then 2 else if 95 ≤ t then 1 else 0

/-- THERMAL_SAMPLE: TEMP is updated and a level may rise; at 115 °C the board removes power. -/
def execThermalSample (cluster temp : Nat) (s : State) : Host.Outcome State Fault Refusal :=
  if s.boot == .off || 40 ≤ cluster then .next s
  else if 115 ≤ temp then .next s.losePower
  else
    let c := s.cluster cluster
    let up := c.lvl < heatLevel temp
    let lvl := Nat.max c.lvl (heatLevel temp)
    .next { s with clusters := mset s.clusters cluster { c with
      temp := temp, lvl := lvl
      events := if up then Nat.min 65535 (c.events + 1) else c.events
      coolCyc := if up || coolBelow lvl < Nat.max temp c.temp then 0 else c.coolCyc } }

/-- THERMAL_LEVEL_FALL: TEMP has stayed 5 °C below the threshold for 1 ms. -/
def execThermalLevelFall (cluster : Nat) (s : State) : Host.Outcome State Fault Refusal :=
  let c := s.cluster cluster
  .next (if 0 < c.lvl && c.temp ≤ coolBelow c.lvl && 1800000 ≤ c.coolCyc then
    { s with clusters := mset s.clusters cluster { c with lvl := c.lvl - 1, coolCyc := 0 } }
  else s)

/-! ## Bring-up (R394) -/

/-- BOOTGO: the host has written the firmware image. -/
def execBootgo (image : List Byte) (s : State) : Host.Outcome State Fault Refusal :=
  .next (if s.boot == .boot then { s with boot := .verify, firmware := image } else s)

/-- A signature is valid: RSA-3072 PSS over SHA-256, under a key whose hash the ROM holds (R394, log entry 119). -/
def State.romSigned (s : State) (m : List Byte) (g : Signature) : Bool :=
  g.key.length = 384 && g.sig.length = 384 && sha256 g.key == beBytes s.romHash.toNat 32 && pssVerify (beNat g.key) m g.sig

/-- FIRMWARE_VERIFY_DONE: the boot ROM has checked the image's signature. -/
def execFirmwareVerifyDone (g : Signature) (s : State) : Host.Outcome State Fault Refusal :=
  .next (if s.boot == .verify then { s with boot := if s.romSigned s.firmware g then .blob else .failed } else s)

/-! ## The blob (R90, R395) -/

/-- The settings of a blob as numbers, each list behind its length. -/
def blobNumbers (b : BlobData) : List Nat :=
  [b.plim, b.device, b.domain, b.disabled.length] ++ b.disabled ++ [b.parts.length] ++
    (b.parts.flatMap fun p => [p.1, p.2.2, p.2.1.length] ++ p.2.1) ++ [b.bindings.length] ++ b.bindings.flatMap fun q => [q.1, q.2]

/-- The bytes of a blob, which its signature covers: its settings in 8 bytes each, and what it has beside them (log entry 130). -/
def blobText (b : BlobData) : List Byte := (blobNumbers b).flatMap (fun n => leBytes n 8) ++ b.bytes

/-- A column of two partitions (R16). -/
def columnsClash : List (Nat × List Nat × Nat) → Bool
  | [] => false
  | p :: rest => rest.any (fun q => q.1 = p.1 || p.2.1.any (· ∈ q.2.1)) || columnsClash rest

/-- The settings lie in their ranges (R16, R90, R383, R392). -/
def blobFits (b : BlobData) : Bool :=
  (blobNumbers b).all (· < 2 ^ 64) && 1200 ≤ b.plim && b.plim ≤ 3600 && b.device < 1024 && b.domain ≤ 1024 && b.device < b.domain && !columnsClash b.parts &&
    (b.parts.all fun p => !p.2.1.isEmpty && (p.2.1.all (· < 20)) && 1024 ≤ p.2.2 && p.2.2 ≤ 262144) &&
    distinct (b.bindings.map Prod.fst) && b.bindings.all fun q => 1 ≤ q.1 && q.1 ≤ 384 && b.parts.any fun p => p.1 = q.2

/-- The partition that a blob binds a function to. -/
def blobBinding (b : BlobData) (fn : Nat) : Option Nat := (b.bindings.find? fun q => q.1 = fn).map Prod.snd

/-- A partition that holds a loaded kernel. -/
def State.holdsKernel (s : State) (p : Part) : Bool :=
  p.slots.toList.any fun q => q.st != .empty && s.kernels.any fun k => k.ctx = q.ctx

/-- The partition that a blob gives a column to. -/
def blobColumn (b : BlobData) (c : Nat) : Option Nat := (b.parts.find? fun p => c ∈ p.2.1).map Prod.fst

/-- A column is halted: no context of its partition runs or is stopping (R335). -/
def State.columnHalted (s : State) (c : Nat) : Bool := (s.partOfColumn c).all fun p => !s.partRuns p.2

/-- No group covers a cell of a column. -/
def State.columnFree (s : State) (c : Nat) : Bool := s.groups.all fun g => g.2.cells.all fun n => columnOf n != c

/-- A column that a blob may change (R16, R335): one that keeps its partition and its disabled cells, or is halted; one that moves
holds no group (log entry 97). -/
def State.columnFits (s : State) (b : BlobData) (c : Nat) : Bool :=
  let moves := (s.partOfColumn c).map Prod.fst != blobColumn b c
  let dims := (List.range 640).any fun n => columnOf n = c && s.cellOff n != decide (n ∈ b.disabled)
  (!moves && !dims) || (s.columnHalted c && (!moves || s.columnFree c))

/-- A blob that is refused as a whole: it changes the binding of an enabled function, the SAFEPTMAX of a partition that holds a
loaded kernel, or a column that is not halted. -/
def State.blobRefused (s : State) (b : BlobData) : Bool :=
  (!(List.range 20).all (s.columnFits b)) || (s.fnOn.any fun fn => mget s.blob.bindings fn != blobBinding b fn) ||
    s.parts.any fun p => s.holdsKernel p.2 && b.parts.any fun q => q.1 = p.1 && q.2.2 != p.2.safept

/-- The partitions that a blob lays out. -/
def State.blobParts (s : State) (b : BlobData) : AMap Part :=
  b.parts.foldl (fun m q =>
    let p := (mget s.parts q.1).getD { cols := [] }
    mset m q.1 { p with cols := q.2.1, safept := q.2.2 }) []

/-- What goes with the partitions that a blob no longer lays out: their contexts and their seal keys (R370, log entry 97). -/
def State.dropParts (s : State) (b : BlobData) : State :=
  (s.parts.filter fun p => !(b.parts.any fun q => q.1 = p.1)).foldl (fun (s : State) p =>
    let s := (p.2.slots.toList.filter fun q => q.st != .empty).foldl (fun (s : State) q => s.forget q.ctx) s
    { s with sealKeys := s.sealKeys.filter fun k => k.1 / 64 != p.1 }) s

/-- Apply a blob (R16, R395). A later one keeps what is no setting of it: it is no partition reset (log entry 97). -/
def State.applyBlob (s : State) (b : BlobData) : State :=
  let s := s.dropParts b
  { s with
    blob := { bytes := blobText b, device := b.device, domain := List.range b.domain, plim := b.plim
              bindings := b.bindings.foldl (fun m q => mset m q.1 q.2) [] }
    parts := s.blobParts b
    phys := (List.range 640).foldl (fun m n =>
      let p := (mget s.phys n).getD {}
      let p : Phys := { p with disabled := n ∈ b.disabled }
      if p = {} then mdel m n else mset m n p) s.phys }

/-- Synchronise to a reference whose time is `time`: a step forward, or a hold (R396). -/
def State.joinTime (s : State) (ref time : Nat) : State :=
  { s with
    synced := true, timeRef := some ref, slew := 0
    tsnow := Nat.max s.tsnow time, tsHold := s.tsnow - time }

/-- Another device of the domain is reached (R396). -/
def State.reachesDomain (s : State) : Bool := s.blob.domain.any fun d => d != s.blob.device && s.path d

/-- The part becomes Ready: TSNOW starts at 0. A device that has found no synchronised device which it still reaches is a reference at
once; one that has joins its reference (R394, R396, log entry 63). -/
def State.becomeReady (s : State) : State :=
  let r : State := { s with boot := .ready, tsnow := 0, tsfrac := 0, tsHold := 0, slew := 0, timeFound := none }
  match s.timeFound.filter fun _ => s.reachesDomain with
  | some f => r.joinTime f.1 f.2
  | none => { r with synced := true, timeRef := some s.blob.device }

/-- BLOB: the host supplies a blob with its signature. One whose signature is invalid is reported (R394, log entry 119). -/
def execBlob (b : BlobData) (g : Signature) (s : State) : Host.Outcome State Fault Refusal :=
  if !(s.boot == .blob || s.boot == .ready) then .next s
  else if !s.romSigned (blobText b) g then .next { s with blobBad := s.blobBad + 1 }
  else if !blobFits b then .next s
  else if s.boot == .blob then .next (s.applyBlob b).becomeReady
  else if s.boot == .ready && !s.blobRefused b then .next (s.applyBlob b)
  else .next s

/-- VF_ENABLE: NumVFs and VF Enable; the functions from 1 upward. -/
def execVfEnable (n : Nat) (s : State) : Host.Outcome State Fault Refusal :=
  .next (if s.boot == .ready && n ≤ 384 then { s with fnOn := (List.range n).map (· + 1) } else s)

/-! ## Time (R396) -/

/-- A UALink port carries packets. -/
def State.upLink (s : State) : Bool := (List.range 24).any fun n => (s.port n).carries

/-- TIME_SYNC: a timing message of the reference gives how far TSNOW lags behind it. -/
def execTimeSync (d : Int) (s : State) : Host.Outcome State Fault Refusal :=
  .next (if s.boot == .ready && s.synced && s.timeRef.any fun r => r != s.blob.device && s.path r then { s with slew := d } else s)

/-- TIME_JOIN: the device reaches one that is synchronised to `ref`. Of two references the lower number serves. Before Ready, what has
been found is kept (log entry 63). -/
def execTimeJoin (ref time : Nat) (s : State) : Host.Outcome State Fault Refusal :=
  if s.boot == .ready then
    .next (if s.reachesDomain && s.timeRef.all fun r => ref < r then s.joinTime ref time else s)
  else .next (if s.boot == .blob && s.upLink then { s with timeFound := some (ref, time) } else s)

/-- REFERENCE_LOST: no path is left to the reference, and the device with the lowest number among those that are left becomes it. -/
def execReferenceLost (ref : Nat) (s : State) : Host.Outcome State Fault Refusal :=
  let lost : Bool := s.timeRef.any fun r => r != s.blob.device && r != ref && !s.path r
  let left : Bool := ref ≤ s.blob.device && ref ∈ s.blob.domain && (ref = s.blob.device || s.path ref)
  .next (if s.boot == .ready && s.synced && lost && left then
    { s with timeRef := some ref, slew := if ref = s.blob.device then 0 else s.slew }
  else s)

end Sys2Proof.Machine
end

