-- ==== Sys2Proof/Machine/Routers.lean ====
section
/-! DEFINITION. The routers' work on barriers: gathering the arrivals of an episode and multicasting its release (R337, R338,
R344, R345, R386). -/

namespace Sys2Proof.Machine

open Sys2Proof

/-- Every participant of an episode on this device has arrived, and no stage of its instance is unplaced (R338). -/
def State.localArrived (s : State) (e : Episode) : Bool :=
  !s.unplacedStage e.ctx e.inst && (s.participants e.ctx e.inst e.scope e.unit).all (· ∈ e.cells)

/-- The context of an episode stands in slot 0; a collective of one that is out goes on after its restore (R359). -/
def State.collects (s : State) (e : Episode) : Bool :=
  e.ctx = 0 || match s.partOfCtx e.ctx with
    | some (_, p) => p.slots[0].st != .empty && p.slots[0].ctx = e.ctx
    | none => false

/-- The gang number of a context. -/
def State.gangOf (s : State) (ctx : Nat) : Nat := ((mget s.ctxs ctx).map Ctx.gang).getD 0

/-- The episode of an instance of the same gang that belongs to the same arrival count. -/
def State.sibling (s : State) (e : Episode) (i : Inst) : Episode :=
  (s.episodes.find? fun x => x.ctx = i.ctx && x.inst = i.id && x.bar = e.bar && x.scope == .dom && x.gen = e.gen).getD
    { e with ctx := i.ctx, inst := i.id, cells := [] }

/-- The joined instances of this device that have not retired (R337). -/
def State.joinedHere (s : State) (e : Episode) : List Inst :=
  s.insts.filter fun i => i.gangKey = e.key && s.gangOf i.ctx = e.gang && i.st != .retired

/-- The joined instances of this device that have started and have arrived at an episode (R337). -/
def State.localJoined (s : State) (e : Episode) : List Inst :=
  (s.joinedHere e).filter fun i => (i.st == .running || i.st == .faulted) && s.localArrived (s.sibling e i)

/-- The marks of the joined instances of this device that have retired. -/
def State.localRetired (s : State) (e : Episode) : List Episode :=
  s.episodes.filter fun x => x.gen = 0 && x.key = e.key && x.gang = e.gang

/-- The contexts of other devices, of one gang, that have arrived at an episode, or whose instances have retired. -/
def State.heardFrom (s : State) (e : Episode) (gang : Nat) : List (Nat × Nat) :=
  ((s.heard.filter fun h => h.key = e.key && h.gang = gang && (h.gen = 0 || (h.bar = e.bar && h.gen = e.gen))).map fun h =>
    (h.dev, h.ctx)).eraseDups

/-- An episode changed in place. -/
def State.setEpisode (s : State) (n : Nat) (e : Episode) : State := { s with episodes := s.episodes.set n e }

/-- The bridges of the partition of an episode, with the remote gangs. -/
def State.farGangs (s : State) (e : Episode) : List (Nat × Nat) := s.bridges (((s.partOfCtx e.ctx).map Prod.fst).getD 0)

/-- What a gang's windows have gathered for its bridges, as this device knows it. -/
def State.gangSums (s : State) (e : Episode) : List BridgeSum := s.bridgeSums.filter fun b => b.gang = e.gang

/-- What a gang has gathered goes to the other ends of some flows, before the arrival that follows it, and is gathered here no more
(R386). -/
def State.sendSums (s : State) (e : Episode) (ends : List Nat) : State :=
  let sums := s.gangSums e
  let s := ends.foldl (fun (s : State) d => sums.foldl (fun (s : State) b =>
    s.send (flowKey e.ctx 2 d) (.update (if d < 1024 then s.blob.device else d) e.ctx e.gang b.pa false b.op b.wide b.val)) s) s
  { s with bridgeSums := s.bridgeSums.filter fun b => !(b ∈ sums) }

/-- The arrival of an episode of this device's context. -/
def State.arrivalOf (s : State) (e : Episode) : Payload := .arrival e.key e.gang e.bar e.gen s.blob.device e.ctx

/-- A mark of a retired instance has been sent to the root: this device keeps it while an instance of the gang that has not retired is
here, which needs no more of it than that (R339, log entry 47). -/
def State.markSent (s : State) (n : Nat) (e : Episode) : State :=
  if (s.joinedHere e).isEmpty then
    let s : State := { s with episodes := s.episodes.eraseIdx n }
    { s with episodes := s.episodes.filter fun x => !(x.gen = 0 && x.sent && x.key = e.key && x.gang = e.gang) }
  else s.setEpisode n { e with sent := true }

/-- Send the n-th episode's arrival towards the root, once, behind what the gang has gathered here for the root's bridges. -/
def State.sendRoot (s : State) (n : Nat) (e : Episode) (d : Nat) : State :=
  let s := (s.sendSums e [d]).send (flowKey e.ctx 2 d) (s.arrivalOf e)
  if e.gen = 0 then s.markSent n e else s.setEpisode n { e with sent := true }

/-- Every instance of a gang has arrived at an episode: those of this device, and those heard of. -/
def State.gangArrived (s : State) (e : Episode) : Bool :=
  e.width ≤ (s.localJoined e).length + (s.localRetired e).length + (s.heardFrom e e.gang).length

/-- What a bridge has brought for a gang lies on its way to a word of a peer (R386). -/
def State.bridging (s : State) (gang : Nat) : Bool := s.asks.any fun a => a.isOpen && a.who == .router && s.gangOf a.ctx = gang

/-- The root completes an episode of a gang: here, and by a release to every device that has been heard, once the contributions of the
bridges have been added. -/
def State.completeGang (s : State) (e : Episode) : State :=
  let devs := ((s.heardFrom e e.gang).map Prod.fst).eraseDups
  let far := (s.farGangs e).map Prod.snd
  if s.bridging e.gang then s
  else
    let s := devs.foldl (fun (s : State) d => s.send (flowKey e.ctx 2 d) (.release e.key e.gang e.bar e.gen)) s
    let s := s.releaseGang e.key e.gang e.bar e.gen
    { s with
      heard := s.heard.filter fun h => !(h.key = e.key && h.bar = e.bar && h.gen = e.gen && h.gang ∈ far)
      bridgeSums := if far.isEmpty then s.bridgeSums.filter fun b => b.gang != e.gang else s.bridgeSums }

/-- An episode of a whole gang at its root: over its bridges, the sums and an arrival go out, and the remote gangs are waited for,
before it completes (R386). -/
def State.rootGather (s : State) (e : Episode) : State :=
  let far := s.farGangs e
  if far.isEmpty then s.completeGang e
  else if !e.sent then
    let s := far.foldl (fun (s : State) d => s.send (flowKey e.ctx 2 d.1) (s.arrivalOf e)) (s.sendSums e (far.map Prod.fst))
    s.updEpisode { e with sent := true } fun x => { x with sent := true }
  else if far.all fun b => !(s.heardFrom e b.2).isEmpty then s.completeGang e
  else s

/-- The episodes that a mark stands for at the root: those that other devices have arrived at, and no context of this one. -/
def State.markEpisodes (s : State) (e : Episode) : List Episode :=
  (s.heard.filter fun h => h.key = e.key && h.gang = e.gang && h.gen != 0 && s.episodes.all fun x =>
    !(x.key = h.key && x.gang = h.gang && x.bar = h.bar && x.gen = h.gen && x.scope == .dom)).map fun h =>
      { e with bar := h.bar, gen := h.gen }

/-- Every instance of a mark's gang has retired: nothing is left to gather. -/
def State.gangOver (s : State) (e : Episode) : State :=
  if e.width ≤ (s.localRetired e).length + (s.heardFrom { e with bar := 32 } e.gang).length then
    { s with
      episodes := s.episodes.filter fun x => !(x.gen = 0 && x.key = e.key && x.gang = e.gang)
      heard := s.heard.filter fun h => !(h.key = e.key && h.gang = e.gang) }
  else s

/-- The contexts of other devices that have been heard of for a gang's key. -/
def State.knownFar (s : State) (e : Episode) : List (Nat × Nat) :=
  ((s.heard.filter fun h => h.key = e.key && h.gang = e.gang).map fun h => (h.dev, h.ctx)).eraseDups

/-- An episode's root may lie on another device: of a lower number, with an instance of the gang that this device knows nothing of, and
before every device that has been heard (R337, log entry 47). -/
def State.rootAt (s : State) (e : Episode) (d : Nat) : Bool :=
  d ∈ s.blob.domain && d < s.blob.device &&
    (s.joinedHere e).length + (s.localRetired e).length + (s.knownFar e).length < e.width &&
    s.heard.all fun h => !(h.key = e.key && h.gang = e.gang && h.dev < d)

/-- GATHER: the n-th episode. At .dom it is sent to the device `dest`, or gathered here, at the root of the gang, which no instance of
a lower device has reached (R337, R344). -/
def execGather (n : Nat) (dest : Option Nat) (s : State) : Host.Outcome State Fault Refusal :=
  match s.episodes[n]? with
  | none => .next s
  | some e =>
    if e.complete || !s.collects e || !(e.gen = 0 || s.localArrived e) then .next s
    else if e.scope != .dom then .next (s.setEpisode n { e with complete := true })
    else
      match dest with
      | some d =>
        .next (if !e.sent && s.rootAt e d then s.sendRoot n e d else s)
      | none =>
        if s.heard.any fun h => h.key = e.key && h.gang = e.gang && h.dev < s.blob.device then .next s
        else
          match (if e.gen = 0 then s.markEpisodes e else [e]).find? s.gangArrived with
          | some x => .next (s.rootGather x)
          | none => .next (if e.gen = 0 then s.gangOver e else s)

/-- A barrier of a cell whose episode has released. -/
def BarSlot.release (b : BarSlot) (e : Episode) : BarSlot :=
  if b.st == .arrived && b.gen = e.gen && b.scope == e.scope then { b with st := .released } else b

/-- The release of an episode in a cell's state (R343). What its checkpoints hold stays as it was taken (log entry 124). -/
def Core.release (k : Core) (e : Episode) : Core :=
  let id : Fin 32 := Fin.ofNat 32 e.bar
  { k with bars := k.bars.set id ((k.bars[id]).release e) }

/-- The release of an episode in a cell. -/
def Cell.release (c : Cell) (e : Episode) : Cell := { c with core := c.core.release e }

/-- A cell of a group of an instance. -/
def State.cellOf (s : State) (ctx inst cell : Nat) : Bool :=
  (((s.getCell ctx cell).bind Cell.group).bind (mget s.groups)).any fun g => g.inst = inst

/-- MULTICAST: the release of a complete episode reaches one of its participants; a cell that its group has left takes nothing. -/
def execMulticast (n cell : Nat) (s : State) : Host.Outcome State Fault Refusal :=
  match s.episodes[n]? with
  | none => .next s
  | some e =>
    if !e.complete || !s.collects e || !(cell ∈ e.cells) || cell ∈ e.released then .next s
    else
      let s := if s.cellOf e.ctx e.inst cell then s.updCell e.ctx cell (Cell.release · e) else s
      .next (s.setEpisode n { e with released := cell :: e.released }).sweepEpisodes

end Sys2Proof.Machine
end

