-- ==== Sys2Proof/Machine/Dispatch.lean ====
section
/-! DEFINITION. One arm for each constructor of Instr: the meaning that it calls. -/

namespace Sys2Proof.Machine

open Sys2Proof

def exec (i : Instr) (s : State) : Host.Outcome State Fault Refusal :=
  match i with
  | .add t d a b => Sys2Proof.Machine.execAdd t d a b s
  | .sub t d a b => Sys2Proof.Machine.execSub t d a b s
  | .and t d a b => Sys2Proof.Machine.execAnd t d a b s
  | .or t d a b => Sys2Proof.Machine.execOr t d a b s
  | .xor t d a b => Sys2Proof.Machine.execXor t d a b s
  | .andn t d a b => Sys2Proof.Machine.execAndn t d a b s
  | .shl t d a b => Sys2Proof.Machine.execShl t d a b s
  | .shr t d a b => Sys2Proof.Machine.execShr t d a b s
  | .sar t d a b => Sys2Proof.Machine.execSar t d a b s
  | .rotl t d a b => Sys2Proof.Machine.execRotl t d a b s
  | .min t d a b => Sys2Proof.Machine.execMin t d a b s
  | .minu t d a b => Sys2Proof.Machine.execMinu t d a b s
  | .max t d a b => Sys2Proof.Machine.execMax t d a b s
  | .maxu t d a b => Sys2Proof.Machine.execMaxu t d a b s
  | .sel t d a b c => Sys2Proof.Machine.execSel t d a b c s
  | .mul t d a b => Sys2Proof.Machine.execMul t d a b s
  | .mulhs t d a b => Sys2Proof.Machine.execMulhs t d a b s
  | .mulhu t d a b => Sys2Proof.Machine.execMulhu t d a b s
  | .div t d a b => Sys2Proof.Machine.execDiv t d a b s
  | .divu t d a b => Sys2Proof.Machine.execDivu t d a b s
  | .rem t d a b => Sys2Proof.Machine.execRem t d a b s
  | .remu t d a b => Sys2Proof.Machine.execRemu t d a b s
  | .clz t d a => Sys2Proof.Machine.execClz t d a s
  | .ctz t d a => Sys2Proof.Machine.execCtz t d a s
  | .popc t d a => Sys2Proof.Machine.execPopc t d a s
  | .sext t d a w => Sys2Proof.Machine.execSext t d a w s
  | .zext t d a w => Sys2Proof.Machine.execZext t d a w s
  | .cmp t f d a b => Sys2Proof.Machine.execCmp t f d a b s
  | .addi t d a imm => Sys2Proof.Machine.execAddi t d a imm s
  | .addiExt t d a imm => Sys2Proof.Machine.execAddiExt t d a imm s
  | .li t d imm => Sys2Proof.Machine.execLi t d imm s
  | .liExt t d imm => Sys2Proof.Machine.execLiExt t d imm s
  | .lih t d a hi => Sys2Proof.Machine.execLih t d a hi s
  | .keep t n b => Sys2Proof.Machine.execKeep t n b s
  | .take t n => Sys2Proof.Machine.execTake t n s
  | .br t off => Sys2Proof.Machine.execBr t off s
  | .bz t a off => Sys2Proof.Machine.execBz t a off s
  | .bnz t a off => Sys2Proof.Machine.execBnz t a off s
  | .call t off => Sys2Proof.Machine.execCall t off s
  | .jr t a => Sys2Proof.Machine.execJr t a s
  | .ret t => Sys2Proof.Machine.execRet t s
  | .loop t a off => Sys2Proof.Machine.execLoop t a off s
  | .bksel t a g => Sys2Proof.Machine.execBksel t a g s
  | .xbrk t off => Sys2Proof.Machine.execXbrk t off s
  | .clkon t kd kp b => Sys2Proof.Machine.execClkon t kd kp b s
  | .clkoff t kd kp b => Sys2Proof.Machine.execClkoff t kd kp b s
  | .clkrd t d k => Sys2Proof.Machine.execClkrd t d k s
  | .when_ t d a k => Sys2Proof.Machine.execWhen t d a k s
  | .merge t d a b => Sys2Proof.Machine.execMerge t d a b s
  | .cur t d a k => Sys2Proof.Machine.execCur t d a k s
  | .dly t d a slot => Sys2Proof.Machine.execDly t d a slot s
  | .iend t => Sys2Proof.Machine.execIend t s
  | .tsrd t d => Sys2Proof.Machine.execTsrd t d s
  | .lrpat t a f b => Sys2Proof.Machine.execLrpat t a f b s
  | .lrarm t d a afterCommit => Sys2Proof.Machine.execLrarm t d a afterCommit s
  | .lrdrop t a => Sys2Proof.Machine.execLrdrop t a s
  | .texit t => Sys2Proof.Machine.execTexit t s
  | .twset t tw a => Sys2Proof.Machine.execTwset t tw a s
  | .twget t d tw => Sys2Proof.Machine.execTwget t d tw s
  | .twxchg t d tw a => Sys2Proof.Machine.execTwxchg t d tw a s
  | .licacq t => Sys2Proof.Machine.execLicacq t s
  | .licrel t => Sys2Proof.Machine.execLicrel t s
  | .barv t id scope => Sys2Proof.Machine.execBarv t id scope s
  | .bwait t id => Sys2Proof.Machine.execBwait t id s
  | .bpoll t d id => Sys2Proof.Machine.execBpoll t d id s
  | .bkal t d a => Sys2Proof.Machine.execBkal t d a s
  | .bkfr t a b => Sys2Proof.Machine.execBkfr t a b s
  | .tmpl t n a => Sys2Proof.Machine.execTmpl t n a s
  | .srd t d sr => Sys2Proof.Machine.execSrd t d sr s
  | .swr t sr a => Sys2Proof.Machine.execSwr t sr a s
  | .nop t => Sys2Proof.Machine.execNop t s
  | .trap t code => Sys2Proof.Machine.execTrap t code s
  | .brkp t => Sys2Proof.Machine.execBrkp t s
  | .aadd t d a b => Sys2Proof.Machine.execAadd t d a b s
  | .asub t d a b => Sys2Proof.Machine.execAsub t d a b s
  | .ashl t d a b => Sys2Proof.Machine.execAshl t d a b s
  | .amadd t d a b c => Sys2Proof.Machine.execAmadd t d a b c s
  | .aaddi t d a imm => Sys2Proof.Machine.execAaddi t d a imm s
  | .aaddiExt t d a imm => Sys2Proof.Machine.execAaddiExt t d a imm s
  | .ali t d imm => Sys2Proof.Machine.execAli t d imm s
  | .aliExt t d imm => Sys2Proof.Machine.execAliExt t d imm s
  | .aKeep t n b => Sys2Proof.Machine.execAKeep t n b s
  | .aTake t n => Sys2Proof.Machine.execATake t n s
  | .abr t off => Sys2Proof.Machine.execAbr t off s
  | .abz t a off => Sys2Proof.Machine.execAbz t a off s
  | .abnz t a off => Sys2Proof.Machine.execAbnz t a off s
  | .aloop t a off => Sys2Proof.Machine.execAloop t a off s
  | .ld t k d a cls => Sys2Proof.Machine.execLd t k d a cls s
  | .ldExt t k d a cls off => Sys2Proof.Machine.execLdExt t k d a cls off s
  | .st t z b a cls => Sys2Proof.Machine.execSt t z b a cls s
  | .stExt t z b a cls off => Sys2Proof.Machine.execStExt t z b a cls off s
  | .qld t z q a cls => Sys2Proof.Machine.execQld t z q a cls s
  | .qldExt t z q a cls off => Sys2Proof.Machine.execQldExt t z q a cls off s
  | .qst t z q a cls => Sys2Proof.Machine.execQst t z q a cls s
  | .qstExt t z q a cls off => Sys2Proof.Machine.execQstExt t z q a cls off s
  | .pat t q a cls => Sys2Proof.Machine.execPat t q a cls s
  | .gth t z q a cls qi => Sys2Proof.Machine.execGth t z q a cls qi s
  | .sct t z q a cls qi => Sys2Proof.Machine.execSct t z q a cls qi s
  | .cpy t d src n cls => Sys2Proof.Machine.execCpy t d src n cls s
  | .cpyw t cls => Sys2Proof.Machine.execCpyw t cls s
  | .wst t o src n => Sys2Proof.Machine.execWst t o src n s
  | .pref t a => Sys2Proof.Machine.execPref t a s
  | .prefExt t a off => Sys2Proof.Machine.execPrefExt t a off s
  | .fcls t mask scope => Sys2Proof.Machine.execFcls t mask scope s
  | .fsc t => Sys2Proof.Machine.execFsc t s
  | .amo t op d a b x => Sys2Proof.Machine.execAmo t op d a b x s
  | .amoCas t d a b cmp x => Sys2Proof.Machine.execAmoCas t d a b cmp x s
  | .ared t op a b x => Sys2Proof.Machine.execAred t op a b x s
  | .qpush t q a => Sys2Proof.Machine.execQpush t q a s
  | .qpop t d q k => Sys2Proof.Machine.execQpop t d q k s
  | .vadd t d a b => Sys2Proof.Machine.execVadd t d a b s
  | .vaddExt t d a b x => Sys2Proof.Machine.execVaddExt t d a b x s
  | .vsub t d a b => Sys2Proof.Machine.execVsub t d a b s
  | .vsubExt t d a b x => Sys2Proof.Machine.execVsubExt t d a b x s
  | .vmul t d a b => Sys2Proof.Machine.execVmul t d a b s
  | .vmulExt t d a b x => Sys2Proof.Machine.execVmulExt t d a b x s
  | .vmin t d a b => Sys2Proof.Machine.execVmin t d a b s
  | .vminExt t d a b x => Sys2Proof.Machine.execVminExt t d a b x s
  | .vmax t d a b => Sys2Proof.Machine.execVmax t d a b s
  | .vmaxExt t d a b x => Sys2Proof.Machine.execVmaxExt t d a b x s
  | .vabs t d a => Sys2Proof.Machine.execVabs t d a s
  | .vabsExt t d a x => Sys2Proof.Machine.execVabsExt t d a x s
  | .vneg t d a => Sys2Proof.Machine.execVneg t d a s
  | .vnegExt t d a x => Sys2Proof.Machine.execVnegExt t d a x s
  | .vfma t d a b => Sys2Proof.Machine.execVfma t d a b s
  | .vfmaExt t d a b x => Sys2Proof.Machine.execVfmaExt t d a b x s
  | .vfms t d a b => Sys2Proof.Machine.execVfms t d a b s
  | .vfmsExt t d a b x => Sys2Proof.Machine.execVfmsExt t d a b x s
  | .vfnma t d a b => Sys2Proof.Machine.execVfnma t d a b s
  | .vfnmaExt t d a b x => Sys2Proof.Machine.execVfnmaExt t d a b x s
  | .vrcp t d a => Sys2Proof.Machine.execVrcp t d a s
  | .vrcpExt t d a x => Sys2Proof.Machine.execVrcpExt t d a x s
  | .vrsq t d a => Sys2Proof.Machine.execVrsq t d a s
  | .vrsqExt t d a x => Sys2Proof.Machine.execVrsqExt t d a x s
  | .vexp2 t d a => Sys2Proof.Machine.execVexp2 t d a s
  | .vexp2Ext t d a x => Sys2Proof.Machine.execVexp2Ext t d a x s
  | .vlog2 t d a => Sys2Proof.Machine.execVlog2 t d a s
  | .vlog2Ext t d a x => Sys2Proof.Machine.execVlog2Ext t d a x s
  | .vtanh t d a => Sys2Proof.Machine.execVtanh t d a s
  | .vtanhExt t d a x => Sys2Proof.Machine.execVtanhExt t d a x s
  | .vcmp t f md a b => Sys2Proof.Machine.execVcmp t f md a b s
  | .vcmpExt t f md a b x => Sys2Proof.Machine.execVcmpExt t f md a b x s
  | .vand t d a b => Sys2Proof.Machine.execVand t d a b s
  | .vandExt t d a b x => Sys2Proof.Machine.execVandExt t d a b x s
  | .vor t d a b => Sys2Proof.Machine.execVor t d a b s
  | .vorExt t d a b x => Sys2Proof.Machine.execVorExt t d a b x s
  | .vxor t d a b => Sys2Proof.Machine.execVxor t d a b s
  | .vxorExt t d a b x => Sys2Proof.Machine.execVxorExt t d a b x s
  | .vnot t d a => Sys2Proof.Machine.execVnot t d a s
  | .vnotExt t d a x => Sys2Proof.Machine.execVnotExt t d a x s
  | .vshl t d a b => Sys2Proof.Machine.execVshl t d a b s
  | .vshlExt t d a b x => Sys2Proof.Machine.execVshlExt t d a b x s
  | .vshr t d a b => Sys2Proof.Machine.execVshr t d a b s
  | .vshrExt t d a b x => Sys2Proof.Machine.execVshrExt t d a b x s
  | .vsar t d a b => Sys2Proof.Machine.execVsar t d a b s
  | .vsarExt t d a b x => Sys2Proof.Machine.execVsarExt t d a b x s
  | .vsel t ma d a b => Sys2Proof.Machine.execVsel t ma d a b s
  | .vshuf t d a b => Sys2Proof.Machine.execVshuf t d a b s
  | .vshufExt t d a b x => Sys2Proof.Machine.execVshufExt t d a b x s
  | .vperm t d a b => Sys2Proof.Machine.execVperm t d a b s
  | .vpermExt t d a b x => Sys2Proof.Machine.execVpermExt t d a b x s
  | .vrot t d a x => Sys2Proof.Machine.execVrot t d a x s
  | .vbcast t d a x => Sys2Proof.Machine.execVbcast t d a x s
  | .vred t f d a => Sys2Proof.Machine.execVred t f d a s
  | .vredExt t f d a x => Sys2Proof.Machine.execVredExt t f d a x s
  | .vscan t d a => Sys2Proof.Machine.execVscan t d a s
  | .vscanExt t d a x => Sys2Proof.Machine.execVscanExt t d a x s
  | .vtopk t d a x => Sys2Proof.Machine.execVtopk t d a x s
  | .vsort t asc d a => Sys2Proof.Machine.execVsort t asc d a s
  | .vsortExt t asc d a x => Sys2Proof.Machine.execVsortExt t asc d a x s
  | .vcvt t d a x => Sys2Proof.Machine.execVcvt t d a x s
  | .vpack t d a b x => Sys2Proof.Machine.execVpack t d a b x s
  | .vunpk t d a x => Sys2Proof.Machine.execVunpk t d a x s
  | .vunpk4 t d a x => Sys2Proof.Machine.execVunpk4 t d a x s
  | .vsat t d a x => Sys2Proof.Machine.execVsat t d a x s
  | .vld t v row => Sys2Proof.Machine.execVld t v row s
  | .vst t v row => Sys2Proof.Machine.execVst t v row s
  | .vpop t d q k => Sys2Proof.Machine.execVpop t d q k s
  | .vpush t q src => Sys2Proof.Machine.execVpush t q src s
  | .vmov t d a => Sys2Proof.Machine.execVmov t d a s
  | .vmovExt t d a x => Sys2Proof.Machine.execVmovExt t d a x s
  | .vmovs t d q n => Sys2Proof.Machine.execVmovs t d q n s
  | .vext t q a n => Sys2Proof.Machine.execVext t q a n s
  | .mand t md ma mb => Sys2Proof.Machine.execMand t md ma mb s
  | .mor t md ma mb => Sys2Proof.Machine.execMor t md ma mb s
  | .mnot t md ma => Sys2Proof.Machine.execMnot t md ma s
  | .mpop t q ma => Sys2Proof.Machine.execMpop t q ma s
  | .mset t md n => Sys2Proof.Machine.execMset t md n s
  | .vrb t base sizeM1 => Sys2Proof.Machine.execVrb t base sizeM1 s
  | .vloop t off => Sys2Proof.Machine.execVloop t off s
  | .vfmt t d f => Sys2Proof.Machine.execVfmt t d f s
  | .vwhen t d a k => Sys2Proof.Machine.execVwhen t d a k s
  | .vmerge t d a b => Sys2Proof.Machine.execVmerge t d a b s
  | .vdly t d a slot => Sys2Proof.Machine.execVdly t d a slot s
  | .vacc t d bank row => Sys2Proof.Machine.execVacc t d bank row s
  | .vaccw t src bank row => Sys2Proof.Machine.execVaccw t src bank row s
  | .vbr t ma none_ off => Sys2Proof.Machine.execVbr t ma none_ off s
  | .mexec t n sel val => Sys2Proof.Machine.execMexec t n sel val s
  | .mexecExt t n sel val sel2 val2 => Sys2Proof.Machine.execMexecExt t n sel val sel2 val2 s
  | .pairedRendezvous ctx cell => Sys2Proof.Machine.execPairedRendezvous ctx cell s
  | .matrixCommandComplete ctx cell => Sys2Proof.Machine.execMatrixCommandComplete ctx cell s
  | .twxchgRendezvous ctx cell => Sys2Proof.Machine.execTwxchgRendezvous ctx cell s
  | .twinAbandon ctx cell => Sys2Proof.Machine.execTwinAbandon ctx cell s
  | .licenceGrant ctx cell => Sys2Proof.Machine.execLicenceGrant ctx cell s
  | .leaseExpiry ctx cell => Sys2Proof.Machine.execLeaseExpiry ctx cell s
  | .licencePass ctx cell => Sys2Proof.Machine.execLicencePass ctx cell s
  | .firstClaimTimeout ctx cell => Sys2Proof.Machine.execFirstClaimTimeout ctx cell s
  | .streamElement ctx cell id => Sys2Proof.Machine.execStreamElement ctx cell id s
  | .copyUnit ctx cell id => Sys2Proof.Machine.execCopyUnit ctx cell id s
  | .loadDataReturn ctx cell id => Sys2Proof.Machine.execLoadDataReturn ctx cell id s
  | .scratchpadRefetch ctx cell => Sys2Proof.Machine.execScratchpadRefetch ctx cell s
  | .atomicPerform ctx cell id => Sys2Proof.Machine.execAtomicPerform ctx cell id s
  | .reductionPerform n => Sys2Proof.Machine.execReductionPerform n s
  | .scSlot ctx cell => Sys2Proof.Machine.execScSlot ctx cell s
  | .commit id => Sys2Proof.Machine.execCommit id s
  | .instantOverrun ctx cell => Sys2Proof.Machine.execInstantOverrun ctx cell s
  | .checkerMismatch ctx cell e => Sys2Proof.Machine.execCheckerMismatch ctx cell e s
  | .tamperRead place double => Sys2Proof.Machine.execTamperRead place double s
  | .patrolRead line fails => Sys2Proof.Machine.execPatrolRead line fails s
  | .refreshWindow => Sys2Proof.Machine.execRefreshWindow s
  | .baristaVisit part => Sys2Proof.Machine.execBaristaVisit part s
  | .placementStall part => Sys2Proof.Machine.execPlacementStall part s
  | .groupPrepared gid => Sys2Proof.Machine.execGroupPrepared gid s
  | .instStart ctx inst => Sys2Proof.Machine.execInstStart ctx inst s
  | .hostNop part => Sys2Proof.Machine.execHostNop part s
  | .load part => Sys2Proof.Machine.execLoad part s
  | .launch part => Sys2Proof.Machine.execLaunch part s
  | .argumentReadDone part ok => Sys2Proof.Machine.execArgumentReadDone part ok s
  | .cancel part => Sys2Proof.Machine.execCancel part s
  | .unload part => Sys2Proof.Machine.execUnload part s
  | .ringResume part => Sys2Proof.Machine.execRingResume part s
  | .doorbell fn ring v => Sys2Proof.Machine.execDoorbell fn ring v s
  | .ringEnable fn ring => Sys2Proof.Machine.execRingEnable fn ring s
  | .ringOverrunClear fn ring => Sys2Proof.Machine.execRingOverrunClear fn ring s
  | .completionReadPointer fn v => Sys2Proof.Machine.execCompletionReadPointer fn v s
  | .invalidate fn v => Sys2Proof.Machine.execInvalidate fn v s
  | .invalidateDone fn => Sys2Proof.Machine.execInvalidateDone fn s
  | .repair v => Sys2Proof.Machine.execRepair v s
  | .repairDone => Sys2Proof.Machine.execRepairDone s
  | .setup fn slot => Sys2Proof.Machine.execSetup fn slot s
  | .fetch fn slot => Sys2Proof.Machine.execFetch fn slot s
  | .fetchDone part => Sys2Proof.Machine.execFetchDone part s
  | .park fn slot => Sys2Proof.Machine.execPark fn slot s
  | .parkDone part => Sys2Proof.Machine.execParkDone part s
  | .switch fn slot => Sys2Proof.Machine.execSwitch fn slot s
  | .switchDue part => Sys2Proof.Machine.execSwitchDue part s
  | .halt fn slot => Sys2Proof.Machine.execHalt fn slot s
  | .haltDue part => Sys2Proof.Machine.execHaltDue part s
  | .roleFlipDone part => Sys2Proof.Machine.execRoleFlipDone part s
  | .ctxResume fn slot => Sys2Proof.Machine.execCtxResume fn slot s
  | .ctxEnd fn slot => Sys2Proof.Machine.execCtxEnd fn slot s
  | .attest fn slot cidx => Sys2Proof.Machine.execAttest fn slot cidx s
  | .keywrap fn slot cidx => Sys2Proof.Machine.execKeywrap fn slot cidx s
  | .seal fn slot cidx => Sys2Proof.Machine.execSeal fn slot cidx s
  | .sealDone part => Sys2Proof.Machine.execSealDone part s
  | .restore fn slot cidx => Sys2Proof.Machine.execRestore fn slot cidx s
  | .ctrquote fn slot cidx => Sys2Proof.Machine.execCtrquote fn slot cidx s
  | .ctrfree fn slot cidx => Sys2Proof.Machine.execCtrfree fn slot cidx s
  | .storeResponse part r => Sys2Proof.Machine.execStoreResponse part r s
  | .retrain port => Sys2Proof.Machine.execRetrain port s
  | .linkTrained port lanes peer full => Sys2Proof.Machine.execLinkTrained port lanes peer full s
  | .trainingTimeout port => Sys2Proof.Machine.execTrainingTimeout port s
  | .linkLoss port => Sys2Proof.Machine.execLinkLoss port s
  | .packetArrival flow seq body => Sys2Proof.Machine.execPacketArrival flow seq body s
  | .retransmit flow seq => Sys2Proof.Machine.execRetransmit flow seq s
  | .peerRequest dev owner pa zero req => Sys2Proof.Machine.execPeerRequest dev owner pa zero req s
  | .peerRefusal ctx cell id => Sys2Proof.Machine.execPeerRefusal ctx cell id s
  | .peerUnreachable dev => Sys2Proof.Machine.execPeerUnreachable dev s
  | .hostMemAccess off size data => Sys2Proof.Machine.execHostMemAccess off size data s
  | .gather n dest => Sys2Proof.Machine.execGather n dest s
  | .multicast n cell => Sys2Proof.Machine.execMulticast n cell s
  | .combine n m => Sys2Proof.Machine.execCombine n m s
  | .filter ctx id k f => Sys2Proof.Machine.execFilter ctx id k f s
  | .arbiterGrant => Sys2Proof.Machine.execArbiterGrant s
  | .thermalSample cluster temp => Sys2Proof.Machine.execThermalSample cluster temp s
  | .thermalLevelFall cluster => Sys2Proof.Machine.execThermalLevelFall cluster s
  | .powerUp => Sys2Proof.Machine.execPowerUp s
  | .bootgo image => Sys2Proof.Machine.execBootgo image s
  | .blob b g => Sys2Proof.Machine.execBlob b g s
  | .vfEnable n => Sys2Proof.Machine.execVfEnable n s
  | .timeSync d => Sys2Proof.Machine.execTimeSync d s
  | .timeJoin ref time => Sys2Proof.Machine.execTimeJoin ref time s
  | .referenceLost ref => Sys2Proof.Machine.execReferenceLost ref s
  | .lifetimeUpdate => Sys2Proof.Machine.execLifetimeUpdate s
  | .powerDown => Sys2Proof.Machine.execPowerDown s
  | .registerWrite fn off v => Sys2Proof.Machine.execRegisterWrite fn off v s
  | .powerLoss => Sys2Proof.Machine.execPowerLoss s
  | .directWritePerformed ctx cell id => Sys2Proof.Machine.execDirectWritePerformed ctx cell id s
  | .arrayFree ctx cell id => Sys2Proof.Machine.execArrayFree ctx cell id s
  | .wstUnitWritten ctx cell id => Sys2Proof.Machine.execWstUnitWritten ctx cell id s
  | .loadDone part => Sys2Proof.Machine.execLoadDone part s
  | .restoreDone part => Sys2Proof.Machine.execRestoreDone part s
  | .firmwareVerifyDone g => Sys2Proof.Machine.execFirmwareVerifyDone g s

end Sys2Proof.Machine
end

