-- ==== Sys2Proof/Machine/Time.lean ====
section
/-! DEFINITION. The passing of time: the counters that count cycles of the arithmetic clock, and TSNOW (R5, R150, R236,
R238, R239, R241, R265, R393, R396). -/

namespace Sys2Proof.Machine

open Sys2Proof

/-- An engine's noted wait stops the watchdog's count (R150): the pour-line waits of every word of R282, those under their own rules too
(log entry 126). -/
def stopsWatch (k : WaitKind) : Bool := k == .pourLine || k == .bufferFull || k == .iendRoom

/-- A cell runs: it is not halted for pre-emption or for a fault, nor at a held injection (R150, R241, R358). -/
def State.cellRuns (s : State) (ctx cell : Nat) (c : Cell) : Bool :=
  !c.refetch &&
    match c.task.bind s.getTask with
    | some t => s.goes ctx cell c t && s.groupRuns t && !s.stopsHere c t
    | none => false

/-- The group of a cell has issued its first word (R150). -/
def State.groupBegun (s : State) (ctx : Nat) (c : Cell) : Bool :=
  c.waits.begun || s.cells.any fun p => p.1 / 1024 = ctx && p.2.group == c.group && p.2.waits.begun

/-- What `n` passing cycles add to the watchdog's count (R150). The first of them is the present cycle, which counts when
one of the cell's engines has issued in it; the others count while no wait of an engine, or of a stream or a copy (`full`), stops the
count. -/
def Waits.counted (w : Waits) (full : Bool) (n : Nat) : Nat :=
  let held := full || stopsWatch w.c || stopsWatch w.a || stopsWatch w.v || stopsWatch w.m
  if !held then n else if w.went then Nat.min n 1 else 0

/-- `n` cycles pass in a cell of a context. A wait for the twin counts while the twin is not there (R241, R242). -/
def State.tickCell (s : State) (n ctx cell : Nat) (c : Cell) : Cell :=
  let run := s.cellRuns ctx cell c
  { c with
    watch := if run && s.groupBegun ctx c then c.watch + c.waits.counted (!c.full.isEmpty) n else c.watch
    waits := if n = 0 then c.waits else { c.waits with went := false }
    lic := if c.lic.held then { c.lic with age := Nat.min 4096 (c.lic.age + n) } else c.lic
    xchg := if run then c.xchg.map fun x => if s.twinAtXchg ctx cell x.tw then x else { x with cyc := x.cyc + n } else c.xchg
    pair := if run then c.pair.map fun x => if s.twinAtPair ctx cell then x else { x with cyc := x.cyc + n } else c.pair }

/-- TSNOW after `n` ns (R396): it holds while it waits for its reference, and a correction takes at most 1 ns in 1,000. Before Ready, the
time of a reference that has been found goes on. -/
def State.tickNs (s : State) (n : Nat) : State :=
  if s.boot != .ready then { s with timeFound := s.timeFound.map fun f => (f.1, f.2 + n) }
  else
    let run := n - s.tsHold
    let acc := s.tsfrac + run
    let k := Nat.min (acc / 1000) s.slew.natAbs
    { s with
      tsHold := s.tsHold - n
      tsfrac := acc % 1000
      tsnow := (if s.slew < 0 then s.tsnow + run - k else s.tsnow + run + k) % 2 ^ 64
      slew := if s.slew < 0 then s.slew + k else s.slew - k }

/-- The steep windows after `n` cycles (R265): windows of 3,600 cycles, one macro after the other. LEFT is 0 in the cycle
in which a window has run out. -/
def refreshAfter (cur : Fin 16) (left n : Nat) : Fin 16 × Nat :=
  if n ≤ left then (cur, left - n)
  else (cur + 1 + Fin.ofNat 16 ((n - left - 1) / 3600), 3599 - (n - left - 1) % 3600)

/-- The cycles and nanoseconds of a turn pass. -/
def State.tick (s : State) (t : Turn) : State :=
  let n := t.cycles
  let s := s.tickNs t.ns
  let w := refreshAfter s.wrefCur s.wrefLeft n
  { s with
    cycle := s.cycle + n
    wrefCur := w.1
    wrefLeft := w.2
    cells := s.cells.map fun p => (p.1, s.tickCell n (p.1 / 1024) (p.1 % 1024) p.2)
    groups := s.groups.map fun p => (p.1, { p.2 with left := p.2.left - n })
    pairs := s.pairs.map fun p => (p.1, { p.2 with passing := p.2.passing.map (· + n), firstCyc := p.2.firstCyc + n })
    clusters := s.clusters.map fun p => (p.1, { p.2 with coolCyc := if p.2.temp ≤ coolBelow p.2.lvl then p.2.coolCyc + n else 0 }) }

end Sys2Proof.Machine
end

