-- ==== Sys2Proof/Machine/Step.lean ====
section
/-! DEFINITION. One step of the machine: the next turn of the agenda (log entry 1). -/

namespace Sys2Proof.Machine

open Sys2Proof

/-- An engine of a cell issues its next word. -/
def issue (ctx cell : Nat) (e : Engine) (s : State) : Host.Outcome State Fault Refusal :=
  let s : State := { s with cur := ⟨ctx, cell⟩ }
  match s.nextWord e with
  | none => .next s
  | some (c, _, a, ws) =>
    let s := s.putHere (c.standAt e a)
    match decode ws with
    | some i => exec i s
    | none => s.illegal e (ws.headD 0)

/-- What happens on a turn. -/
def act (a : Act) (s : State) : Host.Outcome State Fault Refusal :=
  match a with
  | .issue ctx cell e => issue ctx cell e s
  | .event i => exec i s
  | .idle => .next s

/-- One turn: time passes, then the turn's act. With an empty agenda one cycle passes. -/
def step (s : State) : Host.Outcome State Fault Refusal :=
  match s.nextTurn s.agenda with
  | none => .next (s.tick { cycles := 1, act := .idle })
  | some (t, rest) => act t.act ({ s with agenda := rest }.tick t)

/-! ## Placing an instruction where the next step fetches it -/

/-- The words of an instruction given as the opcode table numbers its bits, the words above it zero. -/
def tableWords (nbits w : Nat) : List Word32 :=
  [BitVec.ofNat 32 (w % 2 ^ nbits), BitVec.ofNat 32 (w % 2 ^ nbits / 2 ^ 32)]

/-- The state with the instruction as the text of the one task of a one-cell group, and the agenda giving the engine that
its TAG names the next turn (log entry 9 says how a program comes to run from reset). -/
def State.withFetchWord (s : State) (nbits w : Nat) : State :=
  let slots := (Vector.replicate 34 ({} : Slot)).set 0 { st := .running, ctx := 0 }
  { s with
    boot := .ready
    parts := [(0, { cols := List.range 20, slots := slots })]
    kernels := [{ ctx := 0, handle := 1, stages := [{ num := 0, text := tableWords nbits w }] }]
    insts := [{ part := 0, ctx := 0, id := 1, handle := 1, st := .running }]
    groups := [(1, { id := 1, ctx := 0, inst := 1, stage := 0, ox := 0, oy := 0, oz := 0, w := 1, h := 1, d := 1, st := .running })]
    tasks := [(1, { id := 1, ctx := 0, inst := 1, stage := 0, ts := 0, key := [0, 0], group := some 1 })]
    cells := [(0, { group := some 1, task := some 1 })]
    agenda := [{ cycles := 0, act := .issue 0 0 (engineOf (w / 2 ^ 30 % 4)) }] }

end Sys2Proof.Machine
end

