-- ==== Sys2Proof/Machine/HostRead.lean ====
section
/-! DEFINITION. What the host reads from the registers of the functions (R7, R8): the plain registers as they are stored, and
the read-only views of the rest of the state. No read changes anything. -/

namespace Sys2Proof.Machine

open Sys2Proof

/-- LPORT (R389). LANES has four bits; 16 lanes do not fit in them (log entry 109). -/
def Port.view (p : Port) : Word64 :=
  let lanes := if p.lanes < 16 then p.lanes else (Config.laneField p.lanes).toNat
  BitVec.ofNat 64 (p.st % 8 + 2 ^ 4 * lanes + 2 ^ 8 * (p.fails % 16) + 2 ^ 16 * (p.peer % 65536))

/-- THERM (R393). -/
def Cluster.view (c : Cluster) : Word64 := BitVec.ofNat 64 (c.temp % 256 + 2 ^ 8 * (c.lvl % 4) + 2 ^ 16 * (c.events % 65536))

/-- EBCNT (R363). -/
def ErrBank.counts (b : ErrBank) : Word64 :=
  BitVec.ofNat 64 (b.ceCnt % 65536 + 2 ^ 16 * (b.ueCnt % 65536) + 2 ^ 32 * b.ce.isSome.toNat + 2 ^ 33 * b.ue.isSome.toNat +
    2 ^ 34 * b.ceOvf.toNat + 2 ^ 35 * b.ueOvf.toNat)

/-- A bank's registers by offset (R363). -/
def ErrBank.view (b : ErrBank) (off : Nat) : Word64 :=
  let half (r : Option (BitVec 128)) (hi : Bool) : Word64 := ((r.getD 0) >>> (if hi then 64 else 0)).setWidth 64
  if off = 0 then half b.ce false else if off = 8 then half b.ce true
  else if off = 0x10 then half b.ue false else if off = 0x18 then half b.ue true
  else if off = 0x20 then b.counts else 0

/-- CTXOCC (R352). -/
def Part.occupied (p : Part) : Word64 :=
  BitVec.ofNat 64 ((((List.range 34).filter fun n => (p.slot n).st != .empty).map fun n => 2 ^ n).sum +
    (if (p.slot 0).st == .halted then 2 ^ 34 else 0))

/-- The physical function's registers. -/
def State.readPhysical (s : State) (off : Nat) : Word64 :=
  if off = 0x2000 then s.reg 0 off ||| (if s.repairBusy.isSome then 0x20000 else 0)
  else if off = 0x2008 then BitVec.ofNat 64 s.hbmGiB
  else if 0x2400 ≤ off && off < 0x2580 then BitVec.ofNat 64 (leNat ((idkBytes.drop (off - 0x2400)).take 8))
  else if 0x2800 ≤ off && off < 0x28D8 then (s.port ((off - 0x2800) / 8)).view
  else if 0x2C00 ≤ off && off < 0x2D40 then (s.cluster ((off - 0x2C00) / 8)).view
  else if 0x2E00 ≤ off && off < 0x2F00 then BitVec.ofNat 64 (s.lifetime.getD ((off - 0x2E00) / 8) 0)
  else if 0x3000 ≤ off && off < 0x3000 + 0x40 * 53 then ((mget s.errBanks ((off - 0x3000) / 0x40)).getD {}).view ((off - 0x3000) % 0x40)
  else if (pfMask off).isSome then s.reg 0 off
  else 0

/-- A bound function's registers. -/
def State.readVirtual (s : State) (fn : Nat) (n : Nat) (p : Part) (off : Nat) : Word64 :=
  if off = 0x400 then s.reg fn off ||| (if p.busy.isSome then 0x20000 else 0)
  else if off = 0x428 then p.occupied
  else if off = 0x600 then s.reg fn off ||| (if s.capBusy.any fun b => b.part = n then 0x2000000 else 0)
  else if off = 0x1808 then s.reg fn off ||| (if (mget s.invBusy fn).isSome then 0x20000 else 0)
  else if 0x1000 ≤ off && off < 0x1200 && off % 0x40 = 0x18 then
    s.reg fn off ||| (if s.ringActive fn ((off - 0x1000) / 0x40) then 2 else 0)
  else s.reg fn off

/-- What a read of a register returns: 0 where nothing answers. -/
def State.readReg (s : State) (fn off : Nat) : Word64 :=
  if s.boot != .ready then 0
  else if fn = 0 then s.readPhysical off
  else
    match s.fnPart fn with
    | some n =>
      match mget s.parts n with
      | some p => s.readVirtual fn n p off
      | none => 0
    | none => 0

end Sys2Proof.Machine
end

