-- ==== Sys2Proof/Safety.lean ====
section
/-! DEFINITION. A safe run: no turn of it ends in a fault or a refusal of the model. The faults of the part (R36, R360) are
next states, with the fault held by its task. -/

namespace Sys2Proof

open Sys2Proof.Machine

/-- The machine after `n` turns, while each answers a next state. -/
def runN : Nat → State → Option State
  | 0, s => some s
  | n + 1, s =>
    match step s with
    | .next s' => runN n s'
    | .fault _ => none
    | .refused _ => none

/-- A state from which `n` turns run without a stop of the model. -/
def Safe (n : Nat) (s : State) : Prop := (runN n s).isSome = true

/-- No task of the machine holds a fault. -/
def NoTaskFault (s : State) : Prop := ∀ p ∈ s.tasks, p.2.fault = none

namespace Machine

/-- A context owes nothing: no task of it holds a fault or was hit by an abort while it stood still, and no update waits for it (R291,
R359). -/
structure OwesNothing (s : State) (ctx : Nat) : Prop where
  sound : ∀ q ∈ s.tasks, q.2.ctx = ctx → q.2.fault = none ∧ q.2.doomed = false
  heard : ∀ r ∈ s.recv, r.1 ≠ ctx

/-- The tables of the state are in their form: host registers and partitions by rising key, and every task, of the machine or of a sealed
context, once and under its own number. -/
structure Tables (s : State) : Prop where
  regs : s.regs.Pairwise fun p q => p.1 < q.1
  parts : s.parts.Pairwise fun p q => p.1 < q.1
  order : s.tasks.Pairwise fun p q => p.1 < q.1
  tasks : ∀ p ∈ s.tasks, p.2.id = p.1
  sealed : ∀ x ∈ s.sealed, ∀ p ∈ x.2.tasks, p.2.id = p.1

/-! ## When a word runs (R35, R98, R103) -/

/-- The cell `c` of the engine runs the task `k`, which holds no fault, the word's tokens are there with room for those
that it pushes, and no full write buffer has to be turned direct first: the waits that every word shares are over. -/
structure Ready (e : Engine) (t : Tok) (s : State) (c : Cell) (k : Task) : Prop where
  here : s.here = some (c, k)
  sound : k.fault = none
  tokens : tokReady c.core.toks e t = true
  room : tokRoom c.core.toks c.tokRsv e t = true
  buffer : turnsDirect s e c k = false

/-- A source of C or A that no queue is bound to, awaits no data, holds no poison in its words or its tag and carries the
clock `q`. -/
structure ReadsAs (e : Engine) (s : State) (c : Cell) (k : Task) (q : Clk) (x : Src) : Prop where
  free : s.bindOf k s.cur.cell c e x = none
  there : (srcVal e c.core x).pend = none
  whole : (srcVal e c.core x).bad = 0
  tagged : (srcVal e c.core x).tagBad = false
  tag : (srcVal e c.core x).tag = q

/-- The clock `q` is present, and its register holds no poison (R133, R138). -/
structure OnClock (c : Core) (q : Clk) : Prop where
  on : clkOn c q = true
  sound : clkBad c q = false

/-- The sources share the present clock `q` (k0 when there are none), and every queue that mirrors the named register
`wr` has room: a word with these sources is present (R137, R138, R159). -/
structure Present (e : Engine) (s : State) (c : Cell) (k : Task) (srcs : List Src) (q : Clk) (wr : Option (Fin 16)) : Prop where
  reads : ∀ x ∈ srcs, ReadsAs e s c k q x
  alone : srcs = [] → q = 0
  clock : OnClock c.core q
  room : e = .c → s.mirrorWait k s.cur.cell c wr = .ok ()

/-- The values of sources. -/
def srcVals (e : Engine) (c : Cell) (srcs : List Src) : List Word64 := srcs.map fun x => (srcVal e c.core x).val

/-- The named register that a source field names. -/
def srcReg : Src → Option (Fin 16)
  | .b _ => none
  | .r n => some n

/-- The named registers of an engine. -/
def Core.named (c : Core) : Engine → Vector SVal 16
  | .a => c.aregs
  | _ => c.sregs

/-- The crema of an engine. -/
def Core.crema (c : Core) : Engine → List SVal
  | .a => c.cremaA
  | _ => c.cremaC

/-- No queue mirrors the register that a result writes, and no earlier word of A is unfinished: the word's end changes
its own cell alone. -/
def EndsAlone (e : Engine) (s : State) (c : Cell) (k : Task) (wr : Option (Fin 16)) : Prop :=
  (e = .a → c.fly = []) ∧ ∀ n, wr = some n → s.mirrorsOf k s.cur.cell c n = []

/-- From `c` to `c'` a word of `e` has consumed and deposited its tokens, stands at `pc`, has dropped `r.drop` and written
`r.reg`; every other register, clock, template, slot, queue and buffer of the cell is as before. -/
structure ScalarStep (e : Engine) (t : Tok) (pc : Nat) (r : Result) (c c' : Cell) : Prop where
  toks : c'.core.toks = tokGive (tokTake c.core.toks e t) e t
  pcs : c'.core.pc = c.core.pc.set e pc
  crema : c'.core.crema e = match r.drop with
    | some v => (v :: c.core.crema e).take 16
    | none => c.core.crema e
  named : ∀ j : Fin 16, (c'.core.named e)[j] = match r.reg with
    | some (n, v) => if n = j then v else (c.core.named e)[j]
    | none => (c.core.named e)[j]
  other : e = .c ∨ e = .a →
    c'.core.crema (if e = .a then .c else .a) = c.core.crema (if e = .a then .c else .a) ∧
      c'.core.named (if e = .a then .c else .a) = c.core.named (if e = .a then .c else .a)
  rest : { c'.core with cremaC := c.core.cremaC, cremaA := c.core.cremaA, sregs := c.core.sregs, aregs := c.core.aregs
                        toks := c.core.toks, pc := c.core.pc } = c.core
  cell : { c' with core := c.core, waits := c.waits, safe := c.safe } = c

/-- The waits of a barv of a scope are over (R323, R339, R340, R359): no ared of the cell is outstanding, and a cross-group
arrival stands at the pour line with A's words settled, with no switch due that would hold a `.dom` one. -/
structure BarvReady (s : State) (c : Cell) (k : Task) (sc : Scope) : Prop where
  reds : ∀ r ∈ s.reds, r.ctx = k.ctx → r.cell ≠ s.cur.cell
  pour : s.crossGroup k sc (unitOf sc s.cur.cell) = true → s.atPour k = true
  settled : s.crossGroup k sc (unitOf sc s.cur.cell) = true → s.settledTask k = true
  stays : sc = .dom → s.crossGroup k sc (unitOf sc s.cur.cell) = true → s.switchDue k.ctx = false

/-! ## Accesses of A -/

/-- An access of `size` bytes and class `cls` at `ea` is allowed: the address is canonical and aligned, its page is `p`, and
the page permits the access, at the place `r` (R248, R250 to R255). -/
structure Allowed (s : State) (k : Task) (cell : Nat) (ea : Word64) (size : Nat) (cls : Fin 16) (a : Access) (p : Page)
    (r : MemRef) : Prop where
  form : canonical ea = true
  aligned : ea.toNat % size = 0
  page : s.pageOf k.ctx cell ea = .ok p
  place : (s.permit k.ctx ea a p).map (fun x => { x with size := size, cls := cls }) = .ok r

/-- The head of a queue is the entry `e`, of no later instant than the task's (R157, R162). -/
structure Poppable (s : State) (k : Task) (c : Cell) (cell q : Nat) (e : QEntry) : Prop where
  head : s.queueHead k c cell q = some e
  inTime : q < 13 → e.inst ≤ k.instant

/-- The write buffer has room for records of `n` bytes (R281). -/
def RecordRoom (c : Cell) (n : Nat) : Prop := n = 0 ∨ c.bufRoom n = true

/-- The bytes that a store of the line `n` adds to the write buffer (R281). -/
def Cell.lineBytes (c : Cell) (k : Task) (n : StoreLine) : Nat :=
  if ∃ l ∈ (c.bufOf k.id).lines, l.line = n.line then 0 else 80

/-- The bytes of a store wait in the store line of their line; running streams of the thread no longer store them (R281,
R311). -/
def State.buffered (s : State) (k : Task) (cell id : Nat) (n : StoreLine) : State :=
  s.updCell k.ctx cell fun c =>
    (c.noteOver id n.line n.mask n.cls).putBuf { c.bufOf k.id with lines := putLine (c.bufOf k.id).lines n }

/-- A queue that C or V feeds has an entry to pop (R172). -/
def Fed (s : State) (k : Task) (c : Cell) (cell : Nat) (q : QNum) : Prop :=
  q = 1 ∨ q = 3 → ∃ e, Poppable s k c cell q.val e

/-- The store lines of a task can be published now: none is of a lost peer, each of a peer has been checked there, and none stands on a
poisoned KILL page (R270, R390). -/
structure LinesOut (s : State) (k : Task) : Prop where
  home : ∀ p ∈ s.linesOf k, s.lostLine p.2 = false
  checked : s.linesChecked k = true
  sound : ∀ p ∈ s.linesOf k, (s.heardLines k).killed p.2 = false

/-- A task at the pour line can publish its store lines now, and no earlier word of A may still fault (R255, R282, R316). -/
structure Publishes (s : State) (k : Task) : Prop where
  pour : s.atPour k = true
  settled : s.settledTask k = true
  lines : LinesOut s k

/-- Nothing at a place of local memory is poisoned or in error. -/
structure Sound (s : State) (r : MemRef) : Prop where
  home : s.peerOf r.pa = none
  line : r.pa / 64 ∉ s.poison
  words : ∀ w ∈ s.wsBad, 8 * w + 8 ≤ r.pa ∨ r.pa + r.size ≤ 8 * w

/-- No line of `n` bytes of memory from `a` up is poisoned (R270). -/
def State.Clean (s : State) (a n : Nat) : Prop := ∀ l ∈ unitsOf a n, l ∉ s.poison

/-- `n` bytes of memory from `a` up can be read: no line of them is poisoned, and no word of a weight store among them is lost (R270,
R273). -/
def State.Whole (s : State) (a n : Nat) : Prop := s.Clean a n ∧ ∀ w ∈ s.wsBad, 8 * w + 8 ≤ a ∨ a + n ≤ 8 * w

/-- A copy operand in memory. -/
def CopyEnd.isVirt : CopyEnd → Bool
  | .virt _ => true
  | .spad _ => false

/-- A copy has moved `n` bytes; the last ones end it (R261). -/
def Cell.copyMoved (y : Copy) (n : Nat) (c : Cell) : Cell :=
  { c with copies :=
      if y.pos + n < y.len then c.copies.map fun z => if z.id = y.id then { z with pos := y.pos + n } else z
      else c.copies.filter fun z => z.id != y.id }

/-- A word of C or A whose result is a function of its sources: its engine, tokens, length, destination, sources, and the
value that the spec gives it. -/
structure ScalarForm where
  eng : Engine
  tok : Tok
  len : Nat
  dst : Dst
  srcs : List Src
  val : List Word64 → Word64

/-- The effects of R116 to R120 and R123 and of `lih` (R41), written from their tables. -/
def scalarForm : Instr → Option ScalarForm
  | .add t d a b => some ⟨.c, t, 1, d, [a, b], fun v => v0 v + v1 v⟩
  | .sub t d a b => some ⟨.c, t, 1, d, [a, b], fun v => v0 v - v1 v⟩
  | .and t d a b => some ⟨.c, t, 1, d, [a, b], fun v => v0 v &&& v1 v⟩
  | .or t d a b => some ⟨.c, t, 1, d, [a, b], fun v => v0 v ||| v1 v⟩
  | .xor t d a b => some ⟨.c, t, 1, d, [a, b], fun v => v0 v ^^^ v1 v⟩
  | .andn t d a b => some ⟨.c, t, 1, d, [a, b], fun v => v0 v &&& ~~~v1 v⟩
  | .shl t d a b => some ⟨.c, t, 1, d, [a, b], fun v => v0 v <<< ((v1 v).toNat % 64)⟩
  | .shr t d a b => some ⟨.c, t, 1, d, [a, b], fun v => v0 v >>> ((v1 v).toNat % 64)⟩
  | .sar t d a b => some ⟨.c, t, 1, d, [a, b], fun v => (v0 v).sshiftRight ((v1 v).toNat % 64)⟩
  | .rotl t d a b => some ⟨.c, t, 1, d, [a, b], fun v => (v0 v).rotateLeft ((v1 v).toNat % 64)⟩
  | .min t d a b => some ⟨.c, t, 1, d, [a, b], fun v => if (v1 v).slt (v0 v) then v1 v else v0 v⟩
  | .minu t d a b => some ⟨.c, t, 1, d, [a, b], fun v => if (v1 v).ult (v0 v) then v1 v else v0 v⟩
  | .max t d a b => some ⟨.c, t, 1, d, [a, b], fun v => if (v0 v).slt (v1 v) then v1 v else v0 v⟩
  | .maxu t d a b => some ⟨.c, t, 1, d, [a, b], fun v => if (v0 v).ult (v1 v) then v1 v else v0 v⟩
  | .sel t d a b c => some ⟨.c, t, 2, d, [a, b, c], fun v => if v2 v ≠ 0 then v0 v else v1 v⟩
  | .mul t d a b => some ⟨.c, t, 1, d, [a, b], fun v => v0 v * v1 v⟩
  | .mulhs t d a b => some ⟨.c, t, 1, d, [a, b], fun v =>
      (((v0 v).signExtend 128 * (v1 v).signExtend 128) >>> 64).setWidth 64⟩
  | .mulhu t d a b => some ⟨.c, t, 1, d, [a, b], fun v =>
      (((v0 v).setWidth 128 * (v1 v).setWidth 128) >>> 64).setWidth 64⟩
  | .div t d a b => some ⟨.c, t, 1, d, [a, b], fun v => if v1 v = 0 then -1 else (v0 v).sdiv (v1 v)⟩
  | .divu t d a b => some ⟨.c, t, 1, d, [a, b], fun v => if v1 v = 0 then -1 else (v0 v).udiv (v1 v)⟩
  | .rem t d a b => some ⟨.c, t, 1, d, [a, b], fun v => if v1 v = 0 then v0 v else (v0 v).srem (v1 v)⟩
  | .remu t d a b => some ⟨.c, t, 1, d, [a, b], fun v => if v1 v = 0 then v0 v else (v0 v).umod (v1 v)⟩
  | .clz t d a => some ⟨.c, t, 1, d, [a], fun v =>
      BitVec.ofNat 64 ((List.range 64).takeWhile fun i => !(v0 v).getMsbD i).length⟩
  | .ctz t d a => some ⟨.c, t, 1, d, [a], fun v =>
      BitVec.ofNat 64 ((List.range 64).takeWhile fun i => !(v0 v).getLsbD i).length⟩
  | .popc t d a => some ⟨.c, t, 1, d, [a], fun v => BitVec.ofNat 64 ((List.range 64).countP fun i => (v0 v).getLsbD i)⟩
  | .sext t d a w => some ⟨.c, t, 1, d, [a], fun v => ((v0 v).setWidth (extWidth w)).signExtend 64⟩
  | .zext t d a w => some ⟨.c, t, 1, d, [a], fun v => v0 v &&& BitVec.ofNat 64 (2 ^ extWidth w - 1)⟩
  | .cmp t f d a b => some ⟨.c, t, 1, d, [a, b], fun v => BitVec.ofNat 64 (match f with
      | .eq => v0 v == v1 v | .ne => v0 v != v1 v | .lt => (v0 v).slt (v1 v) | .ltu => (v0 v).ult (v1 v)
      | .le => !(v1 v).slt (v0 v) | .leu => !(v1 v).ult (v0 v)).toNat⟩
  | .addi t d a imm => some ⟨.c, t, 1, d, [a], fun v => v0 v + imm.signExtend 64⟩
  | .addiExt t d a imm => some ⟨.c, t, 2, d, [a], fun v => v0 v + imm.signExtend 64⟩
  | .li t d imm => some ⟨.c, t, 1, d, [], fun _ => imm.signExtend 64⟩
  | .liExt t d imm => some ⟨.c, t, 2, d, [], fun _ => imm.signExtend 64⟩
  | .lih t d a hi => some ⟨.c, t, 2, d, [a], fun v => hi ++ (v0 v).extractLsb' 0 43⟩
  | .aadd t d a b => some ⟨.a, t, 1, d, [a, b], fun v => v0 v + v1 v⟩
  | .asub t d a b => some ⟨.a, t, 1, d, [a, b], fun v => v0 v - v1 v⟩
  | .ashl t d a b => some ⟨.a, t, 1, d, [a, b], fun v => v0 v <<< ((v1 v).toNat % 64)⟩
  | .amadd t d a b c => some ⟨.a, t, 2, d, [a, b, c], fun v => v0 v * v1 v + v2 v⟩
  | .aaddi t d a imm => some ⟨.a, t, 1, d, [a], fun v => v0 v + imm.signExtend 64⟩
  | .aaddiExt t d a imm => some ⟨.a, t, 2, d, [a], fun v => v0 v + imm.signExtend 64⟩
  | .ali t d imm => some ⟨.a, t, 1, d, [], fun _ => imm.signExtend 64⟩
  | .aliExt t d imm => some ⟨.a, t, 2, d, [], fun _ => imm.signExtend 64⟩
  | _ => none

/-- The engine and the tokens of an instruction word; nothing for an event. -/
def wordOf : Instr → Option (Engine × Tok)
  | .add t _ _ _ | .sub t _ _ _ | .and t _ _ _ | .or t _ _ _ | .xor t _ _ _ | .andn t _ _ _ | .shl t _ _ _
    | .shr t _ _ _ | .sar t _ _ _ | .rotl t _ _ _ | .min t _ _ _ | .minu t _ _ _ | .max t _ _ _ | .maxu t _ _ _
    | .sel t _ _ _ _ | .mul t _ _ _ | .mulhs t _ _ _ | .mulhu t _ _ _ | .div t _ _ _ | .divu t _ _ _ | .rem t _ _ _
    | .remu t _ _ _ | .clz t _ _ | .ctz t _ _ | .popc t _ _ | .sext t _ _ _ | .zext t _ _ _ | .cmp t _ _ _ _
    | .addi t _ _ _ | .addiExt t _ _ _ | .li t _ _ | .liExt t _ _ | .lih t _ _ _ | .keep t _ _ | .take t _ | .br t _
    | .bz t _ _ | .bnz t _ _ | .call t _ | .jr t _ | .ret t | .loop t _ _ | .bksel t _ _ | .xbrk t _ | .clkon t _ _ _
    | .clkoff t _ _ _ | .clkrd t _ _ | .when_ t _ _ _ | .merge t _ _ _ | .cur t _ _ _ | .dly t _ _ _ | .iend t
    | .tsrd t _ | .lrpat t _ _ _ | .lrarm t _ _ _ | .lrdrop t _ | .texit t | .twset t _ _ | .twget t _ _
    | .twxchg t _ _ _ | .licacq t | .licrel t | .barv t _ _ | .bwait t _ | .bpoll t _ _ | .bkal t _ _ | .bkfr t _ _
    | .tmpl t _ _ | .srd t _ _ | .swr t _ _ | .nop t | .trap t _ | .brkp t =>
    some (.c, t)
  | .aadd t _ _ _ | .asub t _ _ _ | .ashl t _ _ _ | .amadd t _ _ _ _ | .aaddi t _ _ _ | .aaddiExt t _ _ _ | .ali t _ _
    | .aliExt t _ _ | .aKeep t _ _ | .aTake t _ | .abr t _ | .abz t _ _ | .abnz t _ _ | .aloop t _ _ | .ld t _ _ _ _
    | .ldExt t _ _ _ _ _ | .st t _ _ _ _ | .stExt t _ _ _ _ _ | .qld t _ _ _ _ | .qldExt t _ _ _ _ _ | .qst t _ _ _ _
    | .qstExt t _ _ _ _ _ | .pat t _ _ _ | .gth t _ _ _ _ _ | .sct t _ _ _ _ _ | .cpy t _ _ _ _ | .cpyw t _
    | .wst t _ _ _ | .pref t _ | .prefExt t _ _ | .fcls t _ _ | .fsc t | .amo t _ _ _ _ _ | .amoCas t _ _ _ _ _
    | .ared t _ _ _ _ | .qpush t _ _ | .qpop t _ _ _ =>
    some (.a, t)
  | .vadd t _ _ _ | .vaddExt t _ _ _ _ | .vsub t _ _ _ | .vsubExt t _ _ _ _ | .vmul t _ _ _ | .vmulExt t _ _ _ _
    | .vmin t _ _ _ | .vminExt t _ _ _ _ | .vmax t _ _ _ | .vmaxExt t _ _ _ _ | .vabs t _ _ | .vabsExt t _ _ _
    | .vneg t _ _ | .vnegExt t _ _ _ | .vfma t _ _ _ | .vfmaExt t _ _ _ _ | .vfms t _ _ _ | .vfmsExt t _ _ _ _
    | .vfnma t _ _ _ | .vfnmaExt t _ _ _ _ | .vrcp t _ _ | .vrcpExt t _ _ _ | .vrsq t _ _ | .vrsqExt t _ _ _
    | .vexp2 t _ _ | .vexp2Ext t _ _ _ | .vlog2 t _ _ | .vlog2Ext t _ _ _ | .vtanh t _ _ | .vtanhExt t _ _ _
    | .vcmp t _ _ _ _ | .vcmpExt t _ _ _ _ _ | .vand t _ _ _ | .vandExt t _ _ _ _ | .vor t _ _ _ | .vorExt t _ _ _ _
    | .vxor t _ _ _ | .vxorExt t _ _ _ _ | .vnot t _ _ | .vnotExt t _ _ _ | .vshl t _ _ _ | .vshlExt t _ _ _ _
    | .vshr t _ _ _ | .vshrExt t _ _ _ _ | .vsar t _ _ _ | .vsarExt t _ _ _ _ | .vsel t _ _ _ _ | .vshuf t _ _ _
    | .vshufExt t _ _ _ _ | .vperm t _ _ _ | .vpermExt t _ _ _ _ | .vrot t _ _ _ | .vbcast t _ _ _ | .vred t _ _ _
    | .vredExt t _ _ _ _ | .vscan t _ _ | .vscanExt t _ _ _ | .vtopk t _ _ _ | .vsort t _ _ _ | .vsortExt t _ _ _ _
    | .vcvt t _ _ _ | .vpack t _ _ _ _ | .vunpk t _ _ _ | .vunpk4 t _ _ _ | .vsat t _ _ _ | .vld t _ _ | .vst t _ _
    | .vpop t _ _ _ | .vpush t _ _ | .vmov t _ _ | .vmovExt t _ _ _ | .vmovs t _ _ _ | .vext t _ _ _ | .mand t _ _ _
    | .mor t _ _ _ | .mnot t _ _ | .mpop t _ _ | .mset t _ _ | .vrb t _ _ | .vloop t _ | .vfmt t _ _ | .vwhen t _ _ _
    | .vmerge t _ _ _ | .vdly t _ _ _ | .vacc t _ _ _ | .vaccw t _ _ _ | .vbr t _ _ _ =>
    some (.v, t)
  | .mexec t _ _ _ | .mexecExt t _ _ _ _ _ =>
    some (.m, t)
  | _ => none

/-! ## Vector words -/

/-- The registers `regs` carry the present clock `q` and no poison, and the masks `ms` hold none (R137, R138, R181). -/
structure VPresent (c : Core) (regs : List (Fin 32)) (ms : List MaskReg) (q : Clk) : Prop where
  some : regs ≠ []
  tag : ∀ r ∈ regs, c.vregs[r].tag = q
  tagged : ∀ r ∈ regs, c.vregs[r].tagBad = false
  clock : OnClock c q
  whole : ∀ r ∈ regs, c.vregs[r].bad = 0
  masks : ∀ m ∈ ms, c.masks[m].bad = 0

/-- The registers `regs` hold the format `g`. -/
def InFmt (c : Core) (regs : List (Fin 32)) (g : Fmt) : Prop := ∀ r ∈ regs, c.vregs[r].fmt = g

/-- The first, second and third of a list of codes. -/
def e0 (l : List Nat) : Nat := l.getD 0 0
def e1 (l : List Nat) : Nat := l.getD 1 0
def e2 (l : List Nat) : Nat := l.getD 2 0

/-- A vector word that computes each element of its destination from the elements at the same place of its sources: its
tokens, length, destination, sources, whether the destination is an addend, extension, accepted formats, the format in
which its elements are taken, and the element's value. -/
structure VecForm where
  tok : Tok
  len : Nat
  dst : VReg
  srcs : List VReg
  acc : Bool
  x : VX
  ok : Fmt → Bool
  view : Fmt → Fmt
  val : Fmt → List Nat → Nat

/-- The registers whose clock and format a word checks: its sources, and its destination as an addend or where a mask keeps
its lanes (R181, R184). -/
def VecForm.regs (f : VecForm) (c : Core) : List (Fin 32) :=
  f.srcs.map (vreg c.vrb) ++ (if f.acc || (f.x.msk && !f.x.z) then [vreg c.vrb f.dst] else [])

/-- The element `j` of each source, an addend last. -/
def VecForm.elems (f : VecForm) (c : Core) (g : Fmt) (j : Nat) : List Nat :=
  ((f.srcs ++ if f.acc then [f.dst] else []).map fun r => elemAt (f.view g) c.vregs[vreg c.vrb r].bits j)

/-- An exact integer narrowed or an exact value rounded, as the format is (R74, R76). -/
def arithElem (x : VX) (g : Fmt) (n : Int) (v : FVal) : Nat := if isInt g then narrowInt g x.ns n else roundTo g x.rm v

/-- Element arithmetic of two sources. -/
def vec2 (t : Tok) (len : Nat) (d a b : VReg) (x : VX) (n : Int → Int → Int) (v : FVal → FVal → FVal) : VecForm :=
  ⟨t, len, d, [a, b], false, x, isArith, id, fun g l =>
    arithElem x g (n (intElem g (e0 l)) (intElem g (e1 l))) (v (floatVal g (e0 l)) (floatVal g (e1 l)))⟩

/-- Multiply-add: both signs of the product and the addend. -/
def vec3 (t : Tok) (len : Nat) (d a b : VReg) (x : VX) (n : Int → Int → Int) (v : FVal → FVal → FVal) : VecForm :=
  ⟨t, len, d, [a, b], true, x, isArith, id, fun g l =>
    arithElem x g (n (intElem g (e0 l) * intElem g (e1 l)) (intElem g (e2 l)))
      (v (mulVal (floatVal g (e0 l)) (floatVal g (e1 l))) (floatVal g (e2 l)))⟩

/-- A function of R75 on float formats. -/
def vecFun (t : Tok) (len : Nat) (d a : VReg) (x : VX) (v : FVal → FVal) : VecForm :=
  ⟨t, len, d, [a], false, x, isArithFloat, id, fun g l => roundTo g x.rm (v (floatVal g (e0 l)))⟩

/-- A bitwise form: lane by lane, BOOL lanes as truth values. -/
def vecBit (t : Tok) (len : Nat) (d : VReg) (srcs : List VReg) (x : VX) (n : Nat → Nat → Nat) (b : Bool → Bool → Bool) : VecForm :=
  ⟨t, len, d, srcs, false, x, bitFmt, fun _ => .raw, fun g l =>
    if g = .bool then (b (e0 l != 0) (e1 l != 0)).toNat else n (e0 l) (e1 l)⟩

/-- A selection or shift of elements. -/
def vecSel (t : Tok) (len : Nat) (d : VReg) (srcs : List VReg) (x : VX) (ok : Fmt → Bool) (f : Fmt → Nat → Nat → Nat) : VecForm :=
  ⟨t, len, d, srcs, false, x, ok, id, fun g l => f g (e0 l) (e1 l)⟩

def sarCode (g : Fmt) (a b : Nat) : Nat := ((BitVec.ofNat (fmtWidth g) a).sshiftRight (b % fmtWidth g)).toNat

/-- The effects of R192, R193 and R209, written from their tables. -/
def vecForm : Instr → Option VecForm
  | .vadd t d a b => some (vec2 t 1 d a b noVX (· + ·) (addVal noVX.rm))
  | .vaddExt t d a b x => some (vec2 t 2 d a b x (· + ·) (addVal x.rm))
  | .vsub t d a b => some (vec2 t 1 d a b noVX (· - ·) (fun p q => addVal noVX.rm p q.negate))
  | .vsubExt t d a b x => some (vec2 t 2 d a b x (· - ·) (fun p q => addVal x.rm p q.negate))
  | .vmul t d a b => some (vec2 t 1 d a b noVX (· * ·) mulVal)
  | .vmulExt t d a b x => some (vec2 t 2 d a b x (· * ·) mulVal)
  | .vfma t d a b => some (vec3 t 1 d a b noVX (fun p d => p + d) (fun p d => addVal noVX.rm p d))
  | .vfmaExt t d a b x => some (vec3 t 2 d a b x (fun p d => p + d) (fun p d => addVal x.rm p d))
  | .vfms t d a b => some (vec3 t 1 d a b noVX (fun p d => p - d) (fun p d => addVal noVX.rm p d.negate))
  | .vfmsExt t d a b x => some (vec3 t 2 d a b x (fun p d => p - d) (fun p d => addVal x.rm p d.negate))
  | .vfnma t d a b => some (vec3 t 1 d a b noVX (fun p d => d - p) (fun p d => addVal noVX.rm p.negate d))
  | .vfnmaExt t d a b x => some (vec3 t 2 d a b x (fun p d => d - p) (fun p d => addVal x.rm p.negate d))
  | .vmin t d a b => some (vecSel t 1 d [a, b] noVX isArith minElem)
  | .vminExt t d a b x => some (vecSel t 2 d [a, b] x isArith minElem)
  | .vmax t d a b => some (vecSel t 1 d [a, b] noVX isArith maxElem)
  | .vmaxExt t d a b x => some (vecSel t 2 d [a, b] x isArith maxElem)
  | .vabs t d a => some (vecSel t 1 d [a] noVX isArith fun g e _ => absElem g false e)
  | .vabsExt t d a x => some (vecSel t 2 d [a] x isArith fun g e _ => absElem g x.ns e)
  | .vneg t d a => some (vecSel t 1 d [a] noVX isArith fun g e _ => negElem g false e)
  | .vnegExt t d a x => some (vecSel t 2 d [a] x isArith fun g e _ => negElem g x.ns e)
  | .vrcp t d a => some (vecFun t 1 d a noVX rcpVal)
  | .vrcpExt t d a x => some (vecFun t 2 d a x rcpVal)
  | .vrsq t d a => some (vecFun t 1 d a noVX rsqVal)
  | .vrsqExt t d a x => some (vecFun t 2 d a x rsqVal)
  | .vexp2 t d a => some (vecFun t 1 d a noVX exp2Val)
  | .vexp2Ext t d a x => some (vecFun t 2 d a x exp2Val)
  | .vlog2 t d a => some (vecFun t 1 d a noVX log2Val)
  | .vlog2Ext t d a x => some (vecFun t 2 d a x log2Val)
  | .vtanh t d a => some (vecFun t 1 d a noVX tanhVal)
  | .vtanhExt t d a x => some (vecFun t 2 d a x tanhVal)
  | .vand t d a b => some (vecBit t 1 d [a, b] noVX (· &&& ·) (· && ·))
  | .vandExt t d a b x => some (vecBit t 2 d [a, b] x (· &&& ·) (· && ·))
  | .vor t d a b => some (vecBit t 1 d [a, b] noVX (· ||| ·) (· || ·))
  | .vorExt t d a b x => some (vecBit t 2 d [a, b] x (· ||| ·) (· || ·))
  | .vxor t d a b => some (vecBit t 1 d [a, b] noVX (· ^^^ ·) (· != ·))
  | .vxorExt t d a b x => some (vecBit t 2 d [a, b] x (· ^^^ ·) (· != ·))
  | .vnot t d a => some (vecBit t 1 d [a] noVX (fun p _ => 0xFFFFFFFF - p) fun p _ => !p)
  | .vnotExt t d a x => some (vecBit t 2 d [a] x (fun p _ => 0xFFFFFFFF - p) fun p _ => !p)
  | .vshl t d a b => some (vecSel t 1 d [a, b] noVX bitFmt fun g p q => p <<< (q % fmtWidth g))
  | .vshlExt t d a b x => some (vecSel t 2 d [a, b] x bitFmt fun g p q => p <<< (q % fmtWidth g))
  | .vshr t d a b => some (vecSel t 1 d [a, b] noVX bitFmt fun g p q => p >>> (q % fmtWidth g))
  | .vshrExt t d a b x => some (vecSel t 2 d [a, b] x bitFmt fun g p q => p >>> (q % fmtWidth g))
  | .vsar t d a b => some (vecSel t 1 d [a, b] noVX bitFmt sarCode)
  | .vsarExt t d a b x => some (vecSel t 2 d [a, b] x bitFmt sarCode)
  | .vsat t d a x => some (vecSel t 2 d [a] x convFmt fun g e _ => satElem g x.fmt e)
  | _ => none

/-- A vector word that moves whole elements: its tokens, length, destination, source, index source, extension, the format in
which it counts elements, and the place that element `j` of its destination comes from, given the index register. -/
structure MoveForm where
  tok : Tok
  len : Nat
  dst : VReg
  src : VReg
  ix : List VReg
  x : VX
  view : Fmt
  pick : Row → Nat → Nat

/-- The effects of R198 and R199, written from their tables. -/
def moveForm : Instr → Option MoveForm
  | .vmov t d a => some ⟨t, 1, d, a, [], noVX, .raw, fun _ j => j⟩
  | .vmovExt t d a x => some ⟨t, 2, d, a, [], x, .raw, fun _ j => j⟩
  | .vshuf t d a b => some ⟨t, 1, d, a, [b], noVX, .int8, fun r j => elemAt .int8 r j⟩
  | .vshufExt t d a b x => some ⟨t, 2, d, a, [b], x, .int8, fun r j => elemAt .int8 r j⟩
  | .vperm t d a b => some ⟨t, 1, d, a, [b], noVX, .raw, fun r j => laneAt r j % 64⟩
  | .vpermExt t d a b x => some ⟨t, 2, d, a, [b], x, .raw, fun r j => laneAt r j % 64⟩
  | .vrot t d a x => some ⟨t, 2, d, a, [], x, .raw, fun _ j => (j + x.idx.val) % 64⟩
  | .vbcast t d a x => some ⟨t, 2, d, a, [], x, .raw, fun _ _ => x.idx.val⟩
  | _ => none

/-- The registers whose format a move checks: its source, and its destination where a mask keeps its lanes (R181). -/
def MoveForm.data (f : MoveForm) (c : Core) : List (Fin 32) :=
  vreg c.vrb f.src :: (if f.x.msk && !f.x.z then [vreg c.vrb f.dst] else [])

/-- `l` holds the active elements of a register with their places, greatest first (or least first with `asc`) by the order of
R202, equal ones by increasing place. -/
structure Ranked (c : Core) (x : VX) (g : Fmt) (asc : Bool) (a : Row) (l : List (Nat × Nat)) : Prop where
  perm : l.Perm (((List.range (fmtCount g)).filter fun j => laneOn c x (j * fmtWidth g / 32)).map fun j => (j, elemAt g a j))
  sorted : l.Pairwise fun p q =>
    (if asc then rankKey g p.2 < rankKey g q.2 else rankKey g q.2 < rankKey g p.2) ∨
      (rankKey g p.2 = rankKey g q.2 ∧ p.1 < q.1)

/-- A conversion: its tokens, destination, sources, extension, the source formats it takes, and the code that element `j`
of its result converts, given the format and the rows of its sources; nothing past the last. -/
structure ConvForm where
  tok : Tok
  dst : VReg
  srcs : List VReg
  x : VX
  ok : Fmt → Bool
  code : Fmt → List Row → Nat → Option Nat

/-- The codes of a part of a register. -/
def partCode (x : VX) (g : Fmt) (l : List Row) (j : Nat) : Option Nat := some (elemAt g (row0 l) (fmtCount x.fmt * x.idx.val + j))

/-- The effects of R205, R207 and R208, written from their text. -/
def convForm : Instr → Option ConvForm
  | .vcvt t d a x => some ⟨t, d, [a], x, fun _ => x.fmt != .fp4, fun g l j => if j < fmtCount g then some (elemAt g (row0 l) j) else none⟩
  | .vpack t d a b x => some ⟨t, d, [a, b], x, fun g => x.fmt != .fp4 && 2 * fmtWidth x.fmt == fmtWidth g, fun g l j =>
      some (if j < fmtCount g then elemAt g (row0 l) j else elemAt g (row1 l) (j - fmtCount g))⟩
  | .vunpk t d a x => some ⟨t, d, [a], x, fun g => fmtWidth x.fmt == 2 * fmtWidth g, partCode x⟩
  | .vunpk4 t d a x => some ⟨t, d, [a], x, fun g => fmtWidth x.fmt == 4 * fmtWidth g, partCode x⟩
  | _ => none

/-! ## Host rings -/

/-- The barista visits a partition that runs a context and has not yet read an entry in this cycle, and the next entry of
its rings is `e` in ring `n` = 8·fn + r (R176, R300). -/
structure EntryDue (s : State) (part ctx n : Nat) (e : List Byte) : Prop where
  visit : ∃ v, s.visit = some v ∧ v.part = part ∧ v.cycle = s.cycle ∧ v.read = false
  ready : s.boot = .ready
  entry : s.nextEntry part = some (n, e)
  runs : (mget s.parts part).bind Part.running = some ctx

/-- The state in which an entry has been read: RP has advanced and the ring is the last one read (R176). -/
def afterEntry (s : State) (part n : Nat) : State :=
  let s := s.setReg (n / 8) (0x1014 + 0x40 * (n % 8))
    (BitVec.ofNat 64 (((s.reg (n / 8) (0x1014 + 0x40 * (n % 8))).toNat + 1) % 2 ^ 32))
  { s with
    visit := s.visit.map fun v => { v with read := true }
    parts := mupd s.parts part fun p => { p with lastRing := n } }

/-- The 16 bytes of a completion record: cookie, status, kind, two zeros, id (R411). -/
def complBytes (cookie status kind id : Nat) : List Byte :=
  leBytes cookie 4 ++ [BitVec.ofNat 8 status, BitVec.ofNat 8 kind, 0, 0] ++ leBytes id 8

/-- A function's command is done: its STATUS field, bits `hi` to `lo` of a register, holds `n`. -/
def StatusIs (s : State) (fn off lo width n : Nat) : Prop := (s.reg fn off).toNat / 2 ^ lo % 2 ^ width = n

end Machine

end Sys2Proof
end

