-- ==== Sys2Proof/Certificates/Slice0/Obligations.lean ====
section
/-! DEFINITION. The statements for the provers, from the rules of spec/ file by file. -/

open Sys2Proof Sys2Proof.Machine

/-- State.reset is in the bring-up state off; it holds no partition, context, kernel, instance, group, task or cell,
no function is enabled, no blob is applied, and of every function the fault queue's and the completion ring's
LOG2DEPTH (0x508, 0x1408) and those of the eight command rings (0x1008 up to 0x11C8) read 4, while a register at any
other offset holds 0 (the zero values of registers without a stated reset are the model's choice, log entries 3 and
5). -/
def Obligations.ResetState : Prop :=
  State.reset.boot = .off ∧ State.reset.parts = [] ∧ State.reset.ctxs = [] ∧ State.reset.kernels = [] ∧
      State.reset.insts = [] ∧ State.reset.groups = [] ∧ State.reset.tasks = [] ∧ State.reset.cells = [] ∧
      State.reset.fnOn = [] ∧ State.reset.blob = {} ∧ State.reset.cycle = 0 ∧ State.reset.tsnow = 0 ∧
      ∀ fn off : Nat, State.reset.reg fn off =
        if off = 0x508 ∨ off = 0x1408 ∨ (0x1000 ≤ off ∧ off < 0x1200 ∧ off % 64 = 8) then 4 else 0

/-- At reset, memory has the canonical form and the register and task tables theirs, no line is poisoned, and every
byte reads as 0 (the contents of memory that nothing has written are the model's choice, log entry 4). -/
def Obligations.ResetMemory : Prop :=
  Memory.wf State.reset.mem = true ∧ Tables State.reset ∧ State.reset.poison = [] ∧ ∀ a, readByte State.reset.mem a = 0

/-- Words given in the spec's text decode to the instructions that they stand for: the nop, iend, brkp and trap 5
words, the bksel s1, 2 word, the aloop a9, -1 word, and the two words of li s5, 0x0123_4567_89AB; and a word with a
non-zero reserved field is no instruction. -/
def Obligations.DecodeWords : Prop :=
  decode [0x00D80000] = some (.nop ⟨false, false, false, false⟩) ∧
      decode [0x00980000] = some (.iend ⟨false, false, false, false⟩) ∧
      decode [0x00D90000] = some (.brkp ⟨false, false, false, false⟩) ∧
      decode [0x00D88005] = some (.trap ⟨false, false, false, false⟩ 5) ∧
      decode [0x00744080] = some (.bksel ⟨false, false, false, false⟩ (.r 1) 2) ∧
      decode [0x406E7FFF] = some (.aloop ⟨false, false, false, false⟩ (.r 9) (-1)) ∧
      decode [0x202D49AB, 0x048D159E] = some (.liExt ⟨false, false, false, false⟩ (.reg 5) 0x0123456789AB) ∧
      decode [0x00D80001] = none ∧ decode [0x00D88100] = none ∧ decode [0x00980001] = none

/-- For every instruction word i within the encoding's operand limits, whatever words follow it in the text, the
decoder reads i from the words of its encoding; so no operand bit of any form is dropped. -/
def Obligations.DecodeEncode : Prop :=
  ∀ (i : Instr) (e : Engine) (t : Tok) (rest : List Word32), wordOf i = some (e, t) → wellFormed i = true →
      decode (encode i ++ rest) = some i

/-- Whatever the decoder reads from a list of words is a well-formed instruction word whose engine is the one of TAG,
bits [31:30] of the head, and whose token bits are bits [28:25] of the head (R30). -/
def Obligations.DecodeEngine : Prop :=
  ∀ (w : Word32) (rest : List Word32) (i : Instr), decode (w :: rest) = some i →
      wellFormed i = true ∧ wordOf i = some (engineOf (w.toNat / 2 ^ 30),
        ⟨w.getLsbD 28, w.getLsbD 27, w.getLsbD 26, w.getLsbD 25⟩)

/-- When the next turn gives an engine of a cell the turn, and the words at which it stands (after its walk over the
words of other engines) decode to an instruction, the step is exec of that instruction in the state after the turn's
time has passed, with the cell current and its program counter at the word; the instruction itself moves the counter
past the word. When they decode to nothing, the tokens that the word pops are there and those that it pushes have
room, the step holds ILLEGAL_WORD with the task at that word (R35, R55). -/
def Obligations.StepIssue : Prop :=
  ∀ (s : State) (n ns : Nat) (rest : List Turn) (x cell : Nat) (e : Engine) (c : Cell) (k : Task) (a : Nat)
      (ws : List Word32), s.nextTurn s.agenda = some (⟨n, ns, .issue x cell e⟩, rest) →
      let s1 : State := { ({ s with agenda := rest }.tick ⟨n, ns, .issue x cell e⟩) with cur := ⟨x, cell⟩ }
      s1.nextWord e = some (c, k, a, ws) →
      (∀ i, decode ws = some i → step s = exec i (s1.putHere (c.standAt e a))) ∧
      (decode ws = none →
        Ready e (tokOf (ws.headD 0).toNat) (s1.putHere (c.standAt e a)) (c.standAt e a) k →
        step s = .next ((s1.putHere (c.standAt e a)).raiseAt e (c.standAt e a) k .illegalWord 0 0 0))

/-- When the next turn is an event, the step is exec of that event in the state after the turn's time has passed; when
it gives an engine the turn and the engine may start no word, the step only lets the time pass; with no turn left one
cycle passes. The next turn is the first of the agenda where no later one of its cycle has to come before it; of two
in one cycle, the second comes first where it does: so the commit of an earlier task comes before the load of a later
task of its instance (R307, first row), and a word of the floor twin's C before the crown twin's twset (R109). (The
agenda of turns is the model's own, log entries 1, 79 and 127.) -/
def Obligations.StepEvent : Prop :=
  (∀ (s : State) (n ns : Nat) (rest : List Turn) (i : Instr), s.nextTurn s.agenda = some (⟨n, ns, .event i⟩, rest) →
        step s = exec i ({ s with agenda := rest }.tick ⟨n, ns, .event i⟩)) ∧
      (∀ (s : State) (n ns : Nat) (rest : List Turn) (x cell : Nat) (e : Engine),
        s.nextTurn s.agenda = some (⟨n, ns, .issue x cell e⟩, rest) →
        let s1 : State := { ({ s with agenda := rest }.tick ⟨n, ns, .issue x cell e⟩) with cur := ⟨x, cell⟩ }
        s1.nextWord e = none → step s = .next s1) ∧
      (∀ s : State, s.agenda = [] → step s = .next (s.tick ⟨1, 0, .idle⟩)) ∧
      (∀ (s : State) (t : Turn) (rest : List Turn),
        (∀ u ∈ rest.takeWhile fun u => u.cycles = 0, s.comesFirst u.act t.act = false) →
        s.nextTurn (t :: rest) = some (t, rest)) ∧
      (∀ (s : State) (t u : Turn) (rest : List Turn), u.cycles = 0 → s.comesFirst u.act t.act = true →
        (∀ v, rest.head? = some v → v.cycles ≠ 0) →
        s.nextTurn (t :: u :: rest) = some ({ t with act := u.act }, { u with act := t.act } :: rest)) ∧
      (∀ (s : State) (id x cell w : Nat) (c : Cell) (u k : Task), s.getTask id = some u → (s.goTo x cell).here = some (c, k) →
        u.ctx = k.ctx → u.inst = k.inst → keyLt u.key k.key = true →
        s.comesFirst (.event (.commit id)) (.event (.loadDataReturn x cell w)) = true) ∧
      ∀ (s : State) (x cell : Nat) (t : Tok) (tw : Fin 8) (a : Src), cell < 320 →
        s.standsBefore x (cell + 320) = some (.twset t tw a) →
        s.comesFirst (.issue x cell .c) (.issue x (cell + 320) .c) = true

/-- For every instruction word of every engine and every state: in a cell without a task the model stops by name;
while the task holds a fault the word changes nothing (R290); and while a token that it pops is missing, or a queue
that it pushes into has no room (R35, R103), the state is left as it is but for the engine's wait note. -/
def Obligations.WordGate : Prop :=
  ∀ (i : Instr) (e : Engine) (t : Tok) (s : State), wordOf i = some (e, t) →
      (s.here = none → exec i s = .fault .noTask) ∧
      (∀ c k, s.here = some (c, k) → k.fault ≠ none → exec i s = .next s) ∧
      (∀ c k, s.here = some (c, k) → k.fault = none →
        (tokReady c.core.toks e t = false ∨ tokRoom c.core.toks c.tokRsv e t = false) →
        exec i s = .next (s.noteWait e .plain))

/-- The only stop of the whole model is an instruction word asked to run in a cell without a task: every instruction
word in a cell that runs one, and every event in every state, answers a next state. -/
def Obligations.NeverStops : Prop :=
  ∀ (i : Instr) (s : State), (∃ u, exec i s = .next u) ∨
      (exec i s = .fault .noTask ∧ s.here = none ∧ wordOf i ≠ none)

/-- From every state whose memory has the canonical form (keys strictly rising, no listed byte that an unlisted
address would read as), whatever the next turn is, the next state's memory has it too. -/
def Obligations.MemoryForm : Prop :=
  ∀ s u : State, Memory.wf s.mem = true → step s = .next u → Memory.wf u.mem = true

/-- From every state in which host registers and partitions stand by rising key and every task, of the machine or of a
sealed context, stands once and under its own number, the next state has that form too, whatever the next turn is. -/
def Obligations.TableForm : Prop :=
  ∀ s u : State, Tables s → step s = .next u → Tables u

/-- In memory of canonical form, writing bytes from an address up and reading them back gives them, every byte outside
them reads as before, the canonical form is kept, and a value written little-endian reads back as that value (R4). -/
def Obligations.ReadAfterWrite : Prop :=
  ∀ (m : Memory) (a : Nat) (bs : List Byte), Memory.wf m = true →
      readBytes (writeBytes m a bs) a bs.length = bs ∧
      (∀ c, c < a ∨ a + bs.length ≤ c → readByte (writeBytes m a bs) c = readByte m c) ∧
      Memory.wf (writeBytes m a bs) = true ∧
      ∀ v n, v < 2 ^ (8 * n) → readLe (writeBytes m a (leBytes v n)) a n = v

/-- For add to remu, the bit counts, the extensions, the comparisons, the immediate forms, lih and sel on C, and for
aadd, asub, ashl, amadd, aaddi and ali on A, with and without extension: a word whose sources share a present clock
answers the next state in which it drops the value of scalarForm (written from R41 and R116 to R120, R123) with that
clock, writes it to its named destination, and stands at the next word. -/
def Obligations.ScalarResult : Prop :=
  ∀ (i : Instr) (f : ScalarForm) (s : State) (c : Cell) (k : Task) (q : Clk), scalarForm i = some f →
      Ready f.eng f.tok s c k → Present f.eng s c k f.srcs q (dstNamed f.dst) →
      exec i s = .next (finish f.eng s c k f.tok (c.core.pc.get f.eng + f.len)
        (resultOf f.dst q true (f.val (srcVals f.eng c f.srcs))))

/-- For the same words with at least one source: when the sources share a clock that is not present, the word drops 0
with that clock, writes no named register, and stands at the next word; its tokens are moved all the same (R138). -/
def Obligations.ScalarAbsent : Prop :=
  ∀ (i : Instr) (f : ScalarForm) (s : State) (c : Cell) (k : Task) (q : Clk), scalarForm i = some f →
      Ready f.eng f.tok s c k → f.srcs ≠ [] → (∀ x ∈ f.srcs, ReadsAs f.eng s c k q x) → clkOn c.core q = false →
      clkBad c.core q = false →
      exec i s = .next (finish f.eng s c k f.tok (c.core.pc.get f.eng + f.len) { drop := some { val := 0, tag := q } })

/-- For the same words, with room in the mirrored queues: when two sources carry different tags, none of them
poisoned, the word holds CLOCK_MISMATCH with its task and has no other effect (R137); when a tag is poisoned, when the
register of the shared clock is, and when the clock is present and a word of a source is, it holds UNCORRECTABLE
(R111). -/
def Obligations.ScalarFaults : Prop :=
  ∀ (i : Instr) (f : ScalarForm) (s : State) (c : Cell) (k : Task), scalarForm i = some f → Ready f.eng f.tok s c k →
      (∀ x ∈ f.srcs, s.bindOf k s.cur.cell c f.eng x = none ∧ (srcVal f.eng c.core x).pend = none) →
      (f.eng = .c → s.mirrorWait k s.cur.cell c (dstNamed f.dst) = .ok ()) →
      ((∃ x ∈ f.srcs, (srcVal f.eng c.core x).tagBad = true) →
        exec i s = .next (s.raiseAt f.eng c k .uncorrectable 0 0 0)) ∧
      ((∀ x ∈ f.srcs, (srcVal f.eng c.core x).tagBad = false) →
        ((∃ x ∈ f.srcs, ∃ y ∈ f.srcs, (srcVal f.eng c.core x).tag ≠ (srcVal f.eng c.core y).tag) →
          exec i s = .next (s.raiseAt f.eng c k .clockMismatch 0 0 0)) ∧
        ∀ q, (∀ x ∈ f.srcs, (srcVal f.eng c.core x).tag = q) → f.srcs ≠ [] →
          (clkBad c.core q = true ∨ clkOn c.core q = true ∧ ∃ x ∈ f.srcs, (srcVal f.eng c.core x).bad ≠ 0) →
          exec i s = .next (s.raiseAt f.eng c k .uncorrectable 0 0 0))

/-- For every word of scalarForm that answers a next state when it is present, no queue mirrors its destination and no
earlier word of A is unfinished: only its own cell changes; in it the crema takes the value in front, the destination
register takes it, the token queues move by the word's token bits, the engine's counter moves; every other named
register, the other engine's registers, every vector and mask register, clock, template, delay slot, state register,
queue, buffer and bank is unchanged, and every byte of memory reads as before. -/
def Obligations.ScalarFrame : Prop :=
  ∀ (i : Instr) (f : ScalarForm) (s u : State) (c : Cell) (k : Task) (q : Clk), scalarForm i = some f →
      Ready f.eng f.tok s c k → Present f.eng s c k f.srcs q (dstNamed f.dst) → EndsAlone f.eng s c k (dstNamed f.dst) →
      exec i s = .next u →
      (∃ c', u = s.putHere c' ∧ ScalarStep f.eng f.tok (c.core.pc.get f.eng + f.len)
        (resultOf f.dst q true (f.val (srcVals f.eng c f.srcs))) c c') ∧
      ∀ a, readByte u.mem a = readByte s.mem a

/-- div, divu, rem and remu are major 0x01, funcs 3 to 6, and for every pair of operands: with b = 0 the quotients are
all ones and the remainders are a; the most negative number divided by -1 gives itself and remainder 0; otherwise the
quotient truncates toward zero and the remainder is a - b times it, so it takes the sign of the dividend. A present
word on any of these operands answers a next state with that value. -/
def Obligations.Division : Prop :=
  (∀ (t : Tok) (d : Dst) (a b : Src) (n : Nat) (i : Instr),
        [(3, Instr.div t d a b), (4, .divu t d a b), (5, .rem t d a b), (6, .remu t d a b)].lookup n = some i →
        ∃ w, encode i = [w] ∧ w.toNat / 2 ^ 30 = 0 ∧ w.toNat / 2 ^ 19 % 64 = 1 ∧ w.toNat / 2 ^ 15 % 16 = n) ∧
      ∀ (t : Tok) (d : Dst) (a b : Src) (s : State) (c : Cell) (k : Task) (q : Clk) (x y : Word64),
        Ready .c t s c k → Present .c s c k [a, b] q (dstNamed d) → srcVals .c c [a, b] = [x, y] →
        ∃ dv du rm ru : Word64,
          exec (.div t d a b) s = .next (finish .c s c k t (c.core.pc.c + 1) (resultOf d q true dv)) ∧
          exec (.divu t d a b) s = .next (finish .c s c k t (c.core.pc.c + 1) (resultOf d q true du)) ∧
          exec (.rem t d a b) s = .next (finish .c s c k t (c.core.pc.c + 1) (resultOf d q true rm)) ∧
          exec (.remu t d a b) s = .next (finish .c s c k t (c.core.pc.c + 1) (resultOf d q true ru)) ∧
          (y = 0 → dv = 0xFFFFFFFFFFFFFFFF ∧ du = 0xFFFFFFFFFFFFFFFF ∧ rm = x ∧ ru = x) ∧
          (x = 0x8000000000000000 ∧ y = 0xFFFFFFFFFFFFFFFF → dv = x ∧ rm = 0) ∧
          (y ≠ 0 → ¬(x = 0x8000000000000000 ∧ y = 0xFFFFFFFFFFFFFFFF) →
            dv.toInt = x.toInt.tdiv y.toInt ∧ rm.toInt = x.toInt - y.toInt * x.toInt.tdiv y.toInt) ∧
          (y ≠ 0 → du.toNat = x.toNat / y.toNat ∧ ru.toNat = x.toNat - y.toNat * (x.toNat / y.toNat))

/-- keep n, bK copies the value and tag of crema entry bK into named register n and drops nothing; take n drops the
value and tag of named register n onto the crema and changes no named register; both for either engine, whatever the
clock of the value (that an absent clock does not make them absent is the model's reading, log entry 22), when it
awaits no data and is not poisoned. -/
def Obligations.KeepTake : Prop :=
  ∀ (t : Tok) (n b : Fin 16) (s : State) (c : Cell) (k : Task) (v w : SVal),
      (Ready .c t s c k → srcVal .c c.core (.b b) = v → v.pend = none → v.bad = 0 → v.tagBad = false →
        (clkOn c.core v.tag = true → s.mirrorWait k s.cur.cell c (some n) = .ok ()) →
        exec (.keep t n b) s = .next (finish .c s c k t (c.core.pc.c + 1) { reg := some (n, v) })) ∧
      (Ready .a t s c k → srcVal .a c.core (.b b) = w → w.pend = none → w.bad = 0 → w.tagBad = false →
        exec (.aKeep t n b) s = .next (finish .a s c k t (c.core.pc.a + 1) { reg := some (n, w) })) ∧
      (Ready .c t s c k → ReadsAs .c s c k v.tag (.r n) → c.core.sregs[n] = v →
        exec (.take t n) s = .next (finish .c s c k t (c.core.pc.c + 1) { drop := some v })) ∧
      (Ready .a t s c k → c.core.aregs[n] = w → w.pend = none → w.bad = 0 → w.tagBad = false →
        exec (.aTake t n) s = .next (finish .a s c k t (c.core.pc.a + 1) { drop := some w }))

/-- br and abr go to PC + off; bz, bnz, abz and abnz go there exactly when the tested value is 0, or not 0, and
otherwise to the next word; jr goes to its source; loop and aloop drop the count less one (0 stays 0), write it to the
source's named register, and go to PC + off while it is not 0; each for a taken target that is a head word of the
text, with sources of a present clock, and nothing else is written. An untaken branch and an ending loop move on
whatever their target is (the model's reading, log entry 77). -/
def Obligations.Branches : Prop :=
  ∀ (t : Tok) (a : Src) (o19 : BitVec 19) (o14 : BitVec 14) (s : State) (c : Cell) (k : Task) (q : Clk) (x : Word64),
      (∀ n, Ready .c t s c k → s.target k (c.core.pc.c + o19.toInt) = .ok n →
        exec (.br t o19) s = .next (finish .c s c k t n {})) ∧
      (∀ n, Ready .a t s c k → s.target k (c.core.pc.a + o19.toInt) = .ok n →
        exec (.abr t o19) s = .next (finish .a s c k t n {})) ∧
      (∀ n, Ready .c t s c k → Present .c s c k [a] q none → srcVals .c c [a] = [x] →
        ((x = 0 → s.target k (c.core.pc.c + o14.toInt) = .ok n) →
          exec (.bz t a o14) s = .next (finish .c s c k t (if x = 0 then n else c.core.pc.c + 1) {})) ∧
        ((x ≠ 0 → s.target k (c.core.pc.c + o14.toInt) = .ok n) →
          exec (.bnz t a o14) s = .next (finish .c s c k t (if x ≠ 0 then n else c.core.pc.c + 1) {}))) ∧
      (∀ n, Ready .a t s c k → Present .a s c k [a] q none → srcVals .a c [a] = [x] →
        ((x = 0 → s.target k (c.core.pc.a + o14.toInt) = .ok n) →
          exec (.abz t a o14) s = .next (finish .a s c k t (if x = 0 then n else c.core.pc.a + 1) {})) ∧
        ((x ≠ 0 → s.target k (c.core.pc.a + o14.toInt) = .ok n) →
          exec (.abnz t a o14) s = .next (finish .a s c k t (if x ≠ 0 then n else c.core.pc.a + 1) {}))) ∧
      (Ready .c t s c k → Present .c s c k [a] q none → srcVals .c c [a] = [x] → s.target k x.toNat = .ok x.toNat →
        exec (.jr t a) s = .next (finish .c s c k t x.toNat {})) ∧
      (∀ n, Ready .c t s c k → Present .c s c k [a] q (srcReg a) →
        srcVals .c c [a] = [x] → (1 < x → s.target k (c.core.pc.c + o14.toInt) = .ok n) →
        exec (.loop t a o14) s = .next (finish .c s c k t (if x ≤ 1 then c.core.pc.c + 1 else n)
          { drop := some { val := if x = 0 then 0 else x - 1, tag := q }
            reg := (srcReg a).map fun m => (m, { val := if x = 0 then 0 else x - 1, tag := q }) })) ∧
      (∀ n, Ready .a t s c k → Present .a s c k [a] q (srcReg a) →
        srcVals .a c [a] = [x] → (1 < x → s.target k (c.core.pc.a + o14.toInt) = .ok n) →
        exec (.aloop t a o14) s = .next (finish .a s c k t (if x ≤ 1 then c.core.pc.a + 1 else n)
          { drop := some { val := if x = 0 then 0 else x - 1, tag := q }
            reg := (srcReg a).map fun m => (m, { val := if x = 0 then 0 else x - 1, tag := q }) }))

/-- A target is a head word of the task's text exactly when it lies inside the text and is not the extension of the
word before it, walking from address 0 (R31): no address of an empty text, address 0 alone of a text of one word, and
so on. br, abr, a taken bz, bnz, abz or abnz, jr, call, ret, a loop or aloop that goes back, xbrk, a taken vbr and a
vloop that goes back, with a target outside that set, hold ILLEGAL_WORD with the task, at the transfer's own address,
and change nothing else (R33, R40). -/
def Obligations.BadTargets : Prop :=
  (∀ (w : Word32) (n : Nat), isHead [] n = false ∧ isHead [w] n = decide (n = 0)) ∧
      (∀ (ws : List Word32) (n : Nat), isHead ws n = true → n < ws.length) ∧
      (∀ (w x : Word32) (ws : List Word32) (n : Nat), isHead (w :: x :: ws) 0 = true ∧
        isHead (w :: x :: ws) 1 = !w.getLsbD 29 ∧
        isHead (w :: x :: ws) (n + 2) = if w.getLsbD 29 then isHead ws n else isHead (x :: ws) (n + 1)) ∧
      ∀ (t : Tok) (a : Src) (o19 : BitVec 19) (o14 : BitVec 14) (o15 : BitVec 15) (ma : MaskReg) (nn : Bool) (s : State) (c : Cell)
        (k : Task) (q : Clk) (x : Word64),
        let outside (z : Int) : Prop := z < 0 ∨ isHead (s.textOf k) z.toNat = false
        let bad (e : Engine) (i : Instr) : Prop := exec i s = .next (s.raiseAt e c k .illegalWord 0 0 0)
        (Ready .c t s c k → outside (c.core.pc.c + o19.toInt) →
          bad .c (.br t o19) ∧ bad .c (.xbrk t o19) ∧
          (s.mirrorWait k s.cur.cell c (some 15) = .ok () → bad .c (.call t o19))) ∧
        (Ready .a t s c k → outside (c.core.pc.a + o19.toInt) → bad .a (.abr t o19)) ∧
        (Ready .c t s c k → Present .c s c k [a] q none → srcVals .c c [a] = [x] → outside (c.core.pc.c + o14.toInt) →
          (x = 0 → bad .c (.bz t a o14)) ∧ (x ≠ 0 → bad .c (.bnz t a o14))) ∧
        (Ready .a t s c k → Present .a s c k [a] q none → srcVals .a c [a] = [x] → outside (c.core.pc.a + o14.toInt) →
          (x = 0 → bad .a (.abz t a o14)) ∧ (x ≠ 0 → bad .a (.abnz t a o14))) ∧
        (Ready .c t s c k → Present .c s c k [a] q (srcReg a) → srcVals .c c [a] = [x] → 1 < x →
          outside (c.core.pc.c + o14.toInt) → bad .c (.loop t a o14)) ∧
        (Ready .a t s c k → Present .a s c k [a] q (srcReg a) → srcVals .a c [a] = [x] → 1 < x →
          outside (c.core.pc.a + o14.toInt) → bad .a (.aloop t a o14)) ∧
        (Ready .c t s c k → Present .c s c k [a] q none → srcVals .c c [a] = [x] → outside x.toNat → bad .c (.jr t a)) ∧
        (Ready .c t s c k → Present .c s c k [.r 15] q none → c.core.callDepth ≠ 0 →
          outside c.core.sregs[(15 : Fin 16)].val.toNat → bad .c (.ret t)) ∧
        (Ready .v t s c k → outside (c.core.pc.v + o14.toInt) → c.core.vrb.stepDown.count ≠ 0 → bad .v (.vloop t o14)) ∧
        (Ready .v t s c k → outside (c.core.pc.v + o15.toInt) → c.core.masks[ma].bad = 0 →
          (c.core.masks[ma].bits == 0) = nn → bad .v (.vbr t ma nn o15))

/-- call drops PC + 1 and writes it to s15 with tag k0, raises the call depth by one and goes to PC + off; ret, with
s15 on a present clock, lowers the depth and goes to s15; on an absent clock it goes to the next word. A call at depth
255, and a ret at depth 0, hold ILLEGAL_WORD. (That s15 is a tagged source of ret is log entry 7.) -/
def Obligations.CallReturn : Prop :=
  ∀ (t : Tok) (off : BitVec 19) (s : State) (c : Cell) (k : Task) (n : Nat), Ready .c t s c k →
      (s.mirrorWait k s.cur.cell c (some 15) = .ok () → s.mirrorsOf k s.cur.cell c 15 = [] →
        c.core.callDepth ≠ 255 → s.target k (c.core.pc.c + off.toInt) = .ok n →
        ∃ c', exec (.call t off) s = .next (s.putHere c') ∧ c'.core.pc = { c.core.pc with c := n } ∧
          c'.core.callDepth = c.core.callDepth + 1 ∧
          c'.core.sregs = c.core.sregs.set 15 { val := BitVec.ofNat 64 (c.core.pc.c + 1), tag := 0 } ∧
          c'.core.cremaC = ({ val := BitVec.ofNat 64 (c.core.pc.c + 1), tag := 0 } :: c.core.cremaC).take 16 ∧
          c'.core.aregs = c.core.aregs ∧ c'.core.vregs = c.core.vregs ∧ c'.core.masks = c.core.masks ∧
          c'.core.clks = c.core.clks ∧ c'.spad = c.spad ∧ c'.queues = c.queues) ∧
      (s.mirrorWait k s.cur.cell c (some 15) = .ok () → c.core.callDepth = 255 →
        exec (.call t off) s = .next (s.raiseAt .c c k .illegalWord 0 0 0)) ∧
      (∀ q, ReadsAs .c s c k q (.r 15) → clkOn c.core q = false → clkBad c.core q = false → c.core.callDepth ≠ 0 →
        exec (.ret t) s = .next (finish .c s c k t (c.core.pc.c + 1) {})) ∧
      (∀ q, Present .c s c k [.r 15] q none → c.core.callDepth ≠ 0 →
        s.target k c.core.sregs[(15 : Fin 16)].val.toNat = .ok n →
        ∃ c', exec (.ret t) s = .next (s.putHere c') ∧ c'.core.pc = { c.core.pc with c := n } ∧
          c'.core.callDepth = c.core.callDepth - 1 ∧ c'.core.sregs = c.core.sregs ∧ c'.core.cremaC = c.core.cremaC ∧
          c'.core.aregs = c.core.aregs ∧ c'.core.vregs = c.core.vregs ∧ c'.core.clks = c.core.clks ∧ c'.spad = c.spad) ∧
      (∀ q, ReadsAs .c s c k q (.r 15) → c.core.callDepth = 0 → exec (.ret t) s = .next (s.raiseAt .c c k .illegalWord 0 0 0))

/-- While a word of A, or a wait of M, that has started still runs, xbrk and bksel wait and no other word starts; then
xbrk empties the token queues, closes the open batches, sets every program counter to PC + off and the call depth to
0; bksel, whose table entry names a target and v valid rows (R129), sets every counter to that target and the call
depth to 0, makes m6 true on lanes below v and m7 on lanes below v - 64, writes v mod 128 to t63's PAD byte when v is
not 0, and leaves the other token queues, crema and named registers. -/
def Obligations.Steering : Prop :=
  (∀ (t : Tok) (off : BitVec 19) (s : State) (c : Cell) (k : Task) (n : Nat), Ready .c t s c k →
        s.target k (c.core.pc.c + off.toInt) = .ok n →
        (c.ranOut = false → exec (.xbrk t off) s = .next s.steerWait) ∧
        (c.ranOut = true →
        ∃ c', exec (.xbrk t off) s = .next (s.putHere c') ∧ c'.core.pc = ⟨n, n, n, n⟩ ∧ c'.core.callDepth = 0 ∧
          c'.core.toks = tokGive (Vector.replicate 8 0) .c t ∧ c'.core.sregs = c.core.sregs ∧
          c'.core.cremaC = c.core.cremaC ∧ c'.core.vrb = c.core.vrb ∧ c'.banks = c.banks ∧
          ∀ b : Fin 16, c'.batches[b].st ≠ .gathering)) ∧
      ∀ (t : Tok) (a : Src) (g : Fin 256) (s s' : State) (c c1 : Cell) (k : Task) (q : Clk) (x : Word64) (n v : Nat),
        Ready .c t s c k → Present .c s c k [a] q none → srcVals .c c [a] = [x] →
        (c.ranOut = false → exec (.bksel t a g) s = .next s.steerWait) ∧
        (c.ranOut = true → bkselTable s k x g.val = .ok (s', n, v) → s'.getCell s.cur.ctx s.cur.cell = some c1 →
        ∃ c', exec (.bksel t a g) s = .next (s'.putHere c') ∧ c'.core.pc = ⟨n, n, n, n⟩ ∧ c'.core.callDepth = 0 ∧
          (∀ i, i < 64 → c'.core.masks[(6 : Fin 8)].bits.getLsbD i = decide (i < v)) ∧
          (∀ i, i < 64 → c'.core.masks[(7 : Fin 8)].bits.getLsbD i = decide (64 + i < v)) ∧
          (v ≠ 0 → c'.core.tmpls[(63 : Fin 64)].bits.toNat / 2 ^ 112 % 256 = v % 128) ∧
          (v = 0 → c'.core.tmpls = c1.core.tmpls) ∧ c'.core.toks = tokGive (tokTake c1.core.toks .c t) .c t ∧
          c'.core.sregs = c1.core.sregs ∧ c'.core.cremaC = c1.core.cremaC ∧ c'.core.vregs = c1.core.vregs)

/-- For a table address tab, a header with n entries and default bit DEF, a dimension a > 0 selects the entry (a - 1)
div 128 with v = (a - 1) mod 128 + 1 valid rows, and dimension 0 the entry 0 with v = 0; an index past the table takes
the last entry when DEF is 1; no directory, an empty slot, an empty table and an index past a table with DEF = 0 hold
BUCKET_RANGE, and the reads made so far stay in the read set (R285). -/
def Obligations.BucketTable : Prop :=
  ∀ (s : State) (k : Task) (a : Word64) (g : Nat),
      let none_ : Except Stop (State × Nat × Nat) := .error (Stop.of .bucketRange)
      ((s.stageOf k).bind Stage.grinder = none → bkselTable s k a g = none_) ∧
      ∀ (dir : Nat) (s1 : State) (d : List Byte), (s.stageOf k).bind Stage.grinder = some dir →
        s.readVirt k s.cur.cell .issue (BitVec.ofNat 64 (dir + 8 * g)) 8 = .ok (s1, d) →
        (leNat d = 0 → bkselTable s k a g = s1.keepReads k.id none_) ∧
        ∀ (s2 : State) (h : List Byte), leNat d ≠ 0 → s1.readVirt k s.cur.cell .issue (BitVec.ofNat 64 (leNat d)) 8 = .ok (s2, h) →
          (leNat h % 65536 = 0 → bkselTable s k a g = s1.keepReads k.id (s2.keepReads k.id none_)) ∧
          (leNat h % 65536 ≠ 0 → leNat h % 65536 ≤ (a.toNat - 1) / 128 → leNat h / 65536 % 2 = 0 →
            bkselTable s k a g = s1.keepReads k.id (s2.keepReads k.id none_)) ∧
          ∀ (s3 : State) (w : List Byte) (idx : Nat), leNat h % 65536 ≠ 0 →
            (idx = (a.toNat - 1) / 128 ∧ idx < leNat h % 65536 ∨
              leNat h % 65536 ≤ (a.toNat - 1) / 128 ∧ leNat h / 65536 % 2 = 1 ∧ idx = leNat h % 65536 - 1) →
            s2.readVirt k s.cur.cell .issue (BitVec.ofNat 64 (leNat d + 8 + 4 * idx)) 4 = .ok (s3, w) →
            isHead (s3.textOf k) (leNat w % 65536) = true →
            bkselTable s k a g = .ok (s3, leNat w % 65536, if a = 0 then 0 else (a.toNat - 1) % 128 + 1)

/-- With kd other than k0 not yet defined, kp defined, neither register poisoned and the tested value on clock kp,
clkon (clkoff) is never absent: it defines kd with parent kp and its polarity, true exactly when kp is present and the
value is not 0 (is 0), drops nothing and touches no other clock. With kp undefined or another tag it holds
CLOCK_MISMATCH, with kd already defined CLOCK_REDEF. -/
def Obligations.ClockDefine : Prop :=
  ∀ (t : Tok) (kd kp : Clk) (b : Src) (s : State) (c : Cell) (k : Task) (x : Word64), Ready .c t s c k → kd ≠ 0 →
      clkBad c.core kd = false → clkBad c.core kp = false →
      (clkDef c.core kp = true → clkDef c.core kd = false → ReadsAs .c s c k kp b → srcVals .c c [b] = [x] →
        (∃ c', exec (.clkon t kd kp b) s = .next (s.putHere c') ∧
          c'.core.clks = c.core.clks.set kd ⟨clkOn c.core kp && x != 0, true, kp, true, false⟩ ∧
          c'.core.cremaC = c.core.cremaC ∧ c'.core.sregs = c.core.sregs ∧ c'.core.pc.c = c.core.pc.c + 1) ∧
        ∃ c', exec (.clkoff t kd kp b) s = .next (s.putHere c') ∧
          c'.core.clks = c.core.clks.set kd ⟨clkOn c.core kp && x == 0, true, kp, false, false⟩ ∧
          c'.core.cremaC = c.core.cremaC ∧ c'.core.sregs = c.core.sregs ∧ c'.core.pc.c = c.core.pc.c + 1) ∧
      (∀ q, ReadsAs .c s c k q b → (clkDef c.core kp = false ∨ q ≠ kp) →
        exec (.clkon t kd kp b) s = .next (s.raiseAt .c c k .clockMismatch 0 0 0) ∧
        exec (.clkoff t kd kp b) s = .next (s.raiseAt .c c k .clockMismatch 0 0 0)) ∧
      (clkDef c.core kp = true → ReadsAs .c s c k kp b → clkDef c.core kd = true →
        exec (.clkon t kd kp b) s = .next (s.raiseAt .c c k .clockRedef 0 0 0) ∧
        exec (.clkoff t kd kp b) s = .next (s.raiseAt .c c k .clockRedef 0 0 0))

/-- clkrd drops 1 when its clock has DEF = 1 and VAL = 1 and 0 otherwise; tsrd drops the task's timestamp; srd of an
assigned index drops that state register (R113 to R115); bpoll drops 0, 1 or 2 for an idle, arrived or released
barrier; each with tag k0, and moves to the next word. srd of an index that is not assigned holds ILLEGAL_WORD. -/
def Obligations.ClockReads : Prop :=
  ∀ (t : Tok) (d : Dst) (q : Clk) (sr : Fin 1024) (id : Fin 32) (s : State) (c : Cell) (k : Task), Ready .c t s c k →
      s.mirrorWait k s.cur.cell c (dstNamed d) = .ok () →
      (c.core.clks[q].bad = false → exec (.clkrd t d q) s = .next (finish .c s c k t (c.core.pc.c + 1)
        (resultOf d 0 true (if c.core.clks[q].dfn && c.core.clks[q].val then 1 else 0)))) ∧
      exec (.tsrd t d) s = .next (finish .c s c k t (c.core.pc.c + 1) (resultOf d 0 true (BitVec.ofNat 64 k.ts))) ∧
      (s.srAssigned k s.cur.cell sr.val = true → exec (.srd t d sr) s = .next (finish .c s c k t (c.core.pc.c + 1)
        (resultOf d 0 true (BitVec.ofNat 64 (s.srRead c k s.cur.cell sr.val))))) ∧
      (s.srAssigned k s.cur.cell sr.val = false → exec (.srd t d sr) s = .next (s.raiseAt .c c k .illegalWord 0 0 0)) ∧
      exec (.bpoll t d id) s = .next (finish .c s c k t (c.core.pc.c + 1) (resultOf d 0 true
        (match c.core.bars[id].st with | .idle => 0 | .arrived => 1 | .released => 2)))

/-- CELLXYZ, ORG, SHAPE, STAGE, INSTANT, CFRONT, TSNOW, SLIPWIN, SAFEPTMAX, VRB, LEASE, LICST, WREFWIN, ZSTAT, ERRST
and the queue format registers read the fields that R114, R187, R236 and R271 give them (SAFEPTMAX the partition's
value, LICST the cell's own licence, its twin's and the lease's counts). A present swr of SLIPWIN clamps its field to
16 to 4,096, one of LEASE clamps the commands to 1 to 256 and the cycles to 1 to 4,096, one of VRB clamps the size to
the registers above the base and the rotation to the size, and one of ZSTAT clears the bits written with 1; one of
ERRST clears the bits of [5:0] written with 1 in the cell's place and no other's, and one of the format register of an
assigned queue stores the fields that R158 lists, with a MIR or BIND of 1 to 15 as 0 and reserved bits as 0; an swr of
every read-only and every unassigned index holds ILLEGAL_WORD. -/
def Obligations.StateRegisters : Prop :=
  ∀ (t : Tok) (a : Src) (s : State) (c : Cell) (k : Task) (q : Clk) (x : Word64), Ready .c t s c k →
      Present .c s c k [a] q none → srcVals .c c [a] = [x] →
      (s.srRead c k s.cur.cell 0x000 = s.cur.cell % 20 + 256 * (s.cur.cell / 20 % 16) + 65536 * (s.cur.cell / 320) ∧
        (∀ g, s.groupOf k = some g → s.srRead c k s.cur.cell 0x001 = g.ox + 256 * g.oy + 65536 * g.oz ∧
          s.srRead c k s.cur.cell 0x002 = g.w + 256 * g.h + 65536 * g.d) ∧
        s.srRead c k s.cur.cell 0x003 = k.stage ∧ s.srRead c k s.cur.cell 0x004 = k.ts / 65536 % 2 ^ 48 ∧
        s.srRead c k s.cur.cell 0x008 = s.cfront k.ctx k.inst ∧ s.srRead c k s.cur.cell 0x009 = s.tsnow ∧
        s.srRead c k s.cur.cell 0x010 = c.slipwin ∧ s.srRead c k s.cur.cell 0x028 = s.wref.1.val + 65536 * s.wref.2 ∧
        (s.wrefLeft ≠ 0 → s.wref = (s.wrefCur, s.wrefLeft)) ∧ (s.wrefLeft = 0 → s.wref = (s.wrefCur + 1, 3600)) ∧
        s.srRead c k s.cur.cell 0x020 = c.core.leaseCmds + 65536 * c.core.leaseCyc ∧
        (∀ p r, s.partOfCtx k.ctx = some (p, r) → s.srRead c k s.cur.cell 0x011 = r.safept) ∧
        s.srRead c k s.cur.cell 0x018 = c.core.vrb.base.val + 2 ^ 8 * c.core.vrb.sizeM1.val + 2 ^ 16 * c.core.vrb.rot.val +
          2 ^ 32 * c.core.vrb.count.toNat ∧
        (∀ tw, s.getCell k.ctx (twinOf s.cur.cell) = some tw → s.srRead c k s.cur.cell 0x021 =
          c.lic.held.toNat + 2 * c.lic.claim.toNat + 4 * (tw.lic.held || tw.lic.leaving).toNat + 8 * tw.lic.claim.toNat +
            16 * c.lic.first.toNat + 32 * c.lic.pass.toNat + 2 ^ 8 * c.lic.used + 2 ^ 32 * c.lic.age + 2 ^ 48 * c.lic.away.toNat) ∧
        s.srRead c k s.cur.cell 0x030 = c.zf.toNat + 2 * c.zw.toNat + 2 ^ 32 * c.zcnt ∧
        (∀ p, mget s.phys s.cur.cell = some p → s.srRead c k s.cur.cell 0x031 = p.errst.toNat) ∧
        ∀ n : Fin 32, s.srRead c k s.cur.cell (0x100 + n.val) = c.core.qpushFmt[n].toNat ∧
          s.srRead c k s.cur.cell (0x120 + n.val) = c.core.qpopFmt[n].toNat) ∧
      (∃ c', exec (.swr t 0x010 a) s = .next (s.putHere c') ∧ c'.core.pc.c = c.core.pc.c + 1 ∧
        c'.slipwin = Nat.min 4096 (Nat.max 16 (x.toNat % 8192)) ∧ c'.core.sregs = c.core.sregs ∧ c'.core.vrb = c.core.vrb) ∧
      (∃ c', exec (.swr t 0x020 a) s = .next (s.putHere c') ∧ c'.core.leaseCmds = Nat.min 256 (Nat.max 1 (x.toNat % 512)) ∧
        c'.core.leaseCyc = Nat.min 4096 (Nat.max 1 (x.toNat / 65536 % 8192)) ∧ c'.slipwin = c.slipwin) ∧
      (∃ c', exec (.swr t 0x018 a) s = .next (s.putHere c') ∧ c'.core.vrb.base.val = x.toNat % 32 ∧
        c'.core.vrb.sizeM1.val = Nat.min (x.toNat / 2 ^ 8 % 32) (31 - x.toNat % 32) ∧
        c'.core.vrb.rot.val = x.toNat / 2 ^ 16 % 32 % (c'.core.vrb.sizeM1.val + 1) ∧
        c'.core.vrb.count.toNat = x.toNat / 2 ^ 32) ∧
      (∃ c', exec (.swr t 0x030 a) s = .next (s.putHere c') ∧ c'.zf = (c.zf && !x.getLsbD 0) ∧
        c'.zw = (c.zw && !x.getLsbD 1)) ∧
      (∃ u c', exec (.swr t 0x031 a) s = .next u ∧ u.getCell s.cur.ctx s.cur.cell = some c' ∧ c'.core.pc.c = c.core.pc.c + 1 ∧
        c'.core.sregs = c.core.sregs ∧ c'.slipwin = c.slipwin ∧
        ((mget u.phys s.cur.cell).getD {}).errst = ((mget s.phys s.cur.cell).getD {}).errst &&& ~~~(x &&& 0x3F) ∧
        ∀ n, n ≠ s.cur.cell → mget u.phys n = mget s.phys n) ∧
      (∀ n : Fin 32, s.queueAssigned k s.cur.cell n.val = true →
        (∃ c' v, exec (.swr t (Fin.ofNat 1024 (0x100 + n.val)) a) s = .next (s.putHere c') ∧ c'.core.pc.c = c.core.pc.c + 1 ∧
          c'.core.qpushFmt = c.core.qpushFmt.set n v ∧ c'.core.qpopFmt = c.core.qpopFmt ∧
          v.toNat = x.toNat % 32 + 256 * (if x.toNat / 256 % 32 < 16 then 0 else x.toNat / 256 % 32)) ∧
        ∃ c' v, exec (.swr t (Fin.ofNat 1024 (0x120 + n.val)) a) s = .next (s.putHere c') ∧ c'.core.pc.c = c.core.pc.c + 1 ∧
          c'.core.qpopFmt = c.core.qpopFmt.set n v ∧ c'.core.qpushFmt = c.core.qpushFmt ∧
          v.toNat = x.toNat % 256 + 256 * (if x.toNat / 256 % 32 < 16 then 0 else x.toNat / 256 % 32)) ∧
      ∀ sr : Fin 1024, (sr.val < 0x100 ∧ sr.val ∉ [0x010, 0x018, 0x020, 0x030, 0x031] ∨
          0x100 ≤ sr.val ∧ sr.val < 0x140 ∧ s.queueAssigned k s.cur.cell (sr.val % 32) = false ∨ 0x140 ≤ sr.val) →
        exec (.swr t sr a) s = .next (s.raiseAt .c c k .illegalWord 0 0 0)

/-- With no clock register and no tag poisoned: when carries a value of an ancestor clock onto the present sub-clock
k; cur, on a present k that is an ancestor of the value's clock, gives the value where that clock is true and the held
register value otherwise; merge of two values on complementary sub-clocks of a present parent gives the one whose
clock is true, with the parent's tag; dly gives the slot's previous 64-bit value and stores the new one with its clock
binding, once per instant. Each drops its result and writes its destination, and stands at the next word. when of a
clock that is undefined or of which the value's clock is no ancestor, cur onto a clock that is no ancestor of the
value's, and dly of a slot bound to another clock hold CLOCK_MISMATCH with the task; dly of a slot already written in
the instant holds CLOCK_REDEF. -/
def Obligations.Sampling : Prop :=
  ∀ (t : Tok) (d : Dst) (n : Fin 16) (a b : Src) (q ka kb : Clk) (slot : Fin 64) (s : State) (c : Cell) (k : Task)
      (x y : Word64), Ready .c t s c k → (∀ wr, s.mirrorWait k s.cur.cell c wr = .ok ()) → ReadsAs .c s c k ka a →
      (∀ j, clkBad c.core j = false) → c.core.delays[slot].tagBad = false →
      srcVals .c c [a] = [x] →
      (clkOn c.core q = true → isAncestor c.core ka 16 q = true →
        exec (.when_ t d a q) s = .next (finish .c s c k t (c.core.pc.c + 1) (resultOf d q true x))) ∧
      (clkOn c.core q = true → clkDef c.core ka = true → isAncestor c.core q 16 ka = true → c.core.sregs[n].bad = 0 →
        exec (.cur t (.reg n) a q) s = .next (finish .c s c k t (c.core.pc.c + 1)
          (resultOf (.reg n) q true (if c.core.clks[ka].val then x else c.core.sregs[n].val)))) ∧
      (ReadsAs .c s c k kb b → srcVals .c c [b] = [y] → ka ≠ kb → clkDef c.core ka = true → clkDef c.core kb = true →
        c.core.clks[ka].parent = q → c.core.clks[kb].parent = q → c.core.clks[ka].pol = !c.core.clks[kb].pol →
        c.core.clks[ka].val = !c.core.clks[kb].val → clkOn c.core q = true →
        exec (.merge t d a b) s = .next (finish .c s c k t (c.core.pc.c + 1)
          (resultOf d q true (if c.core.clks[ka].val then x else y)))) ∧
      (clkOn c.core ka = true → (c.core.delays[slot].bnd = true → c.core.delays[slot].cb = ka) →
        c.core.delays[slot].wrote = false → c.core.delays[slot].bad &&& 3 = 0 →
        ∃ r : DelaySlot, r.bits.setWidth 64 = x ∧ (∀ i, 64 ≤ i → r.bits.getLsbD i = c.core.delays[slot].bits.getLsbD i) ∧
          r.cb = ka ∧ r.bnd = true ∧ r.wrote = true ∧ r.fmt = c.core.delays[slot].fmt ∧
          exec (.dly t d a slot) s = .next (finish .c
            (s.updHere fun c => { c with core := { c.core with delays := c.core.delays.set slot r } }) c k t (c.core.pc.c + 1)
            (resultOf d ka true (c.core.delays[slot].bits.setWidth 64)))) ∧
      ((clkDef c.core q = false ∨ isAncestor c.core ka 16 q = false) →
        exec (.when_ t d a q) s = .next (s.raiseAt .c c k .clockMismatch 0 0 0)) ∧
      ((clkDef c.core q = false ∨ clkDef c.core ka = false ∨ isAncestor c.core q 16 ka = false) →
        exec (.cur t (.reg n) a q) s = .next (s.raiseAt .c c k .clockMismatch 0 0 0)) ∧
      (c.core.delays[slot].bnd = true → c.core.delays[slot].cb ≠ ka →
        exec (.dly t d a slot) s = .next (s.raiseAt .c c k .clockMismatch 0 0 0)) ∧
      (clkOn c.core ka = true → (c.core.delays[slot].bnd = true → c.core.delays[slot].cb = ka) →
        c.core.delays[slot].wrote = true → exec (.dly t d a slot) s = .next (s.raiseAt .c c k .clockRedef 0 0 0))

/-- nop is major 0x1B, func 0, for every token field; a nop whose tokens are ready answers the next state in which its
cell has consumed and deposited the word's tokens and stands at C's next word, and every register, queue, buffer and
other cell and all of memory is as before. -/
def Obligations.NopWord : Prop :=
  (∀ t : Tok, ∃ w, encode (.nop t) = [w] ∧ w.toNat / 2 ^ 19 % 64 = 0x1B ∧ w.toNat / 2 ^ 15 % 16 = 0) ∧
      ∀ (t : Tok) (s : State) (c : Cell) (k : Task), Ready .c t s c k →
        ∃ c', exec (.nop t) s = .next (s.putHere c') ∧ ScalarStep .c t (c.core.pc.c + 1) {} c c' ∧
          ∀ a, readByte (s.putHere c').mem a = readByte s.mem a

/-- trap code holds TRAP with CAUSE = code with its task, at the trapping word; brkp holds BREAK with CAUSE 0 when
CTXID.BRK of some bound function is 1 (that any bound function will do is the model's reading, log entry 26) and
otherwise performs only its token actions. Holding the fault means that the task, listed under its own number, takes
the record with its code, cause, engine 0, word address and place, and that, where the context delivers faults, those
then due are delivered; what the engines of the cell have asked of peers at an issue is dropped (log entry 102). -/
def Obligations.Traps : Prop :=
  ∀ (t : Tok) (code : BitVec 8) (s : State) (c : Cell) (k : Task), Ready .c t s c k →
      exec (.trap t code) s = .next (s.raiseAt .c c k .trap code.toNat 0 0) ∧
      (s.breaks k.ctx = true → exec (.brkp t) s = .next (s.raiseAt .c c k .brk 0 0 0)) ∧
      (s.breaks k.ctx = false → exec (.brkp t) s = .next (finish .c s c k t (c.core.pc.c + 1) {})) ∧
      (Tables s → exec (.trap t code) s = .next ((((s.dropAsks s.cur.ctx s.cur.cell (· == .issue)).putTask { k with
        fault := some { code := .trap, cause := code.toNat, engine := 0, pc := c.core.pc.c, cell := s.cur.cell } }).dropSlots
            k.id).settle k.ctx (s.mayDeliver k.ctx)))

/-- Raising a fault at a word holds it with the task, with its code, cause, engine, word address and place, unless the
task holds one already (the first stays). Delivering a held fault marks it delivered, makes the instance Faulted with
its group recorded, halts the group, changes no cell, and reports to every function bound to the context's partition,
in their order, by its faultRecord with the slot in which the context stands: into their fault queues while the host
link carries packets; while it does not, the reports are held back and no byte of memory changes (log entry 107). A
fault already delivered changes nothing. -/
def Obligations.FaultEntry : Prop :=
  (∀ (s : State) (t : Task) (f : HeldFault), s.getTask t.id = some t →
        (t.fault ≠ none → s.holdAndSettle t.id f = s) ∧
        (t.fault = none → s.holdAndSettle t.id f =
          ((s.putTask { t with fault := some f }).dropSlots t.id).settle t.ctx (s.mayDeliver t.ctx))) ∧
      (∀ (s : State) (t : Task), (t.fault = none ∨ ∃ f, t.fault = some f ∧ f.delivered = true) → s.deliver t = s) ∧
      ∀ (s : State) (t : Task) (f : HeldFault) (i : Inst) (gid p : Nat) (g : Group) (r : Part),
        t.fault = some f → f.delivered = false → s.getInst t.ctx t.inst = some i → t.group = some gid →
        mget s.groups gid = some g → s.partOfCtx t.ctx = some (p, r) →
        let rcd := faultRecord f (r.slotOf t.ctx) t.inst t.ts (f.engine != 0xFF)
        (s.deliver t).getTask t.id = some { t with fault := some { f with delivered := true } } ∧
        (s.deliver t).insts = s.insts.map (fun j => if j.ctx = i.ctx && j.id = i.id then
          { i with st := .faulted, faultGroup := some gid } else j) ∧
        mget (s.deliver t).groups gid = some { g with st := .halted } ∧
        (s.deliver t).cells = s.cells ∧
        (s.hostUp = true →
          (s.deliver t).mem = ((s.boundFns p).foldl (fun v fn => v.queueRecord rcd fn) s).mem ∧
          (s.deliver t).regs = ((s.boundFns p).foldl (fun v fn => v.queueRecord rcd fn) s).regs ∧
          (s.deliver t).heldFaults = s.heldFaults) ∧
        (s.hostUp = false → (s.deliver t).mem = s.mem ∧ (s.deliver t).regs = s.regs ∧
          (s.deliver t).heldFaults = s.heldFaults ++ (s.boundFns p).map fun fn => (fn, rcd))

/-- A report that goes out to a function writes the 32-byte record at the ring's base plus 32 times the write pointer
modulo the depth and advances the write pointer, when the ring is not full; a full ring loses the record: FLTLOST's
count rises by one up to 65,535 with its flag set, and no pointer or byte of memory changes. The record's 32 bytes
hold code, cause, engine, slot, instance, timestamp, address, word address and the place x, y, z of the cell, or three
zeros where no place applies, at the offsets that R360 gives, and a last byte 0. -/
def Obligations.FaultReport : Prop :=
  ∀ (s : State) (rcd : List Byte) (fn wp rp depth : Nat), wp = (s.reg fn 0x510).toNat → rp = (s.reg fn 0x514).toNat →
      depth = 2 ^ ((s.reg fn 0x508).toNat % 32) → Tables s →
      ((wp + 2 ^ 32 - rp) % 2 ^ 32 ≠ depth →
        (s.queueRecord rcd fn).mem =
          writeBytes s.mem (hostBase + ((s.reg fn 0x500).toNat / 4096 * 4096 + 32 * (wp % depth))) rcd ∧
        (s.queueRecord rcd fn).reg fn 0x510 = BitVec.ofNat 64 ((wp + 1) % 2 ^ 32)) ∧
      ((wp + 2 ^ 32 - rp) % 2 ^ 32 = depth → (s.queueRecord rcd fn).mem = s.mem ∧
        (s.queueRecord rcd fn).reg fn 0x510 = s.reg fn 0x510 ∧
        (s.queueRecord rcd fn).reg fn 0x518 =
          BitVec.ofNat 64 (65536 + Nat.min 65535 ((s.reg fn 0x518).toNat % 65536 + 1))) ∧
      ∀ (f : HeldFault) (slot inst ts : Nat) (place : Bool),
        let r := faultRecord f slot inst ts place
        r.length = 32 ∧ r[0]? = some (BitVec.ofNat 8 (faultNat f.code)) ∧ r[1]? = some (BitVec.ofNat 8 f.cause) ∧
          r[2]? = some (BitVec.ofNat 8 f.engine) ∧ r[3]? = some (BitVec.ofNat 8 slot) ∧
          leNat ((r.drop 4).take 4) = inst % 2 ^ 32 ∧ leNat ((r.drop 8).take 8) = ts % 2 ^ 64 ∧
          leNat ((r.drop 16).take 8) = f.va.toNat ∧ leNat ((r.drop 24).take 4) = f.pc % 2 ^ 32 ∧
          (place = true → r[28]? = some (BitVec.ofNat 8 (f.cell % 20)) ∧ r[29]? = some (BitVec.ofNat 8 (f.cell / 20 % 16)) ∧
            r[30]? = some (BitVec.ofNat 8 (f.cell / 320))) ∧
          (place = false → (r.drop 28).take 3 = [0, 0, 0]) ∧ r[31]? = some 0

/-- The return from a fault clears the task's fault, sets the instance Running and the instance's halted groups
Running; after TRAP and BREAK the counter of C in the faulting cell becomes the word after the trapping one (R364),
and after any other fault every cell stays as it was, so the engines resume at the words they stood at. -/
def Obligations.FaultReturn : Prop :=
  ∀ (s : State) (i : Inst) (t : Task) (f : HeldFault),
      (s.returnFrom i t f).getTask t.id = some { t with fault := none } ∧
      (s.returnFrom i t f).insts = s.insts.map (fun j => if j.ctx = i.ctx && j.id = i.id then
        { i with st := .running, faultGroup := none } else j) ∧
      (∀ gid g, mget s.groups gid = some g → g.ctx = i.ctx → g.inst = i.id → g.st = .halted →
        mget (s.returnFrom i t f).groups gid = some { g with st := .running }) ∧
      (f.code ≠ .trap → f.code ≠ .brk → (s.returnFrom i t f).cells = s.cells) ∧
      (∀ c, (f.code = .trap ∨ f.code = .brk) → s.getCell t.ctx f.cell = some c →
        (s.returnFrom i t f).getCell t.ctx f.cell =
          some { c with core := { c.core with pc := { c.core.pc with c := f.pc + 1 } } })

/-- A present lrpat writes its field into the record that the staging slot holds for the kind (the kind's default
record when the slot holds another kind) and leaves the other slots; lrdrop empties the slot; a present lrarm, whose
record lies in the ranges of R294, whose timestamp is later than the task's and whose nesting is below 24, drops 0 and
arms a child with the next depth while the carafe has a free entry of the kind, and drops 1 and arms nothing when it
has none; each stands at the next word. A record outside the ranges of R294 holds PROTECTION, one whose timestamp is
not later TS_ORDER, and one at depth 24 NEST_LIMIT. -/
def Obligations.Launches : Prop :=
  ∀ (t : Tok) (d : Dst) (a b : Src) (f : Fin 32) (after : Bool) (s : State) (c : Cell) (k : Task) (q : Clk)
      (x y : Word64) (dflt : BitVec 1024), Ready .c t s c k → srcVals .c c [a] = [x] →
      s.kindOf k (x.toNat / 8 % 4096) = .ok dflt →
      let slot : Fin 8 := Fin.ofNat 8 (x.toNat % 8)
      let kind := x.toNat / 8 % 4096
      let rcd := if c.core.staging[slot].kind = some kind then c.core.staging[slot].rcd else dflt
      (f.val ≤ 12 → Present .c s c k [a, b] q none → srcVals .c c [b] = [y] →
        ∃ c', exec (.lrpat t a f b) s = .next (s.putHere c') ∧ c'.core.pc.c = c.core.pc.c + 1 ∧
          c'.core.staging = c.core.staging.set slot ⟨some kind, recPut rcd (recPlace f.val).1 (recPlace f.val).2 y⟩ ∧
          c'.core.sregs = c.core.sregs ∧ c'.core.cremaC = c.core.cremaC) ∧
      (Present .c s c k [a] q none →
        ∃ c', exec (.lrdrop t a) s = .next (s.putHere c') ∧ c'.core.pc.c = c.core.pc.c + 1 ∧
          c'.core.staging = c.core.staging.set slot ⟨none, c.core.staging[slot].rcd⟩) ∧
      (Present .c s c k [a] q (dstNamed d) → s.recOk k rcd = true → k.ts < recField rcd 64 8 → k.depth ≠ 24 →
        let handle := ((s.getInst k.ctx k.inst).map Inst.handle).getD 0
        (recField dflt 84 4 ≤ s.carafe.count (k.ctx, handle, kind) →
          exec (.lrarm t d a after) s = .next (finish .c s c k t (c.core.pc.c + 1) (resultOf d q true 1))) ∧
        (s.carafe.count (k.ctx, handle, kind) < recField dflt 84 4 →
          ∃ s', exec (.lrarm t d a after) s = .next (finish .c s' c k t (c.core.pc.c + 1) (resultOf d q true 0)) ∧
            s'.nextId = s.nextId + 1 ∧ s'.carafe = (k.ctx, handle, kind) :: s.carafe ∧ s'.cells = s.cells ∧ s'.mem = s.mem ∧
            (k.id ≠ s.nextId → ∃ ch, s'.getTask s.nextId = some ch ∧ ch.launched = true ∧ ch.parent = some k.id ∧
              ch.depth = k.depth + 1 ∧ ch.ts = recField rcd 64 8 ∧ ch.stage = recField rcd 76 1 ∧ ch.rcd = rcd ∧
              ch.after = after ∧ ch.ctx = k.ctx ∧ ch.inst = k.inst))) ∧
      (Present .c s c k [a] q (dstNamed d) →
        (s.recOk k rcd = false → exec (.lrarm t d a after) s = .next (s.raiseAt .c c k .protection 0 0 0)) ∧
        (s.recOk k rcd = true → recField rcd 64 8 ≤ k.ts →
          exec (.lrarm t d a after) s = .next (s.raiseAt .c c k .tsOrder 0 0 0)) ∧
        (s.recOk k rcd = true → k.ts < recField rcd 64 8 → k.depth = 24 →
          exec (.lrarm t d a after) s = .next (s.raiseAt .c c k .nestLimit 0 0 0)))

/-- An iend of a stage task whose words and copies are done, with room for another instant, answers a next state in
which the cell runs the task of the next instant of its stage (timestamp one period later), the phase is flipped,
every clock but k0 is undefined and false with k0 as it was, no delay slot counts as written, the named registers,
crema, vectors and masks stay, a register checkpoint of the new instant is taken, and the cell stands at its safe
point; while a word or copy is unfinished it waits. -/
def Obligations.InstantEnd : Prop :=
  ∀ (t : Tok) (s : State) (c : Cell) (k : Task), Ready .c t s c k → k.launched = false →
      (c.wordsDone k.id = false → exec (.iend t) s = .next (s.noteWait .c .plain)) ∧
      (c.wordsDone k.id = true → c.ckpts.length < 4 → s.switchDue k.ctx = false → Tables s → k.ctx = s.cur.ctx →
        ∃ u c' n kn, exec (.iend t) s = .next u ∧ u.getCell s.cur.ctx s.cur.cell = some c' ∧ c'.task = some n ∧
          u.getTask n = some kn ∧ kn.ctx = k.ctx ∧ kn.inst = k.inst ∧ kn.stage = k.stage ∧
          kn.ts = k.ts + (((s.stageOf k).map Stage.period).getD 1) * 65536 ∧
          c'.core.phase = !c.core.phase ∧ c'.core.clks[(0 : Fin 16)] = c.core.clks[(0 : Fin 16)] ∧
          (∀ q : Clk, q ≠ 0 → clkOn c'.core q = false ∧ clkDef c'.core q = false) ∧
          (∀ j : Fin 64, c'.core.delays[j].wrote = false ∧ c'.core.delays[j].bits = c.core.delays[j].bits) ∧
          c'.core.sregs = c.core.sregs ∧ c'.core.aregs = c.core.aregs ∧ c'.core.cremaC = c.core.cremaC ∧
          c'.core.vregs = c.core.vregs ∧ c'.core.masks = c.core.masks ∧ c'.core.tmpls = c.core.tmpls ∧
          c'.core.pc.c = c.core.pc.c + 1 ∧ c'.ckpts = c.ckpts ++ [(n, c'.core)] ∧ c'.safe = true ∧ c'.spad = c.spad ∧
          u.mem = s.mem)

/-- In a cell that has no unfinished word, copy or open batch, owns no bank, and neither holds nor claims the licence,
texit, and iend of a launched task, end the task in the cell: the cell runs no task, stands past the word and at its
safe point, and no byte of memory changes. With a bank still owned they hold ACC_HELD_AT_EXIT; with a word unfinished
they wait. -/
def Obligations.TaskExit : Prop :=
  ∀ (t : Tok) (s : State) (c : Cell) (k : Task) (i : Instr), Ready .c t s c k → i = .texit t ∨ (i = .iend t ∧ k.launched = true) →
      (c.wordsDone k.id = false → exec i s = .next (s.noteWait .c .plain)) ∧
      (c.wordsDone k.id = true → (∀ b : Fin 16, c.batches[b].st = .idle) →
        (c.core.bankMap ≠ 0 → exec i s = .next (s.raiseAt .c c k .accHeldAtExit 0 0 0)) ∧
        (c.core.bankMap = 0 → c.lic.held = false → c.lic.claim = false → s.switchDue s.cur.ctx = false →
          ∃ u c', exec i s = .next u ∧ u.getCell s.cur.ctx s.cur.cell = some c' ∧ c'.task = none ∧ c'.safe = true ∧
            c'.core.pc.c = c.core.pc.c + 1 ∧ c'.spad = c.spad ∧ u.mem = s.mem ∧ u.insts = s.insts))

/-- In a group of depth 2 at the pour line, a present twset of an empty window register that has not changed in this
cycle fills it with the value and tag; twget of such a full register with tag k0 empties it and drops its value with
tag k0; a present twset of a full one and a twget of an empty one wait, and so do both where the register has changed
in this cycle: R109 lets the floor twin's change perform (its words of a cycle come first, see the order of the turns)
and the other retry, and that a change of any kind counts is the model's reading, log entry 79; in a group of depth 1
both hold PROTECTION; a present twxchg arrives and waits for the rendezvous, and an absent one drops 0.
TWXCHG_RENDEZVOUS of two twins at one register gives each the other's value with its own clock and moves both on;
TWIN_ABANDON after 16,384 cycles without the partner ends the wait in the fault TWIN_ABANDON. -/
def Obligations.TwinWindow : Prop :=
  (∀ (t : Tok) (d : Dst) (tw : Fin 8) (a : Src) (s : State) (c : Cell) (k : Task) (q : Clk) (x : Word64) (g : Group),
      Ready .c t s c k → s.atPour k = true → s.groupOf k = some g →
      let still : Prop := ∀ p, (s.window tw).past = some p → p.1 ≠ s.cycle
      (Present .c s c k [a] q none → srcVals .c c [a] = [x] →
        (g.d = 2 → (s.window tw).full = false → still → exec (.twset t tw a) s = .next (finish .c
          (s.setWindow tw { val := x, tag := q, full := true }) c k t (c.core.pc.c + 1) {})) ∧
        (g.d = 2 → ((s.window tw).full = true ∨ ¬ still) →
          exec (.twset t tw a) s = .next (s.noteWait .c .plain)) ∧
        (g.d ≠ 2 → exec (.twset t tw a) s = .next (s.raiseAt .c c k .protection 0 0 0))) ∧
      (s.mirrorWait k s.cur.cell c (dstNamed d) = .ok () →
        (g.d = 2 → (s.window tw).full = true → (s.window tw).tag = 0 → (s.window tw).bad = 0 → (s.window tw).tagBad = false → still →
          exec (.twget t d tw) s = .next (finish .c (s.setWindow tw { s.window tw with full := false }) c k t
            (c.core.pc.c + 1) (resultOf d 0 true (s.window tw).val))) ∧
        (g.d = 2 → ((s.window tw).full = false ∨ ¬ still) → exec (.twget t d tw) s = .next (s.noteWait .c .plain)) ∧
        (g.d ≠ 2 → exec (.twget t d tw) s = .next (s.raiseAt .c c k .protection 0 0 0))) ∧
      (Present .c s c k [a] q (dstNamed d) → g.d = 2 → c.xchg = none →
        exec (.twxchg t d tw a) s = .next ((s.putHere { c with xchg := some ⟨t, d, tw, a, 0⟩ }).noteWait .c .plain)) ∧
      (ReadsAs .c s c k q a → clkOn c.core q = false → clkBad c.core q = false →
        exec (.twxchg t d tw a) s = .next (finish .c s c k t (c.core.pc.c + 1) { drop := some { val := 0, tag := q } }))) ∧
      ∀ (x cell : Nat) (s : State) (c c' : Cell) (k k' : Task) (w w' : XchgWait) (q q' : Clk), s.sideOf x cell .c = some (c, k) →
        c.xchg = some w → k.ctx = x →
        (s.sideOf x (twinOf cell) .c = some (c', k') → c'.xchg = some w' → w.tw = w'.tw → k'.ctx = x →
          Present .c (s.goTo x cell) c k [w.a] q (dstNamed w.d) → EndsAlone .c (s.goTo x cell) c k (dstNamed w.d) →
          Present .c (s.goTo x (twinOf cell)) c' k' [w'.a] q' (dstNamed w'.d) →
          EndsAlone .c (s.goTo x (twinOf cell)) c' k' (dstNamed w'.d) →
          ∃ u d d', exec (.twxchgRendezvous x cell) s = .next u ∧ u.getCell x cell = some d ∧ u.getCell x (twinOf cell) = some d' ∧
            d.core.cremaC = ({ val := (srcVal .c c'.core w'.a).val, tag := q } :: c.core.cremaC).take 16 ∧
            d'.core.cremaC = ({ val := (srcVal .c c.core w.a).val, tag := q' } :: c'.core.cremaC).take 16 ∧
            d.xchg = none ∧ d'.xchg = none ∧ d.core.pc.c = c.core.pc.c + 1 ∧ d'.core.pc.c = c'.core.pc.c + 1 ∧ u.mem = s.mem) ∧
        (16384 ≤ w.cyc → s.sideOf x (twinOf cell) .c = none → exec (.twinAbandon x cell) s =
          .next (((s.updCell x cell fun c => { c with xchg := none }).goTo x cell).raiseAt .c c k .twinAbandon 0 0 0)) ∧
        (w.cyc < 16384 → exec (.twinAbandon x cell) s = .next s)

/-- At the pour line, licacq in a cell that holds the licence moves on, and in one that does not it records the claim
and waits for the grant; licrel withdraws the claim and, when the licence is not held or no licensed command is in
motion, moves on with the licence released, but for one that is Halting, which leaves at the safe point alone. Away
from the pour line both wait. LICENCE_GRANT gives a Free licence, of a pair in which no context holds it or has a
licensed command left, to a claiming covered cell with a new lease, of two claimants to the one with first claim and
otherwise to the one that did not hold it last; LEASE_EXPIRY of a licence that is not Halting begins to pass it to a
claiming twin that is enabled and otherwise renews the lease; LICENCE_PASS, two cycles after the last licensed
command, moves it to the twin; FIRST_CLAIM_TIMEOUT ends a first claim after 4,096 cycles. -/
def Obligations.LicenceWords : Prop :=
  (∀ (t : Tok) (s : State) (c : Cell) (k : Task), Ready .c t s c k →
      (s.atPour k = true → c.lic.held = true → exec (.licacq t) s = .next (finish .c s c k t (c.core.pc.c + 1) {})) ∧
      (s.atPour k = true → c.lic.held = false →
        exec (.licacq t) s = .next ((s.putHere { c with lic := { c.lic with claim := true } }).noteWait .c .plain)) ∧
      (s.atPour k = true → c.lic.held = false →
        ∃ c', exec (.licrel t) s = .next (s.putHere c') ∧ c'.lic.claim = false ∧ c'.lic.first = false ∧
          c'.lic.held = false ∧ c'.core.pc.c = c.core.pc.c + 1 ∧ c'.core.sregs = c.core.sregs) ∧
      (s.atPour k = true → c.lic.held = true → c.lic.halting = true → c.licensedCmds = [] →
        ∃ c', exec (.licrel t) s = .next (s.putHere c') ∧ c'.lic = { c.lic with claim := false, first := false } ∧
          c'.core.pc.c = c.core.pc.c + 1) ∧
      (s.atPour k = true → c.lic.held = true → c.lic.halting = false → c.licensedCmds = [] →
          s.getCell s.cur.ctx (twinOf s.cur.cell) = none →
        ∃ u c', exec (.licrel t) s = .next u ∧ u.getCell s.cur.ctx s.cur.cell = some c' ∧ c'.lic.held = false ∧
          c'.lic.claim = false ∧ c'.core.pc.c = c.core.pc.c + 1) ∧
      (s.atPour k = false → s.abortsInstead k .pourLine = false →
        exec (.licacq t) s = .next (s.noteWait .c .pourLine) ∧ exec (.licrel t) s = .next (s.noteWait .c .pourLine))) ∧
      ∀ (x cell m : Nat) (s : State) (c tw : Cell), s.getCell x cell = some c → s.getCell x (twinOf cell) = some tw →
        (s.boot = .ready → s.pairFree cell = true → s.contends x cell = true → tw.lic.first = false →
          (s.contends x (twinOf cell) = true → c.lic.first = true ∨ (s.getPair cell).last = some (!decide (320 ≤ cell)) ∨
            ((s.getPair cell).last = none ∧ cell < 320)) →
          ∃ u d, exec (.licenceGrant x cell) s = .next u ∧ u.getCell x cell = some d ∧ d.lic.held = true ∧ d.lic.claim = false ∧
            d.lic.used = 0 ∧ d.lic.age = 0 ∧ d.lic.cmds = c.core.leaseCmds ∧ d.lic.cyc = c.core.leaseCyc ∧ d.core = c.core ∧
            u.mem = s.mem) ∧
        (cell < 640 → (c.lic.held = true ∨ tw.lic.held = true) → exec (.licenceGrant x cell) s = .next s) ∧
        (c.lic.held = true → c.lic.pass = false → c.lic.cyc ≤ c.lic.age → c.group.isSome = true → c.lic.halting = false →
          ∃ u d, exec (.leaseExpiry x cell) s = .next u ∧ u.getCell x cell = some d ∧ d.lic.held = true ∧ d.core = c.core ∧
            (tw.lic.claim = true → s.cellOff (twinOf cell) = false → d.lic.pass = true) ∧
            (tw.lic.claim = false ∨ s.cellOff (twinOf cell) = true → d.lic.pass = false ∧ d.lic.used = 0 ∧ d.lic.age = 0)) ∧
        (c.lic.age < c.lic.cyc → exec (.leaseExpiry x cell) s = .next s) ∧
        (c.lic.held = true → c.lic.pass = true → c.licensedCmds = [] → (s.getPair cell).passing = some m → c.lic.halting = false →
          (m < 2 → exec (.licencePass x cell) s = .next s) ∧
          (2 ≤ m → s.contends x (twinOf cell) = true → ∃ u d d', exec (.licencePass x cell) s = .next u ∧
            u.getCell x cell = some d ∧ u.getCell x (twinOf cell) = some d' ∧ d.lic.held = false ∧ d'.lic.held = true ∧
            d'.lic.claim = false ∧ d.core = c.core ∧ d'.core = tw.core)) ∧
        (c.lic.first = true → 4096 ≤ (s.getPair cell).firstCyc → ∃ u d, exec (.firstClaimTimeout x cell) s = .next u ∧
          u.getCell x cell = some d ∧ d.lic = { c.lic with first := false } ∧ d.core = c.core) ∧
        ((s.getPair cell).firstCyc < 4096 → exec (.firstClaimTimeout x cell) s = .next s)

/-- A barv of an allowed scope in a stage task, of a barrier that has not arrived, whose waits are over, publishes the
task's lines when another group takes part (one of scope dom then waits until the peers have accepted what was
published, log entry 122), marks the barrier arrived with the next episode number, its scope and its address, records
the cell's arrival in the episode, and moves on; one of scope dom needs a gang key and a gang of its context; while an
ared of the cell is outstanding it waits; bwait moves on when the barrier is released, waits while it is arrived and
holds PROTECTION when it is idle. barv of scope eng or sys holds ILLEGAL_WORD; barv of an arrived barrier or in a
launched group holds PROTECTION. -/
def Obligations.Barriers : Prop :=
  ∀ (t : Tok) (id : Fin 32) (sc : Scope) (s : State) (c : Cell) (k : Task), Ready .c t s c k →
      ((sc = .eng ∨ sc = .sys) → exec (.barv t id sc) s = .next (s.raiseAt .c c k .illegalWord 0 0 0)) ∧
      (sc ≠ .eng → sc ≠ .sys → BarvReady s c k sc → (c.core.bars[id].st = .arrived ∨ k.launched = true) →
        exec (.barv t id sc) s = .next (s.raiseAt .c c k .protection 0 0 0)) ∧
      (sc ≠ .eng → sc ≠ .sys → s.crossGroup k sc (unitOf sc s.cur.cell) = false →
        (∃ r ∈ s.reds, r.ctx = k.ctx ∧ r.cell = s.cur.cell) → exec (.barv t id sc) s = .next (s.noteWait .c .plain)) ∧
      (∀ s2 c2, sc ≠ .eng → sc ≠ .sys → BarvReady s c k sc → c.core.bars[id].st ≠ .arrived → k.launched = false →
        (sc = .dom → ∃ i z, s.getInst k.ctx k.inst = some i ∧ i.gangKey ≠ 0 ∧ mget s.ctxs k.ctx = some z ∧ z.gang ≠ 0) →
        (s.crossGroup k sc (unitOf sc s.cur.cell) = false ∧ s2 = s ∨
          s.crossGroup k sc (unitOf sc s.cur.cell) = true ∧ s.publishFirst k = .ok s2 ∧ (sc = .dom → s2.putsOpen k.ctx = false)) →
        s2.cur = s.cur → s2.getCell s.cur.ctx s.cur.cell = some c2 →
        ∃ u c', exec (.barv t id sc) s = .next u ∧ u.getCell s.cur.ctx s.cur.cell = some c' ∧
          c'.core.bars = c2.core.bars.set id ⟨.arrived, c.core.bars[id].gen + 1, sc, c.core.pc.c⟩ ∧ c'.core.pc.c = c.core.pc.c + 1 ∧
          c'.core.sregs = c2.core.sregs ∧ u.mem = s2.mem ∧
          ∃ e ∈ u.episodes, e.ctx = k.ctx ∧ e.inst = k.inst ∧ e.bar = id.val ∧ e.scope = sc ∧
            e.unit = unitOf sc s.cur.cell ∧ e.gen = c.core.bars[id].gen + 1 ∧ s.cur.cell ∈ e.cells) ∧
      (∀ s2, sc = .dom → BarvReady s c k sc → c.core.bars[id].st ≠ .arrived → k.launched = false →
        (∃ i z, s.getInst k.ctx k.inst = some i ∧ i.gangKey ≠ 0 ∧ mget s.ctxs k.ctx = some z ∧ z.gang ≠ 0) →
        s.crossGroup k sc (unitOf sc s.cur.cell) = true → s.publishFirst k = .ok s2 → s2.putsOpen k.ctx = true →
        exec (.barv t id sc) s = .next (s2.noteWait .c .plain)) ∧
      (c.core.bars[id].st = .released → exec (.bwait t id) s = .next (finish .c s c k t (c.core.pc.c + 1) {})) ∧
      (c.core.bars[id].st = .arrived → exec (.bwait t id) s = .next (s.noteWait .c .plain)) ∧
      (c.core.bars[id].st = .idle → exec (.bwait t id) s = .next (s.raiseAt .c c k .protection 0 0 0))

/-- A present bkal of n from 1 to 128 banks takes the run of n free banks with the lowest base, marks exactly those
banks owned and drops the base; with no such run, or with n above 128, it holds ACC_EXHAUSTED; n = 0 drops 0 and takes
nothing. A present bkfr of banks that are owned and in no open batch frees exactly them; of banks not all owned, or
past bank 127, it holds PROTECTION. -/
def Obligations.Banks : Prop :=
  ∀ (t : Tok) (d : Dst) (a b : Src) (s : State) (c : Cell) (k : Task) (q : Clk) (x y : Word64), Ready .c t s c k →
      (Present .c s c k [a] q (dstNamed d) → srcVals .c c [a] = [x] →
        let free (e : Nat) : Prop := e + x.toNat ≤ 128 ∧ ∀ j, e ≤ j → j < e + x.toNat → c.core.bankMap.getLsbD j = false
        (x = 0 → exec (.bkal t d a) s = .next (finish .c s c k t (c.core.pc.c + 1) (resultOf d q true 0))) ∧
        ((128 < x.toNat ∨ (x ≠ 0 ∧ ∀ e, ¬free e)) → exec (.bkal t d a) s = .next (s.raiseAt .c c k .accExhausted 0 0 0)) ∧
        ∀ e, x ≠ 0 → free e → (∀ e', e' < e → ¬free e') →
          ∃ m : BitVec 128, (∀ j, j < 128 → m.getLsbD j = (c.core.bankMap.getLsbD j || decide (e ≤ j ∧ j < e + x.toNat))) ∧
            exec (.bkal t d a) s = .next (finish .c
              (s.updHere fun c => { c with core := { c.core with bankMap := m } }) c k t (c.core.pc.c + 1)
              (resultOf d q true (BitVec.ofNat 64 e)))) ∧
      (Present .c s c k [a, b] q none → srcVals .c c [a, b] = [x, y] →
        (y = 0 → exec (.bkfr t a b) s = .next (finish .c s c k t (c.core.pc.c + 1) {})) ∧
        (128 < x.toNat + y.toNat → y ≠ 0 → c.coveredBanks = 0 →
          exec (.bkfr t a b) s = .next (s.raiseAt .c c k .protection 0 0 0)) ∧
        (y ≠ 0 → x.toNat + y.toNat ≤ 128 → (∀ j, x.toNat ≤ j → j < x.toNat + y.toNat → c.coveredBanks.getLsbD j = false) →
          ((∃ j, x.toNat ≤ j ∧ j < x.toNat + y.toNat ∧ c.core.bankMap.getLsbD j = false) →
            exec (.bkfr t a b) s = .next (s.raiseAt .c c k .protection 0 0 0)) ∧
          ((∀ j, x.toNat ≤ j → j < x.toNat + y.toNat → c.core.bankMap.getLsbD j = true) →
            ∃ m : BitVec 128, (∀ j, j < 128 →
              m.getLsbD j = (c.core.bankMap.getLsbD j && !decide (x.toNat ≤ j ∧ j < x.toNat + y.toNat))) ∧
            exec (.bkfr t a b) s = .next (finish .c
              (s.updHere fun c => { c with core := { c.core with bankMap := m } }) c k t (c.core.pc.c + 1) {}))))

/-- A present tmpl of a 32-byte aligned offset inside the input half, whose 32 bytes are sound and pass the load
checks of R53, replaces template n by those bytes and moves on; a misaligned offset holds ALIGN, one outside the input
half PROTECTION, and bytes that fail the checks ILLEGAL_WORD, all leaving the templates. -/
def Obligations.Templates : Prop :=
  ∀ (t : Tok) (n : Fin 64) (a : Src) (s : State) (c : Cell) (k : Task) (q : Clk) (x : Word64), Ready .c t s c k → n ≠ 0 →
      Present .c s c k [a] q none → srcVals .c c [a] = [x] →
      (x.toNat % 32 ≠ 0 → exec (.tmpl t n a) s = .next (s.raiseAt .c c k .align 0 0 0)) ∧
      (x.toNat % 32 = 0 → inHalf c.core.phase false x.toNat 32 = false →
        exec (.tmpl t n a) s = .next (s.raiseAt .c c k .protection 0 0 0)) ∧
      (x.toNat % 32 = 0 → inHalf c.core.phase false x.toNat 32 = true → c.badWords x.toNat 32 = [] →
        let v := BitVec.ofNat 256 (leNat (readBytes c.spad x.toNat 32))
        (loadCheck v = false → exec (.tmpl t n a) s = .next (s.raiseAt .c c k .illegalWord 0 0 0)) ∧
        (loadCheck v = true → ∃ c', exec (.tmpl t n a) s = .next (s.putHere c') ∧
          c'.core.tmpls = c.core.tmpls.set n { bits := v } ∧ c'.core.pc.c = c.core.pc.c + 1 ∧ c'.spad = c.spad ∧
          c'.core.sregs = c.core.sregs ∧ c'.core.cremaC = c.core.cremaC))

/-- When the issuing word of A waits for something, or an earlier word is unfinished, its cell takes its popped
tokens, reserves the slots of its pushed tokens, moves A's counter past the word, writes the word's results (its named
register, with every other one as it was, and its drop onto A's crema) and appends the word to the words in motion; no
token or entry is deposited yet. When it is the only word and waits for nothing, the same results are written, its
tokens are deposited at once and nothing stays in motion. Every other cell, task and all of memory is unchanged. -/
def Obligations.IssueOfA : Prop :=
  ∀ (s : State) (c : Cell) (k : Task) (t : Tok) (len : Nat) (op : FlyOp) (popped : List (Nat × QEntry)) (r : Result),
      s.getCell s.cur.ctx s.cur.cell = some c → k.ctx = s.cur.ctx →
      let regs := match r.reg with | some (n, v) => c.core.aregs.set n v | none => c.core.aregs
      let crema := match r.drop with | some v => (v :: c.core.cremaA).take 16 | none => c.core.cremaA
      ((∀ f, (c.fly ++ [({ id := 0, pc := 0, op := op, tok := t } : Fly)]).head? = some f → f.op.over = false) →
        ∃ c', s.retireFly c k t len op [] popped r = s.putHere c' ∧
          c'.core.toks = tokTake c.core.toks .a t ∧ c'.tokRsv = tokReserve c.tokRsv .a t ∧
          c'.core.pc = { c.core.pc with a := c.core.pc.a + len } ∧
          (∃ f, c'.fly = c.fly ++ [f] ∧ f.id = c.nextFly ∧ f.op = op ∧ f.tok = t ∧ f.pc = c.core.pc.a ∧ f.popped = popped) ∧
          c'.core.aregs = regs ∧ c'.core.cremaA = crema ∧
          c'.core.sregs = c.core.sregs ∧ c'.core.cremaC = c.core.cremaC ∧ c'.core.vregs = c.core.vregs ∧
          c'.core.clks = c.core.clks ∧ c'.queues = c.queues ∧ c'.spad = c.spad ∧ c'.bufs = c.bufs) ∧
      (c.fly = [] → op.over = true →
        ∃ c', s.retireFly c k t len op [] popped r = s.putHere c' ∧ c'.fly = [] ∧
          c'.core.toks = tokGive (tokTake c.core.toks .a t) .a t ∧
          c'.core.pc = { c.core.pc with a := c.core.pc.a + len } ∧ c'.core.aregs = regs ∧ c'.core.cremaA = crema ∧
          c'.core.sregs = c.core.sregs ∧ c'.core.cremaC = c.core.cremaC ∧
          c'.core.vregs = c.core.vregs ∧ c'.queues = c.queues ∧ c'.spad = c.spad ∧ c'.bufs = c.bufs)

/-- A present ld, with or without an offset extension, of an address that is canonical, aligned, mapped and readable,
joins the words in motion with the physical place, the bytes that the task's own store lines hold, and its result
awaiting data, and the cell caches the translation; a misaligned address holds ALIGN and one that is not canonical
PROTECTION, with the address. LOAD_DATA_RETURN of the one unfinished word of a cell, at a sound place of local memory,
reads the little-endian bytes of memory under the task's own stores, extends them as the form says, fills the
registers that await it, records the line in the read set, and finishes the word; no byte of memory changes. -/
def Obligations.Loads : Prop :=
  (∀ (t : Tok) (kd : LdKind) (d : Dst) (a : Src) (cls : Fin 16) (off : BitVec 29) (s : State) (c : Cell) (k : Task)
        (q : Clk) (x : Word64) (p : Page) (r : MemRef), Ready .a t s c k → Present .a s c k [a] q none → srcVals .a c [a] = [x] →
        (Allowed s k s.cur.cell x (ldSize kd) cls .read p r →
          exec (.ld t kd d a cls) s = .next ((s.cachePage k.ctx s.cur.cell p).retireFly c k t 1
            (.load r (ownBytes (c.bufOf k.id).lines r.pa r.size) kd) [] [] (pendResult d q c.nextFly))) ∧
        (Allowed s k s.cur.cell (x + off.signExtend 64) (ldSize kd) cls .read p r →
          exec (.ldExt t kd d a cls off) s = .next ((s.cachePage k.ctx s.cur.cell p).retireFly c k t 2
            (.load r (ownBytes (c.bufOf k.id).lines r.pa r.size) kd) [] [] (pendResult d q c.nextFly))) ∧
        (canonical x = true → x.toNat % ldSize kd ≠ 0 →
          exec (.ld t kd d a cls) s = .next (s.raiseAt .a c k .align 0 x 0)) ∧
        (canonical x = false → exec (.ld t kd d a cls) s = .next (s.raiseAt .a c k .protection 0 x 0))) ∧
      ∀ (x cell id : Nat) (s : State) (c : Cell) (k : Task) (f : Fly) (r : MemRef) (own : List (Option Byte)) (kd : LdKind),
        s.flyOf x cell id = some (c, k, f) → c.fly = [f] → f.op = .load r own kd → f.push = [] → k.ctx = x →
        s.mayPerform x cell c f = true → s.steep r.pa = false → ¬(own.all Option.isSome = true) →
        Sound s r → (wsBase ≤ r.pa → wsBase + 40 * 0x4000000 ≤ r.pa) →
        ∃ u c', exec (.loadDataReturn x cell id) s = .next u ∧ u.getCell x cell = some c' ∧ c'.fly = [] ∧
          (∀ j : Fin 16, c.core.aregs[j].pend = some id → c'.core.aregs[j].pend = none ∧
            c'.core.aregs[j].val = (let v : Word64 := BitVec.ofNat 64 (leNat (overlayBytes own (readBytes s.mem r.pa r.size)))
              match kd with
              | .bs => (v.setWidth 8).signExtend 64 | .hs => (v.setWidth 16).signExtend 64
              | .ws => (v.setWidth 32).signExtend 64 | _ => v)) ∧
          (∀ j : Fin 16, c.core.aregs[j].pend ≠ some id → c'.core.aregs[j] = c.core.aregs[j]) ∧
          c'.core.sregs = c.core.sregs ∧ c'.core.toks = tokGive c.core.toks .a f.tok ∧ u.mem = s.mem ∧
          (∀ kk, s.getTask k.id = some kk → ∃ k', u.getTask k.id = some k' ∧ k'.readsLine (r.pa / 64) = true)

/-- A present st, with or without an offset extension, whose access is allowed, to memory that is not the host's: by a
task that does not write directly, whose line is buffered or has room, it puts its bytes, little-endian, into the
task's store line of the address's line and leaves every byte of memory (behind an unfinished word of A the word keeps
them too, so that a task that turns direct meanwhile writes them in their turn, log entry 123); by a task that writes
directly it issues a direct write of those bytes. A store to host memory by a task at the pour line publishes the
task's lines and issues the direct write. An absent st moves on without effect. DIRECT_WRITE_PERFORMED of a word that
may perform, to a sound line of local memory, writes exactly the masked bytes of its line, and no other byte of
memory. Writing a line for a context changes the masked bytes of that line and, of a poisoned line, the others to 0;
every other byte of memory reads as before, and the line is no longer poisoned. -/
def Obligations.Stores : Prop :=
  (∀ (t : Tok) (z : Size) (a b : Src) (cls : Fin 16) (off : BitVec 29) (s : State) (c : Cell) (k : Task) (q : Clk)
        (v x : Word64) (p : Page) (r : MemRef), Ready .a t s c k → Present .a s c k [b, a] q none → srcVals .a c [b, a] = [v, x] →
        let n := storeLine r (bytesFrom v 0 (sizeBytes z))
        let s1 := s.cachePage k.ctx s.cur.cell p
        let op : FlyOp := if c.fly = [] then .done else .stored false [⟨c.nextFly, r, n.mask, n.data⟩]
        (s.backing k.ctx r.pa ≠ .host → k.direct = false → RecordRoom c (c.lineBytes k n) →
          (Allowed s k s.cur.cell x (sizeBytes z) cls .write p r →
            exec (.st t z b a cls) s = .next ((s1.buffered k s.cur.cell c.nextFly n).retireFly c k t 1 op [] [] {})) ∧
          (Allowed s k s.cur.cell (x + off.signExtend 64) (sizeBytes z) cls .write p r →
            exec (.stExt t z b a cls off) s = .next ((s1.buffered k s.cur.cell c.nextFly n).retireFly c k t 2 op [] [] {})) ∧
          ∀ j len, readByte ((s1.buffered k s.cur.cell c.nextFly n).retireFly c k t len op [] [] {}).mem j = readByte s.mem j) ∧
        (s.backing k.ctx r.pa ≠ .host → k.direct = true →
          (Allowed s k s.cur.cell x (sizeBytes z) cls .write p r →
            exec (.st t z b a cls) s = .next (s1.retireFly c k t 1 (.direct r n.mask n.data) [] [] {})) ∧
          (Allowed s k s.cur.cell (x + off.signExtend 64) (sizeBytes z) cls .write p r →
            exec (.stExt t z b a cls off) s = .next (s1.retireFly c k t 2 (.direct r n.mask n.data) [] [] {}))) ∧
        (s.backing k.ctx r.pa = .host → Publishes s k → ∃ s2, s1.publishFirst k = .ok s2 ∧
          (Allowed s k s.cur.cell x (sizeBytes z) cls .write p r →
            exec (.st t z b a cls) s = .next (s2.retireFly c k t 1 (.direct r n.mask n.data) [] [] {})) ∧
          (Allowed s k s.cur.cell (x + off.signExtend 64) (sizeBytes z) cls .write p r →
            exec (.stExt t z b a cls off) s = .next (s2.retireFly c k t 2 (.direct r n.mask n.data) [] [] {})))) ∧
      (∀ (t : Tok) (z : Size) (a b : Src) (cls : Fin 16) (off : BitVec 29) (s : State) (c : Cell) (k : Task) (q : Clk),
        Ready .a t s c k → ReadsAs .a s c k q a → ReadsAs .a s c k q b → clkOn c.core q = false → clkBad c.core q = false →
        exec (.st t z b a cls) s = .next (finish .a s c k t (c.core.pc.a + 1) {}) ∧
        exec (.stExt t z b a cls off) s = .next (finish .a s c k t (c.core.pc.a + 2) {})) ∧
      (∀ (x cell id : Nat) (s : State) (c : Cell) (k : Task) (f : Fly) (r : MemRef) (mask : BitVec 64) (data : BitVec 512),
        s.flyOf x cell id = some (c, k, f) → k.ctx = x → f.op = .direct r mask data → s.mayPerform x cell c f = true →
        Sound s r → Memory.wf s.mem = true →
        ∃ u, exec (.directWritePerformed x cell id) s = .next u ∧
          (∀ j, j < 64 → readByte u.mem (r.pa / 64 * 64 + j) =
            if mask.getLsbD j then data.extractLsb' (8 * j) 8 else readByte s.mem (r.pa / 64 * 64 + j)) ∧
          ∀ a, a / 64 ≠ r.pa / 64 → readByte u.mem a = readByte s.mem a) ∧
      ∀ (s : State) (x line : Nat) (mask : BitVec 64) (data : BitVec 512), Memory.wf s.mem = true →
        (∀ j, j < 64 → readByte (s.writeLine x line mask data).mem (64 * line + j) =
          if mask.getLsbD j then data.extractLsb' (8 * j) 8
          else if line ∈ s.poison then 0 else readByte s.mem (64 * line + j)) ∧
        (∀ a, a / 64 ≠ line → readByte (s.writeLine x line mask data).mem a = readByte s.mem a) ∧
        line ∉ (s.writeLine x line mask data).poison

/-- Of an assigned queue with room, a present qpush finishes with an entry of the source's value, its clock, the
queue's stamped format and the task's instant for the queue, and a present qld issues a read whose entry is pushed
when the data returns, with the slot reserved; qpop on a present clock, of a queue whose head has that clock, drops
the head's converted value and removes the entry; qst removes the head and stores its low bytes as st does; an absent
qpop drops 0. A queue that A may not push, or pop, holds ILLEGAL_WORD; an empty queue is waited for. Depositing an
entry into one of a cell's own queues puts it behind every entry that its engine's turn in the cycle does not
overtake, a pop at the pour line removes the head and nothing else, the other queues stay, and a deposit into a
neighbour queue lands in the facing queue of the neighbouring cell. -/
def Obligations.QueueWords : Prop :=
  (∀ (t : Tok) (d : Dst) (z : Size) (a : Src) (qn : QNum) (cls : Fin 16) (off : BitVec 29) (kx : Clk) (s : State)
      (c : Cell) (k : Task) (q : Clk) (x : Word64) (raw e : QEntry) (p : Page) (r : MemRef), Ready .a t s c k →
      let s1 := s.cachePage k.ctx s.cur.cell p
      (s.pushAssigned k s.cur.cell .a qn.val = true → Present .a s c k [a] q none → srcVals .a c [a] = [x] →
        s.pushRoom k s.cur.cell qn.val 16 = .ok () →
        (exec (.qpush t qn a) s = .next ((s.reserve k s.cur.cell qn.val (· + 1)).retireFly c k t 1 .done
          [(qn.val, { val := x.setWidth 2048, clk := q, fmt := fmtOf (c.core.qpushFmt[qn].toNat % 16), inst := k.ts / 65536 })]
          [] {})) ∧
        (Allowed s k s.cur.cell x (sizeBytes z) cls .read p r →
          exec (.qld t z qn a cls) s = .next ((s1.reserve k s.cur.cell qn.val (· + 1)).retireFly c k t 1
            (.qload r (ownBytes (c.bufOf k.id).lines r.pa r.size) qn)
            [(qn.val, { clk := q, fmt := fmtOf (c.core.qpushFmt[qn].toNat % 16), inst := k.ts / 65536 })] [] {})) ∧
        (Allowed s k s.cur.cell (x + off.signExtend 64) (sizeBytes z) cls .read p r →
          exec (.qldExt t z qn a cls off) s = .next ((s1.reserve k s.cur.cell qn.val (· + 1)).retireFly c k t 2
            (.qload r (ownBytes (c.bufOf k.id).lines r.pa r.size) qn)
            [(qn.val, { clk := q, fmt := fmtOf (c.core.qpushFmt[qn].toNat % 16), inst := k.ts / 65536 })] [] {}))) ∧
      (s.pushAssigned k s.cur.cell .a qn.val = false → (srcVal .a c.core a).pend = none →
        exec (.qpush t qn a) s = .next (s.raiseAt .a c k .illegalWord 0 0 0) ∧
        exec (.qld t z qn a cls) s = .next (s.raiseAt .a c k .illegalWord 0 0 0)) ∧
      (s.popAssigned k s.cur.cell .a qn.val = false → exec (.qpop t d qn kx) s = .next (s.raiseAt .a c k .illegalWord 0 0 0)) ∧
      (s.popAssigned k s.cur.cell .a qn.val = true → Poppable s k c s.cur.cell qn.val raw → RecordRoom c (s.popBytes k raw) →
        (OnClock c.core kx → raw.clk = kx → raw.vec = false → popConvert c.core.qpopFmt[qn] raw = .ok e →
          exec (.qpop t d qn kx) s = .next ((s.popTake k s.cur.cell qn.val).retireFly c k t 1 .done [] [(qn.val, raw)]
            (resultOf d kx true (e.val.setWidth 64)))) ∧
        (OnClock c.core kx → raw.clk ≠ kx →
          exec (.qpop t d qn kx) s = .next (s.raiseAt .a c k .clockMismatch 0 0 0)) ∧
        (Present .a s c k [a] q none → srcVals .a c [a] = [x] → raw.clk = q → raw.vec = false →
          popConvert c.core.qpopFmt[qn] raw = .ok e → s.backing k.ctx r.pa ≠ .host →
          let n := storeLine r (bytesFrom e.val 0 (sizeBytes z))
          let op : FlyOp := if c.fly = [] then .done else .stored false [⟨c.nextFly, r, n.mask, n.data⟩]
          (k.direct = false → RecordRoom c (s.popBytes k raw + c.lineBytes k n) →
            (Allowed s k s.cur.cell x (sizeBytes z) cls .write p r → exec (.qst t z qn a cls) s =
              .next (((s1.buffered k s.cur.cell c.nextFly n).popTake k s.cur.cell qn.val).retireFly c k t 1 op [] [(qn.val, raw)] {})) ∧
            (Allowed s k s.cur.cell (x + off.signExtend 64) (sizeBytes z) cls .write p r → exec (.qstExt t z qn a cls off) s =
              .next (((s1.buffered k s.cur.cell c.nextFly n).popTake k s.cur.cell qn.val).retireFly c k t 2 op [] [(qn.val, raw)]
                {}))) ∧
          (k.direct = true →
            (Allowed s k s.cur.cell x (sizeBytes z) cls .write p r → exec (.qst t z qn a cls) s =
              .next ((s1.popTake k s.cur.cell qn.val).retireFly c k t 1 (.direct r n.mask n.data) [] [(qn.val, raw)] {})) ∧
            (Allowed s k s.cur.cell (x + off.signExtend 64) (sizeBytes z) cls .write p r → exec (.qstExt t z qn a cls off) s =
              .next ((s1.popTake k s.cur.cell qn.val).retireFly c k t 2 (.direct r n.mask n.data) [] [(qn.val, raw)] {}))))) ∧
      (s.popAssigned k s.cur.cell .a qn.val = true → clkOn c.core kx = false → clkBad c.core kx = false →
        exec (.qpop t d qn kx) s = .next (finish .a s c k t (c.core.pc.a + 1) { drop := some { val := 0, tag := kx } })) ∧
      (s.popAssigned k s.cur.cell .a qn.val = true → clkOn c.core kx = true → s.queueHead k c s.cur.cell qn.val = none →
        exec (.qpop t d qn kx) s = .next (s.noteWait .a .plain))) ∧
      (∀ (s : State) (k : Task) (cell n qn : Nat) (g : Engine) (e : QEntry) (c c2 : Cell), s.getCell k.ctx cell = some c →
      let e' : QEntry := { e with cyc := s.cycle, rank := pushRank g }
      (qn < 8 → (∀ x ∈ (c.queue qn).es, ¬(x.cyc = s.cycle ∧ pushRank g < x.rank)) → ∃ c', s.deposit k cell qn g e = s.putCell k.ctx cell c' ∧
        (c'.queue qn).es = (c.queue qn).es ++ [e'] ∧ (∀ m, m < 13 → m ≠ qn → c'.queue m = c.queue m) ∧ c'.core = c.core) ∧
      (8 ≤ qn → qn < 13 → nbrOf cell qn = some n → s.getCell k.ctx n = some c2 →
        (∀ x ∈ (c2.queue (landing qn)).es, ¬(x.cyc = s.cycle ∧ pushRank g < x.rank)) →
        ∃ c', s.deposit k cell qn g e = s.putCell k.ctx n c' ∧
          (c'.queue (landing qn)).es = (c2.queue (landing qn)).es ++ [e'] ∧
          (∀ m, m < 13 → m ≠ landing qn → c'.queue m = c2.queue m) ∧ c'.core = c2.core) ∧
      (∀ q1 q2 x, q1 ++ x :: q2 = (c.queue qn).es → qn < 8 → (∀ y ∈ q1, ¬(y.cyc = s.cycle ∧ pushRank g < y.rank)) →
        x.cyc = s.cycle → pushRank g < x.rank →
        ∃ c', s.deposit k cell qn g e = s.putCell k.ctx cell c' ∧ (c'.queue qn).es = q1 ++ e' :: x :: q2) ∧
      (qn < 13 → s.atPour k = true → ∀ h tl, (c.queue qn).es = h :: tl →
        ∃ c', s.popTake k cell qn = s.putCell k.ctx cell c' ∧ (c'.queue qn).es = tl ∧
          (∀ m, m < 13 → m ≠ qn → c'.queue m = c.queue m) ∧ c'.core = c.core))

/-- With a free stream unit, assigned queues and an entry in an index or data queue that C or V feeds, gth and sct
start a unit with their base, size and index queue, and pat one with the pattern of its record in the input half (a
pattern that stores to host memory once its task can publish, which it does; any other queue may be empty at the
start, by the model's reading, log entry 80); cpy of a checked non-empty copy starts it and finishes, an empty one
only finishes, cpyw moves on when no copy of its class is in motion and waits otherwise, and wst at the pour line with
64-byte units inside the store makes its instance the partition's writer and starts. STREAM_ELEMENT of a unit that may
move takes the next index of a gather or scatter from its queue; reads the element that a gather's index or a load
pattern's place names (the little-endian bytes there, under the store lines of its start) and pushes it with the
queue's stamped format, an element of 256 bytes as a vector entry; pops the next entry of a scatter or of a store
pattern and moves its low bytes (256 of a vector) to the element's place; pushes the end marker of a gather whose
indices have ended or of a load pattern that has run out, and takes that of a scatter or a store pattern: then the
unit ends. COPY_UNIT of a copy that may move copies the next unit of at most 64 bytes, within the scratchpad, from
memory (a unit of one line) into it, and from it or from memory to memory; WST_UNIT_WRITTEN writes the next 64 bytes
from the scratchpad or from memory into the cluster's store, and finishes the word after the last. Bytes moved to
memory go into the task's store line when it does not write directly, and otherwise are written at once, exactly they.
In a cell whose task holds a fault, or that is halted, no unit moves. A move ends what it may have waited for (R150).
-/
def Obligations.StreamsCopies : Prop :=
  (∀ (t : Tok) (z : Size) (a b n : Src) (qn qi : QNum) (cls : Fin 16) (s : State) (c : Cell) (k : Task) (q : Clk) (x : Word64),
        Ready .a t s c k →
        (Present .a s c k [a] q none → srcVals .a c [a] = [x] → c.streams.length < 4 →
          (s.pushAssigned k s.cur.cell .a qn.val = true → s.popAssigned k s.cur.cell .a qi.val = true → Fed s k c s.cur.cell qi →
            exec (.gth t z qn a cls qi) s = .next (startStream s c k t 2 (.gth x.toNat (sizeBytes z) qi) qn cls q)) ∧
          (s.popAssigned k s.cur.cell .a qn.val = true → s.popAssigned k s.cur.cell .a qi.val = true → Fed s k c s.cur.cell qi →
            exec (.sct t z qn a cls qi) s = .next (startStream s c k t 2 (.sct x.toNat (sizeBytes z) qi) qn cls q)) ∧
          (∀ kind, inHalf c.core.phase false x.toNat 32 = true → x.toNat % 32 = 0 → c.lentOut false x.toNat 32 = false →
            c.badWords x.toNat 32 = [] → patternOf (readBytes c.spad x.toNat 32) = .ok kind →
            (if kind.stores then s.popAssigned k s.cur.cell .a qn.val else s.pushAssigned k s.cur.cell .a qn.val) = true →
            (kind.stores = true → Fed s k c s.cur.cell qn) →
            (s.patHost k s.cur.cell kind = false → exec (.pat t qn a cls) s = .next (startStream s c k t 1 kind qn cls q)) ∧
            (s.patHost k s.cur.cell kind = true → Publishes s k → ∃ s2, s.publishFirst k = .ok s2 ∧
              exec (.pat t qn a cls) s = .next (startStream s2 c k t 1 kind qn cls q)))) ∧
        ((c.copies.any fun x => x.cls == cls) = false →
          exec (.cpyw t cls) s = .next (finish .a s c k t (c.core.pc.a + 1) {})) ∧
        ((c.copies.any fun x => x.cls == cls) = true → exec (.cpyw t cls) s = .next (s.noteWait .a .plain)) ∧
        ∀ y w : Word64, Present .a s c k [a, b, n] q none → srcVals .a c [a, b, n] = [x, y, w] →
          (c.copyChecks (copyEnd x) (copyEnd y) w.toNat = .ok () → s.touchesHost k s.cur.cell (copyEnd x) w.toNat = false →
            (w ≠ 0 → exec (.cpy t a b n cls) s = .next ((s.updHere fun c' => { c' with
                copies := c'.copies ++ [⟨c.nextFly, c.core.pc.a, copyEnd x, copyEnd y, w.toNat, 0, cls, k.id, c.core.phase,
                  if (copyEnd y).isVirt then c.copyCount else 64⟩]
                copyCount := if (copyEnd y).isVirt then c'.copyCount + 1 else c'.copyCount }).retireFly c k t 1 .done [] [] {})) ∧
            (w = 0 → exec (.cpy t a b n cls) s = .next (finish .a s c k t (c.core.pc.a + 1) {}))) ∧
          (c.copyChecks (copyEnd x) (copyEnd y) w.toNat = .ok () → s.touchesHost k s.cur.cell (copyEnd x) w.toNat = true →
            Publishes s k → w ≠ 0 → ∃ s2, s.publishFirst k = .ok s2 ∧
              exec (.cpy t a b n cls) s = .next ((s2.updHere fun c' => { c' with
                copies := c'.copies ++ [⟨c.nextFly, c.core.pc.a, copyEnd x, copyEnd y, w.toNat, 0, cls, k.id, c.core.phase,
                  if (copyEnd y).isVirt then c.copyCount else 64⟩]
                copyCount := if (copyEnd y).isVirt then c'.copyCount + 1 else c'.copyCount }).retireFly c k t 1 .done [] [] {})) ∧
          (∀ p pr, s.atPour k = true → s.partOfCtx k.ctx = some (p, pr) → s.otherInstance k p = false →
            x.toNat % 64 = 0 → w.toNat % 64 = 0 → x.toNat + w.toNat ≤ 2 ^ 26 → w ≠ 0 →
            c.copyFrom (copyEnd y) w.toNat = .ok () → s.readable k s.cur.cell (copyEnd y) w.toNat = .ok () →
            exec (.wst t a b n) s = .next ((({ s with
                parts := mupd s.parts p fun r => { r with writer := some k.inst } } : State).updHere fun c' => { c' with
                  wsts := c'.wsts ++ [⟨c.nextFly, c.core.pc.a, x.toNat, copyEnd y, w.toNat, 0⟩] }).retireFly c k t 1 .wst [] [] {}))) ∧
      (∀ (x cell id : Nat) (s : State), s.moving x cell = none → exec (.streamElement x cell id) s = .next s ∧
        exec (.copyUnit x cell id) s = .next s ∧ exec (.wstUnitWritten x cell id) s = .next s) ∧
      ∀ (x cell id : Nat) (s : State) (c : Cell) (k : Task), s.moving x cell = some (c, k) → k.ctx = x →
        let g := s.goTo x cell
        let linesAt (n : Nat) : List StoreLine := ((c.fly.find? fun f => f.id = n).map Fly.lines).getD []
        let ends (v : State) : Prop := exec (.streamElement x cell id) s = .next (v.noteMove id .none)
        (∀ u, c.streams.find? (fun u => u.id = id) = some u → s.mayMove x cell c id u.cls (s.nextPlaces x cell u) = true →
          let pops (q : QNum) (vec : Bool) (raw e : QEntry) : Prop := Poppable g k c cell q.val raw ∧ RecordRoom c (g.popBytes k raw) ∧
            clkBad c.core u.clk = false ∧ raw.clk = u.clk ∧ raw.vec = vec ∧ popConvert c.core.qpopFmt[q] raw = .ok e
          let fmt : Fmt := fmtOf (c.core.qpushFmt[u.q].toNat % 16)
          let marker (vec : Bool) : QEntry :=
            { vec := vec, val := BitVec.ofNat 2048 (u.n % 2 ^ 64), clk := u.clk, fmt := if vec then .raw else .int64, endm := true, inst := k.ts / 65536 }
          (∀ base size qi, (u.kind = .gth base size qi ∨ u.kind = .sct base size qi) → u.ended = false → u.idx = none →
            ∀ raw e, pops qi false raw e → ends ((g.popTake k cell qi.val).putUnit k cell
              (if e.endm then { u with ended := true } else { u with idx := some (e.val.setWidth 64) }))) ∧
          (∀ base size qi i, u.ended = false → u.idx = some i → (BitVec.ofNat 64 base + i * BitVec.ofNat 64 size).toNat % size = 0 →
            let ea := BitVec.ofNat 64 base + i * BitVec.ofNat 64 size
            (u.kind = .gth base size qi → ∀ s1 bs, g.readVirtOver k cell (.word id) (linesAt id) ea size = .ok (s1, bs) →
              s1.pushRoom k cell u.q.val 16 = .ok () →
              ends ((s1.deposit k cell u.q.val .a
              { val := (BitVec.ofNat 64 (leNat bs)).setWidth 2048, clk := u.clk, fmt := fmt,
                inst := k.ts / 65536 }).putUnit k cell { u with idx := none, n := u.n + 1 })) ∧
            (u.kind = .sct base size qi → ∀ raw e s1, pops u.q false raw e → e.endm = false →
              g.moveOutAll k cell id (some u) u.cls (g.popBytes k raw) [(ea, bytesFrom e.val 0 size)] = .ok s1 →
              ends ((s1.popTake k cell u.q.val).putUnit k cell { u with idx := none, n := u.n + 1 }))) ∧
          (∀ base size qi, u.ended = true →
            (u.kind = .gth base size qi → g.pushRoom k cell u.q.val 16 = .ok () →
              ends ((g.deposit k cell u.q.val .a (marker false)).endUnit k cell u)) ∧
            (u.kind = .sct base size qi → ∀ raw e, pops u.q false raw e → e.endm = true →
              ends ((g.popTake k cell u.q.val).endUnit k cell u))) ∧
          (∀ base ic oc is os es st, u.kind = .pat base ic oc is os es st →
            let n := if es = 4 then 256 else 2 ^ es
            let ea : Word64 := BitVec.ofInt 64 (base + u.o * os + u.i * is)
            let u' := if u.i + 1 < ic then { u with i := u.i + 1, n := u.n + 1 } else { u with o := u.o + 1, i := 0, n := u.n + 1 }
            (ic = 0 ∨ oc ≤ u.o →
              (st = false → g.pushRoom k cell u.q.val (if es = 4 then 272 else 16) = .ok () →
                ends ((g.deposit k cell u.q.val .a (marker (decide (es = 4)))).endUnit k cell u)) ∧
              (st = true → ∀ raw e, pops u.q (decide (es = 4)) raw e → e.endm = true →
                ends ((g.popTake k cell u.q.val).endUnit k cell u))) ∧
            (ic ≠ 0 → u.o < oc → ea.toNat % Nat.min n 64 = 0 →
              (st = false → ∀ s1 bs, g.readVirtOver k cell (.word id) (linesAt id) ea n = .ok (s1, bs) →
                s1.pushRoom k cell u.q.val (if es = 4 then 272 else 16) = .ok () →
                ends ((s1.deposit k cell u.q.val .a { vec := decide (es = 4), clk := u.clk, inst := k.ts / 65536
                                                      val := if es = 4 then BitVec.ofNat 2048 (leNat bs) else (BitVec.ofNat 64 (leNat bs)).setWidth 2048
                                                      fmt := if es = 4 ∧ fmt = .int64 then .raw else fmt }).putUnit k cell u')) ∧
              (st = true → ∀ raw e s1, pops u.q (decide (es = 4)) raw e → e.endm = false →
                g.moveOutAll k cell id (some u) u.cls (g.popBytes k raw) (linePieces ea (bytesFrom e.val 0 n) 5) = .ok s1 →
                ends ((s1.popTake k cell u.q.val).putUnit k cell u'))))) ∧
        (∀ (lines : List StoreLine) (who : Asker) (ea : Word64) (n : Nat) (cls : Fin 16) (p : Page) (r : MemRef), n ∈ [1, 2, 4, 8, 64] →
          Allowed g k cell ea n cls .read p r → Sound g r → g.steep r.pa = false → g.linked r.pa = true →
          ∃ s1 c1, g.readVirtOver k cell who lines ea n = .ok (s1, overlayBytes (ownBytes lines r.pa n) (readBytes s.mem r.pa n)) ∧
            s1.mem = s.mem ∧ s1.getCell x cell = some c1 ∧ c1.queues = c.queues ∧ c1.core = c.core ∧ c1.spad = c.spad) ∧
        (∀ (u : Option StreamUnit) (extra : Nat) (ea : Word64) (bs : List Byte) (cls : Fin 16) (p : Page) (r : MemRef), bs ≠ [] →
          Allowed g k cell ea bs.length cls .write p r → r.pa % 64 + bs.length ≤ 64 → StreamUnit.overAt u (r.pa / 64) = 0 →
          g.backing x r.pa ≠ .host →
          (k.direct = false → RecordRoom c (extra + c.lineBytes k (storeLine r bs)) →
            ∃ s1 c1, g.moveOut k cell id u cls extra ea bs = .ok s1 ∧ s1.mem = s.mem ∧ s1.getCell x cell = some c1 ∧
              ownBytes (c1.bufOf k.id).lines r.pa bs.length = bs.map some) ∧
          (k.direct = true → Sound g r → g.linked r.pa = true → Memory.wf s.mem = true →
            ∃ s1, g.moveOut k cell id u cls extra ea bs = .ok s1 ∧
              ∀ a, readByte s1.mem a = if r.pa ≤ a ∧ a < r.pa + bs.length then bs.getD (a - r.pa) 0 else readByte s.mem a)) ∧
        (∀ y, c.copies.find? (fun y => y.id = id) = some y → s.mayMove x cell c id y.cls [] = true →
          (∀ o o2, y.src = .spad o → y.dst = .spad o2 → s.atPour k = true → s.getTask k.id = some k →
            let n := Nat.min 64 (y.len - y.pos)
            c.badWords (o + y.pos) n = [] → s.laterWriters x k.inst k.stage cell (some k) (unitsOf (o2 + y.pos) n) = [] →
            exec (.copyUnit x cell id) s = .next (((g.putCell x cell (c.spadWrite (o2 + y.pos) (readBytes c.spad (o + y.pos) n))).updCell x
              cell (Cell.copyMoved y n)).noteMove id .none)) ∧
          (∀ va o2 s1 bs s2 c2, y.src = .virt va → y.dst = .spad o2 →
            let n := Nat.min (64 - (va + y.pos) % 64) (y.len - y.pos)
            g.readVirt k cell (.word id) (BitVec.ofNat 64 (va + y.pos)) n = .ok (s1, bs) →
            s1.spadClaim x k.inst k.stage cell k.id (unitsOf (o2 + y.pos) bs.length) = .ok s2 → s2.getCell x cell = some c2 →
            ∃ (v : State) (c' : Cell), exec (.copyUnit x cell id) s = .next (v.noteMove id .none) ∧ v.getCell x cell = some c' ∧
              c'.spad = writeBytes c2.spad (o2 + y.pos) bs ∧ c'.copies = (Cell.copyMoved y n c2).copies ∧ v.mem = s2.mem) ∧
          (∀ d n s1 bs s2, y.dst = .virt d →
            ((∃ o, y.src = .spad o ∧ n = Nat.min 64 (y.len - y.pos) ∧ c.badWords (o + y.pos) n = [] ∧ s1 = g ∧
                bs = readBytes c.spad (o + y.pos) n) ∨
              ∃ va, y.src = .virt va ∧ n = Nat.min (64 - (va + y.pos) % 64) (y.len - y.pos) ∧
                g.readVirt k cell (.word id) (BitVec.ofNat 64 (va + y.pos)) n = .ok (s1, bs)) →
            s1.moveOutAll k cell id none y.cls 0 (linePieces (BitVec.ofNat 64 (d + y.pos)) bs 2) = .ok s2 →
            exec (.copyUnit x cell id) s = .next ((s2.updCell x cell (Cell.copyMoved y n)).noteMove id .none))) ∧
        (∀ w s1 bs, c.wsts.find? (fun w => w.id = id) = some w → (∀ f ∈ c.fly, f.op.unsettled = false) →
          ((∃ o, w.src = .spad o ∧ c.badWords (o + w.pos) 64 = [] ∧ s1 = g ∧ bs = readBytes c.spad (o + w.pos) 64) ∨
            ∃ va, w.src = .virt va ∧ g.readVirtOver k cell (.word id) (linesAt id) (BitVec.ofNat 64 (va + w.pos)) 64 = .ok (s1, bs)) →
          let pa := wsBase + clusterOf cell * 0x4000000 + w.off + w.pos
          s.steep pa = false →
          let g2 : State := { s1 with
            mem := writeBytes s1.mem pa bs
            wsBad := s1.wsBad.filter fun b => !(pa / 8 ≤ b && b < pa / 8 + 8) }
          (w.pos + 64 < w.len → exec (.wstUnitWritten x cell id) s = .next ((g2.updCell x cell fun c' =>
            { c' with wsts := c'.wsts.map fun y => if y.id = w.id then { y with pos := w.pos + 64 } else y }).noteMove id .none)) ∧
          (w.len ≤ w.pos + 64 → exec (.wstUnitWritten x cell id) s = .next (((g2.updCell x cell fun c' =>
            { c' with wsts := c'.wsts.filter fun y => y.id != w.id }).flyDone k cell w.id fun f => f).noteMove id .none)))

/-- At the pour line a present amo, amo.cas or ared of an allowed address whose task can publish publishes the task's
stores; a relaxed one then issues, with its operation, operands and (for an atomic) its result awaiting data, and one
with SC waits for its slot; an absent one drops 0 with its clock or does nothing; away from the pour line they wait;
pref caches the translation of a mapped canonical address and never faults; fcls moves on when no access of a named
class is outstanding, waits while one is, and with an empty mask holds ILLEGAL_WORD; fsc publishes and waits for its
slot, and SC_SLOT in an open position of its turn, with no access of the thread left, retires it; SC_SLOT of an atomic
that holds its slot, with no access of the thread and no earlier operation of the order left, performs it at a sound
place of local memory, drops the old value (an ared drops nothing) and writes its destination. ATOMIC_PERFORM of a
word that may perform at a sound place of local memory writes the operation's result over the old value there; where
no later task has read the line (those that have abort), and the word is the only one in motion, it gives the old
value to exactly the registers of A that await it, gives the word's tokens, and finishes the word; REDUCTION_PERFORM
of a ready reduction writes its operation's result at the place; COMBINE marks two ready reductions of one window
address and operation as one. On w-bit values an atomic writes the wrapped sum, the bitwise and, or and exclusive or,
the signed or unsigned lesser or greater, or the operand; a compare-and-swap writes the operand exactly when the old
value equals the comparand and otherwise writes nothing; and every atomic returns the old value, zero-extended. -/
def Obligations.AtomicsFences : Prop :=
  ((∀ (t : Tok) (op : AmoOp) (rop : RedOp) (d : Dst) (a b cmp : Src) (x : AmoExt) (mask : BitVec 16) (sc : Scope)
        (off : BitVec 29) (s : State) (c : Cell) (k : Task) (q : Clk) (u v w : Word64) (p : Page) (r : MemRef), Ready .a t s c k →
        let s1 := s.cachePage k.ctx s.cur.cell p
        (c.scWait = none → Publishes s k → (r.rwin && s.switchDue k.ctx) = false → ∃ s2, s1.publishFirst k = .ok s2 ∧
          let waits (op : Option AmoOp) (y z : Word64) (d : Option Dst) : State := (s2.updHere fun c' => { c' with
            scWait := some ⟨t, 2, some ⟨r, op, y, z, x, d, q⟩, none⟩ }).noteWait .a .plain
          (Present .a s c k [a, b] q none → srcVals .a c [a, b] = [u, v] →
            (Allowed s k s.cur.cell u (if x.wide then 8 else 4) x.cls .atomic p r →
              (x.sc = false → exec (.amo t op d a b x) s = .next (s2.retireFly c k t 2
                (.atomic r (some op) v 0 x) [] [] (pendResult d q c.nextFly))) ∧
              (x.sc = true → exec (.amo t op d a b x) s = .next (waits (some op) v 0 (some d)))) ∧
            (Allowed s k s.cur.cell u (if x.wide then 8 else 4) x.cls .red p r →
              (x.sc = false → exec (.ared t rop a b x) s =
                .next ((({ s2 with reds := s2.reds ++ [(⟨k.ctx, s.cur.cell, k.id, c.nextFly, c.core.pc.a, r, rop, v, x, none⟩ : Red)] }
                  : State).frontierDone k.id).retireFly c k t 2 .done [] [] {})) ∧
              (x.sc = true → exec (.ared t rop a b x) s = .next (waits (some (redAmo rop)) v 0 none)))) ∧
          (Present .a s c k [a, b, cmp] q none → srcVals .a c [a, b, cmp] = [u, v, w] →
            Allowed s k s.cur.cell u (if x.wide then 8 else 4) x.cls .atomic p r →
            (x.sc = false → exec (.amoCas t d a b cmp x) s =
              .next (s2.retireFly c k t 2 (.atomic r none v w x) [] [] (pendResult d q c.nextFly))) ∧
            (x.sc = true → exec (.amoCas t d a b cmp x) s = .next (waits none v w (some d))))) ∧
        (c.scWait = none → s.atPour k = true → ReadsAs .a s c k q a → ReadsAs .a s c k q b → clkOn c.core q = false →
          clkBad c.core q = false →
          exec (.amo t op d a b x) s = .next (finish .a s c k t (c.core.pc.a + 2) { drop := some { val := 0, tag := q } }) ∧
          exec (.ared t rop a b x) s = .next (finish .a s c k t (c.core.pc.a + 2) {})) ∧
        (c.scWait = none → s.atPour k = false → s.abortsInstead k .pourLine = false → ∀ i ∈ [Instr.amo t op d a b x,
          .amoCas t d a b cmp x, .ared t rop a b x, .fsc t], exec i s = .next (s.noteWait .a .pourLine)) ∧
        (Present .a s c k [a] q none → srcVals .a c [a] = [u] →
          (canonical u = true → s.pageOf k.ctx s.cur.cell u = .ok p → exec (.pref t a) s =
            .next (finish .a s1 c k t (c.core.pc.a + 1) {})) ∧
          (canonical (u + off.signExtend 64) = true → s.pageOf k.ctx s.cur.cell (u + off.signExtend 64) = .ok p →
            exec (.prefExt t a off) s = .next (finish .a s1 c k t (c.core.pc.a + 2) {})) ∧
          (canonical u = false → exec (.pref t a) s = .next (finish .a s c k t (c.core.pc.a + 1) {})) ∧
          (∀ e, s.pageOf k.ctx s.cur.cell u = .error e → exec (.pref t a) s = .next (finish .a s c k t (c.core.pc.a + 1) {}))) ∧
        (exec (.fcls t 0 sc) s = .next (s.raiseAt .a c k .illegalWord 0 0 0)) ∧
        (mask ≠ 0 → (∀ f ∈ c.fly, inMask mask (c.flyCls f) = false) →
          (∀ y ∈ s.reds, y.ctx = k.ctx → y.cell = s.cur.cell → mask.getLsbD y.r.cls.val = false) →
          exec (.fcls t mask sc) s = .next (finish .a s c k t (c.core.pc.a + 1) {})) ∧
        (mask ≠ 0 → (∃ f ∈ c.fly, inMask mask (c.flyCls f) = true) → exec (.fcls t mask sc) s = .next (s.noteWait .a .plain)) ∧
        (c.scWait = none → Publishes s k → ∃ s2, s.publishFirst k = .ok s2 ∧
          let u := (s2.updHere fun c' => { c' with scWait := some ⟨t, 1, none, none⟩ }).noteWait .a .plain
          exec (.fsc t) s = .next u)) ∧
      (∀ (x cell n : Nat) (s : State) (pr : Part) (c : Cell) (k : Task) (t : Tok), s.partOfCtx x = some (n, pr) →
        s.slotWaits x cell = some (c, k, ⟨t, 1, none, none⟩) → k.ctx = x → s.slotOpen pr = true →
        (s.slotTurns x pr).head? = some cell → c.fly = [] → (∀ q ∈ s.reds, ¬(q.ctx = x ∧ q.cell = cell ∧ q.task = k.id)) →
        s.slotBehind cell ⟨t, 1, none, some s.cycle⟩ = false →
        exec (.scSlot x cell) s = .next (finish .a (((({ s with parts := mset s.parts n { pr with scLast := cell, scCycle := s.cycle + 1 } }
          : State).goTo x cell).putHere { c with scWait := none }).frontierDone k.id) { c with scWait := some ⟨t, 1, none, some s.cycle⟩ }
            k t (c.core.pc.a + 1) {})) ∧
      (∀ (x cell n m : Nat) (s : State) (pr : Part) (c : Cell) (k : Task) (t : Tok) (r : MemRef) (op : Option AmoOp) (b cmp : Word64)
        (e : AmoExt) (d : Option Dst) (q : Clk), s.partOfCtx x = some (n, pr) →
        s.slotWaits x cell = some (c, k, ⟨t, 2, some ⟨r, op, b, cmp, e, d, q⟩, some m⟩) → k.ctx = x → c.fly = [] →
        (∀ y ∈ s.reds, ¬(y.ctx = x ∧ y.cell = cell ∧ y.task = k.id)) → s.linked r.pa = true →
        (e.scope = .dom ∨ e.scope = .sys → s.putsOpen x = false) →
        s.slotBehind cell ⟨t, 2, some ⟨r, op, b, cmp, e, d, q⟩, some m⟩ = false → Sound s r →
        (∀ k', s.getTask k.id = some k' → s.conflicts k' [r.pa / 64] = []) →
        let w := if e.wide then 64 else 32
        let old : BitVec w := BitVec.ofNat w (leNat (readBytes s.mem r.pa r.size))
        let v : SVal := { val := old.setWidth 64, tag := q }
        ∃ u c', exec (.scSlot x cell) s = .next u ∧ u.getCell x cell = some c' ∧ c'.scWait = none ∧
          c'.core.pc = { c.core.pc with a := c.core.pc.a + 2 } ∧ c'.core.toks = tokGive (tokTake c.core.toks .a t) .a t ∧
          c'.core.cremaA = (if d.isSome then (v :: c.core.cremaA).take 16 else c.core.cremaA) ∧
          c'.core.aregs = (match d with | some (.reg j) => c.core.aregs.set j v | _ => c.core.aregs) ∧
          u.mem = (match amoWrite op w old (b.setWidth w) (cmp.setWidth w) with
            | some y => (s.writeLine x (r.pa / 64) (lineOf (r.pa % 64) (leBytes y.toNat (w / 8))).1
              (lineOf (r.pa % 64) (leBytes y.toNat (w / 8))).2).mem
            | none => s.mem)) ∧
      (∀ (x cell id : Nat) (s : State) (c : Cell) (k : Task) (f : Fly) (r : MemRef) (op : Option AmoOp) (b cmp : Word64)
        (e : AmoExt), s.flyOf x cell id = some (c, k, f) → k.ctx = x → f.op = .atomic r op b cmp e → s.mayPerform x cell c f = true →
        Sound s r → Memory.wf s.mem = true →
        let w := if e.wide then 64 else 32
        let old : BitVec w := BitVec.ofNat w (leNat (readBytes s.mem r.pa r.size))
        (∃ u, exec (.atomicPerform x cell id) s = .next u ∧
          u.mem = (match amoWrite op w old (b.setWidth w) (cmp.setWidth w) with
            | some y => (s.writeLine x (r.pa / 64) (lineOf (r.pa % 64) (leBytes y.toNat (w / 8))).1 (lineOf (r.pa % 64) (leBytes y.toNat (w / 8))).2).mem
            | none => s.mem)) ∧
        ((∀ k', s.getTask k.id = some k' → s.conflicts k' [r.pa / 64] = []) → c.fly = [f] → f.push = [] →
          ∃ u c', exec (.atomicPerform x cell id) s = .next u ∧ u.getCell x cell = some c' ∧ c'.fly = [] ∧
            (∀ j : Fin 16, c.core.aregs[j].pend = some id → c'.core.aregs[j].pend = none ∧ c'.core.aregs[j].val = old.setWidth 64 ∧
              c'.core.aregs[j].tag = c.core.aregs[j].tag) ∧
            (∀ j : Fin 16, c.core.aregs[j].pend ≠ some id → c'.core.aregs[j] = c.core.aregs[j]) ∧
            c'.core.toks = tokGive c.core.toks .a f.tok ∧ c'.core.sregs = c.core.sregs ∧ c'.core.pc = c.core.pc ∧
            c'.spad = c.spad ∧ c'.queues = c.queues)) ∧
      (∀ (n : Nat) (s : State) (r : Red), s.reds[n]? = some r → r.grp = none → s.redReady r = true → s.linked r.r.pa = true →
        Sound s r.r →
        let w := if r.x.wide then 64 else 32
        let y := amoNew w (redAmo r.op) (BitVec.ofNat w (leNat (readBytes s.mem r.r.pa r.r.size))) (r.b.setWidth w)
        ∃ u, exec (.reductionPerform n) s = .next u ∧ (∀ q ∈ u.reds, q ≠ r) ∧
          u.mem = (s.writeLine r.ctx (r.r.pa / 64) (lineOf (r.r.pa % 64) (leBytes y.toNat (w / 8))).1
            (lineOf (r.r.pa % 64) (leBytes y.toNat (w / 8))).2).mem) ∧
      (∀ (n m : Nat) (s : State) (a b : Red), s.reds[n]? = some a → s.reds[m]? = some b → n ≠ m → a.r.rwin = true →
        b.r.rwin = true → a.op = b.op → a.r.pa = b.r.pa → a.x.wide = b.x.wide → s.redReady a = true → s.redReady b = true →
        ∃ u, exec (.combine n m) s = .next u ∧ u.reds.length = s.reds.length ∧
          (∃ a' b', u.reds[n]? = some a' ∧ u.reds[m]? = some b' ∧ a'.grp = some s.nextId ∧ b'.grp = some s.nextId) ∧
          u.mem = s.mem)) ∧
      (∀ (w : Nat) (old b cmp : BitVec w), amoWrite (some .add) w old b cmp = some (old + b) ∧
      amoWrite (some .and) w old b cmp = some (old &&& b) ∧ amoWrite (some .or) w old b cmp = some (old ||| b) ∧
      amoWrite (some .xor) w old b cmp = some (old ^^^ b) ∧ amoWrite (some .xchg) w old b cmp = some b ∧
      amoWrite (some .min) w old b cmp = some (if b.slt old then b else old) ∧
      amoWrite (some .max) w old b cmp = some (if old.slt b then b else old) ∧
      amoWrite (some .minu) w old b cmp = some (if b.ult old then b else old) ∧
      amoWrite (some .maxu) w old b cmp = some (if old.ult b then b else old) ∧
      amoWrite none w old b cmp = (if old = cmp then some b else none) ∧
      ∀ (s s1 s2 : State) (x cell task id : Nat) (r : MemRef) (op : Option AmoOp) (y z v : Word64) (bs : List Byte), 0 < w →
        s.readHome x cell r = (s1, .ok bs) → s.performRmw x cell task id r op y z w = (s2, .ok v) →
        v = (BitVec.ofNat w (leNat bs)).setWidth 64)

/-- For the arithmetic, functions, minimum and maximum, bitwise forms, shifts and vsat of V, with and without
extension: a word whose registers share a present clock and one format that its class accepts answers the next state
in which its destination holds, element by element, the value of vecForm (written from R192, R193 and R209) in that
format with that clock; a masked word keeps or zeroes its inactive lanes (R181). An absent word only performs its
token actions and moves on. Unequal clocks hold CLOCK_MISMATCH, formats that differ or that the class does not accept
FORMAT_MISMATCH, and a poisoned register, tag or mask UNCORRECTABLE. Nothing but the destination register, the tokens
and the counter of V changes. The end of every word of V (finishV, or finishBranch of a branch) and of M (finishM)
leaves the core of its own cell as the word's own function makes it, with the word's tokens consumed and given and its
engine's counter at the word's target; the cell's scratchpad, queues, banks, buffers and all else stay, and so does
every other cell, all of memory and the rest of the machine. -/
def Obligations.VectorLanes : Prop :=
  (∀ (s : State) (c : Cell) (t : Tok) (len pc : Nat) (f : Core → Core), s.getCell s.cur.ctx s.cur.cell = some c →
        let leaves (e : Engine) (u : State) (k : Core) (at_ : Nat) : Prop :=
          (∃ c', u.getCell s.cur.ctx s.cur.cell = some c' ∧ { c' with core := c.core, waits := c.waits, safe := c.safe } = c ∧
            c'.core = { k with toks := tokGive (tokTake k.toks e t) e t, pc := k.pc.set e at_ }) ∧
          (∀ n, n ≠ cellKey s.cur.ctx s.cur.cell → mget u.cells n = mget s.cells n) ∧ { u with cells := s.cells } = s ∧
          ∀ a, readByte u.mem a = readByte s.mem a
        leaves .v (finishV s t len f) (f c.core) (c.core.pc.v + len) ∧ leaves .v (finishBranch s t pc f) (f c.core) pc ∧
          leaves .m (finishM s t len) c.core (c.core.pc.m + len)) ∧
      (∀ (c : Core) (x : VX) (old new : Row) (l : Nat), l < 64 →
        laneAt (maskRow c x old new) l = if laneOn c x l then laneAt new l else if x.z then 0 else laneAt old l) ∧
      ∀ (i : Instr) (f : VecForm) (s : State) (c : Cell) (k : Task) (q : Clk) (g : Fmt), vecForm i = some f →
        Ready .v f.tok s c k →
        (VPresent c.core (f.regs c.core) (maskUse f.x) q → InFmt c.core (f.regs c.core) g → f.ok g = true →
          ∃ row : Row, exec i s = .next (finishV s f.tok f.len fun y => y.setV (vreg c.core.vrb f.dst)
              { bits := maskRow c.core f.x c.core.vregs[vreg c.core.vrb f.dst].bits row, fmt := g, tag := q }) ∧
            ∀ j, j < fmtCount (f.view g) →
              elemAt (f.view g) row j = f.val g (f.elems c.core g j) % 2 ^ fmtWidth (f.view g)) ∧
        ((∀ r ∈ f.regs c.core, c.core.vregs[r].tagBad = false) →
          (∃ r ∈ f.regs c.core, ∃ r' ∈ f.regs c.core, c.core.vregs[r].tag ≠ c.core.vregs[r'].tag) →
          exec i s = .next (s.raiseAt .v c k .clockMismatch 0 0 0)) ∧
        ((∃ r ∈ f.regs c.core, c.core.vregs[r].tagBad = true) → exec i s = .next (s.raiseAt .v c k .uncorrectable 0 0 0)) ∧
        ((∀ r ∈ f.regs c.core, c.core.vregs[r].tag = q ∧ c.core.vregs[r].tagBad = false) → clkBad c.core q = false →
          ((∀ g', InFmt c.core (f.regs c.core) g' → f.ok g' = false) →
            exec i s = .next (s.raiseAt .v c k .formatMismatch 0 0 0)) ∧
          (InFmt c.core (f.regs c.core) g → f.ok g = true →
            (clkOn c.core q = false → exec i s = .next (finishV s f.tok f.len id)) ∧
            (clkOn c.core q = true → ((∃ r ∈ f.regs c.core, c.core.vregs[r].bad ≠ 0) ∨
                ∃ m ∈ maskUse f.x, c.core.masks[m].bad ≠ 0) →
              exec i s = .next (s.raiseAt .v c k .uncorrectable 0 0 0))))

/-- vmov, vshuf, vperm, vrot and vbcast, with a present shared clock, give each element of the destination from the
place that moveForm names (written from R198 and R199), in the source's format; the index register needs only the
clock. vsel takes each lane from va where the mask's bit is 1 and from vb elsewhere. vcmp sets the mask bit of each
active lane to whether the relation holds for every element of the lane, and keeps or zeroes the bits of inactive
lanes. -/
def Obligations.VectorMoves : Prop :=
  (∀ (i : Instr) (f : MoveForm) (s : State) (c : Cell) (k : Task) (q : Clk) (g : Fmt), moveForm i = some f →
        Ready .v f.tok s c k → VPresent c.core (f.data c.core ++ f.ix.map (vreg c.core.vrb)) (maskUse f.x) q →
        (InFmt c.core (f.data c.core) g →
          ∃ row : Row, exec i s = .next (finishV s f.tok f.len fun y => y.setV (vreg c.core.vrb f.dst)
              { bits := maskRow c.core f.x c.core.vregs[vreg c.core.vrb f.dst].bits row, fmt := g, tag := q }) ∧
            ∀ j, j < fmtCount f.view → elemAt f.view row j = elemAt f.view c.core.vregs[vreg c.core.vrb f.src].bits
              (f.pick c.core.vregs[(f.ix.map (vreg c.core.vrb)).headD 0].bits j)) ∧
        ((∀ g', ¬ InFmt c.core (f.data c.core) g') → exec i s = .next (s.raiseAt .v c k .formatMismatch 0 0 0))) ∧
      ∀ (t : Tok) (cc : VCmpOp) (m : MaskReg) (d a b : VReg) (x : VX) (i : Instr) (len : Nat) (s : State) (c : Cell) (k : Task)
        (q : Clk) (g : Fmt) (u v : Row), Ready .v t s c k →
        u = c.core.vregs[vreg c.core.vrb a].bits → v = c.core.vregs[vreg c.core.vrb b].bits →
        InFmt c.core [vreg c.core.vrb a, vreg c.core.vrb b] g →
        (VPresent c.core [vreg c.core.vrb a, vreg c.core.vrb b] [m] q → ∃ row : Row,
          exec (.vsel t m d a b) s = .next (finishV s t 1 fun y => y.setV (vreg c.core.vrb d) { bits := row, fmt := g, tag := q }) ∧
          ∀ l, l < 64 → laneAt row l = if c.core.masks[m].bits.getLsbD l then laneAt u l else laneAt v l) ∧
        (VPresent c.core [vreg c.core.vrb a, vreg c.core.vrb b] (maskUse x ++ if x.msk && !x.z then [m] else []) q → isArith g = true →
          (i = .vcmp t cc m a b ∧ len = 1 ∧ x = noVX ∨ i = .vcmpExt t cc m a b x ∧ len = 2) → ∃ r : BitVec 64,
          exec i s = .next (finishV s t len fun y => { y with masks := y.masks.set m { bits := r } }) ∧
          ∀ l, l < 64 → r.getLsbD l = if laneOn c.core x l then
              (List.range (32 / fmtWidth g)).all fun j =>
                cmpElem g cc (elemAt g u (32 / fmtWidth g * l + j)) (elemAt g v (32 / fmtWidth g * l + j))
            else if x.z then false else c.core.masks[m].bits.getLsbD l)

/-- With a present clock and an arithmetic format: vred leaves the reduction of the elements, the identity in place of
inactive ones, in element 0 and zeros elsewhere; vscan leaves the inclusive prefix sums, exact and then narrowed for
integers and rounded at each sum for floats, under its mask; vsort leaves the active elements in order, equal ones by
place, and zeros after them; vtopk leaves the IDX + 1 greatest active elements in vd and their places in vd + 1 as
INT32, all ones past the last. -/
def Obligations.VectorOrder : Prop :=
  ∀ (t : Tok) (r : VRedOp) (asc : Bool) (d a : VReg) (x : VX) (i : Instr) (len : Nat) (s : State) (c : Cell) (k : Task) (q : Clk)
      (g : Fmt) (u : Row), Ready .v t s c k → u = c.core.vregs[vreg c.core.vrb a].bits → isArith g = true →
      VPresent c.core [vreg c.core.vrb a] (maskUse x) q → InFmt c.core [vreg c.core.vrb a] g →
      ((i = .vred t r d a ∧ len = 1 ∧ x = noVX ∨ i = .vredExt t r d a x ∧ len = 2) → ∃ row : Row,
        exec i s = .next (finishV s t len fun y => y.setV (vreg c.core.vrb d) { bits := row, fmt := g, tag := q }) ∧
        elemAt g row 0 = reduceElems r g x.rm x.ns ((List.range (fmtCount g)).map fun j =>
          if laneOn c.core x (j * fmtWidth g / 32) then elemAt g u j else redIdentity r g) % 2 ^ fmtWidth g ∧
        ∀ j, 0 < j → j < fmtCount g → elemAt g row j = 0) ∧
      (VPresent c.core (VecForm.regs ⟨t, len, d, [a], false, x, isArith, id, fun _ _ => 0⟩ c.core) (maskUse x) q →
        InFmt c.core (VecForm.regs ⟨t, len, d, [a], false, x, isArith, id, fun _ _ => 0⟩ c.core) g →
        (i = .vscan t d a ∧ len = 1 ∧ x = noVX ∨ i = .vscanExt t d a x ∧ len = 2) → ∃ row : Row,
        exec i s = .next (finishV s t len fun y => y.setV (vreg c.core.vrb d)
          { bits := maskRow c.core x c.core.vregs[vreg c.core.vrb d].bits row, fmt := g, tag := q }) ∧
        ∀ es, es = ((List.range (fmtCount g)).map fun j =>
            if laneOn c.core x (j * fmtWidth g / 32) then elemAt g u j else redIdentity .add g) →
          ∀ j, j < fmtCount g → elemAt g row j = (if isInt g then narrowInt g x.ns (((es.take (j + 1)).map (intElem g)).sum)
            else (es.take (j + 1)).foldl (addElem g x.rm false) (redIdentity .add g)) % 2 ^ fmtWidth g) ∧
      ((i = .vsort t asc d a ∧ len = 1 ∧ x = noVX ∨ i = .vsortExt t asc d a x ∧ len = 2) → ∃ (row : Row) (l : List (Nat × Nat)),
        Ranked c.core x g asc u l ∧
        exec i s = .next (finishV s t len fun y => y.setV (vreg c.core.vrb d) { bits := row, fmt := g, tag := q }) ∧
        ∀ j, j < fmtCount g → elemAt g row j = ((l[j]?).map Prod.snd).getD 0) ∧
      ∃ (row ix : Row) (l : List (Nat × Nat)), Ranked c.core x g false u l ∧
        exec (.vtopk t d a x) s = .next (finishV s t 2 fun y => (y.setV (vreg c.core.vrb d) { bits := row, fmt := g, tag := q }).setV
          (vreg c.core.vrb (d + 1)) { bits := ix, fmt := .int32, tag := q }) ∧
        (∀ j, j < fmtCount g → elemAt g row j = (((l.take (x.idx.val + 1))[j]?).map Prod.snd).getD 0) ∧
        ∀ j, j < 64 → laneAt ix j = (((l.take (x.idx.val + 1))[j]?).map Prod.fst).getD 0xFFFFFFFF

/-- vcvt, vpack, vunpk and vunpk4, with a present shared clock and formats that R205, R207 and R208 accept, convert to
the extension's format the code that convForm names for each element, zeros past the last, under their mask; vcvt to
FP4 leaves the codes of each block of eight in vd and its scale in vd + 1 as E3M5; formats that are not accepted hold
FORMAT_MISMATCH. A present vfmt changes the format of its register and nothing else, an absent one nothing. -/
def Obligations.VectorConvert : Prop :=
  (∀ (i : Instr) (f : ConvForm) (s : State) (c : Cell) (k : Task) (q : Clk) (g : Fmt) (keep : List (Fin 32)),
        convForm i = some f → Ready .v f.tok s c k → f.x.fmt ≠ .fp4 ∨ (∀ t d a x, i ≠ .vcvt t d a x) →
        keep = (if f.x.msk && !f.x.z then [vreg c.core.vrb f.dst] else []) →
        VPresent c.core (f.srcs.map (vreg c.core.vrb) ++ keep) (maskUse f.x) q → InFmt c.core (f.srcs.map (vreg c.core.vrb)) g →
        (f.ok g = true → convFmt g = true → convFmt f.x.fmt = true → InFmt c.core keep f.x.fmt → ∃ row : Row,
          exec i s = .next (finishV s f.tok 2 fun y => y.setV (vreg c.core.vrb f.dst)
            { bits := maskRow c.core f.x c.core.vregs[vreg c.core.vrb f.dst].bits row, fmt := f.x.fmt, tag := q }) ∧
          ∀ j, j < fmtCount f.x.fmt → elemAt f.x.fmt row j =
            match f.code g (f.srcs.map fun r => c.core.vregs[vreg c.core.vrb r].bits) j with
            | some e => convert f.x.fmt f.x.rm f.x.ns (elemVal g e) % 2 ^ fmtWidth f.x.fmt
            | none => 0) ∧
        (f.ok g = false ∨ convFmt g = false ∨ convFmt f.x.fmt = false →
          exec i s = .next (s.raiseAt .v c k .formatMismatch 0 0 0))) ∧
      (∀ (t : Tok) (d a : VReg) (x : VX) (s : State) (c : Cell) (k : Task) (q : Clk) (g : Fmt) (u : Row), Ready .v t s c k →
        x.fmt = .fp4 → VPresent c.core [vreg c.core.vrb a] [] q → InFmt c.core [vreg c.core.vrb a] g → convFmt g = true →
        u = c.core.vregs[vreg c.core.vrb a].bits → ∃ codes scales : Row,
        exec (.vcvt t d a x) s = .next (finishV s t 2 fun y => (y.setV (vreg c.core.vrb d) { bits := codes, fmt := .fp4, tag := q }).setV
          (vreg c.core.vrb (d + 1)) { bits := scales, fmt := .e3m5, tag := q }) ∧
        ∀ b, b < fmtCount g / 8 → ∀ qs, qs = quantFp4 x.rm ((List.range 8).map fun i => elemVal g (elemAt g u (8 * b + i))) →
          (∀ i, i < 8 → elemAt .fp4 codes (8 * b + i) = qs.1.getD i 0 % 16) ∧ elemAt .e3m5 scales b = qs.2 % 256) ∧
      ∀ (t : Tok) (d : VReg) (h : Fmt) (s : State) (c : Cell) (k : Task) (v : VVal), Ready .v t s c k →
        v = c.core.vregs[vreg c.core.vrb d] →
        (OnClock c.core v.tag → v.tagBad = false → exec (.vfmt t d h) s =
          .next (finishV s t 1 fun y => y.setV (vreg c.core.vrb d) { bits := v.bits, fmt := h, tag := v.tag, bad := v.bad })) ∧
        (clkOn c.core v.tag = false → clkBad c.core v.tag = false → v.tagBad = false →
          exec (.vfmt t d h) s = .next (finishV s t 1 id))

/-- vld of a row of the input half that is neither lent nor poisoned leaves its 256 bytes in vd, in vd's format, on
k0; a present vst of a row of the output half writes the register's bytes there and no other byte of the scratchpad, a
speculative task with room keeping the old units first. A present vpop, whose queue's head has its clock and is a
vector, leaves the converted entry in vd and removes it, vmovs puts a scalar entry's low 32 bits into one lane; a
present vpush and vext deposit the register, or a lane (sign-extended from INT32), with its clock. vacc reads a row of
a held bank as FP32 on k0, and a present FP32 vaccw writes one, a speculative task keeping the bank's image first; the
absent forms only move on. A row of vld or of a present vst outside its half, or a bank of vacc or of a present vaccw
that the group does not hold, holds PROTECTION; a lent row OPERAND_BUSY; a queue that V may not push (vpush, vext,
mpop) or pop (vpop, vmovs) ILLEGAL_WORD. -/
def Obligations.VectorMemory : Prop :=
  (∀ (x : Row) (m : Memory) (off a : Nat), rowOfBytes (rowBytes x) = x ∧ (Memory.wf m = true →
        readBytes (writeBytes m off (rowBytes x)) off 256 = rowBytes x ∧
        ((a < off ∨ off + 256 ≤ a) → readByte (writeBytes m off (rowBytes x)) a = readByte m a))) ∧
      (∀ (m : AMap Row) (i j : Nat) (x : Row), m.Pairwise (fun p q => p.1 < q.1) →
        (mget (setRow m i x) j).getD 0 = if j = i then x else (mget m j).getD 0) ∧
      ∀ (t : Tok) (d : VReg) (qn : QNum) (kx : Clk) (n : Fin 64) (row : BitVec 12) (bank : Fin 128) (r8 : Fin 8) (s : State)
        (c : Cell) (k : Task) (v : VVal) (rd : Fin 32) (off : Nat) (raw e : QEntry), Ready .v t s c k → k.ctx = s.cur.ctx → v.tagBad = false →
        rd = vreg c.core.vrb d → v = c.core.vregs[rd] → off = 256 * row.toNat →
        (inHalf c.core.phase false off 256 = true → c.lentOut false off 256 = false → c.badWords off 256 = [] →
          exec (.vld t d row) s = .next (finishV s t 1 fun y => y.setV rd
            { bits := rowOfBytes (readBytes c.spad off 256), fmt := v.fmt, tag := 0 })) ∧
        (inHalf c.core.phase false off 256 = false → exec (.vld t d row) s = .next (s.raiseAt .v c k .protection 0 0 0)) ∧
        (inHalf c.core.phase false off 256 = true → c.lentOut false off 256 = true →
          exec (.vld t d row) s = .next (s.raiseAt .v c k .operandBusy 0 0 0)) ∧
        (OnClock c.core v.tag → v.bad = 0 → inHalf c.core.phase true off 256 = true → c.lentOut true off 256 = false →
          s.specOf k.id = false → s.laterWriters k.ctx k.inst k.stage s.cur.cell (s.getTask k.id) (unitsOf off 256) = [] →
          exec (.vst t d row) s = .next (finishV (s.putHere (c.spadWrite off (rowBytes v.bits))) t 1 id)) ∧
        (OnClock c.core v.tag → v.bad = 0 → inHalf c.core.phase true off 256 = true → c.lentOut true off 256 = false →
          s.specOf k.id = true → s.laterWriters k.ctx k.inst k.stage s.cur.cell (s.getTask k.id) (unitsOf off 256) = [] →
          c.bufRoom (72 * (c.unrecorded k.id (unitsOf off 256)).length) = true →
          exec (.vst t d row) s = .next (finishV (s.putHere ((c.recordUnits k.id (unitsOf off 256)).spadWrite off (rowBytes v.bits))) t 1 id)) ∧
        (∀ s1, OnClock c.core v.tag → v.bad = 0 → s.spadClaim k.ctx k.inst k.stage s.cur.cell k.id (unitsOf off 256) = .ok s1 →
          (inHalf c.core.phase true off 256 = false → exec (.vst t d row) s = .next (s.raiseAt .v c k .protection 0 0 0)) ∧
          (inHalf c.core.phase true off 256 = true → c.lentOut true off 256 = true →
            exec (.vst t d row) s = .next (s.raiseAt .v c k .operandBusy 0 0 0))) ∧
        (clkOn c.core v.tag = false → clkBad c.core v.tag = false → exec (.vst t d row) s = .next (finishV s t 1 id)) ∧
        (s.popAssigned k s.cur.cell .v qn.val = true → Poppable s k c s.cur.cell qn.val raw →
          RecordRoom c (s.popBytes k raw) →
          (OnClock c.core kx → raw.clk = kx → raw.vec = true → popConvert c.core.qpopFmt[qn] raw = .ok e →
            exec (.vpop t d qn kx) s = .next (finishV (s.popTake k s.cur.cell qn.val) t 1 fun y =>
              y.setV rd { bits := e.val, fmt := e.fmt, tag := kx })) ∧
          (OnClock c.core v.tag → v.bad = 0 → raw.clk = v.tag → raw.vec = false →
            popConvert c.core.qpopFmt[qn] raw = .ok e → ∃ b : Row,
            exec (.vmovs t d qn n) s = .next (finishV (s.popTake k s.cur.cell qn.val) t 2 fun y =>
              y.setV rd { bits := b, fmt := v.fmt, tag := v.tag }) ∧
            ∀ l, l < 64 → laneAt b l = if l = n.val then e.val.toNat % 2 ^ 32 else laneAt v.bits l)) ∧
        (s.popAssigned k s.cur.cell .v qn.val = true → clkOn c.core kx = false → clkBad c.core kx = false →
          exec (.vpop t d qn kx) s = .next (finishV s t 1 id)) ∧
        (s.pushAssigned k s.cur.cell .v qn.val = true → OnClock c.core v.tag → v.bad = 0 →
          (s.pushRoom k s.cur.cell qn.val 272 = .ok () →
            (c.core.qpushFmt[qn].getLsbD 4 = true → v.fmt = fmtOf (c.core.qpushFmt[qn].toNat % 16)) →
            exec (.vpush t qn d) s = .next ((finishV s t 1 id).deposit k s.cur.cell qn.val .v
              { vec := true, val := v.bits, clk := v.tag, fmt := v.fmt, inst := k.ts / 65536 })) ∧
          (s.pushRoom k s.cur.cell qn.val 16 = .ok () →
            exec (.vext t qn d n) s = .next ((finishV s t 2 id).deposit k s.cur.cell qn.val .v
              { val := (if v.fmt = .int32 then (BitVec.ofNat 32 (laneAt v.bits n.val)).signExtend 64
                  else BitVec.ofNat 64 (laneAt v.bits n.val)).setWidth 2048,
                clk := v.tag, fmt := fmtOf (c.core.qpushFmt[qn].toNat % 16), inst := k.ts / 65536 }))) ∧
        (s.pushAssigned k s.cur.cell .v qn.val = false → ∀ i ∈ [Instr.vpush t qn d, .vext t qn d n, .mpop t qn (Fin.ofNat 8 r8.val)],
          exec i s = .next (s.raiseAt .v c k .illegalWord 0 0 0)) ∧
        (s.popAssigned k s.cur.cell .v qn.val = false → ∀ i ∈ [Instr.vpop t d qn kx, .vmovs t d qn n],
          exec i s = .next (s.raiseAt .v c k .illegalWord 0 0 0)) ∧
        (c.coveredBanks.getLsbD bank.val = false →
          (c.core.bankMap.getLsbD bank.val = true →
            ((∀ w ∈ c.accBad, w / 64 ≠ 8 * bank.val + r8.val) → exec (.vacc t d bank r8) s = .next (finishV s t 1 fun y =>
              y.setV rd { bits := (mget c.banks (8 * bank.val + r8.val)).getD 0, fmt := .fp32, tag := 0 })) ∧
            (OnClock c.core v.tag → v.fmt = .fp32 → v.bad = 0 → mget c.undoImgs bank.val = none →
              exec (.vaccw t d bank r8) s = .next (finishV (s.updHere fun y => { y with
                banks := setRow y.banks (8 * bank.val + r8.val) v.bits
                accBad := y.accBad.filter fun w => w / 64 != 8 * bank.val + r8.val
                undoImgs := if s.atPour k then y.undoImgs
                  else mset y.undoImgs bank.val ⟨k.ts / 65536, k.id, bankRows c.banks bank.val⟩ }) t 1 id)) ∧
            (clkOn c.core v.tag = false → clkBad c.core v.tag = false → v.fmt = .fp32 → exec (.vaccw t d bank r8) s = .next (finishV s t 1 id))) ∧
          (c.core.bankMap.getLsbD bank.val = false →
            exec (.vacc t d bank r8) s = .next (s.raiseAt .v c k .protection 0 0 0) ∧
            (OnClock c.core v.tag → v.fmt = .fp32 → v.bad = 0 → mget c.undoImgs bank.val = none →
              exec (.vaccw t d bank r8) s = .next (s.raiseAt .v c k .protection 0 0 0))))

/-- vwhen carries a vector of an ancestor clock onto the present clock k, vmerge gives the operand whose complementary
clock is true with the parent's tag, vdly gives the slot's previous register (its initial element in every place when
the slot is not yet bound) and stores the new one with its format and clock. mand, mor and mnot combine masks, mset
sets the first n lanes, mpop pushes the count of ones on k0. vrb sets the base and size with no rotation; vloop takes
one from the count (0 stays 0), rotates the base by one, and goes to PC + off while the count is not 0; vbr goes there
when no lane (or some lane) of its mask is set; an untaken vbr and an ending vloop move on whatever their target is
(the model's reading, log entry 77). Nothing else changes. -/
def Obligations.VectorControl : Prop :=
  (∀ (t : Tok) (d a b : VReg) (q : Clk) (slot : Fin 64) (s : State) (c : Cell) (k : Task) (x y : VVal) (p : DelaySlot),
        Ready .v t s c k → x = c.core.vregs[vreg c.core.vrb a] → y = c.core.vregs[vreg c.core.vrb b] →
        p = c.core.delays[slot] → x.bad = 0 → x.tagBad = false → y.tagBad = false → p.tagBad = false →
        (clkOn c.core q = true → isAncestor c.core x.tag 16 q = true → chainBad c.core x.tag 16 q = false → exec (.vwhen t d a q) s = .next (finishV s t 1 fun z =>
          z.setV (vreg c.core.vrb d) { bits := x.bits, fmt := x.fmt, tag := q })) ∧
        ((clkDef c.core q = false ∨ isAncestor c.core x.tag 16 q = false) → chainBad c.core x.tag 16 q = false →
          exec (.vwhen t d a q) s = .next (s.raiseAt .v c k .clockMismatch 0 0 0)) ∧
        (x.tag ≠ y.tag → clkDef c.core x.tag = true → clkDef c.core y.tag = true → c.core.clks[x.tag].parent = q →
          c.core.clks[y.tag].parent = q → c.core.clks[x.tag].pol = !c.core.clks[y.tag].pol →
          c.core.clks[x.tag].val = !c.core.clks[y.tag].val → OnClock c.core q → clkBad c.core x.tag = false →
          clkBad c.core y.tag = false → x.fmt = y.fmt → y.bad = 0 →
          exec (.vmerge t d a b) s = .next (finishV s t 1 fun z => z.setV (vreg c.core.vrb d)
            { bits := if c.core.clks[x.tag].val then x.bits else y.bits, fmt := x.fmt, tag := q })) ∧
        (OnClock c.core x.tag → p.wrote = false → p.bad = 0 → (p.bnd = false → p.fmt ≠ .int64) →
          (p.bnd = true → p.cb = x.tag ∧ p.fmt = x.fmt) → ∃ row : Row,
          exec (.vdly t d a slot) s = .next (finishV s t 2 fun z => { z.setV (vreg c.core.vrb d) { bits := row, fmt := p.fmt, tag := x.tag }
            with delays := z.delays.set slot { bits := x.bits, fmt := x.fmt, cb := x.tag, bnd := true, wrote := true } }) ∧
          (p.bnd = true → row = p.bits) ∧
          (p.bnd = false → ∀ j, j < fmtCount p.fmt → elemAt p.fmt row j = p.bits.toNat % 2 ^ fmtWidth p.fmt)) ∧
        (OnClock c.core x.tag → p.wrote = true → p.bnd = true → p.cb = x.tag → p.fmt = x.fmt →
          exec (.vdly t d a slot) s = .next (s.raiseAt .v c k .clockRedef 0 0 0))) ∧
      ∀ (t : Tok) (md ma mb : MaskReg) (n : Fin 128) (qn : QNum) (base size : Fin 32) (o14 : BitVec 14) (o15 : BitVec 15)
        (none_ : Bool) (s : State) (c : Cell) (k : Task) (u v : BitVec 64) (pc : Nat), Ready .v t s c k →
        u = c.core.masks[ma].bits → v = c.core.masks[mb].bits → c.core.masks[ma].bad = 0 → c.core.masks[mb].bad = 0 →
        exec (.mand t md ma mb) s = .next (finishV s t 1 fun z => { z with masks := z.masks.set md { bits := u &&& v } }) ∧
        exec (.mor t md ma mb) s = .next (finishV s t 1 fun z => { z with masks := z.masks.set md { bits := u ||| v } }) ∧
        exec (.mnot t md ma) s = .next (finishV s t 1 fun z => { z with masks := z.masks.set md { bits := ~~~u } }) ∧
        (∃ r : BitVec 64, exec (.mset t md n) s = .next (finishV s t 1 fun z => { z with masks := z.masks.set md { bits := r } }) ∧
          ∀ l, l < 64 → r.getLsbD l = decide (l < n.val)) ∧
        (s.pushAssigned k s.cur.cell .v qn.val = true → s.pushRoom k s.cur.cell qn.val 16 = .ok () →
          exec (.mpop t qn ma) s = .next ((finishV s t 1 id).deposit k s.cur.cell qn.val .v
            { val := BitVec.ofNat 2048 ((List.range 64).countP fun l => u.getLsbD l)
              clk := 0, fmt := fmtOf (c.core.qpushFmt[qn].toNat % 16), inst := k.ts / 65536 })) ∧
        exec (.vrb t base size) s = .next (finishV s t 1 fun z => { z with vrb := ⟨base, size, 0, z.vrb.count⟩ }) ∧
        ((1 < c.core.vrb.count → s.target k (c.core.pc.v + o14.toInt) = .ok pc) → ∃ rot : Fin 32,
          rot.val = (c.core.vrb.rot.val + c.core.vrb.sizeM1.val) % (c.core.vrb.sizeM1.val + 1) ∧
          exec (.vloop t o14) s = .next (finishBranch s t (if 1 < c.core.vrb.count then pc else c.core.pc.v + 1) fun z =>
            { z with vrb := ⟨c.core.vrb.base, c.core.vrb.sizeM1, rot,
              if c.core.vrb.count = 0 then 0 else c.core.vrb.count - 1⟩ })) ∧
        ((decide (u = 0) = none_ → s.target k (c.core.pc.v + o15.toInt) = .ok pc) →
          exec (.vbr t ma none_ o15) s = .next (finishBranch s t (if decide (u = 0) = none_ then pc else c.core.pc.v + 1) id))

/-- mexec and mexecExt patch the template's copy once or twice and run it: null moves on, mcommit closes its batch,
mwait moves on when its batch is Idle and otherwise holds the engine for it, an unpaired command that need not wait
and may run issues even while the array is busy, has its effect when it starts and joins its batch (the model's
readings, log entries 84 and 8): at the pour line a product of sound operands leaves the product in its banks, mzero
zeros, mscale each element times its band's scale, mrest the bytes of its buffer, and none of them touches the
scratchpad; msave and mpeek leave the bytes of the banks (mpeek their settled bits) in their buffer and no other byte,
and mxpose the transposed elements in its destination, and none of them touches a bank. A paired one waits for its
twin, and has left its safe point then (R243); a copy that R53 refuses holds ILLEGAL_WORD, a poisoned template
UNCORRECTABLE after the waits and before that check (the model's reading, log entry 76), a licensed command without
the licence LICENCE_ABSENT, a bank that the group does not hold PROTECTION. A product writes each valid element by the
block-dot of its row and column, over the old value for mmul and 0 for mmulz, and keeps the others; a bank that is put
holds its new rows and the others theirs; the bytes of a bank give its rows back. ARRAY_FREE frees the array, or the
bank port, for a command whose turn it is; MATRIX_COMMAND_COMPLETE removes the oldest command of a cell and makes its
Draining batch Idle when none of its commands is left; PAIRED_RENDEZVOUS waits while a word of the pair has a wait of
step 1, starts a matching pair whose holder may run, takes ILLEGAL_WORD on both sides where the copies do not belong
together, on a side whose copy R53 refuses, and LICENCE_ABSENT on both, in that order, where neither twin holds the
licence. -/
def Obligations.Matrix : Prop :=
  (∀ (t : Tok) (n : Fin 64) (sel sel2 : Fin 8) (val val2 : BitVec 16) (i : Instr) (len : Nat) (d : BitVec 256) (s s1 : State)
        (c : Cell) (k : Task), Ready .m t s c k →
        (i = .mexec t n sel val ∧ len = 1 ∧ d = patch c.core.tmpls[n].bits sel val ∨
          i = .mexecExt t n sel val sel2 val2 ∧ len = 2 ∧ d = patch (patch c.core.tmpls[n].bits sel val) sel2 val2) →
        (mWaits s c k d = .ok () → c.core.tmpls[n].bad ≠ 0 → exec i s = .next (s.raiseAt .m c k .uncorrectable 0 0 0)) ∧
        (mWaits s c k d = .ok () → c.core.tmpls[n].bad = 0 → isPaired d = false → commandOk d = false →
          exec i s = .next (s.raiseAt .m c k .illegalWord 0 0 0)) ∧
        (c.core.tmpls[n].bad = 0 → commandOk d = true →
          (dOp d = 0 → exec i s = .next (finishM s t len)) ∧
          (dOp d = 9 → exec i s = .next (finishM (s.putHere (c.closeBatch (batchOf d))) t len)) ∧
          (dOp d = 10 → (c.closeBatch (batchOf d)).batches[batchOf d].st = .idle →
            exec i s = .next (finishM (s.putHere (c.closeBatch (batchOf d))) t len)) ∧
          (dOp d = 10 → (c.closeBatch (batchOf d)).batches[batchOf d].st ≠ .idle → ∃ c', exec i s = .next (s.putHere c') ∧
            c'.mwait = some ((batchOf d).val, t) ∧ c'.core.pc.m = c.core.pc.m + len ∧ c'.banks = c.banks) ∧
          (1 ≤ dOp d → dOp d ≤ 8 → mWaits s c k d = .ok () →
            (isPaired d = false →
              (isLicensed d = true → c.lic.held = false → exec i s = .next (s.raiseAt .m c k .licenceAbsent 0 0 0)) ∧
              ((isLicensed d = true → c.lic.held = true) →
                (s.command k s.cur.cell c d = .ok s1 → exec i s = .next (finishM (s1.startCmd k s.cur.cell c d) t len)) ∧
                (c.holdsBanks d = true → c.bankPoison d = false → k.ctx = s.cur.ctx → s.atPour k = true →
                  (∀ b : Nat, (writtenBanks d).getLsbD b = true → mget c.undoImgs b = none) →
                  (dOp d = 1 ∨ dOp d = 2 → c.readable k c.core.phase (mOperandA d) = .ok () →
                    c.readable k c.core.phase (mOperandB d) = .ok () → ∃ u y, exec i s = .next u ∧
                    u.getCell s.cur.ctx s.cur.cell = some y ∧ y.core.pc.m = c.core.pc.m + len ∧
                    y.banks = (c.multiply c.spad d d).banks ∧ y.spad = c.spad ∧ u.mem = s.mem) ∧
                  (dOp d = 3 → ∃ u y, exec i s = .next u ∧ u.getCell s.cur.ctx s.cur.cell = some y ∧
                    y.core.pc.m = c.core.pc.m + len ∧ y.spad = c.spad ∧ u.mem = s.mem ∧ y.banks =
                      ((List.range (dKsteps d)).foldl (fun (c : Cell) q => c.putBank (dBank d + q) (List.replicate 8 0)) c).banks) ∧
                  (dOp d = 4 → (dKsteps d ≠ 0 → c.readable k c.core.phase (scaleOperand d) = .ok ()) → ∃ u y, exec i s = .next u ∧
                    u.getCell s.cur.ctx s.cur.cell = some y ∧ y.core.pc.m = c.core.pc.m + len ∧ y.spad = c.spad ∧ u.mem = s.mem ∧
                    y.banks = ((List.range (dKsteps d)).foldl (fun (c : Cell) q =>
                      c.putBank (dBank d + q) (scaleBank c.spad d q (bankRows c.banks (dBank d + q)))) c).banks) ∧
                  (dOp d = 6 → (dKsteps d ≠ 0 → c.readable k c.core.phase (bankBuffer d) = .ok ()) → ∃ u y, exec i s = .next u ∧
                    u.getCell s.cur.ctx s.cur.cell = some y ∧ y.core.pc.m = c.core.pc.m + len ∧ y.spad = c.spad ∧ u.mem = s.mem ∧
                    y.banks = ((List.range (dKsteps d)).foldl (fun (c : Cell) q => c.putBank (dBank d + q)
                      (bankOfBytes 8 (readBytes c.spad (64 * dAbuf d + 2048 * q) 2048))) c).banks) ∧
                  (s.getTask k.id = some k → Memory.wf c.spad = true →
                    let stays (u : State) (y : Cell) (lo hi : Nat) : Prop := exec i s = .next u ∧
                      u.getCell s.cur.ctx s.cur.cell = some y ∧ y.core.pc.m = c.core.pc.m + len ∧ y.banks = c.banks ∧ u.mem = s.mem ∧
                      ∀ a, a < lo ∨ hi ≤ a → readByte y.spad a = readByte c.spad a
                    (dOp d = 5 ∨ dOp d = 7 → let base := 64 * dAbuf d
                      inHalf c.core.phase true base (2048 * dKsteps d) = true →
                      s.laterWriters k.ctx k.inst k.stage s.cur.cell (some k) (unitsOf base (2048 * dKsteps d)) = [] →
                      ∃ u y, stays u y base (base + 2048 * dKsteps d) ∧ ∀ q, q < dKsteps d →
                        readBytes y.spad (base + 2048 * q) 2048 =
                          bankBytes (if dOp d = 7 then c.settledRows (dBank d + q) else bankRows c.banks (dBank d + q))) ∧
                    (dOp d = 8 → fmtWidth (fmtOf (dAfmt d)) ≠ 4 → c.readable k c.core.phase (mSource d) = .ok () →
                      let o := mDest d
                      inHalf c.core.phase true o.base (o.last - o.base) = true →
                      s.laterWriters k.ctx k.inst k.stage s.cur.cell (some k) (unitsOf o.base (o.last - o.base)) = [] →
                      ∃ u y, stays u y o.base o.last ∧ ∀ e r, e < 32 * dKsteps d → r < dRows d →
                        o.code y.spad e r = (mSource d).code c.spad r e))) ∧
                (c.holdsBanks d = false → exec i s = .next (s.raiseAt .m c k .protection 0 0 0)) ∧
                (c.holdsBanks d = true → c.bankPoison d = true → exec i s = .next (s.raiseAt .m c k .uncorrectable 0 0 0)))) ∧
            (isPaired d = true → c.pair = none → ∀ g, s.groupOf k = some g →
              (g.d = 2 → exec i s = .next ((s.putHere { c with pair := some ⟨t, len, d, 0⟩, safe := false }).noteWait .m .plain)) ∧
              (g.d ≠ 2 → copyOk d = true → exec i s = .next (s.raiseAt .m c k .protection 0 0 0)))))) ∧
      (∀ (ma mb : Memory) (d bd : BitVec 256) (q r l : Nat) (old : List Row), r < 8 → l < 64 →
        laneAt ((mulBank ma mb d bd q old).getD r 0) l =
          if 4 * q + r / 2 < dRows d ∧ 64 * (r % 2) + l < dCols d then
            mDot (fun e => if dFlag d 1 then (mOperandA d).val ma e (4 * q + r / 2) else (mOperandA d).val ma (4 * q + r / 2) e)
              (fun e => if dFlag bd 2 then (mOperandB bd).val mb (64 * (r % 2) + l) e
                else (mOperandB bd).val mb e (64 * (r % 2) + l))
              (if dOp d = 2 then 0 else laneAt (old.getD r 0) l) (dKsteps d) % 2 ^ 32
          else laneAt (old.getD r 0) l) ∧
      (∀ (c : Cell) (b b' : Nat) (rows : List Row), c.banks.Pairwise (fun p q => p.1 < q.1) → rows.length = 8 →
        bankRows (c.putBank b rows).banks b' = if b' = b then rows else bankRows c.banks b') ∧
      (∀ (m : Memory) (d : BitVec 256) (q r l : Nat) (old : List Row), r < 8 → l < 64 →
        laneAt ((scaleBank m d q old).getD r 0) l = roundTo .fp32 .ne (mulVal (floatVal .fp32 (laneAt (old.getD r 0) l))
          (floatVal .bf16 (readLe m (64 * dScale d + 2 * ((4 * q + r / 2) / 64)) 2))) % 2 ^ 32) ∧
      (∀ rows : List Row, rows.length = 8 → bankOfBytes 8 (bankBytes rows) = rows) ∧
      (∀ (x cell id : Nat) (s : State) (c : Cell), s.getCell x cell = some c →
        ∃ u d, exec (.arrayFree x cell id) s = .next u ∧ u.getCell x cell = some d ∧ u.mem = s.mem ∧
          d.cmds = (if c.arrayTurn id then c.cmds.map (fun k => if k.id = id then { k with arrayBusy := false } else k)
            else c.cmds) ∧ d.banks = c.banks) ∧
      (∀ (x cell : Nat) (s : State) (c : Cell) (k : Cmd) (rest : List Cmd), s.getCell x cell = some c → c.cmds = k :: rest →
        (k.arrayBusy = true → exec (.matrixCommandComplete x cell) s = .next s) ∧
        (k.arrayBusy = false → k.partner = none →
          exec (.matrixCommandComplete x cell) s = .next ((s.updCell x cell Cell.dropCmd).afterLicensed x cell) ∧
          c.dropCmd.cmds = rest ∧ c.dropCmd.banks = c.banks ∧
          (c.batches[batchOf k.desc].st = .draining →
            (∀ m ∈ rest, m.aborted = true ∨ dOp m.desc = 7 ∨ batchOf m.desc ≠ batchOf k.desc) →
            c.dropCmd.batches[batchOf k.desc].st = .idle))) ∧
      ∀ (x cell : Nat) (s : State) (c c' : Cell) (k k' : Task) (w w' : PairWait), s.sideOf x cell .m = some (c, k) →
        s.sideOf x (twinOf cell) .m = some (c', k') → c.pair = some w → c'.pair = some w' →
        (s.pairWaits x cell c k w c' k' w' = true → exec (.pairedRendezvous x cell) s = .next s) ∧
        (s.pairWaits x cell c k w c' k' w' = false →
          (pairMatches w.desc w'.desc = false →
            exec (.pairedRendezvous x cell) s = .next (pairFault s x cell c k c' k' .illegalWord)) ∧
          (pairMatches w.desc w'.desc = true → copyOk w.desc = false →
            exec (.pairedRendezvous x cell) s = .next ((s.goTo x cell).raiseAt .m c k .illegalWord 0 0 0)) ∧
          (pairMatches w.desc w'.desc = true → copyOk w.desc = true → copyOk w'.desc = false →
            exec (.pairedRendezvous x cell) s = .next ((s.goTo x (twinOf cell)).raiseAt .m c' k' .illegalWord 0 0 0)) ∧
          (pairMatches w.desc w'.desc = true → copyOk w.desc = true → copyOk w'.desc = true → c.lic.held = false → c'.lic.held = false →
            exec (.pairedRendezvous x cell) s = .next (pairFault s x cell c k c' k' .licenceAbsent)) ∧
          (pairMatches w.desc w'.desc = true → c.lic.held = true ∨ c'.lic.held = true → dFlag w.desc 3 = true → k.ctx = x →
            copyOk w.desc = true → copyOk w'.desc = true → c.holdsBanks w.desc = true → c.bankPoison w.desc = false →
            c.readable k c.core.phase (mOperandA w.desc) = .ok () → c'.readable k' c'.core.phase (mOperandB w'.desc) = .ok () →
            (∀ b : Nat, (writtenBanks w.desc).getLsbD b = true → mget c.undoImgs b = none) →
            ∃ u z z', exec (.pairedRendezvous x cell) s = .next u ∧ u.getCell x cell = some z ∧
              u.getCell x (twinOf cell) = some z' ∧ z.banks = (c.multiply c'.spad w.desc w'.desc).banks ∧ z'.banks = c'.banks ∧
              z.pair = none ∧ z'.pair = none ∧ z.core.pc.m = c.core.pc.m + w.len ∧ z'.core.pc.m = c'.core.pc.m + w'.len))

/-- COMMIT of a task at the pour line that has ended in every cell of its group, of a Running instance whose context
may commit, publishes its lines and leaves what afterPublish says, a serial re-execution ending with it; a commit that
needs the host link for its digest waits for it (log entry 107); a digest mismatch runs the instance serially again,
or faults once it cannot; a poisoned line stops the publication with UNCORRECTABLE; lines of a peer that has not yet
checked them are asked after first (log entry 122); a task that has not ended does not commit. INSTANT_OVERRUN faults
a cell whose count has passed its stage's limit. CHECKER_MISMATCH stops its cell, leaves slot 0 Halted and the
partition wedged, and reports its fault record to every bound function, into the fault queues or held back as the host
link is up or down (that tasks go on committing meanwhile is log entry 86). SCRATCHPAD_REFETCH of units that stage
data filled writes them again, without their poison, and ends the refetch (that stage data is taken again without a
fault is the model's reading, log entry 32). PLACEMENT_STALL reports once. GROUP_PREPARED starts the cells of a group
whose preparation has passed, with the arguments in the first eight registers of C and A and zeros in the others.
INSTANCE_START makes a queued instance Running with one task for each stage. A barista's visit marks and reports the
rings that have overrun, changes no byte of memory where none has, and places the first ready task at the pour line
that fits. -/
def Obligations.TaskEvents : Prop :=
  (∀ (id : Nat) (s : State) (t : Task) (i : Inst), s.getTask id = some t → s.getInst t.ctx t.inst = some i →
        (s.taskEnded t = false → exec (.commit id) s = .next s) ∧
        (s.mayCommit t.ctx = true → s.atPour t = true → t.fault = none → s.taskEnded t = true → i.st = .running →
          (s.digestHeld i = true → s.hostUp = false ∧ exec (.commit id) s = .next s) ∧
          (∀ n cause va owner, s.digestHeld i = false → s.publish t = .error (.lines n cause va owner) →
            exec (.commit id) s = .next (s.raiseLines t n cause va owner)) ∧
          (s.digestHeld i = false → s.publish t = .error .checks → exec (.commit id) s = .next (s.checkLines t (s.linesOf t))) ∧
          (s.digestHeld i = false → LinesOut s t →
            (s.digestAt i.fn = none → ∃ s1, s.publish t = .ok s1 ∧
              exec (.commit id) s = .next ((s1.putInst { i with serial := false, mis := false }).afterPublish t (s.mayDeliver t.ctx))) ∧
            (∀ a, s.digestAt i.fn = some a → i.dmode = 2 → readBytes s.mem (hostBase + a) 32 ≠ s.digestRecord t →
              (i.mis = false → t.frontier = false → t.direct = false → exec (.commit id) s =
                .next ((s.putInst { i with serial := true, mis := true }).abortTasks
                  (((s.putInst { i with serial := true, mis := true }).tasksOf t.ctx t.inst).filter fun u => !keyLt u.key t.key))) ∧
              (i.mis = true → exec (.commit id) s = .next ((s.setReg i.fn 0x1C18 (s.reg i.fn 0x1C18 ||| 1)).holdAndSettle t.id
                { code := .digestMismatch })))))) ∧
      (∀ (x cell : Nat) (e : Engine) (s : State) (c : Cell) (t : Task) (st : Stage), (s.goTo x cell).here = some (c, t) →
        (s.stageOf t = some st → t.fault = none →
          (st.maxInstant < c.watch → ∃ pc, exec (.instantOverrun x cell) s =
            .next (s.holdAndSettle t.id { code := .instantOverrun, engine := 0, pc := pc, cell := cell })) ∧
          (c.watch ≤ st.maxInstant → exec (.instantOverrun x cell) s = .next s)) ∧
        (∀ n p, s.partOfCtx x = some (n, p) → p.slots[0].ctx = x → p.slots[0].st = .running ∨ p.slots[0].st = .halting →
          s.mayIssue x cell c t e = true →
          let pc := ((c.atWord (s.textOf t) e).map Prod.fst).getD (c.core.pc.get e)
          let rcd := faultRecord { code := .checkerMismatch, engine := engineCode e, pc := pc, cell := cell } 0 t.inst t.ts true
          ∃ (u v : State) (d : Cell) (q : Part), exec (.checkerMismatch x cell e) s = .next u ∧ u.getCell x cell = some d ∧
            d.halted = true ∧ d.core = c.core ∧ mget u.parts n = some q ∧ q.wedged = true ∧ q.slots[0].st = .halted ∧
            v.mem = s.mem ∧ (∀ fn off, off < 65536 → off ≠ 0x400 → v.reg fn off = s.reg fn off) ∧
            (s.hostUp = true → u.mem = ((s.boundFns n).foldl (fun (w : State) fn => w.queueRecord rcd fn) v).mem ∧
              u.regs = ((s.boundFns n).foldl (fun (w : State) fn => w.queueRecord rcd fn) v).regs ∧ u.heldFaults = s.heldFaults) ∧
            (s.hostUp = false → u.mem = s.mem ∧ u.heldFaults = s.heldFaults ++ (s.boundFns n).map fun fn => (fn, rcd))) ∧
        (s.moving x cell = some (c, t) → t.ctx = x → c.refetch = true → Memory.wf c.spad = true →
          (∀ w ∈ c.badWords (halfBase c.core.phase false) 0x80000, mget c.core.origins (w / 8) ≠ none →
            mget c.core.origins (w / 8) = some .stage) →
          ∃ u d, exec (.scratchpadRefetch x cell) s = .next u ∧ u.getCell x cell = some d ∧ d.refetch = false ∧ d.core = c.core ∧
            u.mem = s.mem ∧ ∀ w ∈ c.badWords (halfBase c.core.phase false) 0x80000, c.refetchable w = true →
              (∀ y ∈ d.spadBad, y / 8 ≠ w / 8) ∧ ∀ j, j < 64 → readByte d.spad (64 * (w / 8) + j) =
                (((s.stageOf t).map Stage.data).getD []).getD (64 * (w / 8) + j) 0)) ∧
      (∀ (part : Nat) (s : State) (t : Task), (s.tasks.map Prod.snd).find? (fun t =>
          !t.launched && t.group.isNone && s.atPour t && t.stall = 2 ^ 20 && !t.stallSent &&
            (match s.partOfCtx t.ctx with | some (p, _) => p = part | none => false)) = some t →
        exec (.placementStall part) s = .next ((s.updTask t.id fun u => { u with stallSent := true }).report part
          (faultRecord { code := .placementStall } 0 t.inst t.ts false))) ∧
      (∀ (gid : Nat) (s : State) (g : Group) (t : Task) (st : Stage), mget s.groups gid = some g →
        (s.tasks.map Prod.snd).find? (fun t => t.group = some gid) = some t → s.stageOf t = some st → g.st = .starting →
        g.left = 0 →
        ∃ u, exec (.groupPrepared gid) s = .next u ∧ mget u.groups gid = some { g with st := .running } ∧ u.mem = s.mem ∧
          (∀ n ∈ g.cells, ∃ c, u.getCell g.ctx n = some c ∧ c.group = some gid ∧ c.task = some t.id ∧
            c.core.pc = ⟨(s.entryOf t st).1, (s.entryOf t st).1, (s.entryOf t st).1, (s.entryOf t st).1⟩ ∧
            c.spad = writeBytes [] 0 st.data ∧ ∀ j : Fin 16,
              c.core.sregs[j] = { val := if j.val < 8 then (s.entryOf t st).2.getD j.val 0 else 0 } ∧
              c.core.aregs[j] = { val := if j.val < 8 then (s.entryOf t st).2.getD j.val 0 else 0 }) ∧
          ∀ n, n ∉ g.cells → u.getCell g.ctx n = s.getCell g.ctx n) ∧
      (∀ (x inst n : Nat) (s : State) (i : Inst) (p : Part) (k : Kernel), s.getInst x inst = some i →
        s.partOfCtx x = some (n, p) → s.getKernel x i.handle = some k → i.st = .queued → p.running = some x →
        (s.tsnow < i.start → exec (.instStart x inst) s = .next s) ∧
        (i.start ≤ s.tsnow → (∀ w, p.writer = some w → w = inst) →
          ∃ u, exec (.instStart x inst) s = .next u ∧ u.nextId = s.nextId + k.stages.length ∧
            u.insts = s.insts.map (fun j => if j.ctx = i.ctx && j.id = i.id then { i with st := .running } else j) ∧
            ∀ m (h : m < k.stages.length), u.getTask (s.nextId + m) = some
              { id := s.nextId + m, ctx := x, inst := inst, stage := k.stages[m].num
                ts := 65536 * k.stages[m].phase + 256 * k.stages[m].num
                key := [65536 * k.stages[m].phase + 256 * k.stages[m].num, 0] })) ∧
      ∀ (part x : Nat) (s : State) (p : Part) (t : Task) (rest : List Task) (o : Nat × Nat × Nat), s.boot = .ready →
        mget s.parts part = some p → p.running = some x →
        (s.nextPart ≠ some part → exec (.baristaVisit part) s = .next s) ∧
        (s.nextPart = some part → (∀ v, s.visit = some v → v.cycle < s.cycle) →
          ∃ u, exec (.baristaVisit part) s = .next u ∧ u.visit = some ⟨part, s.cycle, false⟩ ∧
            u.mem = (s.markOverruns part).mem ∧ u.regs = (s.markOverruns part).regs ∧
            ((∀ fn ∈ s.boundFns part, ∀ r, r < 8 → s.ringActive fn r = true → s.ringLag fn r ≤ s.ringDepth fn r) →
              u.mem = s.mem ∧ u.regs = s.regs) ∧
            (((afterLast p.lastInst (sortBy (fun a b => a ≤ b) ((s.insts.filter fun i => i.ctx = x && i.st == .running).map
                Inst.id))).flatMap fun i => (s.tasksOf x i).filter s.readyTask).filter s.atPour = t :: rest →
              s.fitAt part t (s.cellHeld x) = some o → ∃ g, mget u.groups s.nextId = some g ∧ g.st = .starting ∧
                (g.ox, g.oy, g.oz) = o ∧ (g.w, g.h, g.d) = s.rectOf t ∧ g.inst = t.inst ∧ u.nextId = s.nextId + 1))

/-- An entry that a visit reads, while the host link carries packets (log entry 107), advances its ring's RP. A
well-formed HOST_NOP completes with status 0 and an unknown or ill-formed entry with BAD_COMMAND 0x10; LOAD starts the
read of its image; LAUNCH of a loaded kernel with an aligned argument block starts the read of it, of an unknown
handle completes with 0x11 (a handle is of one context, log entry 29; the order of the checks is the model's choice,
log entry 91); CANCEL lets the commits of its instance that the cycle still has to come perform, then discards it with
status 0x13 and completes; UNLOAD of a kernel that no unretired instance and no launch in progress uses (that the
launch counts is log entry 92) removes it; RESUME of a Faulted instance of this context with a restartable fault
returns from the fault. The answer of the argument read makes a queued instance with the next id and the eight
arguments, or completes with 0x16; the end of a load completes with the status of its checks, or makes the kernel. A
completion record holds cookie, status, kind and id as R411 lays them out. -/
def Obligations.RingEvents : Prop :=
  (∀ cookie status kind id : Nat, complRecord cookie status kind id = complBytes cookie status kind id ∧
        (complBytes cookie status kind id).length = 16) ∧
      (∀ (part x n : Nat) (e : List Byte) (s v : State), EntryDue s part x n e → v = afterEntry s part n →
        ((entryOp e = 0 ∨ 5 < entryOp e) → exec (.hostNop part) s = .next (v.answer (n / 8) e (if entryOk e then 0 else 0x10) 0)) ∧
        (entryOp e = 1 → entryOk e = true → exec (.load part) s =
          .next { v with pending := v.pending ++ [⟨1, part, x, n / 8, n % 8, e⟩] }) ∧
        (entryOp e = 1 → entryOk e = false → exec (.load part) s = .next (v.answer (n / 8) e 0x10 0)) ∧
        (entryOp e = 2 → entryOk e = true → fieldAt e 8 8 % 64 = 0 →
          (fieldAt e 24 8 = 0 ∧ fieldAt e 36 4 = 0 ∨ fieldAt e 24 8 ≠ 0 ∧ 1 ≤ fieldAt e 36 4 ∧ fieldAt e 36 4 ≤ 1024) →
          (s.getKernel x (fieldAt e 32 4) = none → exec (.launch part) s = .next (v.answer (n / 8) e 0x11 0)) ∧
          (∀ k p, s.getKernel x (fieldAt e 32 4) = some k → mget s.parts part = some p → p.nextInst < 2 ^ 32 →
            fieldAt e 8 8 + 64 ≤ 2 ^ 51 → exec (.launch part) s =
              .next { v with pending := v.pending ++ [⟨2, part, x, n / 8, n % 8, e⟩] })) ∧
        (entryOp e = 3 → entryOk e = true →
          (s.instOfPart part (fieldAt e 32 4) = none → exec (.cancel part) s =
            .next (v.answer (n / 8) e (if s.idAssigned part (fieldAt e 32 4) then 0x17 else 0x14) 0)) ∧
          ∀ i w, s.instOfPart part (fieldAt e 32 4) = some i → w = v.commitsFirst i →
            ((∀ t ∈ s.agenda.takeWhile (fun t => t.cycles = 0), ∀ id, t.act ≠ .event (.commit id)) → w = v) ∧
            ∀ j, w.instOfPart part (fieldAt e 32 4) = some j →
              (j.st = .retired → exec (.cancel part) s = .next (w.answer (n / 8) e 0x17 0)) ∧
              (j.st ≠ .retired → exec (.cancel part) s = .next ((w.discard j 0x13).answer (n / 8) e 0 j.id))) ∧
        (entryOp e = 4 → entryOk e = true → ∀ k, s.getKernel x (fieldAt e 32 4) = some k →
          ((∃ i ∈ s.insts, i.ctx = x ∧ i.handle = fieldAt e 32 4 ∧ i.st ≠ .retired) →
            exec (.unload part) s = .next (v.answer (n / 8) e 0x12 0)) ∧
          ((∀ i ∈ s.insts, i.ctx = x → i.handle = fieldAt e 32 4 → i.st = .retired) →
            (∀ q ∈ s.pending, q.kind = 2 → q.ctx = x → fieldAt q.entry 32 4 ≠ fieldAt e 32 4) →
            exec (.unload part) s = .next (({ v with kernels := s.kernels.filter fun k =>
              !(k.ctx = x && k.handle = fieldAt e 32 4) } : State).answer (n / 8) e 0 (fieldAt e 32 4)))) ∧
        (entryOp e = 5 → entryOk e = true → ∀ i t f, s.instOfPart part (fieldAt e 32 4) = some i → s.faultedTask i = some (t, f) →
          (i.st = .faulted → i.ctx = x → restartable f.code = true → f.code ≠ .digestMismatch →
            exec (.ringResume part) s = .next ((v.returnFrom i t f).answer (n / 8) e 0 i.id)) ∧
          ((i.st ≠ .faulted ∨ i.ctx ≠ x ∨ restartable f.code = false) →
            exec (.ringResume part) s = .next (v.answer (n / 8) e 0x15 0)))) ∧
      ∀ (part : Nat) (s v : State) (q : Pending) (p : Part), mget s.parts part = some p →
        v = { s with pending := s.pending.erase q } →
        (s.pending.find? (fun q => q.kind = 2 && q.part = part) = some q →
          (∀ b, s.hostUp = false → exec (.argumentReadDone part b) s = .next s) ∧
          (s.hostUp = true → exec (.argumentReadDone part false) s = .next (v.answer q.fn q.entry 0x16 0)) ∧
          (s.hostUp = true → s.getKernel q.ctx (fieldAt q.entry 32 4) = none →
            exec (.argumentReadDone part true) s = .next (v.answer q.fn q.entry 0x11 0)) ∧
          (s.hostUp = true → (s.getKernel q.ctx (fieldAt q.entry 32 4)).isSome = true → ∃ i : Inst, i.id = p.nextInst ∧ i.part = part ∧ i.ctx = q.ctx ∧ i.st = .queued ∧ i.handle = fieldAt q.entry 32 4 ∧
            i.start = fieldAt q.entry 16 8 ∧ i.gangKey = fieldAt q.entry 24 8 ∧ i.gangWidth = fieldAt q.entry 36 4 ∧
            (∀ j, j < 8 → i.args[j]? = some (BitVec.ofNat 64 (readLe s.mem (hostBase + fieldAt q.entry 8 8 + 8 * j) 8))) ∧
            exec (.argumentReadDone part true) s = .next (({ v with
              insts := s.insts ++ [i], parts := mset s.parts part { p with nextInst := p.nextInst + 1 } } : State).answer
                q.fn q.entry 0 i.id))) ∧
        (s.pending.find? (fun q => q.kind = 1 && q.part = part) = some q →
          (s.hbmCap < fieldAt q.entry 8 8 + fieldAt q.entry 16 8 →
            exec (.loadDone part) s = .next (v.answer q.fn q.entry 0x01 0)) ∧
          (fieldAt q.entry 8 8 + fieldAt q.entry 16 8 ≤ s.hbmCap → ∀ st, st ≠ 0 →
            s.loadStatus part p q.ctx (readBytes s.mem (fieldAt q.entry 8 8) (fieldAt q.entry 16 8)) (fieldAt q.entry 16 8)
              (fieldAt q.entry 24 8) (fieldAt q.entry 40 8) = st →
            s.imagePoisoned (fieldAt q.entry 8 8) (fieldAt q.entry 16 8) = false →
            exec (.loadDone part) s = .next (v.answer q.fn q.entry st 0)) ∧
          (fieldAt q.entry 8 8 + fieldAt q.entry 16 8 ≤ s.hbmCap →
            s.loadStatus part p q.ctx (readBytes s.mem (fieldAt q.entry 8 8) (fieldAt q.entry 16 8)) (fieldAt q.entry 16 8)
              (fieldAt q.entry 24 8) (fieldAt q.entry 40 8) = 0 →
            s.imagePoisoned (fieldAt q.entry 8 8) (fieldAt q.entry 16 8) = false → ∃ u : State,
            exec (.loadDone part) s = .next (u.answer q.fn q.entry 0 (s.freeHandle q.ctx)) ∧ u.regs = s.regs ∧
              u.kernels = s.kernels ++ [kernelOf (readBytes s.mem (fieldAt q.entry 8 8) (fieldAt q.entry 16 8)) q.ctx
                (s.freeHandle q.ctx) (fieldAt q.entry 40 8)] ∧ u.cells = s.cells ∧ u.insts = s.insts))

/-- For a function that answers: DOORBELL writes the ring's WP; RING_ENABLE of a ring that is not enabled sets ENABLE
and lets RP take WP; RING_OVERRUN_CLEAR clears OVR; a CRD that leaves at most the depth is written, another is
ignored; INVALIDATE writes INVCTL (while BUSY, its CTX and ALL alone) and is busy until INVALIDATE_DONE, which removes
every translation that it named when it was written, once no access and no waiting store line uses one. A write of a
plain register changes its RW bits alone, LOG2DEPTH outside 4 to 16 becomes 4 (and held completion records go out
where the new depth has room), a set LOST flag is cleared with its count, an enabled ring keeps BASE. REPAIR with a
partition that is not halted (Running, Halting, or stopped by a checker mismatch while a cell of it goes on), of a
member that is not there (any STACK of 12 to 15 is none: the model's reading, log entry 41), or of a last pair leaves
STATUS 1, 3 or 2; while it is busy a write leaves its STACK and PC alone (the model's choice, log entry 128);
otherwise REPAIR_DONE drops the member that was named, sets the capacity from the stripes left and discards the bytes
above it. VF_ENABLE enables the functions from 1 upward. A function that does not answer changes nothing. -/
def Obligations.HostRegisters : Prop :=
  (∀ (fn ring n off : Nat) (v m : Word64) (w : Word32) (s : State), Tables s → s.fnPart fn = some n → ring < 8 → fn ≠ 0 →
        (∃ u, exec (.doorbell fn ring w) s = .next u ∧ u.reg fn (0x1010 + 0x40 * ring) = w.setWidth 64 ∧
          u.reg fn (0x1014 + 0x40 * ring) = s.reg fn (0x1014 + 0x40 * ring) ∧ u.mem = s.mem) ∧
        ((s.reg fn (0x1008 + 0x40 * ring)).getLsbD 8 = false → ∃ u, exec (.ringEnable fn ring) s = .next u ∧
          u.reg fn (0x1008 + 0x40 * ring) = s.reg fn (0x1008 + 0x40 * ring) ||| 0x100 ∧
          u.reg fn (0x1014 + 0x40 * ring) = s.reg fn (0x1010 + 0x40 * ring) ∧ u.mem = s.mem) ∧
        ((s.reg fn (0x1008 + 0x40 * ring)).getLsbD 8 = true → exec (.ringEnable fn ring) s = .next s) ∧
        (∃ u, exec (.ringOverrunClear fn ring) s = .next u ∧
          u.reg fn (0x1018 + 0x40 * ring) = s.reg fn (0x1018 + 0x40 * ring) &&& ~~~1 ∧ u.mem = s.mem) ∧
        (((s.reg fn 0x1410).toNat + 2 ^ 32 - w.toNat) % 2 ^ 32 ≤ 2 ^ ((s.reg fn 0x1408).toNat % 32) →
          (∀ r ∈ s.heldRecs, r.1 ≠ fn) → ∃ u, exec (.completionReadPointer fn w) s = .next u ∧
            u.reg fn 0x1414 = w.setWidth 64 ∧ u.reg fn 0x1410 = s.reg fn 0x1410 ∧ u.mem = s.mem) ∧
        (2 ^ ((s.reg fn 0x1408).toNat % 32) < ((s.reg fn 0x1410).toNat + 2 ^ 32 - w.toNat) % 2 ^ 32 →
          exec (.completionReadPointer fn w) s = .next s) ∧
        (mget s.invBusy fn = none → ∃ u, exec (.invalidate fn v) s = .next u ∧
          mget u.invBusy fn = some ⟨(s.reg fn 0x1800).toNat, s.invContexts fn (v.toNat % 64), v.getLsbD 8⟩ ∧
          u.reg fn 0x1808 = (s.reg fn 0x1808 &&& ~~~0x13F) ||| (v &&& 0x13F) ∧ u.tlb = s.tlb) ∧
        (∀ b, mget s.invBusy fn = some b → ∃ u, exec (.invalidate fn v) s = .next u ∧ u.invBusy = s.invBusy ∧
          u.reg fn 0x1808 = (s.reg fn 0x1808 &&& ~~~0x13F) ||| (v &&& 0x13F) ∧ u.tlb = s.tlb ∧ u.mem = s.mem) ∧
        (vfMask off = some m → (off < 0x1000 ∨ 0x1200 ≤ off) → ∃ u, exec (.registerWrite fn off v) s = .next u ∧
          u.reg fn off = (s.reg fn off &&& ~~~m) ||| (v &&& m) ∧ u.mem = s.mem ∧
          ∀ g o, o < 65536 → (g ≠ fn ∨ o ≠ off) → u.reg g o = s.reg g o) ∧
        ((off = 0x508 ∨ off = 0x1408) → ∃ u, exec (.registerWrite fn off v) s = .next u ∧
          u.reg fn off = if 4 ≤ v.toNat % 32 ∧ v.toNat % 32 ≤ 16 then v &&& 31 else 4) ∧
        exec (.registerWrite fn 0x1408 v) s = .next ((s.setReg fn 0x1408
          (if 4 ≤ v.toNat % 32 ∧ v.toNat % 32 ≤ 16 then v &&& 31 else 4)).flushCompl fn) ∧
        (v.getLsbD 16 = true → ∃ u, exec (.registerWrite fn 0x518 v) s = .next u ∧ u.reg fn 0x518 = 0) ∧
        ((s.reg fn (0x1008 + 0x40 * ring)).getLsbD 8 = true → exec (.registerWrite fn (0x1000 + 0x40 * ring) v) s = .next s) ∧
        ((s.reg fn (0x1008 + 0x40 * ring)).getLsbD 8 = false → ∃ u, exec (.registerWrite fn (0x1000 + 0x40 * ring) v) s = .next u ∧
          u.reg fn (0x1000 + 0x40 * ring) = v &&& 0xFFFFFFFFFFFFF000)) ∧
      (∀ (fn off : Nat) (v : Word64) (w : Word32) (s : State), s.fnPart fn = none → fn ≠ 0 →
        exec (.doorbell fn off w) s = .next s ∧ exec (.registerWrite fn off v) s = .next s ∧
          exec (.invalidate fn v) s = .next s) ∧
      (∀ (fn : Nat) (s : State), (mget s.invBusy fn = none → exec (.invalidateDone fn) s = .next s) ∧
        (∀ b, mget s.invBusy fn = some b → (∀ t ∈ s.tlb, b.hits t = true →
            (∀ p ∈ s.cells, ∀ r ∈ p.2.openRefs, t.holds (p.1 / 1024) (p.1 % 1024) r.1 r.2 = false) ∧
            ∀ q ∈ s.reds, t.holds q.ctx q.cell q.r.va q.r.size = false) →
          exec (.invalidateDone fn) s = .next { s with tlb := s.tlb.filter fun t => !b.hits t, invBusy := mdel s.invBusy fn }) ∧
        ∀ b, mget s.invBusy fn = some b → (∃ t ∈ s.tlb, b.hits t = true ∧
            ∃ p ∈ s.cells, ∃ r ∈ p.2.openRefs, t.holds (p.1 / 1024) (p.1 % 1024) r.1 r.2 = true) →
          exec (.invalidateDone fn) s = .next s) ∧
      (∀ (off : Nat) (v m : Word64) (s : State), Tables s → s.boot = .ready → pfMask off = some m →
        ∃ u, exec (.registerWrite 0 off v) s = .next u ∧ u.reg 0 off = (s.reg 0 off &&& ~~~m) ||| (v &&& m)) ∧
      (∀ (v : Word64) (s : State), Tables s → s.boot = .ready → s.repairBusy = none → ∃ u, exec (.repair v) s = .next u ∧
        ((∃ q ∈ s.parts, q.2.slots[0].st = .running ∨ q.2.slots[0].st = .halting ∨
            (q.2.slots[0].st = .halted ∧ s.allStopped q.2.slots[0].ctx = false)) →
          StatusIs u 0 0x2000 18 2 1 ∧ u.repairBusy = none) ∧
        ((∀ q ∈ s.parts, q.2.slots[0].st ≠ .running ∧ q.2.slots[0].st ≠ .halting ∧
            (q.2.slots[0].st = .halted → s.allStopped q.2.slots[0].ctx = true)) →
          (v.toNat % 16 ∉ s.members (v.toNat / 256 % 64) → StatusIs u 0 0x2000 18 2 3 ∧ u.repairBusy = none) ∧
          (v.toNat % 16 ∈ s.members (v.toNat / 256 % 64) →
            ((s.members (v.toNat / 256 % 64)).length < 3 → StatusIs u 0 0x2000 18 2 2 ∧ u.repairBusy = none) ∧
            (3 ≤ (s.members (v.toNat / 256 % 64)).length → StatusIs u 0 0x2000 18 2 0 ∧
              u.repairBusy = some (v.toNat % 16, v.toNat / 256 % 64))))) ∧
      (∀ (v : Word64) (s : State) (m : Nat × Nat), Tables s → s.boot = .ready → s.repairBusy = some m → ∃ u, exec (.repair v) s = .next u ∧
        u.reg 0 0x2000 = (s.reg 0 0x2000 &&& ~~~0x3F0F) ||| (v &&& 0x3F0F) ∧ u.repairBusy = some m ∧ u.mem = s.mem) ∧
      (∀ s : State, (s.repairBusy = none → exec .repairDone s = .next s) ∧
        (∀ m, s.repairBusy = some m → ∃ u, exec .repairDone s = .next u ∧ u.repairBusy = none ∧ u.hbmGiB = u.stripes.length ∧
          u.dropped = m :: s.dropped ∧
          ∀ a, readByte u.mem a = if u.hbmGiB * 2 ^ 30 ≤ a ∧ a < s.hbmCap then 0 else readByte s.mem a)) ∧
      ∀ (n : Nat) (s : State), s.boot = .ready → (n ≤ 384 → exec (.vfEnable n) s = .next { s with fnOn := (List.range n).map (· + 1) }) ∧
        (384 < n → exec (.vfEnable n) s = .next s)

/-- A GO beside that of a lower function of the same cycle changes nothing (the model's choice, log entry 87). While
its partition has no command in progress, and no capsule command works on the slots: SETUP of an empty slot from 2 to
33, with a free save area and number, makes the Parked context of the registers (the slot, then the area, then the
number is looked at: the model's reading, log entry 33); FETCH and PARK start their copies, whose ends leave the
context Shadow in slot 1, or Parked in the slot; SWITCH and HALT start and hold the time AT; SWITCH_DUE and HALT_DUE
make a Running slot 0 Halting; ROLE_FLIP_DONE, once the context has stopped with nothing in flight, exchanges slots 0
and 1 as Running and Shadow, or leaves slot 0 Halted; a slot 0 that a checker mismatch has stopped makes none of these
(the model's reading, log entry 86); RESUME runs a Halted slot again; a context that comes to run takes its waiting
updates and then what it owes (State.replay, State.thaw), and where it owes nothing (OwesNothing) memory and the other
slots stay as they are; END empties a slot and forgets its context, but for the licensed commands that have started in
its cells. STATUS holds 0 then, and 1, 2, 3 or 4 for a slot, an area, a bad record or a number that does not fit. -/
def Obligations.ContextCommands : Prop :=
  (∀ (fn slot n : Nat) (s : State) (p q : Part), Tables s → s.fnPart fn = some n → mget s.parts n = some p →
        q = { p with go := some (s.cycle, fn) } →
        (s.outranked n fn p.go Act.ctxFn = true → exec (.setup fn slot) s = .next s ∧ exec (.fetch fn slot) s = .next s ∧
          exec (.park fn slot) s = .next s ∧ exec (.switch fn slot) s = .next s ∧ exec (.halt fn slot) s = .next s ∧
          exec (.ctxResume fn slot) s = .next s ∧ exec (.ctxEnd fn slot) s = .next s) ∧
        (s.outranked n fn p.go Act.ctxFn = false → p.busy = none →
          (2 ≤ slot → slot ≤ 33 → (p.slot slot).st = .empty → s.slotInCapsule n slot = false →
            ∀ x, x = s.ctxOfRegs fn (beNat (sha256 (List.replicate 32 0 ++ p.cfgBytes))) →
            ∃ u, exec (.setup fn slot) s = .next u ∧
              (s.saveFree x.save (saveSize p.cols.length) = false → StatusIs u fn 0x400 20 3 2 ∧ u.parts = mset s.parts n q) ∧
              (s.saveFree x.save (saveSize p.cols.length) = true →
                (s.numberFree x.num = false → StatusIs u fn 0x400 20 3 4 ∧ u.parts = mset s.parts n q) ∧
                (s.numberFree x.num = true → ∃ r, mget u.parts n = some r ∧ r.slot slot = ⟨.parked, x.num⟩ ∧
                  (∀ j, j ≠ slot → r.slot j = p.slot j) ∧ mget u.ctxs x.num = some x ∧ StatusIs u fn 0x400 20 3 0))) ∧
          ((slot < 2 ∨ 33 < slot ∨ (p.slot slot).st ≠ .empty ∨ s.slotInCapsule n slot = true) →
            ∃ u, exec (.setup fn slot) s = .next u ∧ StatusIs u fn 0x400 20 3 1 ∧ u.parts = mset s.parts n q) ∧
          ((p.slot slot).st = .parked → (p.slot 1).st = .empty → s.slotInCapsule n slot = false → s.slotInCapsule n 1 = false →
            ∃ u, exec (.fetch fn slot) s = .next u ∧
              mget u.parts n = some { q with busy := some { op := 2, slot := slot, fn := fn, at_ := 0 } }) ∧
          (((p.slot 1).st ≠ .empty ∨ s.slotInCapsule n 1 = true) →
            ∃ u, exec (.fetch fn slot) s = .next u ∧ StatusIs u fn 0x400 20 3 1 ∧ u.parts = mset s.parts n q) ∧
          (2 ≤ slot → slot ≤ 33 → (p.slot slot).st = .empty → (p.slot 1).st = .shadow → s.slotInCapsule n slot = false →
            s.slotInCapsule n 1 = false → ∃ u, exec (.park fn slot) s = .next u ∧
              mget u.parts n = some { q with busy := some { op := 3, slot := slot, fn := fn, at_ := 0 } }) ∧
          ((p.slot 0).st = .running → p.wedged = false → s.slotInCapsule n 0 = false → s.slotInCapsule n 1 = false →
            ∃ u, exec (.switch fn slot) s = .next u ∧
              mget u.parts n = some { q with busy := some { op := 4, slot := slot, fn := fn, at_ := (s.reg fn 0x408).toNat } }) ∧
          ((p.slot 0).st = .running → s.slotInCapsule n 0 = false → ∃ u, exec (.halt fn slot) s = .next u ∧
            mget u.parts n = some { q with busy := some { op := 5, slot := slot, fn := fn, at_ := (s.reg fn 0x408).toNat } }) ∧
          (((p.slot 0).st ≠ .running ∨ s.slotInCapsule n 0 = true) →
            ∃ u, exec (.halt fn slot) s = .next u ∧ StatusIs u fn 0x400 20 3 1 ∧ u.parts = mset s.parts n q) ∧
          ((p.slot 0).st = .halted → p.wedged = false → s.slotInCapsule n 0 = false → OwesNothing s (p.slot 0).ctx →
            ∃ u r, exec (.ctxResume fn slot) s = .next u ∧
            mget u.parts n = some r ∧ r.slot 0 = ⟨.running, (p.slot 0).ctx⟩ ∧ (∀ j, j ≠ 0 → r.slot j = p.slot j) ∧
            StatusIs u fn 0x400 20 3 0 ∧ u.mem = s.mem) ∧
          ((p.slot 0).st = .halted → p.wedged = false → s.slotInCapsule n 0 = false → ∀ r : State,
            r = (s.putPart n q).writeMasked fn 0x400 0x3F0F (BitVec.ofNat 64 (6 + 256 * slot)) →
            exec (.ctxResume fn slot) s = .next (((((r.startCells (p.slot 0).ctx q).putPart n
              (q.setSlot 0 ⟨.running, (p.slot 0).ctx⟩)).replay (p.slot 0).ctx).thaw (p.slot 0).ctx).ctxStatus fn 0)) ∧
          (((p.slot 0).st ≠ .halted ∨ p.wedged = true ∨ s.slotInCapsule n 0 = true) →
            ∃ u, exec (.ctxResume fn slot) s = .next u ∧ StatusIs u fn 0x400 20 3 1 ∧ u.parts = mset s.parts n q) ∧
          (((p.slot slot).st = .parked ∨ (p.slot slot).st = .shadow ∨ (p.slot slot).st = .halted ∨ (p.slot slot).st = .ended) →
            s.slotInCapsule n slot = false → ∃ u r, exec (.ctxEnd fn slot) s = .next u ∧ mget u.parts n = some r ∧
              r.slot slot = {} ∧ (∀ c ∈ u.cells, c.1 / 1024 = (p.slot slot).ctx →
                c.2.licensedCmds ≠ [] ∧ c.2 = { lic := c.2.lic, cmds := c.2.licensedCmds } ∧ c.2.lic.held = false) ∧ (∀ t ∈ u.tasks, t.2.ctx ≠ (p.slot slot).ctx) ∧
              (∀ k ∈ u.kernels, k.ctx ≠ (p.slot slot).ctx) ∧ (∀ i ∈ u.insts, i.ctx ≠ (p.slot slot).ctx) ∧
              StatusIs u fn 0x400 20 3 0) ∧
          ((p.slot slot).st = .running → ∃ u, exec (.ctxEnd fn slot) s = .next u ∧ StatusIs u fn 0x400 20 3 1 ∧
            u.parts = mset s.parts n q))) ∧
      ∀ (n : Nat) (s : State) (p : Part) (b : CtxBusy), Tables s → mget s.parts n = some p → p.busy = some b →
        (b.op = 2 → 2 ≤ b.slot → b.slot < 34 → ∀ x, mget s.ctxs (p.slot b.slot).ctx = some x → ∃ u q, exec (.fetchDone n) s = .next u ∧
          mget u.parts n = some q ∧ q.busy = none ∧
          (s.saveOk x p = true → q.slot 1 = ⟨.shadow, x.num⟩ ∧ q.slot b.slot = {} ∧ StatusIs u b.fn 0x400 20 3 0 ∧
            ∀ a, readByte u.mem a = readByte s.mem a) ∧
          (s.saveOk x p = false → q.slots = p.slots ∧ StatusIs u b.fn 0x400 20 3 3)) ∧
        (b.op = 3 → 2 ≤ b.slot → b.slot < 34 → ∀ x, mget s.ctxs (p.slot 1).ctx = some x → ∃ u q, exec (.parkDone n) s = .next u ∧
          mget u.parts n = some q ∧ q.busy = none ∧ q.slot 1 = {} ∧ q.slot b.slot = ⟨.parked, x.num⟩ ∧
          StatusIs u b.fn 0x400 20 3 0) ∧
        ((s.isDue b = false ∨ p.wedged = true) → exec (.switchDue n) s = .next s ∧ exec (.haltDue n) s = .next s) ∧
        (s.isDue b = true → p.wedged = false → (p.slot 0).st = .running →
          (b.op = 4 → ∃ u q, exec (.switchDue n) s = .next u ∧ mget u.parts n = some q ∧ q.slot 0 = ⟨.halting, (p.slot 0).ctx⟩ ∧
            q.busy = some { b with due := true } ∧ u.mem = s.mem) ∧
          (b.op = 5 → ∃ u q, exec (.haltDue n) s = .next u ∧ mget u.parts n = some q ∧ q.slot 0 = ⟨.halting, (p.slot 0).ctx⟩ ∧
            q.busy = some { b with due := true } ∧ u.mem = s.mem)) ∧
        (p.wedged = true → exec (.roleFlipDone n) s = .next s) ∧
        ((b.op = 4 ∨ b.op = 5) → b.due = true → p.wedged = false → (p.slot 0).st = .halting →
          (s.drained (p.slot 0).ctx = false → exec (.roleFlipDone n) s = .next s) ∧
          (s.drained (p.slot 0).ctx = true → b.op = 4 → exec (.roleFlipDone n) s =
            .next ((s.flip n { p with busy := none }).ctxStatus b.fn 0)) ∧
          (s.drained (p.slot 0).ctx = true → (b.op = 4 → (p.slot 1).st ≠ .empty → OwesNothing s (p.slot 1).ctx) →
            ∃ u q, exec (.roleFlipDone n) s = .next u ∧ mget u.parts n = some q ∧ q.busy = none ∧
            StatusIs u b.fn 0x400 20 3 0 ∧ u.mem = s.mem ∧
            (b.op = 5 → q.slot 0 = ⟨.halted, (p.slot 0).ctx⟩ ∧ q.slot 1 = p.slot 1) ∧
            (b.op = 4 → q.slot 1 = ⟨.shadow, (p.slot 0).ctx⟩ ∧
              ((p.slot 1).st = .empty → q.slot 0 = {}) ∧
              ((p.slot 1).st ≠ .empty → q.slot 0 = ⟨.running, (p.slot 1).ctx⟩))))

/-- A GO beside that of a lower function of the same cycle changes nothing (the model's choice, log entry 87), nor
does one while the host link carries no packets. While its partition has no capsule command in progress: ATTEST and
CTRQUOTE write their signed record at CAPADDR with its length, ATTEST keeps the nonce; KEYWRAP of a slot that a
context command changes ends with SLOT (looked at first), of a text that is lost or does not decrypt to 80 bytes with
AUTH, one with the partition's nonce puts the key on an empty slot, or on a Parked one of its measurement (how a text
decrypts is RSA-OAEP with the part's own key, log entry 65); SEAL and CTRFREE pass to the store once their checks
hold, and end with NOKEY, OWNER or SLOT otherwise; the store's answer, when it has the request's nonce, a write count
one on and the tag over both under the store's key (their layout is the model's choice, log entry 120), adds one to a
SEAL's counter and makes its key the owner, clears a freed counter's owner, or ends with OWNER; any other ends with
CTRFAIL; every such answer advances the count; SEAL_DONE writes header and sealed body and leaves the context, or ends
with AUTH on a lost line or a lost word of a weight store; it waits for the host link where it needs it, asks peers
for the listed pages that lie there, and ends with MAP when one refuses (log entry 129); the context is kept under the
name of its capsule (the model's choice, log entry 16). RESTORE of this device's capsule into a free slot with a
matching key and a counter that has not passed it starts, an older one ends with STALE; RESTORE_DONE makes the Parked
context with the sealed save area, or empties the slot with AUTH when a tag does not verify or the lengths do not fit,
and with MAP when a listed page does not serve. When SLOT and AUTH are given is the model's reading where the rules
leave it (log entries 37 and 38); a page of a list serves as log entry 118 has it. -/
def Obligations.Capsules : Prop :=
  (∀ (fn slot cidx n : Nat) (s : State) (p : Part), Tables s → s.fnPart fn = some n → mget s.parts n = some p →
        (s.outranked n fn p.capGo Act.capFn = true ∨ s.hostUp = false → exec (.attest fn slot cidx) s = .next s ∧
          exec (.keywrap fn slot cidx) s = .next s ∧ exec (.seal fn slot cidx) s = .next s ∧
          exec (.restore fn slot cidx) s = .next s ∧ exec (.ctrquote fn slot cidx) s = .next s ∧
          exec (.ctrfree fn slot cidx) s = .next s) ∧
        ((∀ b ∈ s.capBusy, b.part ≠ n) → s.outranked n fn p.capGo Act.capFn = false → s.hostUp = true →
          ∀ at_, at_ = s.localPa (s.reg fn 0x608).toNat →
        (∃ u, exec (.attest fn slot cidx) s = .next u ∧ StatusIs u fn 0x600 28 4 0 ∧
          mget u.capNonces n = some (leNat (leBytes (s.reg fn 0x618).toNat 8 ++ leBytes (s.reg fn 0x620).toNat 8)) ∧
          ∀ body, body = idkSigned (leBytes 0xA77E0001 4 ++ leBytes 0 4 ++ sha256 (beBytes Config.idkModulus.toNat 384) ++
              sha256 s.firmware ++ sha256 s.blob.bytes ++ leBytes (s.reg fn 0x618).toNat 8 ++ leBytes (s.reg fn 0x620).toNat 8 ++
              leBytes p.columnMask 4 ++ leBytes 0 4 ++ beBytes Config.trkModulus.toNat 384) (s.freeBytes 32).2 →
            u.mem = (if s.peerOf at_ = none then writeBytes s.mem at_ body else s.mem) ∧
              u.reg fn 0x610 = BitVec.ofNat 64 body.length) ∧
        (∃ u, exec (.ctrquote fn slot cidx) s = .next u ∧ StatusIs u fn 0x600 28 4 0 ∧
          ∀ body, body = idkSigned (leBytes 0xCC7E0001 4 ++ leBytes (cidx % 64) 2 ++ leBytes 0 2 ++
              leBytes (s.counter (cidx % 64)).val 8 ++ (leBytes (s.reg fn 0x618).toNat 8 ++ leBytes (s.reg fn 0x620).toNat 8) ++
              sha256 (beBytes Config.idkModulus.toNat 384) ++ beBytes Config.idkModulus.toNat 384) (s.freeBytes 32).2 →
            u.mem = (if s.peerOf at_ = none then writeBytes s.mem at_ body else s.mem) ∧
              u.reg fn 0x610 = BitVec.ofNat 64 body.length) ∧
        (p.slotInCommand slot = true →
          ∃ u, exec (.keywrap fn slot cidx) s = .next u ∧ StatusIs u fn 0x600 28 4 1 ∧ u.sealKeys = s.sealKeys ∧ u.mem = s.mem) ∧
        (p.slotInCommand slot = false → s.peerOf at_ = none → ¬ s.Whole at_ 384 →
          ∃ u, exec (.keywrap fn slot cidx) s = .next u ∧ StatusIs u fn 0x600 28 4 5 ∧ u.sealKeys = s.sealKeys) ∧
        (p.slotInCommand slot = false → s.peerOf at_ = none → s.Whole at_ 384 → ∀ o, o = oaepDecrypt Config.trkModulus.toNat Config.trkExponent.toNat (readBytes s.mem at_ 384) →
          ∃ u, exec (.keywrap fn slot cidx) s = .next u ∧ u.mem = s.mem ∧
            ((∀ m, o = some m → m.length ≠ 80) → StatusIs u fn 0x600 28 4 5 ∧ u.sealKeys = s.sealKeys) ∧
            (∀ m, o = some m → m.length = 80 → mget s.capNonces n ≠ some (leNat (m.drop 64)) →
              StatusIs u fn 0x600 28 4 4 ∧ u.sealKeys = s.sealKeys) ∧
            (∀ m, o = some m → m.length = 80 → mget s.capNonces n = some (leNat (m.drop 64)) →
              slot ≤ 33 → ((p.slot slot).st = .empty → StatusIs u fn 0x600 28 4 0 ∧
                mget u.sealKeys (64 * n + slot) = some ⟨beNat (m.take 32), beNat ((m.drop 32).take 32)⟩) ∧
              ∀ x, (p.slot slot).st = .parked → mget s.ctxs (p.slot slot).ctx = some x →
                (x.meas ≠ beNat ((m.drop 32).take 32) → StatusIs u fn 0x600 28 4 6 ∧ u.sealKeys = s.sealKeys) ∧
                (x.meas = beNat ((m.drop 32).take 32) → StatusIs u fn 0x600 28 4 0 ∧
                  mget u.sealKeys (64 * n + slot) = some ⟨beNat (m.take 32), x.meas⟩))) ∧
        (p.slotInCommand slot = true →
          ∃ u, exec (.ctrfree fn slot cidx) s = .next u ∧ StatusIs u fn 0x600 28 4 1 ∧ u.counters = s.counters) ∧
        (p.slotInCommand slot = false → mget s.sealKeys (64 * n + slot) = none →
          ∃ u, exec (.ctrfree fn slot cidx) s = .next u ∧ StatusIs u fn 0x600 28 4 2 ∧ u.counters = s.counters) ∧
        (∀ k, p.slotInCommand slot = false → mget s.sealKeys (64 * n + slot) = some k →
          ∃ u, exec (.ctrfree fn slot cidx) s = .next u ∧
            ((s.counter (cidx % 64)).owner ≠ beNat (sha256 (beBytes k.key 32)) → StatusIs u fn 0x600 28 4 10 ∧ u.capBusy = s.capBusy) ∧
            ((s.counter (cidx % 64)).owner = beNat (sha256 (beBytes k.key 32)) → ∃ b, u.capBusy = s.capBusy ++ [b] ∧ b.op = 6 ∧
              b.part = n ∧ b.slot = slot ∧ b.store = true ∧ b.nonce = leNat (s.freeBytes 16).2 ∧ b.cidx = cidx % 64 ∧ b.fn = fn)) ∧
        ((p.slot slot).st ≠ .parked → ∃ u, exec (.seal fn slot cidx) s = .next u ∧ StatusIs u fn 0x600 28 4 1 ∧ u.capBusy = s.capBusy) ∧
        (∀ k x aux count list, (p.slot slot).st = .parked → p.slotInCommand slot = false → mget s.sealKeys (64 * n + slot) = some k →
          mget s.ctxs (p.slot slot).ctx = some x → aux = (s.reg fn 0x628).toNat → s.Whole (s.localPa aux) 8 →
          s.peerOf (s.localPa aux) = none → s.peerOf (s.localPa (aux + 8)) = none →
          count = readLe s.mem (s.localPa aux) 8 → count ≤ 2 ^ 20 → s.Whole (s.localPa (aux + 8)) (16 * count) →
          list = readBytes s.mem (s.localPa (aux + 8)) (16 * count) →
          ((s.counter (cidx % 64)).owner = 0 ∨ (s.counter (cidx % 64)).owner = beNat (sha256 (beBytes k.key 32))) →
          (∀ e ∈ listEntries list count, (s.pageEntry x false e).isSome) →
          ∃ u b, exec (.seal fn slot cidx) s = .next u ∧ u.capBusy = s.capBusy ++ [b] ∧ b.op = 3 ∧ b.part = n ∧ b.slot = slot ∧
            b.store = true ∧ b.nonce = leNat (s.freeBytes 16).2 ∧ b.cidx = cidx % 64 ∧ b.text = list ∧ u.mem = s.mem) ∧
        (∀ k h x, 2 ≤ slot → slot ≤ 33 → (p.slot slot).st = .empty → p.slotInCommand slot = false → s.peerOf at_ = none → s.Whole at_ 128 →
          h = readBytes s.mem at_ 128 →
          x = s.ctxOfRegs fn (beNat ((h.drop 40).take 32)) → s.saveFree x.save (saveSize p.cols.length) = true →
          s.numberFree x.num = true → mget s.sealKeys (64 * n + slot) = some k →
          headerOk h p.cols.length = true → k.meas = x.meas →
          (h.drop 8).take 32 = sha256 (beBytes Config.idkModulus.toNat 384) → (s.reg fn 0x628).toNat = 0 →
          ∃ u, exec (.restore fn slot cidx) s = .next u ∧ u.mem = s.mem ∧
            (fieldAt h 80 8 < (s.counter (fieldAt h 72 2)).val → StatusIs u fn 0x600 28 4 3 ∧ u.capBusy = s.capBusy) ∧
            ((s.counter (fieldAt h 72 2)).val ≤ fieldAt h 80 8 → ∃ b q, u.capBusy = s.capBusy ++ [b] ∧ b.op = 4 ∧ b.slot = slot ∧
              b.target = some x ∧ b.text = h ∧ mget u.parts n = some q ∧ (q.slot slot).st = .restoring)))) ∧
      ∀ (n : Nat) (s : State) (p : Part) (b : CapBusy), Tables s → mget s.parts n = some p →
        (s.capBusy.find? (fun b => b.part = n && b.store) = some b →
          ∀ (r : StoreAnswer) (good : Prop), (good ↔ r.nonce = b.nonce ∧ r.count = s.storeWrites + 1 ∧
            r.tag = hmac256 (beBytes s.storeKey.toNat 32) (leBytes r.nonce 16 ++ leBytes r.count 8)) →
          (¬ good → ∃ u, exec (.storeResponse n r) s = .next u ∧ StatusIs u b.fn 0x600 28 4 8 ∧ u.counters = s.counters) ∧
          (good → mget s.sealKeys (64 * n + b.slot) = none →
            ∃ u, exec (.storeResponse n r) s = .next u ∧ StatusIs u b.fn 0x600 28 4 2 ∧ u.counters = s.counters ∧
              u.storeWrites = s.storeWrites + 1) ∧
          ∀ k o, good → mget s.sealKeys (64 * n + b.slot) = some k → o = (s.counter b.cidx).owner →
            ∃ u, exec (.storeResponse n r) s = .next u ∧
              (o ≠ beNat (sha256 (beBytes k.key 32)) → (b.op = 6 ∨ o ≠ 0) → StatusIs u b.fn 0x600 28 4 10 ∧ u.counters = s.counters ∧
                u.storeWrites = s.storeWrites + 1) ∧
              (o = beNat (sha256 (beBytes k.key 32)) → b.op = 6 → StatusIs u b.fn 0x600 28 4 0 ∧
                mget u.counters b.cidx = some { s.counter b.cidx with owner := 0 } ∧ u.storeWrites = s.storeWrites + 1) ∧
              ((o = 0 ∨ o = beNat (sha256 (beBytes k.key 32))) → b.op ≠ 6 →
                mget u.counters b.cidx = some ⟨(s.counter b.cidx).val + 1, beNat (sha256 (beBytes k.key 32))⟩ ∧
                u.storeWrites = s.storeWrites + 1 ∧
                ∃ d ∈ u.capBusy, d.part = n ∧ d.slot = b.slot ∧ d.store = false ∧ d.ctr = (s.counter b.cidx).val + 1)) ∧
        (s.capBusy.find? (fun b => b.part = n && b.op = 3 && !b.store) = some b → ∀ x k size, size = saveSize p.cols.length →
          mget s.ctxs (p.slot b.slot).ctx = some x → mget s.sealKeys (64 * n + b.slot) = some k →
          let far : List Nat := (s.sealPages b x).flatMap fun q => s.peerLines (s.localPa q.pbase) q.size
          (s.capLinked (b.addr :: (s.sealPages b x).map Page.pbase) = false → exec (.sealDone n) s = .next s) ∧
          (s.capLinked (b.addr :: (s.sealPages b x).map Page.pbase) = true →
            (s.linesAsked x.num far = false → exec (.sealDone n) s = .next (s.askLines x.num far)) ∧
            (s.linesAsked x.num far = true → s.capGot x.num .refused = true → ∃ u, exec (.sealDone n) s = .next u ∧
              StatusIs u b.fn 0x600 28 4 7 ∧ u.cells = s.cells ∧ u.parts = s.parts ∧ u.sealed = s.sealed) ∧
            (s.capAsks x.num = [] → far = [] →
              (¬ s.Whole (s.localPa x.save) size → ∃ u, exec (.sealDone n) s = .next u ∧ StatusIs u b.fn 0x600 28 4 5 ∧
                u.cells = s.cells ∧ u.parts = s.parts ∧ u.sealed = s.sealed) ∧
              (s.Whole (s.localPa x.save) size → s.peerOf (s.localPa b.addr) = none → ∀ ps : List Page,
                (listEntries b.text (b.text.length / 16)).map (s.pageEntry x false) = ps.map some →
                (∀ g ∈ ps, s.Whole (s.localPa g.pbase) g.size) → ∀ area body header, area = readBytes s.mem (s.localPa x.save) size →
                body = b.text ++ area ++ (ps.flatMap fun g => readBytes s.mem (s.localPa g.pbase) g.size) →
                header = capHeader x.meas b.cidx b.ctr (128 + body.length + 16 * chunkCount body.length) p.cols.length
                  (b.text.length / 16) b.salt →
                ∃ u, exec (.sealDone n) s = .next u ∧ StatusIs u b.fn 0x600 28 4 0 ∧ u.parts = s.parts ∧ u.cells = s.cells ∧
                  u.sealed = (capName header area, s.snapshot x.num) :: s.sealed ∧
                  u.mem = writeBytes s.mem (s.localPa b.addr) (header ++ sealBody (capKey k header) header body))))) ∧
        (s.capBusy.find? (fun b => b.part = n && b.op = 4) = some b → ∀ x k len at_ bs, b.target = some x → b.slot < 34 →
          mget s.sealKeys (64 * n + b.slot) = some k → len = fieldAt b.text 88 8 - 128 → at_ = s.localPa b.addr + 128 →
          s.capLinked [b.addr] = true → s.peerOf at_ = none → s.capAsks x.num = [] →
          bs = openBody (capKey k b.text) b.text (chunkCount len) 0 (readBytes s.mem at_ len) →
          let fails (c : Nat) : Prop := ∃ u q, exec (.restoreDone n) s = .next u ∧ StatusIs u b.fn 0x600 28 4 c ∧
            mget u.parts n = some q ∧ q.slot b.slot = {} ∧ u.ctxs = s.ctxs ∧ u.cells = s.cells
          ((bs = none ∨ ∃ q ∈ s.poison, overlaps at_ len (64 * q) 64 = true) → fails 5) ∧
          (∀ body ps count, bs = some body →
            (∀ q ∈ s.poison, overlaps at_ len (64 * q) 64 = false) → count = fieldAt b.text 100 4 →
            ps = (listEntries body count).filterMap (fun e => s.pageEntry x true e) →
            (ps.length ≠ count → fails 7) ∧
            (ps.length = count → body.length ≠ 16 * count + saveSize p.cols.length + (ps.map Page.size).sum → fails 5) ∧
            (ps.length = count → body.length = 16 * count + saveSize p.cols.length + (ps.map Page.size).sum →
              s.capLinked (ps.map Page.pbase) = true → (∀ g ∈ ps, s.peerOf (s.localPa g.pbase) = none) →
              ∃ u q, exec (.restoreDone n) s = .next u ∧ StatusIs u b.fn 0x600 28 4 0 ∧ mget u.parts n = some q ∧
                q.slot b.slot = ⟨.parked, x.num⟩ ∧ mget u.ctxs x.num = some x ∧
                (ps = [] → u.mem = writeBytes s.mem x.save ((body.drop (16 * count)).take (saveSize p.cols.length))))))

/-- RETRAIN trains a Down or Failed port; training ends Up or Degraded with its lanes and peer, or after the time
limit Down, Failed at the eighth failure (FAILS counts on: the model's reading, log entry 43); a lost link trains
again. A peer that a port reaches again is backed again, a peer number of 1,024 or more being a switch (the model's
readings, log entries 44 and 98), what waits for a path goes out, and a host link that trains lets out what was held
back for it (log entry 107). The host link trains with 16, 8 or 4 lanes alone, a UALink port with one to four (log
entry 109). RETRANSMIT sends a due packet once more, up to 64 times (log entry 62), while a port leads to its device.
Of the packets of a received flow with a path, the next one is delivered and the expected number moves on, one up to
4,095 ahead is held, both are acknowledged as an older one is, another is discarded, and an acknowledgement removes
its packet from the sent flow of its key and lets out what waits (log entry 108). A request of a device of the domain
to a covered line of this memory is performed and answered: a read with the bytes, a write and a masked line with an
acceptance, an atomic with the old bytes, a check with an acceptance alone (log entry 122); another is refused; of a
poisoned line a read, and a partial write and an atomic for a KILL page, are told that it is lost, and an atomic for a
ZERO page gets zeros. The refusal of the oldest open request of a number raises PROTECTION at the word that waits for
it (in flight, at an atomic's slot, at a copy, a stream or a weight store, at a reduction, at its issue or a refetch),
and for a published line at the task at the pour line; a request for which nothing waits leaves nothing (log entries
100 and 122). PEER_UNREACHABLE of a device that no port reaches, with nothing outstanding there, makes its range
unbacked; an outstanding request ends. A window access of the host inside memory writes its bytes and reads nothing
else into the machine. A barrier's episode completes when its participants have arrived, one of a gang at the lowest
device that an instance of it is on, once the whole gang has arrived and nothing that a bridge has brought is on its
way, and a device above, while it knows nothing of an instance of the gang, sends its arrival down, behind what the
gang has gathered (log entries 46 and 47); MULTICAST releases each participant, leaves its checkpoints, and the
episode goes with its last release unless a checkpoint of a participant is older than its arrival (log entry 124);
none goes on while its context is out of slot 0. FILTER keeps the k greatest of what it has and gets, by the order of
their format, the lower index first among equals, or sends them to another device of the domain (log entry 106); from
AT of a switch to the restore it waits. -/
def Obligations.LinkEvents : Prop :=
  (∀ (n lanes peer : Nat) (full : Bool) (s : State) (p : Port), p = s.port n →
        (s.boot = .ready → n < 27 → (p.st = 0 ∨ p.st = 4) → ∃ q : Port, exec (.retrain n) s = .next (s.putPort n q) ∧ q.st = 1 ∧
          (p.st = 4 → q.fails = 0) ∧ q.peer = p.peer) ∧
        ((p.st = 1 ∨ p.st = 2 ∨ p.st = 3) → exec (.retrain n) s = .next s) ∧
        (p.st = 1 → (∀ (q : Port) (v : State), (n < 24 → q = ⟨if full then 2 else 3, lanes, p.fails, peer % 65536⟩) →
              (24 ≤ n → q = ⟨if full then 2 else 3, lanes, p.fails, 0⟩) →
              (n < 24 → v = { s.putPort n q with peerDown := s.peerDown.filter fun d => !(d = q.peer || 1024 ≤ q.peer) }) →
              (24 ≤ n → n ≠ 26 → v = s.putPort n q) → (n = 26 → v = (s.putPort n q).hostBack) →
              (n < 24 → 1 ≤ lanes ∧ lanes ≤ 4 ∧ full = decide (lanes = 4)) →
              (n = 26 → lanes ∈ [4, 8, 16] ∧ full = decide (lanes = 16)) → 1 ≤ lanes →
            exec (.linkTrained n lanes peer full) s = .next { v with flows := v.flows.map fun f => (f.1, v.fillFlow f.1 f.2) }) ∧
          (n = 26 → lanes ∉ [4, 8, 16] → exec (.linkTrained n lanes peer full) s = .next s) ∧
          (n < 24 → lanes ∉ [1, 2, 3, 4] → exec (.linkTrained n lanes peer full) s = .next s) ∧
          exec (.trainingTimeout n) s = .next (s.putPort n ⟨if 7 ≤ p.fails then 4 else 0, 0, p.fails + 1, p.peer⟩) ∧
          exec (.linkLoss n) s = .next s) ∧
        ((p.st = 2 ∨ p.st = 3) → ∃ u, exec (.linkLoss n) s = .next u ∧ u.port n = ⟨1, 0, p.fails, p.peer⟩ ∧ u.mem = s.mem ∧
          ∀ f ∈ u.flows, ∀ k ∈ f.2.unacked, k.lost = true)) ∧
      (∀ (flow seq : Nat) (s : State) (f : Flow) (p : Packet), mget s.flows flow = some f → p ∈ f.unacked → p.seq = seq →
        (p.tries < 64 → (p.lost = true ∨ p.sent + 18000 ≤ s.cycle) →
          s.path (flowEnd flow) = true → ∃ g, exec (.retransmit flow seq) s = .next { s with flows := mset s.flows flow g } ∧
            g.next = f.next ∧ g.waiting = f.waiting ∧ { p with tries := p.tries + 1, sent := s.cycle, lost := false } ∈ g.unacked ∧
            g.unacked.length = f.unacked.length) ∧
        (s.boot = .ready → s.path (flowEnd flow) = true → exec (.packetArrival 0 0 (.ack flow seq)) s =
          .next { s with flows := mset s.flows flow (({ f with unacked := f.unacked.filter fun q => q.seq != seq } : Flow).fill s.cycle) })) ∧
      (∀ (flow seq : Nat) (body : Payload) (s : State) (f : Inflow), f = s.inflow flow → s.boot = .ready → (∀ k m, body ≠ .ack k m) →
        seq < 2 ^ 32 → f.expect < 2 ^ 32 →
        (s.path (flowEnd flow) = false → exec (.packetArrival flow seq body) s = .next s) ∧
        (s.path (flowEnd flow) = true → ∀ h, h = some (seq, s.cycle) →
          (seq = f.expect → f.held = [] → exec (.packetArrival flow seq body) s =
            .next (({ s with inflows := mset s.inflows flow { f with acked := h, expect := (f.expect + 1) % 2 ^ 32 } } :
              State).deliverPacket flow body)) ∧
          (f.expect < seq → seq < f.expect + 4096 → (∀ q ∈ f.held, q.seq ≠ seq) → exec (.packetArrival flow seq body) s =
            .next { s with inflows := mset s.inflows flow { f with acked := h, held := f.held ++ [{ seq := seq, body := body }] } }) ∧
          (f.expect + 4096 ≤ seq → seq < f.expect + 2 ^ 31 → exec (.packetArrival flow seq body) s = .next s) ∧
          (seq < f.expect → f.expect < seq + 2 ^ 31 → exec (.packetArrival flow seq body) s =
            .next { s with inflows := mset s.inflows flow { f with acked := h } }))) ∧
      (∀ (dev owner pa : Nat) (zero : Bool) (req : PeerOp) (s : State) (k : Nat), s.boot = .ready → Memory.wf s.mem = true →
        k = flowKey owner 1 dev → s.path dev = true → 0 < peerSize req → pa % 64 + peerSize req ≤ 64 →
        (s.peerMay dev pa (peerWrites req) = false → exec (.peerRequest dev owner pa zero req) s = .next (s.send k .refusal)) ∧
        (s.peerMay dev pa (peerWrites req) = true → pa / 64 ∉ s.poison →
          (∀ m, req = .read m → exec (.peerRequest dev owner pa zero req) s =
            .next (s.send k (.data (s.globalPa pa) (readBytes s.mem pa m) none))) ∧
          (req = .check → exec (.peerRequest dev owner pa zero req) s = .next (s.send k (.done (s.globalPa pa) none))) ∧
          (∀ bs, req = .write bs → ∃ u, exec (.peerRequest dev owner pa zero req) s = .next u ∧
            u.flows = (s.send k (.done (s.globalPa pa) none)).flows ∧ readBytes u.mem pa bs.length = bs ∧
            ∀ a, (a < pa ∨ pa + bs.length ≤ a) → readByte u.mem a = readByte s.mem a) ∧
          (∀ mask data, req = .line mask data → ∃ u, exec (.peerRequest dev owner pa zero req) s = .next u ∧
            u.flows = (s.send k (.done (s.globalPa pa) none)).flows ∧
            (∀ i, i < 64 → readByte u.mem (pa + i) = if mask.getLsbD i then byteOf data i else readByte s.mem (pa + i)) ∧
            ∀ a, (a < pa ∨ pa + 64 ≤ a) → readByte u.mem a = readByte s.mem a) ∧
          (∀ op b cmp v, req = .atomic op true b cmp →
            amoWrite op 64 (BitVec.ofNat 64 (leNat (readBytes s.mem pa 8))) b (cmp.setWidth 64) = some v →
            ∃ u, exec (.peerRequest dev owner pa zero req) s = .next u ∧ readBytes u.mem pa 8 = leBytes v.toNat 8 ∧
              u.flows = (s.send k (.data (s.globalPa pa) (readBytes s.mem pa 8) none)).flows ∧
              ∀ a, (a < pa ∨ pa + 8 ≤ a) → readByte u.mem a = readByte s.mem a) ∧
          (∀ op b cmp v, req = .atomic op false b cmp →
            amoWrite op 32 (BitVec.ofNat 32 (leNat (readBytes s.mem pa 4))) (b.setWidth 32) (cmp.setWidth 32) = some v →
            ∃ u, exec (.peerRequest dev owner pa zero req) s = .next u ∧ readBytes u.mem pa 4 = leBytes v.toNat 4 ∧
              u.flows = (s.send k (.data (s.globalPa pa) (readBytes s.mem pa 4) none)).flows ∧
              ∀ a, (a < pa ∨ pa + 4 ≤ a) → readByte u.mem a = readByte s.mem a)) ∧
        (s.peerMay dev pa (peerWrites req) = true → pa / 64 ∈ s.poison → ∀ no, no = s.send k (.poisoned (s.ownerOf (pa / 64)) (s.globalPa pa / 64)) →
          (∀ m, req = .read m → exec (.peerRequest dev owner pa zero req) s = .next no) ∧
          (∀ bs, req = .write bs → zero = false → bs.length < 64 → exec (.peerRequest dev owner pa zero req) s = .next no) ∧
          (∀ op wide b cmp, req = .atomic op wide b cmp → zero = false → exec (.peerRequest dev owner pa zero req) s = .next no) ∧
          (∀ op b cmp v, req = .atomic op true b cmp → zero = true → amoWrite op 64 0 b (cmp.setWidth 64) = some v →
            ∃ u, exec (.peerRequest dev owner pa zero req) s = .next u ∧ readBytes u.mem pa 8 = leBytes v.toNat 8 ∧ pa / 64 ∉ u.poison ∧
              u.flows = (s.send k (.data (s.globalPa pa) (List.replicate 8 0) (some (s.ownerOf (pa / 64))))).flows))) ∧
      (∀ (x cell n : Nat) (s : State), ∀ o, o = s.asks.find? (fun a => a.ctx = x && a.cell = cell && a.isOpen && a.who.number = n) →
        (o = none → exec (.peerRefusal x cell n) s = .next s) ∧
        ∀ a v, o = some a → v = { s with asks := s.asks.erase a } →
          (a.dead = true → exec (.peerRefusal x cell n) s = .next v) ∧
          (a.dead = false →
            (∀ id, a.who = .word id →
              (∀ (c : Cell) (t : Task) (f : Fly) (r : MemRef), v.flyOf x cell id = some (c, t, f) → f.op.ref = some r →
                exec (.peerRefusal x cell n) s = .next (v.flyFault t cell f .protection 0 0)) ∧
              (v.flyOf x cell id = none → ∀ (c : Cell) (t : Task), (v.goTo x cell).here = some (c, t) →
                (∀ op, c.scWait.bind ScWait.op = some op → c.nextFly = id → exec (.peerRefusal x cell n) s =
                  .next (((v.updCell x cell fun c => { c with scWait := none }).goTo x cell).raiseAt .a c t .protection 0
                    (BitVec.ofNat 64 op.r.va) 0)) ∧
                (∀ pc, c.scWait = none → c.movePc id = some pc →
                  exec (.peerRefusal x cell n) s = .next (v.holdAt t.id cell pc a.va .protection)))) ∧
            (∀ id r, a.who = .red id → v.reds.find? (fun r => r.ctx = x && r.cell = cell && r.id = id) = some r →
              exec (.peerRefusal x cell n) s = .next (({ v with reds := v.reds.erase r } : State).holdRed r .protection 0 0)) ∧
            (∀ (c : Cell) (t : Task), a.who = .issue → (v.goTo x cell).here = some (c, t) →
              (c.refetch = false → exec (.peerRefusal x cell n) s =
                .next ((v.goTo x cell).raiseAt .c c t .protection 0 (BitVec.ofNat 64 a.va) 0)) ∧
              (c.refetch = true → exec (.peerRefusal x cell n) s = .next (v.holdAt t.id cell (c.originAt a.va) a.va .protection))) ∧
            (∀ l t, a.who = .line l → (v.tasksOf x a.inst).find? v.atPour = some t → exec (.peerRefusal x cell n) s =
              .next (v.holdAndSettle t.id
                { code := .protection, cause := 0, engine := 0xFF, va := BitVec.ofNat 64 a.va, pc := 0, cell := cell, owner := 0 })))) ∧
      (∀ (dev : Nat) (s : State), s.boot = .ready → dev ∈ s.blob.domain → dev ≠ s.blob.device → dev ∉ s.peerDown →
        (s.path dev = true → exec (.peerUnreachable dev) s = .next s) ∧
        (s.path dev = false → (∀ f ∈ s.flows, flowClass f.1 ≠ 1 → flowEnd f.1 = dev → f.2.unacked = [] ∧ f.2.waiting = []) →
          ((∀ a ∈ s.asks, s.peerOf a.pa = some dev → a.ans.isSome = true) →
            exec (.peerUnreachable dev) s = .next { s with peerDown := dev :: s.peerDown }) ∧
          ((∀ a ∈ s.asks, ∀ l, a.who ≠ .line l) → ∃ u, exec (.peerUnreachable dev) s = .next u ∧ dev ∈ u.peerDown ∧
            u.cells = s.cells ∧ u.reds = s.reds ∧ ∀ a ∈ u.asks, s.peerOf a.pa = some dev → a.ans.isSome = true))) ∧
      (∀ (off size pa : Nat) (bs : List Byte) (s : State), s.boot = .ready → (s.port 26).carries = true → Memory.wf s.mem = true →
        s.windowPa off bs.length = some pa →
        0 < bs.length → pa % 64 + bs.length ≤ 64 → pa / 64 ∉ s.poison →
        (∃ u, exec (.hostMemAccess off size (some bs)) s = .next u ∧ readBytes u.mem pa bs.length = bs ∧
          ∀ a, (a < pa ∨ pa + bs.length ≤ a) → readByte u.mem a = readByte s.mem a) ∧
        exec (.hostMemAccess off bs.length none) s = .next s) ∧
      (∀ (n cell : Nat) (s : State) (e : Episode), s.episodes[n]? = some e →
        (s.collects e = false → ∀ d, exec (.gather n d) s = .next s ∧ exec (.multicast n cell) s = .next s) ∧
        (e.complete = false → s.collects e = true → e.gen ≠ 0 → s.localArrived e = true →
          (e.scope ≠ .dom → exec (.gather n none) s = .next { s with episodes := s.episodes.set n { e with complete := true } }) ∧
          (e.scope = .dom → ∀ d, e.sent = false → d ∈ s.blob.domain → d < s.blob.device →
            (∀ h ∈ s.heard, h.key = e.key → h.gang = e.gang → d ≤ h.dev) →
            ((s.joinedHere e).length + (s.localRetired e).length + (s.knownFar e).length < e.width → exec (.gather n (some d)) s =
              .next (((s.sendSums e [d]).send (flowKey e.ctx 2 d) (.arrival e.key e.gang e.bar e.gen s.blob.device e.ctx)).setEpisode n
                { e with sent := true })) ∧
            (e.width ≤ (s.joinedHere e).length + (s.localRetired e).length + (s.knownFar e).length →
              exec (.gather n (some d)) s = .next s)) ∧
          (e.scope = .dom → (∀ h ∈ s.heard, h.key = e.key → h.gang = e.gang → s.blob.device ≤ h.dev) → s.farGangs e = [] →
            ((s.gangArrived e = false ∨ s.bridging e.gang = true) → exec (.gather n none) s = .next s) ∧
            (s.gangArrived e = true → s.bridging e.gang = false →
              ∃ u, exec (.gather n none) s = .next u ∧ u.cells = s.cells ∧ ∀ x ∈ u.episodes, x.scope = .dom → x.key = e.key →
                x.bar = e.bar → x.gen = e.gen → x.gang = e.gang → x.complete = true))) ∧
        (e.complete = true → s.collects e = true → e.gen ≠ 0 → cell ∈ e.cells → cell ∉ e.released → ∀ c, s.getCell e.ctx cell = some c →
          ∃ u d, exec (.multicast n cell) s = .next u ∧ u.getCell e.ctx cell = some d ∧ u.mem = s.mem ∧ d.ckpts = c.ckpts ∧
            (s.cellOf e.ctx e.inst cell = false → u.cells = s.cells) ∧
            (s.cellOf e.ctx e.inst cell = true → ∀ b : Fin 32, b.val = e.bar → c.core.bars[b].st = .arrived →
              c.core.bars[b].gen = e.gen → c.core.bars[b].scope = e.scope → d.core.bars[b].st = .released) ∧
            ({ e with released := cell :: e.released } ∈ u.episodes ↔ (∃ m ∈ e.cells, m ≠ cell ∧ m ∉ e.released) ∨
              ∃ m ∈ e.cells, ∃ r, u.getCell e.ctx m = some r ∧ ∃ k ∈ r.ckpts, ∃ b : Fin 32, b.val = e.bar ∧ k.2.bars[b].gen < e.gen))) ∧
      ∀ (x id k : Nat) (l : Candidates) (s : State), (mget s.ctxs x).isSome = true →
        (s.ctxRuns x = false → ∀ d, exec (.filter x id k ⟨d, l⟩) s = .next s) ∧
        (s.ctxRuns x = true → ∀ old, old = ((s.filters.find? fun f => f.ctx = x && f.id = id).map Filter.cands).getD [] →
          ∃ p : List (Word32 × Nat), p.Perm (old ++ l.list) ∧
            p.Pairwise (fun y z => rankKey l.fmt z.1.toNat < rankKey l.fmt y.1.toNat ∨
              (rankKey l.fmt y.1.toNat = rankKey l.fmt z.1.toNat ∧ y.2 ≤ z.2)) ∧
            ∀ rest, rest = (s.filters.filter fun f => !(f.ctx = x && f.id = id)) →
              exec (.filter x id k ⟨none, l⟩) s = .next { s with filters := ⟨x, id, p.take k⟩ :: rest } ∧
              ∀ d, d ∈ s.blob.domain → d ≠ s.blob.device → exec (.filter x id k ⟨some d, l⟩) s =
                .next (({ s with filters := rest } : State).send (flowKey x 2 d) (.candidates x id k ⟨l.fmt, p.take k⟩)))

/-- POWER_UP opens the boot window with the 27 ports training; BOOTGO starts the check of the image, which ends at the
blob when its RSA-3072 PSS signature is valid under a key whose SHA-256 is the ROM's (State.romSigned; the form of key
and signature is the model's choice, log entry 119), otherwise in failure; a blob whose settings are not covered by a
valid signature is reported (blobBad counts it; the bytes under it are log entry 130's matter), a valid fitting blob
makes the part Ready and synchronised: a reference with TSNOW 0 when it has found no synchronised device, or reaches
no other device of its domain, and otherwise at the time that it has found (log entry 63), and one with a partition or
a column listed twice is refused as a whole (the model's choice, log entry 58), and a later one when it changes an
enabled binding or a column that is not halted. LIFETIME_UPDATE, while the firmware runs, adds the whole hours at
place 0 of the record, and what is left of one counts on (the record's layout is the model's choice, log entry 53).
POWER_DOWN in any state with power adds to the lifetime record and POWER_LOSS, which leaves the rest of memory while
no capsule is being written, does not; both leave memory below the peers' range empty (what survives is log entry 60).
A sample at or above 115 degrees removes power, another raises the level to hot at 105 and warm at 95; a level falls
by one step (log entry 54) after 1 ms 5 degrees below its threshold, and a sample above that, or one that ends such a
time, starts the time again. ARBITER_GRANT, once in 1,800 cycles, gives no cluster more slots than it has enabled
cells that run a started licensed command, or hold or claim the licence, a warm one half of that at most and a hot one
none, and all of them together no more than the limit's array slots; where these suffice for all who ask, a cluster
that is not hot or warm gets what it asks for. A correction is set only at a synchronised device that is no reference
and reaches its own; a device that reaches another of its domain joins a reference by a step forward or a hold, and
keeps one of a lower number; a reference is lost only when no path leads to it (the reference that a message names is
log entry 64's matter), and what is found before Ready is kept. A refresh window lasts as long as log entry 5 says.
While the part has power, a single error is counted, a double one poisons its word, in a register, a window, the
scratchpad, the accumulators or the weight store, and a line that fails its rebuild is poisoned. -/
def Obligations.BoardEvents : Prop :=
  (∀ s : State, (s.boot = .off → ∃ u, exec .powerUp s = .next u ∧ u.boot = .boot ∧ u.mem = s.mem ∧
          ∀ n, n < 27 → (u.port n).st = 1) ∧
        (s.boot ≠ .off → exec .powerUp s = .next s) ∧
        ((∀ b ∈ s.capBusy, b.op = 3 → b.store = true) → ∃ u, exec .powerLoss s = .next u ∧ u.boot = .off ∧ u.cells = [] ∧ u.regs = [] ∧ u.counters = s.counters ∧
          u.lifetime = s.lifetime ∧ (∀ a, a < peerBase → readByte u.mem a = 0) ∧ ∀ a, peerBase ≤ a → readByte u.mem a = readByte s.mem a) ∧
        (s.boot = .off → exec .powerDown s = .next s) ∧
        (s.boot ≠ .off → ∃ u, exec .powerDown s = .next u ∧ u.boot = .off ∧ u.cells = [] ∧ u.storeWrites = s.storeWrites + 1 ∧
          u.lifetime.getD 0 0 = s.lifetime.getD 0 0 + (s.lifeFrac + (s.cycle - s.lastLife)) / (3600 * 1800000000) ∧
          u.lifeFrac = (s.lifeFrac + (s.cycle - s.lastLife)) % (3600 * 1800000000) ∧
          ∀ a, a < peerBase → readByte u.mem a = 0) ∧
        (s.boot ≠ .blob → s.boot ≠ .ready → exec .lifetimeUpdate s = .next s) ∧
        (s.lifeFrac + (s.cycle - s.lastLife) < 3600 * 1800000000 → exec .lifetimeUpdate s = .next s) ∧
        ((s.boot = .blob ∨ s.boot = .ready) → 3600 * 1800000000 ≤ s.lifeFrac + (s.cycle - s.lastLife) → ∃ u, exec .lifetimeUpdate s = .next u ∧
          u.storeWrites = s.storeWrites + 1 ∧ u.lifetime.getD 0 0 = s.lifetime.getD 0 0 + (s.lifeFrac + (s.cycle - s.lastLife)) / (3600 * 1800000000) ∧
          u.lifeFrac = (s.lifeFrac + (s.cycle - s.lastLife)) % (3600 * 1800000000) ∧ u.lastLife = s.cycle ∧ u.cycle = s.cycle ∧
          u.mem = s.mem)) ∧
      (∀ (image : List Byte) (s : State), (s.boot = .boot → exec (.bootgo image) s = .next { s with boot := .verify, firmware := image }) ∧
        (s.boot ≠ .boot → exec (.bootgo image) s = .next s) ∧
        (s.boot = .verify → ∀ (g : Signature) (good : Prop), (good ↔ g.key.length = 384 ∧ g.sig.length = 384 ∧
            sha256 g.key = beBytes s.romHash.toNat 32 ∧ pssVerify (beNat g.key) s.firmware g.sig = true) →
          (good → exec (.firmwareVerifyDone g) s = .next { s with boot := .blob }) ∧
          (¬ good → exec (.firmwareVerifyDone g) s = .next { s with boot := .failed }))) ∧
      (∀ (b : BlobData) (g : Signature) (s : State),
        (s.boot ≠ .blob → s.boot ≠ .ready → exec (.blob b g) s = .next s) ∧
        ((s.boot = .blob ∨ s.boot = .ready) → s.romSigned (blobText b) g = false →
          exec (.blob b g) s = .next { s with blobBad := s.blobBad + 1 }) ∧
        (s.romSigned (blobText b) g = true →
        (blobFits b = true → s.boot = .blob → ∃ u, exec (.blob b g) s = .next u ∧ u.boot = .ready ∧ u.synced = true ∧
          u.blob.device = b.device ∧ u.blob.domain = List.range b.domain ∧ u.blob.plim = b.plim ∧ u.mem = s.mem ∧
          ((s.timeFound = none ∨ ∀ d, d < b.domain → d = b.device ∨ s.path d = false) → u.timeRef = some b.device ∧ u.tsnow = 0) ∧
          (∀ r t d, s.timeFound = some (r, t) → d < b.domain → d ≠ b.device → s.path d = true →
            u.timeRef = some r ∧ u.tsnow = t ∧ u.tsHold = 0) ∧ ∀ q ∈ b.parts, ∃ p, mget u.parts q.1 = some p ∧ p.cols = q.2.1 ∧ p.safept = q.2.2) ∧
        (s.boot = .ready → (∃ fn ∈ s.fnOn, mget s.blob.bindings fn ≠ blobBinding b fn) → exec (.blob b g) s = .next s) ∧
        (s.boot = .ready → (∃ c < 20, s.columnHalted c = false ∧ (s.partOfColumn c).map Prod.fst ≠ blobColumn b c) →
          exec (.blob b g) s = .next s) ∧
        (∀ p q, p ∈ b.parts → q ∈ b.parts → p ≠ q → (p.1 = q.1 ∨ ∃ c ∈ p.2.1, c ∈ q.2.1) → exec (.blob b g) s = .next s) ∧
        (blobFits b = true → s.boot = .ready → s.blobRefused b = false → ∃ u, exec (.blob b g) s = .next u ∧ u.boot = .ready ∧
          u.blob.plim = b.plim ∧ u.mem = s.mem ∧ u.regs = s.regs ∧
          ∀ q ∈ b.parts, ∃ p, mget u.parts q.1 = some p ∧ p.cols = q.2.1 ∧ p.safept = q.2.2))) ∧
      (∀ (n temp : Nat) (s : State) (c : Cluster), c = s.cluster n → s.boot ≠ .off → n < 40 →
        (115 ≤ temp → exec (.thermalSample n temp) s = .next s.losePower) ∧
        (temp < 115 → ∃ u d, exec (.thermalSample n temp) s = .next u ∧ u.cluster n = d ∧ d.temp = temp ∧ u.mem = s.mem ∧
          (105 ≤ temp → c.lvl ≤ 2 → d.lvl = 2) ∧ (95 ≤ temp → temp < 105 → d.lvl = Nat.max c.lvl 1) ∧ (temp < 95 → d.lvl = c.lvl) ∧
          ((if d.lvl = 2 then 100 else 90) < Nat.max temp c.temp → d.coolCyc = 0) ∧
          (Nat.max temp c.temp ≤ (if d.lvl = 2 then 100 else 90) → d.lvl = c.lvl → d.coolCyc = c.coolCyc)) ∧
        (0 < c.lvl → 1800000 ≤ c.coolCyc → c.temp ≤ (if c.lvl = 2 then 100 else 90) →
          exec (.thermalLevelFall n) s = .next { s with clusters := mset s.clusters n { c with lvl := c.lvl - 1, coolCyc := 0 } }) ∧
        ((c.coolCyc < 1800000 ∨ c.lvl = 0) → exec (.thermalLevelFall n) s = .next s)) ∧
      (∀ (s : State) (asks : Nat → Nat) (slots : Nat), s.boot = .ready →
        (∀ n, asks n = ((clusterCells n).filter fun c => s.cellEnabled c && (s.arrayRuns c || s.arrayWants c)).length) →
        slots = arraySlots s.blob.plim ((List.range 40).filter fun n => !((clusterCells n).filter s.cellEnabled).isEmpty).length →
        (s.cycle < s.lastGrant + 1800 → exec .arbiterGrant s = .next s) ∧
        (s.lastGrant + 1800 ≤ s.cycle → ∃ u, exec .arbiterGrant s = .next u ∧ u.lastGrant = s.cycle ∧ u.cells = s.cells ∧
          ((List.range 40).map fun n => (u.cluster n).grant).sum ≤ slots ∧
          ∀ n, n < 40 → (u.cluster n).lvl = (s.cluster n).lvl ∧ (u.cluster n).grant ≤ asks n ∧
            ((s.cluster n).lvl = 1 → 2 * (u.cluster n).grant ≤ asks n) ∧ (2 ≤ (s.cluster n).lvl → (u.cluster n).grant = 0) ∧
            (((List.range 40).map asks).sum ≤ slots → (s.cluster n).lvl = 0 → (u.cluster n).grant = asks n))) ∧
      (∀ (d : Int) (ref time : Nat) (s : State),
        (s.boot = .blob → s.upLink = true → exec (.timeJoin ref time) s = .next { s with timeFound := some (ref, time) }) ∧
        (s.boot = .ready →
          (∀ r, s.synced = true → s.timeRef = some r → r ≠ s.blob.device →
            (s.path r = true → exec (.timeSync d) s = .next { s with slew := d } ∧ exec (.referenceLost ref) s = .next s) ∧
            (s.path r = false → exec (.timeSync d) s = .next s ∧
              (ref ≠ r → ref ∈ s.blob.domain → ((ref < s.blob.device ∧ s.path ref = true) →
                exec (.referenceLost ref) s = .next { s with timeRef := some ref }) ∧
                (ref = s.blob.device → exec (.referenceLost ref) s = .next { s with timeRef := some ref, slew := 0 }) ∧
                (s.blob.device < ref → exec (.referenceLost ref) s = .next s)))) ∧
          ((s.synced = false ∨ s.timeRef = some s.blob.device) → exec (.timeSync d) s = .next s) ∧
          (s.reachesDomain = false → exec (.timeJoin ref time) s = .next s) ∧
          (s.reachesDomain = true → (∀ r, s.timeRef = some r → ref < r) → ∃ u, exec (.timeJoin ref time) s = .next u ∧
            u.synced = true ∧ u.timeRef = some ref ∧ u.tsnow = Nat.max s.tsnow time ∧ u.tsHold = s.tsnow - time) ∧
          (∀ r, s.timeRef = some r → r ≤ ref → exec (.timeJoin ref time) s = .next s))) ∧
      (∀ (place : TamperPlace) (d : Bool) (line : Nat) (s : State), s.boot = .off →
        exec (.tamperRead place d) s = .next s ∧ exec (.patrolRead line d) s = .next s) ∧
      (∀ (x cell w line : Nat) (s : State), s.boot ≠ .off →
        (∃ u, exec (.tamperRead (.spad x cell w) false) s = .next u ∧ u.cells = s.cells ∧ u.mem = s.mem ∧
          ((∀ e, s.errNow = some e → e.cycle ≠ s.cycle) → u.errSeq = s.errSeq + 1)) ∧
        (∀ c, s.getCell x cell = some c → w < 0x20000 → ∃ u d, exec (.tamperRead (.spad x cell w) true) s = .next u ∧
          u.getCell x cell = some d ∧ w ∈ d.spadBad ∧ d.spad = c.spad ∧ d.core = c.core) ∧
        (∀ c, s.getCell x cell = some c → w < 0x10000 → ∃ u d, exec (.tamperRead (.acc x cell w) true) s = .next u ∧
          u.getCell x cell = some d ∧ w ∈ d.accBad ∧ d.banks = c.banks ∧ d.core = c.core) ∧
        (∀ (c : Cell) (i : Fin 16) (n : Fin 4), s.getCell x cell = some c →
          (∃ u d, exec (.tamperRead (.reg x cell .areg i.val (some n.val)) true) s = .next u ∧ u.getCell x cell = some d ∧
            d.core = { c.core with aregs := c.core.aregs.set i { c.core.aregs[i] with bad := c.core.aregs[i].bad ||| (1 <<< n.val) } }) ∧
          (∃ u d, exec (.tamperRead (.reg x cell .sreg i.val none) true) s = .next u ∧ u.getCell x cell = some d ∧
            d.core = { c.core with sregs := c.core.sregs.set i { c.core.sregs[i] with tagBad := true } })) ∧
        (∀ (c : Cell) (f : RegFile) (i : Nat) (n : Option Nat), s.getCell x cell = some c → f ≠ .window →
          (∃ u d, exec (.tamperRead (.reg x cell f i n) true) s = .next u ∧ u.getCell x cell = some d ∧ d.core = c.core.poisonReg f i n) ∧
          ∃ u, exec (.tamperRead (.reg x cell f i n) false) s = .next u ∧ u.cells = s.cells) ∧
        (∀ (i : Fin 8) (n : Option Nat), ∃ u, exec (.tamperRead (.reg x cell .window i.val n) true) s = .next u ∧ u.cells = s.cells ∧
          mget u.windows (windowKey x cell i) = some (((mget s.windows (windowKey x cell i)).getD {}).poison n)) ∧
        (wsBase ≤ 8 * w → 8 * w < wsBase + 40 * 0x4000000 → s.steep (8 * w) = false →
          (∃ u, exec (.tamperRead (.weight w) true) s = .next u ∧ w ∈ u.wsBad ∧ u.mem = s.mem ∧ u.cells = s.cells) ∧
          ∃ u, exec (.tamperRead (.weight w) false) s = .next u ∧ u.wsBad = s.wsBad ∧ u.mem = s.mem ∧ u.cells = s.cells) ∧
        (64 * line < s.hbmCap → line ∉ s.poison → ∃ u, exec (.patrolRead line true) s = .next u ∧ u.poison = line :: s.poison ∧
          ∃ v, exec (.patrolRead line false) s = .next v ∧ v.poison = s.poison ∧ v.mem = s.mem ∧ u.mem = s.mem) ∧
        (s.wrefLeft = 0 → exec .refreshWindow s = .next { s with wrefCur := s.wrefCur + 1, wrefLeft := 3600 }) ∧
        (0 < s.wrefLeft → exec .refreshWindow s = .next s))
end

