-- ==== Sys2Proof/Laws/Memory.lean ====
section
/-! SUPPORT. The laws of sparse maps and of memory: every operation keeps the canonical form, a read after a write gives
what was written, and a write leaves every other byte alone. -/

namespace Sys2Proof.Machine

open Sys2Proof

/-- Keys strictly rise. -/
def AMap.sorted {α : Type} (m : AMap α) : Prop := m.Pairwise fun p q => p.1 < q.1

theorem mget_mset_same {α : Type} (m : AMap α) (k : Nat) (v : α) : mget (mset m k v) k = some v := by
  induction m with
  | nil => simp [mset, mget]
  | cons p ps ih =>
    simp only [mset]
    split
    · simp [mget]
    · split
      · simp [mget]
      · simp [mget, *]

theorem mget_mset_other {α : Type} (m : AMap α) {k j : Nat} (v : α) (h : j ≠ k) : mget (mset m k v) j = mget m j := by
  induction m with
  | nil => simp [mset, mget, Ne.symm h]
  | cons p ps ih =>
    simp only [mset]
    split
    · simp [mget, Ne.symm h]
    · split
      · subst_vars; simp [mget, Ne.symm h]
      · simp [mget, ih]

theorem mset_mset {α : Type} (m : AMap α) (k : Nat) (v w : α) : mset (mset m k v) k w = mset m k w := by
  induction m with
  | nil => simp [mset]
  | cons p ps ih =>
    simp only [mset]
    split
    · simp [mset]
    · split
      · simp [mset]
      · simp [mset, *]

theorem mget_none {α : Type} {m : AMap α} {j : Nat} (h : ∀ p ∈ m, p.1 ≠ j) : mget m j = none := by
  induction m with
  | nil => rfl
  | cons p ps ih => simp [mget, h p (by simp), ih fun q hq => h q (by simp [hq])]

theorem mget_mdel_other {α : Type} (m : AMap α) {k j : Nat} (h : j ≠ k) : mget (mdel m k) j = mget m j := by
  induction m with
  | nil => rfl
  | cons p ps ih =>
    simp only [mdel]
    split
    · subst_vars; simp [mget, Ne.symm h]
    · simp [mget, ih]

theorem mget_mdel_same {α : Type} {m : AMap α} (hs : m.sorted) (k : Nat) : mget (mdel m k) k = none := by
  induction m with
  | nil => rfl
  | cons p ps ih =>
    obtain ⟨h1, h2⟩ := List.pairwise_cons.1 hs
    simp only [mdel]
    split
    · subst_vars; exact mget_none fun q hq => by have := h1 q hq; omega
    · simp [mget, ih h2, *]

theorem mem_mset {α : Type} {m : AMap α} {k : Nat} {v : α} {p : Nat × α} (h : p ∈ mset m k v) : p = (k, v) ∨ p ∈ m := by
  induction m with
  | nil => simpa [mset] using h
  | cons q qs ih =>
    simp only [mset] at h
    split at h
    · simpa using h
    · split at h
      · simp only [List.mem_cons] at h ⊢; exact h.imp id .inr
      · simp only [List.mem_cons] at h ⊢; rcases h with h | h
        · exact .inr (.inl h)
        · exact (ih h).imp id .inr

theorem mem_mdel {α : Type} {m : AMap α} {k : Nat} {p : Nat × α} (h : p ∈ mdel m k) : p ∈ m := by
  induction m with
  | nil => exact h
  | cons q qs ih =>
    simp only [mdel] at h
    split at h
    · exact List.mem_cons_of_mem _ h
    · rcases List.mem_cons.1 h with h | h
      · simp [h]
      · exact List.mem_cons_of_mem _ (ih h)

theorem mset_sorted {α : Type} {m : AMap α} (h : m.sorted) (k : Nat) (v : α) : (mset m k v).sorted := by
  induction m with
  | nil => simp [mset, AMap.sorted]
  | cons p ps ih =>
    obtain ⟨h1, h2⟩ := List.pairwise_cons.1 h
    simp only [mset]
    split
    · refine List.pairwise_cons.2 ⟨?_, h⟩
      intro q hq
      rcases List.mem_cons.1 hq with rfl | hq
      · assumption
      · have := h1 q hq; show k < q.1; omega
    · split
      · subst_vars; exact List.pairwise_cons.2 ⟨h1, h2⟩
      · refine List.pairwise_cons.2 ⟨?_, ih h2⟩
        intro q hq
        rcases mem_mset hq with rfl | hq
        · show p.1 < k; omega
        · exact h1 q hq

theorem mdel_sorted {α : Type} {m : AMap α} (h : m.sorted) (k : Nat) : (mdel m k).sorted := by
  induction m with
  | nil => exact h
  | cons p ps ih =>
    obtain ⟨h1, h2⟩ := List.pairwise_cons.1 h
    simp only [mdel]
    split
    · exact h2
    · exact List.pairwise_cons.2 ⟨fun q hq => h1 q (mem_mdel hq), ih h2⟩

theorem wf_iff (m : Memory) : Memory.wf m = true ↔ AMap.sorted m ∧ ∀ p ∈ m, p.2 ≠ 0 := by
  induction m with
  | nil => simp [Memory.wf, AMap.sorted]
  | cons p ps ih =>
    cases ps with
    | nil => simp [Memory.wf, AMap.sorted]
    | cons q qs =>
      simp only [Memory.wf, Bool.and_eq_true, bne_iff_ne, decide_eq_true_eq, ih, AMap.sorted, List.pairwise_cons]
      constructor
      · rintro ⟨⟨h1, h2⟩, ⟨h3, h4⟩, h5⟩
        refine ⟨⟨?_, h3, h4⟩, fun r hr => (List.mem_cons.1 hr).elim (fun e => e ▸ h1) (h5 r)⟩
        intro r hr
        rcases List.mem_cons.1 hr with rfl | hr
        · exact h2
        · have := h3 r hr; omega
      · rintro ⟨⟨h1, h2⟩, h3⟩
        exact ⟨⟨h3 p (by simp), h1 q (by simp)⟩, h2, fun r hr => h3 r (List.mem_cons_of_mem _ hr)⟩

theorem writeByte_wf {m : Memory} (h : Memory.wf m = true) (a : Nat) (b : Byte) : Memory.wf (writeByte m a b) = true := by
  rw [wf_iff] at h ⊢
  unfold writeByte
  split
  · exact ⟨mdel_sorted h.1 a, fun p hp => h.2 p (mem_mdel hp)⟩
  · refine ⟨mset_sorted h.1 a b, fun p hp => ?_⟩
    rcases mem_mset hp with rfl | hp
    · assumption
    · exact h.2 p hp

theorem writeBytes_wf {m : Memory} (h : Memory.wf m = true) (a : Nat) (bs : List Byte) :
    Memory.wf (writeBytes m a bs) = true := by
  induction bs generalizing m a with
  | nil => exact h
  | cons b bs ih => exact ih (writeByte_wf h a b) (a + 1)

theorem filter_wf {m : Memory} (h : Memory.wf m = true) (f : Host.Cell → Bool) : Memory.wf (m.filter f) = true := by
  rw [wf_iff] at h ⊢
  exact ⟨h.1.filter f, fun p hp => h.2 p (List.mem_filter.1 hp).1⟩

theorem readByte_writeByte_same {m : Memory} (h : Memory.wf m = true) (a : Nat) (b : Byte) :
    readByte (writeByte m a b) a = b := by
  unfold readByte writeByte
  split
  · rw [mget_mdel_same ((wf_iff m).1 h).1]; simp_all
  · rw [mget_mset_same]; rfl

theorem readByte_writeByte_other (m : Memory) {a c : Nat} (b : Byte) (h : c ≠ a) :
    readByte (writeByte m a b) c = readByte m c := by
  unfold readByte writeByte
  split
  · rw [mget_mdel_other m h]
  · rw [mget_mset_other m b h]

theorem readByte_writeBytes_other (m : Memory) (a : Nat) (bs : List Byte) {c : Nat} (h : c < a ∨ a + bs.length ≤ c) :
    readByte (writeBytes m a bs) c = readByte m c := by
  induction bs generalizing m a with
  | nil => rfl
  | cons b bs ih =>
    simp only [List.length_cons] at h
    rw [writeBytes, ih _ _ (by omega), readByte_writeByte_other m b (by omega)]

theorem readBytes_writeBytes {m : Memory} (h : Memory.wf m = true) (a : Nat) (bs : List Byte) :
    readBytes (writeBytes m a bs) a bs.length = bs := by
  induction bs generalizing m a with
  | nil => rfl
  | cons b bs ih =>
    rw [List.length_cons, writeBytes, readBytes, ih (writeByte_wf h a b),
      readByte_writeBytes_other _ _ _ (.inl (Nat.lt_succ_self a)), readByte_writeByte_same h]

end Sys2Proof.Machine
end

