-- ==== Sys2Proof/Laws/State.lean ====
section
/-! SUPPORT. What the basic updates of the state leave alone: one lemma per field and update, true by `rfl`. -/

namespace Sys2Proof.Machine

open Sys2Proof

@[simp] theorem State.putCell_cur (s : State) (ctx cell : Nat) (c : Cell) : (s.putCell ctx cell c).cur = s.cur := rfl
@[simp] theorem State.putCell_agenda (s : State) (ctx cell : Nat) (c : Cell) : (s.putCell ctx cell c).agenda = s.agenda := rfl
@[simp] theorem State.putCell_free (s : State) (ctx cell : Nat) (c : Cell) : (s.putCell ctx cell c).free = s.free := rfl
@[simp] theorem State.putCell_nextId (s : State) (ctx cell : Nat) (c : Cell) : (s.putCell ctx cell c).nextId = s.nextId := rfl
@[simp] theorem State.putCell_cycle (s : State) (ctx cell : Nat) (c : Cell) : (s.putCell ctx cell c).cycle = s.cycle := rfl
@[simp] theorem State.putCell_tsnow (s : State) (ctx cell : Nat) (c : Cell) : (s.putCell ctx cell c).tsnow = s.tsnow := rfl
@[simp] theorem State.putCell_tsfrac (s : State) (ctx cell : Nat) (c : Cell) : (s.putCell ctx cell c).tsfrac = s.tsfrac := rfl
@[simp] theorem State.putCell_tsHold (s : State) (ctx cell : Nat) (c : Cell) : (s.putCell ctx cell c).tsHold = s.tsHold := rfl
@[simp] theorem State.putCell_synced (s : State) (ctx cell : Nat) (c : Cell) : (s.putCell ctx cell c).synced = s.synced := rfl
@[simp] theorem State.putCell_timeRef (s : State) (ctx cell : Nat) (c : Cell) : (s.putCell ctx cell c).timeRef = s.timeRef := rfl
@[simp] theorem State.putCell_timeFound (s : State) (ctx cell : Nat) (c : Cell) : (s.putCell ctx cell c).timeFound = s.timeFound := rfl
@[simp] theorem State.putCell_slew (s : State) (ctx cell : Nat) (c : Cell) : (s.putCell ctx cell c).slew = s.slew := rfl
@[simp] theorem State.putCell_wrefCur (s : State) (ctx cell : Nat) (c : Cell) : (s.putCell ctx cell c).wrefCur = s.wrefCur := rfl
@[simp] theorem State.putCell_wrefLeft (s : State) (ctx cell : Nat) (c : Cell) : (s.putCell ctx cell c).wrefLeft = s.wrefLeft := rfl
@[simp] theorem State.putCell_boot (s : State) (ctx cell : Nat) (c : Cell) : (s.putCell ctx cell c).boot = s.boot := rfl
@[simp] theorem State.putCell_clusters (s : State) (ctx cell : Nat) (c : Cell) : (s.putCell ctx cell c).clusters = s.clusters := rfl
@[simp] theorem State.putCell_firmware (s : State) (ctx cell : Nat) (c : Cell) : (s.putCell ctx cell c).firmware = s.firmware := rfl
@[simp] theorem State.putCell_lifetime (s : State) (ctx cell : Nat) (c : Cell) : (s.putCell ctx cell c).lifetime = s.lifetime := rfl
@[simp] theorem State.putCell_errKinds (s : State) (ctx cell : Nat) (c : Cell) : (s.putCell ctx cell c).errKinds = s.errKinds := rfl
@[simp] theorem State.putCell_lastLife (s : State) (ctx cell : Nat) (c : Cell) : (s.putCell ctx cell c).lastLife = s.lastLife := rfl
@[simp] theorem State.putCell_lifeFrac (s : State) (ctx cell : Nat) (c : Cell) : (s.putCell ctx cell c).lifeFrac = s.lifeFrac := rfl
@[simp] theorem State.putCell_lastGrant (s : State) (ctx cell : Nat) (c : Cell) : (s.putCell ctx cell c).lastGrant = s.lastGrant := rfl
@[simp] theorem State.putCell_lastSlot (s : State) (ctx cell : Nat) (c : Cell) : (s.putCell ctx cell c).lastSlot = s.lastSlot := rfl
@[simp] theorem State.putCell_mem (s : State) (ctx cell : Nat) (c : Cell) : (s.putCell ctx cell c).mem = s.mem := rfl
@[simp] theorem State.putCell_poison (s : State) (ctx cell : Nat) (c : Cell) : (s.putCell ctx cell c).poison = s.poison := rfl
@[simp] theorem State.putCell_consumed (s : State) (ctx cell : Nat) (c : Cell) : (s.putCell ctx cell c).consumed = s.consumed := rfl
@[simp] theorem State.putCell_owners (s : State) (ctx cell : Nat) (c : Cell) : (s.putCell ctx cell c).owners = s.owners := rfl
@[simp] theorem State.putCell_wsBad (s : State) (ctx cell : Nat) (c : Cell) : (s.putCell ctx cell c).wsBad = s.wsBad := rfl
@[simp] theorem State.putCell_phys (s : State) (ctx cell : Nat) (c : Cell) : (s.putCell ctx cell c).phys = s.phys := rfl
@[simp] theorem State.putCell_tlb (s : State) (ctx cell : Nat) (c : Cell) : (s.putCell ctx cell c).tlb = s.tlb := rfl
@[simp] theorem State.putCell_pairs (s : State) (ctx cell : Nat) (c : Cell) : (s.putCell ctx cell c).pairs = s.pairs := rfl
@[simp] theorem State.putCell_windows (s : State) (ctx cell : Nat) (c : Cell) : (s.putCell ctx cell c).windows = s.windows := rfl
@[simp] theorem State.putCell_parts (s : State) (ctx cell : Nat) (c : Cell) : (s.putCell ctx cell c).parts = s.parts := rfl
@[simp] theorem State.putCell_visit (s : State) (ctx cell : Nat) (c : Cell) : (s.putCell ctx cell c).visit = s.visit := rfl
@[simp] theorem State.putCell_ctxs (s : State) (ctx cell : Nat) (c : Cell) : (s.putCell ctx cell c).ctxs = s.ctxs := rfl
@[simp] theorem State.putCell_kernels (s : State) (ctx cell : Nat) (c : Cell) : (s.putCell ctx cell c).kernels = s.kernels := rfl
@[simp] theorem State.putCell_carafe (s : State) (ctx cell : Nat) (c : Cell) : (s.putCell ctx cell c).carafe = s.carafe := rfl
@[simp] theorem State.putCell_insts (s : State) (ctx cell : Nat) (c : Cell) : (s.putCell ctx cell c).insts = s.insts := rfl
@[simp] theorem State.putCell_groups (s : State) (ctx cell : Nat) (c : Cell) : (s.putCell ctx cell c).groups = s.groups := rfl
@[simp] theorem State.putCell_tasks (s : State) (ctx cell : Nat) (c : Cell) : (s.putCell ctx cell c).tasks = s.tasks := rfl
@[simp] theorem State.putCell_carries (s : State) (ctx cell : Nat) (c : Cell) : (s.putCell ctx cell c).carries = s.carries := rfl
@[simp] theorem State.putCell_reds (s : State) (ctx cell : Nat) (c : Cell) : (s.putCell ctx cell c).reds = s.reds := rfl
@[simp] theorem State.putCell_episodes (s : State) (ctx cell : Nat) (c : Cell) : (s.putCell ctx cell c).episodes = s.episodes := rfl
@[simp] theorem State.putCell_heard (s : State) (ctx cell : Nat) (c : Cell) : (s.putCell ctx cell c).heard = s.heard := rfl
@[simp] theorem State.putCell_regs (s : State) (ctx cell : Nat) (c : Cell) : (s.putCell ctx cell c).regs = s.regs := rfl
@[simp] theorem State.putCell_fnOn (s : State) (ctx cell : Nat) (c : Cell) : (s.putCell ctx cell c).fnOn = s.fnOn := rfl
@[simp] theorem State.putCell_pending (s : State) (ctx cell : Nat) (c : Cell) : (s.putCell ctx cell c).pending = s.pending := rfl
@[simp] theorem State.putCell_heldRecs (s : State) (ctx cell : Nat) (c : Cell) : (s.putCell ctx cell c).heldRecs = s.heldRecs := rfl
@[simp] theorem State.putCell_heldFaults (s : State) (ctx cell : Nat) (c : Cell) : (s.putCell ctx cell c).heldFaults = s.heldFaults := rfl
@[simp] theorem State.putCell_invBusy (s : State) (ctx cell : Nat) (c : Cell) : (s.putCell ctx cell c).invBusy = s.invBusy := rfl
@[simp] theorem State.putCell_dropped (s : State) (ctx cell : Nat) (c : Cell) : (s.putCell ctx cell c).dropped = s.dropped := rfl
@[simp] theorem State.putCell_repairBusy (s : State) (ctx cell : Nat) (c : Cell) : (s.putCell ctx cell c).repairBusy = s.repairBusy := rfl
@[simp] theorem State.putCell_hbmGiB (s : State) (ctx cell : Nat) (c : Cell) : (s.putCell ctx cell c).hbmGiB = s.hbmGiB := rfl
@[simp] theorem State.putCell_errBanks (s : State) (ctx cell : Nat) (c : Cell) : (s.putCell ctx cell c).errBanks = s.errBanks := rfl
@[simp] theorem State.putCell_errSeq (s : State) (ctx cell : Nat) (c : Cell) : (s.putCell ctx cell c).errSeq = s.errSeq := rfl
@[simp] theorem State.putCell_errNow (s : State) (ctx cell : Nat) (c : Cell) : (s.putCell ctx cell c).errNow = s.errNow := rfl
@[simp] theorem State.putCell_brkPast (s : State) (ctx cell : Nat) (c : Cell) : (s.putCell ctx cell c).brkPast = s.brkPast := rfl
@[simp] theorem State.putCell_ports (s : State) (ctx cell : Nat) (c : Cell) : (s.putCell ctx cell c).ports = s.ports := rfl
@[simp] theorem State.putCell_flows (s : State) (ctx cell : Nat) (c : Cell) : (s.putCell ctx cell c).flows = s.flows := rfl
@[simp] theorem State.putCell_inflows (s : State) (ctx cell : Nat) (c : Cell) : (s.putCell ctx cell c).inflows = s.inflows := rfl
@[simp] theorem State.putCell_peerDown (s : State) (ctx cell : Nat) (c : Cell) : (s.putCell ctx cell c).peerDown = s.peerDown := rfl
@[simp] theorem State.putCell_asks (s : State) (ctx cell : Nat) (c : Cell) : (s.putCell ctx cell c).asks = s.asks := rfl
@[simp] theorem State.putCell_recv (s : State) (ctx cell : Nat) (c : Cell) : (s.putCell ctx cell c).recv = s.recv := rfl
@[simp] theorem State.putCell_bridgeSums (s : State) (ctx cell : Nat) (c : Cell) : (s.putCell ctx cell c).bridgeSums = s.bridgeSums := rfl
@[simp] theorem State.putCell_romHash (s : State) (ctx cell : Nat) (c : Cell) : (s.putCell ctx cell c).romHash = s.romHash := rfl
@[simp] theorem State.putCell_blob (s : State) (ctx cell : Nat) (c : Cell) : (s.putCell ctx cell c).blob = s.blob := rfl
@[simp] theorem State.putCell_blobBad (s : State) (ctx cell : Nat) (c : Cell) : (s.putCell ctx cell c).blobBad = s.blobBad := rfl
@[simp] theorem State.putCell_counters (s : State) (ctx cell : Nat) (c : Cell) : (s.putCell ctx cell c).counters = s.counters := rfl
@[simp] theorem State.putCell_storeWrites (s : State) (ctx cell : Nat) (c : Cell) : (s.putCell ctx cell c).storeWrites = s.storeWrites := rfl
@[simp] theorem State.putCell_storeKey (s : State) (ctx cell : Nat) (c : Cell) : (s.putCell ctx cell c).storeKey = s.storeKey := rfl
@[simp] theorem State.putCell_capBusy (s : State) (ctx cell : Nat) (c : Cell) : (s.putCell ctx cell c).capBusy = s.capBusy := rfl
@[simp] theorem State.putCell_capNonces (s : State) (ctx cell : Nat) (c : Cell) : (s.putCell ctx cell c).capNonces = s.capNonces := rfl
@[simp] theorem State.putCell_sealKeys (s : State) (ctx cell : Nat) (c : Cell) : (s.putCell ctx cell c).sealKeys = s.sealKeys := rfl
@[simp] theorem State.putCell_filters (s : State) (ctx cell : Nat) (c : Cell) : (s.putCell ctx cell c).filters = s.filters := rfl
@[simp] theorem State.putCell_sealed (s : State) (ctx cell : Nat) (c : Cell) : (s.putCell ctx cell c).sealed = s.sealed := rfl
@[simp] theorem State.updCell_cur (s : State) (ctx cell : Nat) (f : Cell → Cell) : (s.updCell ctx cell f).cur = s.cur := rfl
@[simp] theorem State.updCell_agenda (s : State) (ctx cell : Nat) (f : Cell → Cell) : (s.updCell ctx cell f).agenda = s.agenda := rfl
@[simp] theorem State.updCell_free (s : State) (ctx cell : Nat) (f : Cell → Cell) : (s.updCell ctx cell f).free = s.free := rfl
@[simp] theorem State.updCell_nextId (s : State) (ctx cell : Nat) (f : Cell → Cell) : (s.updCell ctx cell f).nextId = s.nextId := rfl
@[simp] theorem State.updCell_cycle (s : State) (ctx cell : Nat) (f : Cell → Cell) : (s.updCell ctx cell f).cycle = s.cycle := rfl
@[simp] theorem State.updCell_tsnow (s : State) (ctx cell : Nat) (f : Cell → Cell) : (s.updCell ctx cell f).tsnow = s.tsnow := rfl
@[simp] theorem State.updCell_tsfrac (s : State) (ctx cell : Nat) (f : Cell → Cell) : (s.updCell ctx cell f).tsfrac = s.tsfrac := rfl
@[simp] theorem State.updCell_tsHold (s : State) (ctx cell : Nat) (f : Cell → Cell) : (s.updCell ctx cell f).tsHold = s.tsHold := rfl
@[simp] theorem State.updCell_synced (s : State) (ctx cell : Nat) (f : Cell → Cell) : (s.updCell ctx cell f).synced = s.synced := rfl
@[simp] theorem State.updCell_timeRef (s : State) (ctx cell : Nat) (f : Cell → Cell) : (s.updCell ctx cell f).timeRef = s.timeRef := rfl
@[simp] theorem State.updCell_timeFound (s : State) (ctx cell : Nat) (f : Cell → Cell) : (s.updCell ctx cell f).timeFound = s.timeFound := rfl
@[simp] theorem State.updCell_slew (s : State) (ctx cell : Nat) (f : Cell → Cell) : (s.updCell ctx cell f).slew = s.slew := rfl
@[simp] theorem State.updCell_wrefCur (s : State) (ctx cell : Nat) (f : Cell → Cell) : (s.updCell ctx cell f).wrefCur = s.wrefCur := rfl
@[simp] theorem State.updCell_wrefLeft (s : State) (ctx cell : Nat) (f : Cell → Cell) : (s.updCell ctx cell f).wrefLeft = s.wrefLeft := rfl
@[simp] theorem State.updCell_boot (s : State) (ctx cell : Nat) (f : Cell → Cell) : (s.updCell ctx cell f).boot = s.boot := rfl
@[simp] theorem State.updCell_clusters (s : State) (ctx cell : Nat) (f : Cell → Cell) : (s.updCell ctx cell f).clusters = s.clusters := rfl
@[simp] theorem State.updCell_firmware (s : State) (ctx cell : Nat) (f : Cell → Cell) : (s.updCell ctx cell f).firmware = s.firmware := rfl
@[simp] theorem State.updCell_lifetime (s : State) (ctx cell : Nat) (f : Cell → Cell) : (s.updCell ctx cell f).lifetime = s.lifetime := rfl
@[simp] theorem State.updCell_errKinds (s : State) (ctx cell : Nat) (f : Cell → Cell) : (s.updCell ctx cell f).errKinds = s.errKinds := rfl
@[simp] theorem State.updCell_lastLife (s : State) (ctx cell : Nat) (f : Cell → Cell) : (s.updCell ctx cell f).lastLife = s.lastLife := rfl
@[simp] theorem State.updCell_lifeFrac (s : State) (ctx cell : Nat) (f : Cell → Cell) : (s.updCell ctx cell f).lifeFrac = s.lifeFrac := rfl
@[simp] theorem State.updCell_lastGrant (s : State) (ctx cell : Nat) (f : Cell → Cell) : (s.updCell ctx cell f).lastGrant = s.lastGrant := rfl
@[simp] theorem State.updCell_lastSlot (s : State) (ctx cell : Nat) (f : Cell → Cell) : (s.updCell ctx cell f).lastSlot = s.lastSlot := rfl
@[simp] theorem State.updCell_mem (s : State) (ctx cell : Nat) (f : Cell → Cell) : (s.updCell ctx cell f).mem = s.mem := rfl
@[simp] theorem State.updCell_poison (s : State) (ctx cell : Nat) (f : Cell → Cell) : (s.updCell ctx cell f).poison = s.poison := rfl
@[simp] theorem State.updCell_consumed (s : State) (ctx cell : Nat) (f : Cell → Cell) : (s.updCell ctx cell f).consumed = s.consumed := rfl
@[simp] theorem State.updCell_owners (s : State) (ctx cell : Nat) (f : Cell → Cell) : (s.updCell ctx cell f).owners = s.owners := rfl
@[simp] theorem State.updCell_wsBad (s : State) (ctx cell : Nat) (f : Cell → Cell) : (s.updCell ctx cell f).wsBad = s.wsBad := rfl
@[simp] theorem State.updCell_phys (s : State) (ctx cell : Nat) (f : Cell → Cell) : (s.updCell ctx cell f).phys = s.phys := rfl
@[simp] theorem State.updCell_tlb (s : State) (ctx cell : Nat) (f : Cell → Cell) : (s.updCell ctx cell f).tlb = s.tlb := rfl
@[simp] theorem State.updCell_pairs (s : State) (ctx cell : Nat) (f : Cell → Cell) : (s.updCell ctx cell f).pairs = s.pairs := rfl
@[simp] theorem State.updCell_windows (s : State) (ctx cell : Nat) (f : Cell → Cell) : (s.updCell ctx cell f).windows = s.windows := rfl
@[simp] theorem State.updCell_parts (s : State) (ctx cell : Nat) (f : Cell → Cell) : (s.updCell ctx cell f).parts = s.parts := rfl
@[simp] theorem State.updCell_visit (s : State) (ctx cell : Nat) (f : Cell → Cell) : (s.updCell ctx cell f).visit = s.visit := rfl
@[simp] theorem State.updCell_ctxs (s : State) (ctx cell : Nat) (f : Cell → Cell) : (s.updCell ctx cell f).ctxs = s.ctxs := rfl
@[simp] theorem State.updCell_kernels (s : State) (ctx cell : Nat) (f : Cell → Cell) : (s.updCell ctx cell f).kernels = s.kernels := rfl
@[simp] theorem State.updCell_carafe (s : State) (ctx cell : Nat) (f : Cell → Cell) : (s.updCell ctx cell f).carafe = s.carafe := rfl
@[simp] theorem State.updCell_insts (s : State) (ctx cell : Nat) (f : Cell → Cell) : (s.updCell ctx cell f).insts = s.insts := rfl
@[simp] theorem State.updCell_groups (s : State) (ctx cell : Nat) (f : Cell → Cell) : (s.updCell ctx cell f).groups = s.groups := rfl
@[simp] theorem State.updCell_tasks (s : State) (ctx cell : Nat) (f : Cell → Cell) : (s.updCell ctx cell f).tasks = s.tasks := rfl
@[simp] theorem State.updCell_carries (s : State) (ctx cell : Nat) (f : Cell → Cell) : (s.updCell ctx cell f).carries = s.carries := rfl
@[simp] theorem State.updCell_reds (s : State) (ctx cell : Nat) (f : Cell → Cell) : (s.updCell ctx cell f).reds = s.reds := rfl
@[simp] theorem State.updCell_episodes (s : State) (ctx cell : Nat) (f : Cell → Cell) : (s.updCell ctx cell f).episodes = s.episodes := rfl
@[simp] theorem State.updCell_heard (s : State) (ctx cell : Nat) (f : Cell → Cell) : (s.updCell ctx cell f).heard = s.heard := rfl
@[simp] theorem State.updCell_regs (s : State) (ctx cell : Nat) (f : Cell → Cell) : (s.updCell ctx cell f).regs = s.regs := rfl
@[simp] theorem State.updCell_fnOn (s : State) (ctx cell : Nat) (f : Cell → Cell) : (s.updCell ctx cell f).fnOn = s.fnOn := rfl
@[simp] theorem State.updCell_pending (s : State) (ctx cell : Nat) (f : Cell → Cell) : (s.updCell ctx cell f).pending = s.pending := rfl
@[simp] theorem State.updCell_heldRecs (s : State) (ctx cell : Nat) (f : Cell → Cell) : (s.updCell ctx cell f).heldRecs = s.heldRecs := rfl
@[simp] theorem State.updCell_heldFaults (s : State) (ctx cell : Nat) (f : Cell → Cell) : (s.updCell ctx cell f).heldFaults = s.heldFaults := rfl
@[simp] theorem State.updCell_invBusy (s : State) (ctx cell : Nat) (f : Cell → Cell) : (s.updCell ctx cell f).invBusy = s.invBusy := rfl
@[simp] theorem State.updCell_dropped (s : State) (ctx cell : Nat) (f : Cell → Cell) : (s.updCell ctx cell f).dropped = s.dropped := rfl
@[simp] theorem State.updCell_repairBusy (s : State) (ctx cell : Nat) (f : Cell → Cell) : (s.updCell ctx cell f).repairBusy = s.repairBusy := rfl
@[simp] theorem State.updCell_hbmGiB (s : State) (ctx cell : Nat) (f : Cell → Cell) : (s.updCell ctx cell f).hbmGiB = s.hbmGiB := rfl
@[simp] theorem State.updCell_errBanks (s : State) (ctx cell : Nat) (f : Cell → Cell) : (s.updCell ctx cell f).errBanks = s.errBanks := rfl
@[simp] theorem State.updCell_errSeq (s : State) (ctx cell : Nat) (f : Cell → Cell) : (s.updCell ctx cell f).errSeq = s.errSeq := rfl
@[simp] theorem State.updCell_errNow (s : State) (ctx cell : Nat) (f : Cell → Cell) : (s.updCell ctx cell f).errNow = s.errNow := rfl
@[simp] theorem State.updCell_brkPast (s : State) (ctx cell : Nat) (f : Cell → Cell) : (s.updCell ctx cell f).brkPast = s.brkPast := rfl
@[simp] theorem State.updCell_ports (s : State) (ctx cell : Nat) (f : Cell → Cell) : (s.updCell ctx cell f).ports = s.ports := rfl
@[simp] theorem State.updCell_flows (s : State) (ctx cell : Nat) (f : Cell → Cell) : (s.updCell ctx cell f).flows = s.flows := rfl
@[simp] theorem State.updCell_inflows (s : State) (ctx cell : Nat) (f : Cell → Cell) : (s.updCell ctx cell f).inflows = s.inflows := rfl
@[simp] theorem State.updCell_peerDown (s : State) (ctx cell : Nat) (f : Cell → Cell) : (s.updCell ctx cell f).peerDown = s.peerDown := rfl
@[simp] theorem State.updCell_asks (s : State) (ctx cell : Nat) (f : Cell → Cell) : (s.updCell ctx cell f).asks = s.asks := rfl
@[simp] theorem State.updCell_recv (s : State) (ctx cell : Nat) (f : Cell → Cell) : (s.updCell ctx cell f).recv = s.recv := rfl
@[simp] theorem State.updCell_bridgeSums (s : State) (ctx cell : Nat) (f : Cell → Cell) : (s.updCell ctx cell f).bridgeSums = s.bridgeSums := rfl
@[simp] theorem State.updCell_romHash (s : State) (ctx cell : Nat) (f : Cell → Cell) : (s.updCell ctx cell f).romHash = s.romHash := rfl
@[simp] theorem State.updCell_blob (s : State) (ctx cell : Nat) (f : Cell → Cell) : (s.updCell ctx cell f).blob = s.blob := rfl
@[simp] theorem State.updCell_blobBad (s : State) (ctx cell : Nat) (f : Cell → Cell) : (s.updCell ctx cell f).blobBad = s.blobBad := rfl
@[simp] theorem State.updCell_counters (s : State) (ctx cell : Nat) (f : Cell → Cell) : (s.updCell ctx cell f).counters = s.counters := rfl
@[simp] theorem State.updCell_storeWrites (s : State) (ctx cell : Nat) (f : Cell → Cell) : (s.updCell ctx cell f).storeWrites = s.storeWrites := rfl
@[simp] theorem State.updCell_storeKey (s : State) (ctx cell : Nat) (f : Cell → Cell) : (s.updCell ctx cell f).storeKey = s.storeKey := rfl
@[simp] theorem State.updCell_capBusy (s : State) (ctx cell : Nat) (f : Cell → Cell) : (s.updCell ctx cell f).capBusy = s.capBusy := rfl
@[simp] theorem State.updCell_capNonces (s : State) (ctx cell : Nat) (f : Cell → Cell) : (s.updCell ctx cell f).capNonces = s.capNonces := rfl
@[simp] theorem State.updCell_sealKeys (s : State) (ctx cell : Nat) (f : Cell → Cell) : (s.updCell ctx cell f).sealKeys = s.sealKeys := rfl
@[simp] theorem State.updCell_filters (s : State) (ctx cell : Nat) (f : Cell → Cell) : (s.updCell ctx cell f).filters = s.filters := rfl
@[simp] theorem State.updCell_sealed (s : State) (ctx cell : Nat) (f : Cell → Cell) : (s.updCell ctx cell f).sealed = s.sealed := rfl
@[simp] theorem State.putHere_cur (s : State) (c : Cell) : (s.putHere c).cur = s.cur := rfl
@[simp] theorem State.putHere_agenda (s : State) (c : Cell) : (s.putHere c).agenda = s.agenda := rfl
@[simp] theorem State.putHere_free (s : State) (c : Cell) : (s.putHere c).free = s.free := rfl
@[simp] theorem State.putHere_nextId (s : State) (c : Cell) : (s.putHere c).nextId = s.nextId := rfl
@[simp] theorem State.putHere_cycle (s : State) (c : Cell) : (s.putHere c).cycle = s.cycle := rfl
@[simp] theorem State.putHere_tsnow (s : State) (c : Cell) : (s.putHere c).tsnow = s.tsnow := rfl
@[simp] theorem State.putHere_tsfrac (s : State) (c : Cell) : (s.putHere c).tsfrac = s.tsfrac := rfl
@[simp] theorem State.putHere_tsHold (s : State) (c : Cell) : (s.putHere c).tsHold = s.tsHold := rfl
@[simp] theorem State.putHere_synced (s : State) (c : Cell) : (s.putHere c).synced = s.synced := rfl
@[simp] theorem State.putHere_timeRef (s : State) (c : Cell) : (s.putHere c).timeRef = s.timeRef := rfl
@[simp] theorem State.putHere_timeFound (s : State) (c : Cell) : (s.putHere c).timeFound = s.timeFound := rfl
@[simp] theorem State.putHere_slew (s : State) (c : Cell) : (s.putHere c).slew = s.slew := rfl
@[simp] theorem State.putHere_wrefCur (s : State) (c : Cell) : (s.putHere c).wrefCur = s.wrefCur := rfl
@[simp] theorem State.putHere_wrefLeft (s : State) (c : Cell) : (s.putHere c).wrefLeft = s.wrefLeft := rfl
@[simp] theorem State.putHere_boot (s : State) (c : Cell) : (s.putHere c).boot = s.boot := rfl
@[simp] theorem State.putHere_clusters (s : State) (c : Cell) : (s.putHere c).clusters = s.clusters := rfl
@[simp] theorem State.putHere_firmware (s : State) (c : Cell) : (s.putHere c).firmware = s.firmware := rfl
@[simp] theorem State.putHere_lifetime (s : State) (c : Cell) : (s.putHere c).lifetime = s.lifetime := rfl
@[simp] theorem State.putHere_errKinds (s : State) (c : Cell) : (s.putHere c).errKinds = s.errKinds := rfl
@[simp] theorem State.putHere_lastLife (s : State) (c : Cell) : (s.putHere c).lastLife = s.lastLife := rfl
@[simp] theorem State.putHere_lifeFrac (s : State) (c : Cell) : (s.putHere c).lifeFrac = s.lifeFrac := rfl
@[simp] theorem State.putHere_lastGrant (s : State) (c : Cell) : (s.putHere c).lastGrant = s.lastGrant := rfl
@[simp] theorem State.putHere_lastSlot (s : State) (c : Cell) : (s.putHere c).lastSlot = s.lastSlot := rfl
@[simp] theorem State.putHere_mem (s : State) (c : Cell) : (s.putHere c).mem = s.mem := rfl
@[simp] theorem State.putHere_poison (s : State) (c : Cell) : (s.putHere c).poison = s.poison := rfl
@[simp] theorem State.putHere_consumed (s : State) (c : Cell) : (s.putHere c).consumed = s.consumed := rfl
@[simp] theorem State.putHere_owners (s : State) (c : Cell) : (s.putHere c).owners = s.owners := rfl
@[simp] theorem State.putHere_wsBad (s : State) (c : Cell) : (s.putHere c).wsBad = s.wsBad := rfl
@[simp] theorem State.putHere_phys (s : State) (c : Cell) : (s.putHere c).phys = s.phys := rfl
@[simp] theorem State.putHere_tlb (s : State) (c : Cell) : (s.putHere c).tlb = s.tlb := rfl
@[simp] theorem State.putHere_pairs (s : State) (c : Cell) : (s.putHere c).pairs = s.pairs := rfl
@[simp] theorem State.putHere_windows (s : State) (c : Cell) : (s.putHere c).windows = s.windows := rfl
@[simp] theorem State.putHere_parts (s : State) (c : Cell) : (s.putHere c).parts = s.parts := rfl
@[simp] theorem State.putHere_visit (s : State) (c : Cell) : (s.putHere c).visit = s.visit := rfl
@[simp] theorem State.putHere_ctxs (s : State) (c : Cell) : (s.putHere c).ctxs = s.ctxs := rfl
@[simp] theorem State.putHere_kernels (s : State) (c : Cell) : (s.putHere c).kernels = s.kernels := rfl
@[simp] theorem State.putHere_carafe (s : State) (c : Cell) : (s.putHere c).carafe = s.carafe := rfl
@[simp] theorem State.putHere_insts (s : State) (c : Cell) : (s.putHere c).insts = s.insts := rfl
@[simp] theorem State.putHere_groups (s : State) (c : Cell) : (s.putHere c).groups = s.groups := rfl
@[simp] theorem State.putHere_tasks (s : State) (c : Cell) : (s.putHere c).tasks = s.tasks := rfl
@[simp] theorem State.putHere_carries (s : State) (c : Cell) : (s.putHere c).carries = s.carries := rfl
@[simp] theorem State.putHere_reds (s : State) (c : Cell) : (s.putHere c).reds = s.reds := rfl
@[simp] theorem State.putHere_episodes (s : State) (c : Cell) : (s.putHere c).episodes = s.episodes := rfl
@[simp] theorem State.putHere_heard (s : State) (c : Cell) : (s.putHere c).heard = s.heard := rfl
@[simp] theorem State.putHere_regs (s : State) (c : Cell) : (s.putHere c).regs = s.regs := rfl
@[simp] theorem State.putHere_fnOn (s : State) (c : Cell) : (s.putHere c).fnOn = s.fnOn := rfl
@[simp] theorem State.putHere_pending (s : State) (c : Cell) : (s.putHere c).pending = s.pending := rfl
@[simp] theorem State.putHere_heldRecs (s : State) (c : Cell) : (s.putHere c).heldRecs = s.heldRecs := rfl
@[simp] theorem State.putHere_heldFaults (s : State) (c : Cell) : (s.putHere c).heldFaults = s.heldFaults := rfl
@[simp] theorem State.putHere_invBusy (s : State) (c : Cell) : (s.putHere c).invBusy = s.invBusy := rfl
@[simp] theorem State.putHere_dropped (s : State) (c : Cell) : (s.putHere c).dropped = s.dropped := rfl
@[simp] theorem State.putHere_repairBusy (s : State) (c : Cell) : (s.putHere c).repairBusy = s.repairBusy := rfl
@[simp] theorem State.putHere_hbmGiB (s : State) (c : Cell) : (s.putHere c).hbmGiB = s.hbmGiB := rfl
@[simp] theorem State.putHere_errBanks (s : State) (c : Cell) : (s.putHere c).errBanks = s.errBanks := rfl
@[simp] theorem State.putHere_errSeq (s : State) (c : Cell) : (s.putHere c).errSeq = s.errSeq := rfl
@[simp] theorem State.putHere_errNow (s : State) (c : Cell) : (s.putHere c).errNow = s.errNow := rfl
@[simp] theorem State.putHere_brkPast (s : State) (c : Cell) : (s.putHere c).brkPast = s.brkPast := rfl
@[simp] theorem State.putHere_ports (s : State) (c : Cell) : (s.putHere c).ports = s.ports := rfl
@[simp] theorem State.putHere_flows (s : State) (c : Cell) : (s.putHere c).flows = s.flows := rfl
@[simp] theorem State.putHere_inflows (s : State) (c : Cell) : (s.putHere c).inflows = s.inflows := rfl
@[simp] theorem State.putHere_peerDown (s : State) (c : Cell) : (s.putHere c).peerDown = s.peerDown := rfl
@[simp] theorem State.putHere_asks (s : State) (c : Cell) : (s.putHere c).asks = s.asks := rfl
@[simp] theorem State.putHere_recv (s : State) (c : Cell) : (s.putHere c).recv = s.recv := rfl
@[simp] theorem State.putHere_bridgeSums (s : State) (c : Cell) : (s.putHere c).bridgeSums = s.bridgeSums := rfl
@[simp] theorem State.putHere_romHash (s : State) (c : Cell) : (s.putHere c).romHash = s.romHash := rfl
@[simp] theorem State.putHere_blob (s : State) (c : Cell) : (s.putHere c).blob = s.blob := rfl
@[simp] theorem State.putHere_blobBad (s : State) (c : Cell) : (s.putHere c).blobBad = s.blobBad := rfl
@[simp] theorem State.putHere_counters (s : State) (c : Cell) : (s.putHere c).counters = s.counters := rfl
@[simp] theorem State.putHere_storeWrites (s : State) (c : Cell) : (s.putHere c).storeWrites = s.storeWrites := rfl
@[simp] theorem State.putHere_storeKey (s : State) (c : Cell) : (s.putHere c).storeKey = s.storeKey := rfl
@[simp] theorem State.putHere_capBusy (s : State) (c : Cell) : (s.putHere c).capBusy = s.capBusy := rfl
@[simp] theorem State.putHere_capNonces (s : State) (c : Cell) : (s.putHere c).capNonces = s.capNonces := rfl
@[simp] theorem State.putHere_sealKeys (s : State) (c : Cell) : (s.putHere c).sealKeys = s.sealKeys := rfl
@[simp] theorem State.putHere_filters (s : State) (c : Cell) : (s.putHere c).filters = s.filters := rfl
@[simp] theorem State.putHere_sealed (s : State) (c : Cell) : (s.putHere c).sealed = s.sealed := rfl
@[simp] theorem State.updHere_cur (s : State) (f : Cell → Cell) : (s.updHere f).cur = s.cur := rfl
@[simp] theorem State.updHere_agenda (s : State) (f : Cell → Cell) : (s.updHere f).agenda = s.agenda := rfl
@[simp] theorem State.updHere_free (s : State) (f : Cell → Cell) : (s.updHere f).free = s.free := rfl
@[simp] theorem State.updHere_nextId (s : State) (f : Cell → Cell) : (s.updHere f).nextId = s.nextId := rfl
@[simp] theorem State.updHere_cycle (s : State) (f : Cell → Cell) : (s.updHere f).cycle = s.cycle := rfl
@[simp] theorem State.updHere_tsnow (s : State) (f : Cell → Cell) : (s.updHere f).tsnow = s.tsnow := rfl
@[simp] theorem State.updHere_tsfrac (s : State) (f : Cell → Cell) : (s.updHere f).tsfrac = s.tsfrac := rfl
@[simp] theorem State.updHere_tsHold (s : State) (f : Cell → Cell) : (s.updHere f).tsHold = s.tsHold := rfl
@[simp] theorem State.updHere_synced (s : State) (f : Cell → Cell) : (s.updHere f).synced = s.synced := rfl
@[simp] theorem State.updHere_timeRef (s : State) (f : Cell → Cell) : (s.updHere f).timeRef = s.timeRef := rfl
@[simp] theorem State.updHere_timeFound (s : State) (f : Cell → Cell) : (s.updHere f).timeFound = s.timeFound := rfl
@[simp] theorem State.updHere_slew (s : State) (f : Cell → Cell) : (s.updHere f).slew = s.slew := rfl
@[simp] theorem State.updHere_wrefCur (s : State) (f : Cell → Cell) : (s.updHere f).wrefCur = s.wrefCur := rfl
@[simp] theorem State.updHere_wrefLeft (s : State) (f : Cell → Cell) : (s.updHere f).wrefLeft = s.wrefLeft := rfl
@[simp] theorem State.updHere_boot (s : State) (f : Cell → Cell) : (s.updHere f).boot = s.boot := rfl
@[simp] theorem State.updHere_clusters (s : State) (f : Cell → Cell) : (s.updHere f).clusters = s.clusters := rfl
@[simp] theorem State.updHere_firmware (s : State) (f : Cell → Cell) : (s.updHere f).firmware = s.firmware := rfl
@[simp] theorem State.updHere_lifetime (s : State) (f : Cell → Cell) : (s.updHere f).lifetime = s.lifetime := rfl
@[simp] theorem State.updHere_errKinds (s : State) (f : Cell → Cell) : (s.updHere f).errKinds = s.errKinds := rfl
@[simp] theorem State.updHere_lastLife (s : State) (f : Cell → Cell) : (s.updHere f).lastLife = s.lastLife := rfl
@[simp] theorem State.updHere_lifeFrac (s : State) (f : Cell → Cell) : (s.updHere f).lifeFrac = s.lifeFrac := rfl
@[simp] theorem State.updHere_lastGrant (s : State) (f : Cell → Cell) : (s.updHere f).lastGrant = s.lastGrant := rfl
@[simp] theorem State.updHere_lastSlot (s : State) (f : Cell → Cell) : (s.updHere f).lastSlot = s.lastSlot := rfl
@[simp] theorem State.updHere_mem (s : State) (f : Cell → Cell) : (s.updHere f).mem = s.mem := rfl
@[simp] theorem State.updHere_poison (s : State) (f : Cell → Cell) : (s.updHere f).poison = s.poison := rfl
@[simp] theorem State.updHere_consumed (s : State) (f : Cell → Cell) : (s.updHere f).consumed = s.consumed := rfl
@[simp] theorem State.updHere_owners (s : State) (f : Cell → Cell) : (s.updHere f).owners = s.owners := rfl
@[simp] theorem State.updHere_wsBad (s : State) (f : Cell → Cell) : (s.updHere f).wsBad = s.wsBad := rfl
@[simp] theorem State.updHere_phys (s : State) (f : Cell → Cell) : (s.updHere f).phys = s.phys := rfl
@[simp] theorem State.updHere_tlb (s : State) (f : Cell → Cell) : (s.updHere f).tlb = s.tlb := rfl
@[simp] theorem State.updHere_pairs (s : State) (f : Cell → Cell) : (s.updHere f).pairs = s.pairs := rfl
@[simp] theorem State.updHere_windows (s : State) (f : Cell → Cell) : (s.updHere f).windows = s.windows := rfl
@[simp] theorem State.updHere_parts (s : State) (f : Cell → Cell) : (s.updHere f).parts = s.parts := rfl
@[simp] theorem State.updHere_visit (s : State) (f : Cell → Cell) : (s.updHere f).visit = s.visit := rfl
@[simp] theorem State.updHere_ctxs (s : State) (f : Cell → Cell) : (s.updHere f).ctxs = s.ctxs := rfl
@[simp] theorem State.updHere_kernels (s : State) (f : Cell → Cell) : (s.updHere f).kernels = s.kernels := rfl
@[simp] theorem State.updHere_carafe (s : State) (f : Cell → Cell) : (s.updHere f).carafe = s.carafe := rfl
@[simp] theorem State.updHere_insts (s : State) (f : Cell → Cell) : (s.updHere f).insts = s.insts := rfl
@[simp] theorem State.updHere_groups (s : State) (f : Cell → Cell) : (s.updHere f).groups = s.groups := rfl
@[simp] theorem State.updHere_tasks (s : State) (f : Cell → Cell) : (s.updHere f).tasks = s.tasks := rfl
@[simp] theorem State.updHere_carries (s : State) (f : Cell → Cell) : (s.updHere f).carries = s.carries := rfl
@[simp] theorem State.updHere_reds (s : State) (f : Cell → Cell) : (s.updHere f).reds = s.reds := rfl
@[simp] theorem State.updHere_episodes (s : State) (f : Cell → Cell) : (s.updHere f).episodes = s.episodes := rfl
@[simp] theorem State.updHere_heard (s : State) (f : Cell → Cell) : (s.updHere f).heard = s.heard := rfl
@[simp] theorem State.updHere_regs (s : State) (f : Cell → Cell) : (s.updHere f).regs = s.regs := rfl
@[simp] theorem State.updHere_fnOn (s : State) (f : Cell → Cell) : (s.updHere f).fnOn = s.fnOn := rfl
@[simp] theorem State.updHere_pending (s : State) (f : Cell → Cell) : (s.updHere f).pending = s.pending := rfl
@[simp] theorem State.updHere_heldRecs (s : State) (f : Cell → Cell) : (s.updHere f).heldRecs = s.heldRecs := rfl
@[simp] theorem State.updHere_heldFaults (s : State) (f : Cell → Cell) : (s.updHere f).heldFaults = s.heldFaults := rfl
@[simp] theorem State.updHere_invBusy (s : State) (f : Cell → Cell) : (s.updHere f).invBusy = s.invBusy := rfl
@[simp] theorem State.updHere_dropped (s : State) (f : Cell → Cell) : (s.updHere f).dropped = s.dropped := rfl
@[simp] theorem State.updHere_repairBusy (s : State) (f : Cell → Cell) : (s.updHere f).repairBusy = s.repairBusy := rfl
@[simp] theorem State.updHere_hbmGiB (s : State) (f : Cell → Cell) : (s.updHere f).hbmGiB = s.hbmGiB := rfl
@[simp] theorem State.updHere_errBanks (s : State) (f : Cell → Cell) : (s.updHere f).errBanks = s.errBanks := rfl
@[simp] theorem State.updHere_errSeq (s : State) (f : Cell → Cell) : (s.updHere f).errSeq = s.errSeq := rfl
@[simp] theorem State.updHere_errNow (s : State) (f : Cell → Cell) : (s.updHere f).errNow = s.errNow := rfl
@[simp] theorem State.updHere_brkPast (s : State) (f : Cell → Cell) : (s.updHere f).brkPast = s.brkPast := rfl
@[simp] theorem State.updHere_ports (s : State) (f : Cell → Cell) : (s.updHere f).ports = s.ports := rfl
@[simp] theorem State.updHere_flows (s : State) (f : Cell → Cell) : (s.updHere f).flows = s.flows := rfl
@[simp] theorem State.updHere_inflows (s : State) (f : Cell → Cell) : (s.updHere f).inflows = s.inflows := rfl
@[simp] theorem State.updHere_peerDown (s : State) (f : Cell → Cell) : (s.updHere f).peerDown = s.peerDown := rfl
@[simp] theorem State.updHere_asks (s : State) (f : Cell → Cell) : (s.updHere f).asks = s.asks := rfl
@[simp] theorem State.updHere_recv (s : State) (f : Cell → Cell) : (s.updHere f).recv = s.recv := rfl
@[simp] theorem State.updHere_bridgeSums (s : State) (f : Cell → Cell) : (s.updHere f).bridgeSums = s.bridgeSums := rfl
@[simp] theorem State.updHere_romHash (s : State) (f : Cell → Cell) : (s.updHere f).romHash = s.romHash := rfl
@[simp] theorem State.updHere_blob (s : State) (f : Cell → Cell) : (s.updHere f).blob = s.blob := rfl
@[simp] theorem State.updHere_blobBad (s : State) (f : Cell → Cell) : (s.updHere f).blobBad = s.blobBad := rfl
@[simp] theorem State.updHere_counters (s : State) (f : Cell → Cell) : (s.updHere f).counters = s.counters := rfl
@[simp] theorem State.updHere_storeWrites (s : State) (f : Cell → Cell) : (s.updHere f).storeWrites = s.storeWrites := rfl
@[simp] theorem State.updHere_storeKey (s : State) (f : Cell → Cell) : (s.updHere f).storeKey = s.storeKey := rfl
@[simp] theorem State.updHere_capBusy (s : State) (f : Cell → Cell) : (s.updHere f).capBusy = s.capBusy := rfl
@[simp] theorem State.updHere_capNonces (s : State) (f : Cell → Cell) : (s.updHere f).capNonces = s.capNonces := rfl
@[simp] theorem State.updHere_sealKeys (s : State) (f : Cell → Cell) : (s.updHere f).sealKeys = s.sealKeys := rfl
@[simp] theorem State.updHere_filters (s : State) (f : Cell → Cell) : (s.updHere f).filters = s.filters := rfl
@[simp] theorem State.updHere_sealed (s : State) (f : Cell → Cell) : (s.updHere f).sealed = s.sealed := rfl
@[simp] theorem State.putTask_cur (s : State) (t : Task) : (s.putTask t).cur = s.cur := rfl
@[simp] theorem State.putTask_agenda (s : State) (t : Task) : (s.putTask t).agenda = s.agenda := rfl
@[simp] theorem State.putTask_free (s : State) (t : Task) : (s.putTask t).free = s.free := rfl
@[simp] theorem State.putTask_nextId (s : State) (t : Task) : (s.putTask t).nextId = s.nextId := rfl
@[simp] theorem State.putTask_cycle (s : State) (t : Task) : (s.putTask t).cycle = s.cycle := rfl
@[simp] theorem State.putTask_tsnow (s : State) (t : Task) : (s.putTask t).tsnow = s.tsnow := rfl
@[simp] theorem State.putTask_tsfrac (s : State) (t : Task) : (s.putTask t).tsfrac = s.tsfrac := rfl
@[simp] theorem State.putTask_tsHold (s : State) (t : Task) : (s.putTask t).tsHold = s.tsHold := rfl
@[simp] theorem State.putTask_synced (s : State) (t : Task) : (s.putTask t).synced = s.synced := rfl
@[simp] theorem State.putTask_timeRef (s : State) (t : Task) : (s.putTask t).timeRef = s.timeRef := rfl
@[simp] theorem State.putTask_timeFound (s : State) (t : Task) : (s.putTask t).timeFound = s.timeFound := rfl
@[simp] theorem State.putTask_slew (s : State) (t : Task) : (s.putTask t).slew = s.slew := rfl
@[simp] theorem State.putTask_wrefCur (s : State) (t : Task) : (s.putTask t).wrefCur = s.wrefCur := rfl
@[simp] theorem State.putTask_wrefLeft (s : State) (t : Task) : (s.putTask t).wrefLeft = s.wrefLeft := rfl
@[simp] theorem State.putTask_boot (s : State) (t : Task) : (s.putTask t).boot = s.boot := rfl
@[simp] theorem State.putTask_clusters (s : State) (t : Task) : (s.putTask t).clusters = s.clusters := rfl
@[simp] theorem State.putTask_firmware (s : State) (t : Task) : (s.putTask t).firmware = s.firmware := rfl
@[simp] theorem State.putTask_lifetime (s : State) (t : Task) : (s.putTask t).lifetime = s.lifetime := rfl
@[simp] theorem State.putTask_errKinds (s : State) (t : Task) : (s.putTask t).errKinds = s.errKinds := rfl
@[simp] theorem State.putTask_lastLife (s : State) (t : Task) : (s.putTask t).lastLife = s.lastLife := rfl
@[simp] theorem State.putTask_lifeFrac (s : State) (t : Task) : (s.putTask t).lifeFrac = s.lifeFrac := rfl
@[simp] theorem State.putTask_lastGrant (s : State) (t : Task) : (s.putTask t).lastGrant = s.lastGrant := rfl
@[simp] theorem State.putTask_lastSlot (s : State) (t : Task) : (s.putTask t).lastSlot = s.lastSlot := rfl
@[simp] theorem State.putTask_mem (s : State) (t : Task) : (s.putTask t).mem = s.mem := rfl
@[simp] theorem State.putTask_poison (s : State) (t : Task) : (s.putTask t).poison = s.poison := rfl
@[simp] theorem State.putTask_consumed (s : State) (t : Task) : (s.putTask t).consumed = s.consumed := rfl
@[simp] theorem State.putTask_owners (s : State) (t : Task) : (s.putTask t).owners = s.owners := rfl
@[simp] theorem State.putTask_wsBad (s : State) (t : Task) : (s.putTask t).wsBad = s.wsBad := rfl
@[simp] theorem State.putTask_cells (s : State) (t : Task) : (s.putTask t).cells = s.cells := rfl
@[simp] theorem State.putTask_phys (s : State) (t : Task) : (s.putTask t).phys = s.phys := rfl
@[simp] theorem State.putTask_tlb (s : State) (t : Task) : (s.putTask t).tlb = s.tlb := rfl
@[simp] theorem State.putTask_pairs (s : State) (t : Task) : (s.putTask t).pairs = s.pairs := rfl
@[simp] theorem State.putTask_windows (s : State) (t : Task) : (s.putTask t).windows = s.windows := rfl
@[simp] theorem State.putTask_parts (s : State) (t : Task) : (s.putTask t).parts = s.parts := rfl
@[simp] theorem State.putTask_visit (s : State) (t : Task) : (s.putTask t).visit = s.visit := rfl
@[simp] theorem State.putTask_ctxs (s : State) (t : Task) : (s.putTask t).ctxs = s.ctxs := rfl
@[simp] theorem State.putTask_kernels (s : State) (t : Task) : (s.putTask t).kernels = s.kernels := rfl
@[simp] theorem State.putTask_carafe (s : State) (t : Task) : (s.putTask t).carafe = s.carafe := rfl
@[simp] theorem State.putTask_insts (s : State) (t : Task) : (s.putTask t).insts = s.insts := rfl
@[simp] theorem State.putTask_groups (s : State) (t : Task) : (s.putTask t).groups = s.groups := rfl
@[simp] theorem State.putTask_carries (s : State) (t : Task) : (s.putTask t).carries = s.carries := rfl
@[simp] theorem State.putTask_reds (s : State) (t : Task) : (s.putTask t).reds = s.reds := rfl
@[simp] theorem State.putTask_episodes (s : State) (t : Task) : (s.putTask t).episodes = s.episodes := rfl
@[simp] theorem State.putTask_heard (s : State) (t : Task) : (s.putTask t).heard = s.heard := rfl
@[simp] theorem State.putTask_regs (s : State) (t : Task) : (s.putTask t).regs = s.regs := rfl
@[simp] theorem State.putTask_fnOn (s : State) (t : Task) : (s.putTask t).fnOn = s.fnOn := rfl
@[simp] theorem State.putTask_pending (s : State) (t : Task) : (s.putTask t).pending = s.pending := rfl
@[simp] theorem State.putTask_heldRecs (s : State) (t : Task) : (s.putTask t).heldRecs = s.heldRecs := rfl
@[simp] theorem State.putTask_heldFaults (s : State) (t : Task) : (s.putTask t).heldFaults = s.heldFaults := rfl
@[simp] theorem State.putTask_invBusy (s : State) (t : Task) : (s.putTask t).invBusy = s.invBusy := rfl
@[simp] theorem State.putTask_dropped (s : State) (t : Task) : (s.putTask t).dropped = s.dropped := rfl
@[simp] theorem State.putTask_repairBusy (s : State) (t : Task) : (s.putTask t).repairBusy = s.repairBusy := rfl
@[simp] theorem State.putTask_hbmGiB (s : State) (t : Task) : (s.putTask t).hbmGiB = s.hbmGiB := rfl
@[simp] theorem State.putTask_errBanks (s : State) (t : Task) : (s.putTask t).errBanks = s.errBanks := rfl
@[simp] theorem State.putTask_errSeq (s : State) (t : Task) : (s.putTask t).errSeq = s.errSeq := rfl
@[simp] theorem State.putTask_errNow (s : State) (t : Task) : (s.putTask t).errNow = s.errNow := rfl
@[simp] theorem State.putTask_brkPast (s : State) (t : Task) : (s.putTask t).brkPast = s.brkPast := rfl
@[simp] theorem State.putTask_ports (s : State) (t : Task) : (s.putTask t).ports = s.ports := rfl
@[simp] theorem State.putTask_flows (s : State) (t : Task) : (s.putTask t).flows = s.flows := rfl
@[simp] theorem State.putTask_inflows (s : State) (t : Task) : (s.putTask t).inflows = s.inflows := rfl
@[simp] theorem State.putTask_peerDown (s : State) (t : Task) : (s.putTask t).peerDown = s.peerDown := rfl
@[simp] theorem State.putTask_asks (s : State) (t : Task) : (s.putTask t).asks = s.asks := rfl
@[simp] theorem State.putTask_recv (s : State) (t : Task) : (s.putTask t).recv = s.recv := rfl
@[simp] theorem State.putTask_bridgeSums (s : State) (t : Task) : (s.putTask t).bridgeSums = s.bridgeSums := rfl
@[simp] theorem State.putTask_romHash (s : State) (t : Task) : (s.putTask t).romHash = s.romHash := rfl
@[simp] theorem State.putTask_blob (s : State) (t : Task) : (s.putTask t).blob = s.blob := rfl
@[simp] theorem State.putTask_blobBad (s : State) (t : Task) : (s.putTask t).blobBad = s.blobBad := rfl
@[simp] theorem State.putTask_counters (s : State) (t : Task) : (s.putTask t).counters = s.counters := rfl
@[simp] theorem State.putTask_storeWrites (s : State) (t : Task) : (s.putTask t).storeWrites = s.storeWrites := rfl
@[simp] theorem State.putTask_storeKey (s : State) (t : Task) : (s.putTask t).storeKey = s.storeKey := rfl
@[simp] theorem State.putTask_capBusy (s : State) (t : Task) : (s.putTask t).capBusy = s.capBusy := rfl
@[simp] theorem State.putTask_capNonces (s : State) (t : Task) : (s.putTask t).capNonces = s.capNonces := rfl
@[simp] theorem State.putTask_sealKeys (s : State) (t : Task) : (s.putTask t).sealKeys = s.sealKeys := rfl
@[simp] theorem State.putTask_filters (s : State) (t : Task) : (s.putTask t).filters = s.filters := rfl
@[simp] theorem State.putTask_sealed (s : State) (t : Task) : (s.putTask t).sealed = s.sealed := rfl
@[simp] theorem State.updTask_cur (s : State) (id : Nat) (f : Task → Task) : (s.updTask id f).cur = s.cur := rfl
@[simp] theorem State.updTask_agenda (s : State) (id : Nat) (f : Task → Task) : (s.updTask id f).agenda = s.agenda := rfl
@[simp] theorem State.updTask_free (s : State) (id : Nat) (f : Task → Task) : (s.updTask id f).free = s.free := rfl
@[simp] theorem State.updTask_nextId (s : State) (id : Nat) (f : Task → Task) : (s.updTask id f).nextId = s.nextId := rfl
@[simp] theorem State.updTask_cycle (s : State) (id : Nat) (f : Task → Task) : (s.updTask id f).cycle = s.cycle := rfl
@[simp] theorem State.updTask_tsnow (s : State) (id : Nat) (f : Task → Task) : (s.updTask id f).tsnow = s.tsnow := rfl
@[simp] theorem State.updTask_tsfrac (s : State) (id : Nat) (f : Task → Task) : (s.updTask id f).tsfrac = s.tsfrac := rfl
@[simp] theorem State.updTask_tsHold (s : State) (id : Nat) (f : Task → Task) : (s.updTask id f).tsHold = s.tsHold := rfl
@[simp] theorem State.updTask_synced (s : State) (id : Nat) (f : Task → Task) : (s.updTask id f).synced = s.synced := rfl
@[simp] theorem State.updTask_timeRef (s : State) (id : Nat) (f : Task → Task) : (s.updTask id f).timeRef = s.timeRef := rfl
@[simp] theorem State.updTask_timeFound (s : State) (id : Nat) (f : Task → Task) : (s.updTask id f).timeFound = s.timeFound := rfl
@[simp] theorem State.updTask_slew (s : State) (id : Nat) (f : Task → Task) : (s.updTask id f).slew = s.slew := rfl
@[simp] theorem State.updTask_wrefCur (s : State) (id : Nat) (f : Task → Task) : (s.updTask id f).wrefCur = s.wrefCur := rfl
@[simp] theorem State.updTask_wrefLeft (s : State) (id : Nat) (f : Task → Task) : (s.updTask id f).wrefLeft = s.wrefLeft := rfl
@[simp] theorem State.updTask_boot (s : State) (id : Nat) (f : Task → Task) : (s.updTask id f).boot = s.boot := rfl
@[simp] theorem State.updTask_clusters (s : State) (id : Nat) (f : Task → Task) : (s.updTask id f).clusters = s.clusters := rfl
@[simp] theorem State.updTask_firmware (s : State) (id : Nat) (f : Task → Task) : (s.updTask id f).firmware = s.firmware := rfl
@[simp] theorem State.updTask_lifetime (s : State) (id : Nat) (f : Task → Task) : (s.updTask id f).lifetime = s.lifetime := rfl
@[simp] theorem State.updTask_errKinds (s : State) (id : Nat) (f : Task → Task) : (s.updTask id f).errKinds = s.errKinds := rfl
@[simp] theorem State.updTask_lastLife (s : State) (id : Nat) (f : Task → Task) : (s.updTask id f).lastLife = s.lastLife := rfl
@[simp] theorem State.updTask_lifeFrac (s : State) (id : Nat) (f : Task → Task) : (s.updTask id f).lifeFrac = s.lifeFrac := rfl
@[simp] theorem State.updTask_lastGrant (s : State) (id : Nat) (f : Task → Task) : (s.updTask id f).lastGrant = s.lastGrant := rfl
@[simp] theorem State.updTask_lastSlot (s : State) (id : Nat) (f : Task → Task) : (s.updTask id f).lastSlot = s.lastSlot := rfl
@[simp] theorem State.updTask_mem (s : State) (id : Nat) (f : Task → Task) : (s.updTask id f).mem = s.mem := rfl
@[simp] theorem State.updTask_poison (s : State) (id : Nat) (f : Task → Task) : (s.updTask id f).poison = s.poison := rfl
@[simp] theorem State.updTask_consumed (s : State) (id : Nat) (f : Task → Task) : (s.updTask id f).consumed = s.consumed := rfl
@[simp] theorem State.updTask_owners (s : State) (id : Nat) (f : Task → Task) : (s.updTask id f).owners = s.owners := rfl
@[simp] theorem State.updTask_wsBad (s : State) (id : Nat) (f : Task → Task) : (s.updTask id f).wsBad = s.wsBad := rfl
@[simp] theorem State.updTask_cells (s : State) (id : Nat) (f : Task → Task) : (s.updTask id f).cells = s.cells := rfl
@[simp] theorem State.updTask_phys (s : State) (id : Nat) (f : Task → Task) : (s.updTask id f).phys = s.phys := rfl
@[simp] theorem State.updTask_tlb (s : State) (id : Nat) (f : Task → Task) : (s.updTask id f).tlb = s.tlb := rfl
@[simp] theorem State.updTask_pairs (s : State) (id : Nat) (f : Task → Task) : (s.updTask id f).pairs = s.pairs := rfl
@[simp] theorem State.updTask_windows (s : State) (id : Nat) (f : Task → Task) : (s.updTask id f).windows = s.windows := rfl
@[simp] theorem State.updTask_parts (s : State) (id : Nat) (f : Task → Task) : (s.updTask id f).parts = s.parts := rfl
@[simp] theorem State.updTask_visit (s : State) (id : Nat) (f : Task → Task) : (s.updTask id f).visit = s.visit := rfl
@[simp] theorem State.updTask_ctxs (s : State) (id : Nat) (f : Task → Task) : (s.updTask id f).ctxs = s.ctxs := rfl
@[simp] theorem State.updTask_kernels (s : State) (id : Nat) (f : Task → Task) : (s.updTask id f).kernels = s.kernels := rfl
@[simp] theorem State.updTask_carafe (s : State) (id : Nat) (f : Task → Task) : (s.updTask id f).carafe = s.carafe := rfl
@[simp] theorem State.updTask_insts (s : State) (id : Nat) (f : Task → Task) : (s.updTask id f).insts = s.insts := rfl
@[simp] theorem State.updTask_groups (s : State) (id : Nat) (f : Task → Task) : (s.updTask id f).groups = s.groups := rfl
@[simp] theorem State.updTask_carries (s : State) (id : Nat) (f : Task → Task) : (s.updTask id f).carries = s.carries := rfl
@[simp] theorem State.updTask_reds (s : State) (id : Nat) (f : Task → Task) : (s.updTask id f).reds = s.reds := rfl
@[simp] theorem State.updTask_episodes (s : State) (id : Nat) (f : Task → Task) : (s.updTask id f).episodes = s.episodes := rfl
@[simp] theorem State.updTask_heard (s : State) (id : Nat) (f : Task → Task) : (s.updTask id f).heard = s.heard := rfl
@[simp] theorem State.updTask_regs (s : State) (id : Nat) (f : Task → Task) : (s.updTask id f).regs = s.regs := rfl
@[simp] theorem State.updTask_fnOn (s : State) (id : Nat) (f : Task → Task) : (s.updTask id f).fnOn = s.fnOn := rfl
@[simp] theorem State.updTask_pending (s : State) (id : Nat) (f : Task → Task) : (s.updTask id f).pending = s.pending := rfl
@[simp] theorem State.updTask_heldRecs (s : State) (id : Nat) (f : Task → Task) : (s.updTask id f).heldRecs = s.heldRecs := rfl
@[simp] theorem State.updTask_heldFaults (s : State) (id : Nat) (f : Task → Task) : (s.updTask id f).heldFaults = s.heldFaults := rfl
@[simp] theorem State.updTask_invBusy (s : State) (id : Nat) (f : Task → Task) : (s.updTask id f).invBusy = s.invBusy := rfl
@[simp] theorem State.updTask_dropped (s : State) (id : Nat) (f : Task → Task) : (s.updTask id f).dropped = s.dropped := rfl
@[simp] theorem State.updTask_repairBusy (s : State) (id : Nat) (f : Task → Task) : (s.updTask id f).repairBusy = s.repairBusy := rfl
@[simp] theorem State.updTask_hbmGiB (s : State) (id : Nat) (f : Task → Task) : (s.updTask id f).hbmGiB = s.hbmGiB := rfl
@[simp] theorem State.updTask_errBanks (s : State) (id : Nat) (f : Task → Task) : (s.updTask id f).errBanks = s.errBanks := rfl
@[simp] theorem State.updTask_errSeq (s : State) (id : Nat) (f : Task → Task) : (s.updTask id f).errSeq = s.errSeq := rfl
@[simp] theorem State.updTask_errNow (s : State) (id : Nat) (f : Task → Task) : (s.updTask id f).errNow = s.errNow := rfl
@[simp] theorem State.updTask_brkPast (s : State) (id : Nat) (f : Task → Task) : (s.updTask id f).brkPast = s.brkPast := rfl
@[simp] theorem State.updTask_ports (s : State) (id : Nat) (f : Task → Task) : (s.updTask id f).ports = s.ports := rfl
@[simp] theorem State.updTask_flows (s : State) (id : Nat) (f : Task → Task) : (s.updTask id f).flows = s.flows := rfl
@[simp] theorem State.updTask_inflows (s : State) (id : Nat) (f : Task → Task) : (s.updTask id f).inflows = s.inflows := rfl
@[simp] theorem State.updTask_peerDown (s : State) (id : Nat) (f : Task → Task) : (s.updTask id f).peerDown = s.peerDown := rfl
@[simp] theorem State.updTask_asks (s : State) (id : Nat) (f : Task → Task) : (s.updTask id f).asks = s.asks := rfl
@[simp] theorem State.updTask_recv (s : State) (id : Nat) (f : Task → Task) : (s.updTask id f).recv = s.recv := rfl
@[simp] theorem State.updTask_bridgeSums (s : State) (id : Nat) (f : Task → Task) : (s.updTask id f).bridgeSums = s.bridgeSums := rfl
@[simp] theorem State.updTask_romHash (s : State) (id : Nat) (f : Task → Task) : (s.updTask id f).romHash = s.romHash := rfl
@[simp] theorem State.updTask_blob (s : State) (id : Nat) (f : Task → Task) : (s.updTask id f).blob = s.blob := rfl
@[simp] theorem State.updTask_blobBad (s : State) (id : Nat) (f : Task → Task) : (s.updTask id f).blobBad = s.blobBad := rfl
@[simp] theorem State.updTask_counters (s : State) (id : Nat) (f : Task → Task) : (s.updTask id f).counters = s.counters := rfl
@[simp] theorem State.updTask_storeWrites (s : State) (id : Nat) (f : Task → Task) : (s.updTask id f).storeWrites = s.storeWrites := rfl
@[simp] theorem State.updTask_storeKey (s : State) (id : Nat) (f : Task → Task) : (s.updTask id f).storeKey = s.storeKey := rfl
@[simp] theorem State.updTask_capBusy (s : State) (id : Nat) (f : Task → Task) : (s.updTask id f).capBusy = s.capBusy := rfl
@[simp] theorem State.updTask_capNonces (s : State) (id : Nat) (f : Task → Task) : (s.updTask id f).capNonces = s.capNonces := rfl
@[simp] theorem State.updTask_sealKeys (s : State) (id : Nat) (f : Task → Task) : (s.updTask id f).sealKeys = s.sealKeys := rfl
@[simp] theorem State.updTask_filters (s : State) (id : Nat) (f : Task → Task) : (s.updTask id f).filters = s.filters := rfl
@[simp] theorem State.updTask_sealed (s : State) (id : Nat) (f : Task → Task) : (s.updTask id f).sealed = s.sealed := rfl
@[simp] theorem State.putInst_cur (s : State) (i : Inst) : (s.putInst i).cur = s.cur := rfl
@[simp] theorem State.putInst_agenda (s : State) (i : Inst) : (s.putInst i).agenda = s.agenda := rfl
@[simp] theorem State.putInst_free (s : State) (i : Inst) : (s.putInst i).free = s.free := rfl
@[simp] theorem State.putInst_nextId (s : State) (i : Inst) : (s.putInst i).nextId = s.nextId := rfl
@[simp] theorem State.putInst_cycle (s : State) (i : Inst) : (s.putInst i).cycle = s.cycle := rfl
@[simp] theorem State.putInst_tsnow (s : State) (i : Inst) : (s.putInst i).tsnow = s.tsnow := rfl
@[simp] theorem State.putInst_tsfrac (s : State) (i : Inst) : (s.putInst i).tsfrac = s.tsfrac := rfl
@[simp] theorem State.putInst_tsHold (s : State) (i : Inst) : (s.putInst i).tsHold = s.tsHold := rfl
@[simp] theorem State.putInst_synced (s : State) (i : Inst) : (s.putInst i).synced = s.synced := rfl
@[simp] theorem State.putInst_timeRef (s : State) (i : Inst) : (s.putInst i).timeRef = s.timeRef := rfl
@[simp] theorem State.putInst_timeFound (s : State) (i : Inst) : (s.putInst i).timeFound = s.timeFound := rfl
@[simp] theorem State.putInst_slew (s : State) (i : Inst) : (s.putInst i).slew = s.slew := rfl
@[simp] theorem State.putInst_wrefCur (s : State) (i : Inst) : (s.putInst i).wrefCur = s.wrefCur := rfl
@[simp] theorem State.putInst_wrefLeft (s : State) (i : Inst) : (s.putInst i).wrefLeft = s.wrefLeft := rfl
@[simp] theorem State.putInst_boot (s : State) (i : Inst) : (s.putInst i).boot = s.boot := rfl
@[simp] theorem State.putInst_clusters (s : State) (i : Inst) : (s.putInst i).clusters = s.clusters := rfl
@[simp] theorem State.putInst_firmware (s : State) (i : Inst) : (s.putInst i).firmware = s.firmware := rfl
@[simp] theorem State.putInst_lifetime (s : State) (i : Inst) : (s.putInst i).lifetime = s.lifetime := rfl
@[simp] theorem State.putInst_errKinds (s : State) (i : Inst) : (s.putInst i).errKinds = s.errKinds := rfl
@[simp] theorem State.putInst_lastLife (s : State) (i : Inst) : (s.putInst i).lastLife = s.lastLife := rfl
@[simp] theorem State.putInst_lifeFrac (s : State) (i : Inst) : (s.putInst i).lifeFrac = s.lifeFrac := rfl
@[simp] theorem State.putInst_lastGrant (s : State) (i : Inst) : (s.putInst i).lastGrant = s.lastGrant := rfl
@[simp] theorem State.putInst_lastSlot (s : State) (i : Inst) : (s.putInst i).lastSlot = s.lastSlot := rfl
@[simp] theorem State.putInst_mem (s : State) (i : Inst) : (s.putInst i).mem = s.mem := rfl
@[simp] theorem State.putInst_poison (s : State) (i : Inst) : (s.putInst i).poison = s.poison := rfl
@[simp] theorem State.putInst_consumed (s : State) (i : Inst) : (s.putInst i).consumed = s.consumed := rfl
@[simp] theorem State.putInst_owners (s : State) (i : Inst) : (s.putInst i).owners = s.owners := rfl
@[simp] theorem State.putInst_wsBad (s : State) (i : Inst) : (s.putInst i).wsBad = s.wsBad := rfl
@[simp] theorem State.putInst_cells (s : State) (i : Inst) : (s.putInst i).cells = s.cells := rfl
@[simp] theorem State.putInst_phys (s : State) (i : Inst) : (s.putInst i).phys = s.phys := rfl
@[simp] theorem State.putInst_tlb (s : State) (i : Inst) : (s.putInst i).tlb = s.tlb := rfl
@[simp] theorem State.putInst_pairs (s : State) (i : Inst) : (s.putInst i).pairs = s.pairs := rfl
@[simp] theorem State.putInst_windows (s : State) (i : Inst) : (s.putInst i).windows = s.windows := rfl
@[simp] theorem State.putInst_parts (s : State) (i : Inst) : (s.putInst i).parts = s.parts := rfl
@[simp] theorem State.putInst_visit (s : State) (i : Inst) : (s.putInst i).visit = s.visit := rfl
@[simp] theorem State.putInst_ctxs (s : State) (i : Inst) : (s.putInst i).ctxs = s.ctxs := rfl
@[simp] theorem State.putInst_kernels (s : State) (i : Inst) : (s.putInst i).kernels = s.kernels := rfl
@[simp] theorem State.putInst_carafe (s : State) (i : Inst) : (s.putInst i).carafe = s.carafe := rfl
@[simp] theorem State.putInst_groups (s : State) (i : Inst) : (s.putInst i).groups = s.groups := rfl
@[simp] theorem State.putInst_tasks (s : State) (i : Inst) : (s.putInst i).tasks = s.tasks := rfl
@[simp] theorem State.putInst_carries (s : State) (i : Inst) : (s.putInst i).carries = s.carries := rfl
@[simp] theorem State.putInst_reds (s : State) (i : Inst) : (s.putInst i).reds = s.reds := rfl
@[simp] theorem State.putInst_episodes (s : State) (i : Inst) : (s.putInst i).episodes = s.episodes := rfl
@[simp] theorem State.putInst_heard (s : State) (i : Inst) : (s.putInst i).heard = s.heard := rfl
@[simp] theorem State.putInst_regs (s : State) (i : Inst) : (s.putInst i).regs = s.regs := rfl
@[simp] theorem State.putInst_fnOn (s : State) (i : Inst) : (s.putInst i).fnOn = s.fnOn := rfl
@[simp] theorem State.putInst_pending (s : State) (i : Inst) : (s.putInst i).pending = s.pending := rfl
@[simp] theorem State.putInst_heldRecs (s : State) (i : Inst) : (s.putInst i).heldRecs = s.heldRecs := rfl
@[simp] theorem State.putInst_heldFaults (s : State) (i : Inst) : (s.putInst i).heldFaults = s.heldFaults := rfl
@[simp] theorem State.putInst_invBusy (s : State) (i : Inst) : (s.putInst i).invBusy = s.invBusy := rfl
@[simp] theorem State.putInst_dropped (s : State) (i : Inst) : (s.putInst i).dropped = s.dropped := rfl
@[simp] theorem State.putInst_repairBusy (s : State) (i : Inst) : (s.putInst i).repairBusy = s.repairBusy := rfl
@[simp] theorem State.putInst_hbmGiB (s : State) (i : Inst) : (s.putInst i).hbmGiB = s.hbmGiB := rfl
@[simp] theorem State.putInst_errBanks (s : State) (i : Inst) : (s.putInst i).errBanks = s.errBanks := rfl
@[simp] theorem State.putInst_errSeq (s : State) (i : Inst) : (s.putInst i).errSeq = s.errSeq := rfl
@[simp] theorem State.putInst_errNow (s : State) (i : Inst) : (s.putInst i).errNow = s.errNow := rfl
@[simp] theorem State.putInst_brkPast (s : State) (i : Inst) : (s.putInst i).brkPast = s.brkPast := rfl
@[simp] theorem State.putInst_ports (s : State) (i : Inst) : (s.putInst i).ports = s.ports := rfl
@[simp] theorem State.putInst_flows (s : State) (i : Inst) : (s.putInst i).flows = s.flows := rfl
@[simp] theorem State.putInst_inflows (s : State) (i : Inst) : (s.putInst i).inflows = s.inflows := rfl
@[simp] theorem State.putInst_peerDown (s : State) (i : Inst) : (s.putInst i).peerDown = s.peerDown := rfl
@[simp] theorem State.putInst_asks (s : State) (i : Inst) : (s.putInst i).asks = s.asks := rfl
@[simp] theorem State.putInst_recv (s : State) (i : Inst) : (s.putInst i).recv = s.recv := rfl
@[simp] theorem State.putInst_bridgeSums (s : State) (i : Inst) : (s.putInst i).bridgeSums = s.bridgeSums := rfl
@[simp] theorem State.putInst_romHash (s : State) (i : Inst) : (s.putInst i).romHash = s.romHash := rfl
@[simp] theorem State.putInst_blob (s : State) (i : Inst) : (s.putInst i).blob = s.blob := rfl
@[simp] theorem State.putInst_blobBad (s : State) (i : Inst) : (s.putInst i).blobBad = s.blobBad := rfl
@[simp] theorem State.putInst_counters (s : State) (i : Inst) : (s.putInst i).counters = s.counters := rfl
@[simp] theorem State.putInst_storeWrites (s : State) (i : Inst) : (s.putInst i).storeWrites = s.storeWrites := rfl
@[simp] theorem State.putInst_storeKey (s : State) (i : Inst) : (s.putInst i).storeKey = s.storeKey := rfl
@[simp] theorem State.putInst_capBusy (s : State) (i : Inst) : (s.putInst i).capBusy = s.capBusy := rfl
@[simp] theorem State.putInst_capNonces (s : State) (i : Inst) : (s.putInst i).capNonces = s.capNonces := rfl
@[simp] theorem State.putInst_sealKeys (s : State) (i : Inst) : (s.putInst i).sealKeys = s.sealKeys := rfl
@[simp] theorem State.putInst_filters (s : State) (i : Inst) : (s.putInst i).filters = s.filters := rfl
@[simp] theorem State.putInst_sealed (s : State) (i : Inst) : (s.putInst i).sealed = s.sealed := rfl
@[simp] theorem State.putCarry_cur (s : State) (k : Carry) : (s.putCarry k).cur = s.cur := rfl
@[simp] theorem State.putCarry_agenda (s : State) (k : Carry) : (s.putCarry k).agenda = s.agenda := rfl
@[simp] theorem State.putCarry_free (s : State) (k : Carry) : (s.putCarry k).free = s.free := rfl
@[simp] theorem State.putCarry_nextId (s : State) (k : Carry) : (s.putCarry k).nextId = s.nextId := rfl
@[simp] theorem State.putCarry_cycle (s : State) (k : Carry) : (s.putCarry k).cycle = s.cycle := rfl
@[simp] theorem State.putCarry_tsnow (s : State) (k : Carry) : (s.putCarry k).tsnow = s.tsnow := rfl
@[simp] theorem State.putCarry_tsfrac (s : State) (k : Carry) : (s.putCarry k).tsfrac = s.tsfrac := rfl
@[simp] theorem State.putCarry_tsHold (s : State) (k : Carry) : (s.putCarry k).tsHold = s.tsHold := rfl
@[simp] theorem State.putCarry_synced (s : State) (k : Carry) : (s.putCarry k).synced = s.synced := rfl
@[simp] theorem State.putCarry_timeRef (s : State) (k : Carry) : (s.putCarry k).timeRef = s.timeRef := rfl
@[simp] theorem State.putCarry_timeFound (s : State) (k : Carry) : (s.putCarry k).timeFound = s.timeFound := rfl
@[simp] theorem State.putCarry_slew (s : State) (k : Carry) : (s.putCarry k).slew = s.slew := rfl
@[simp] theorem State.putCarry_wrefCur (s : State) (k : Carry) : (s.putCarry k).wrefCur = s.wrefCur := rfl
@[simp] theorem State.putCarry_wrefLeft (s : State) (k : Carry) : (s.putCarry k).wrefLeft = s.wrefLeft := rfl
@[simp] theorem State.putCarry_boot (s : State) (k : Carry) : (s.putCarry k).boot = s.boot := rfl
@[simp] theorem State.putCarry_clusters (s : State) (k : Carry) : (s.putCarry k).clusters = s.clusters := rfl
@[simp] theorem State.putCarry_firmware (s : State) (k : Carry) : (s.putCarry k).firmware = s.firmware := rfl
@[simp] theorem State.putCarry_lifetime (s : State) (k : Carry) : (s.putCarry k).lifetime = s.lifetime := rfl
@[simp] theorem State.putCarry_errKinds (s : State) (k : Carry) : (s.putCarry k).errKinds = s.errKinds := rfl
@[simp] theorem State.putCarry_lastLife (s : State) (k : Carry) : (s.putCarry k).lastLife = s.lastLife := rfl
@[simp] theorem State.putCarry_lifeFrac (s : State) (k : Carry) : (s.putCarry k).lifeFrac = s.lifeFrac := rfl
@[simp] theorem State.putCarry_lastGrant (s : State) (k : Carry) : (s.putCarry k).lastGrant = s.lastGrant := rfl
@[simp] theorem State.putCarry_lastSlot (s : State) (k : Carry) : (s.putCarry k).lastSlot = s.lastSlot := rfl
@[simp] theorem State.putCarry_mem (s : State) (k : Carry) : (s.putCarry k).mem = s.mem := rfl
@[simp] theorem State.putCarry_poison (s : State) (k : Carry) : (s.putCarry k).poison = s.poison := rfl
@[simp] theorem State.putCarry_consumed (s : State) (k : Carry) : (s.putCarry k).consumed = s.consumed := rfl
@[simp] theorem State.putCarry_owners (s : State) (k : Carry) : (s.putCarry k).owners = s.owners := rfl
@[simp] theorem State.putCarry_wsBad (s : State) (k : Carry) : (s.putCarry k).wsBad = s.wsBad := rfl
@[simp] theorem State.putCarry_cells (s : State) (k : Carry) : (s.putCarry k).cells = s.cells := rfl
@[simp] theorem State.putCarry_phys (s : State) (k : Carry) : (s.putCarry k).phys = s.phys := rfl
@[simp] theorem State.putCarry_tlb (s : State) (k : Carry) : (s.putCarry k).tlb = s.tlb := rfl
@[simp] theorem State.putCarry_pairs (s : State) (k : Carry) : (s.putCarry k).pairs = s.pairs := rfl
@[simp] theorem State.putCarry_windows (s : State) (k : Carry) : (s.putCarry k).windows = s.windows := rfl
@[simp] theorem State.putCarry_parts (s : State) (k : Carry) : (s.putCarry k).parts = s.parts := rfl
@[simp] theorem State.putCarry_visit (s : State) (k : Carry) : (s.putCarry k).visit = s.visit := rfl
@[simp] theorem State.putCarry_ctxs (s : State) (k : Carry) : (s.putCarry k).ctxs = s.ctxs := rfl
@[simp] theorem State.putCarry_kernels (s : State) (k : Carry) : (s.putCarry k).kernels = s.kernels := rfl
@[simp] theorem State.putCarry_carafe (s : State) (k : Carry) : (s.putCarry k).carafe = s.carafe := rfl
@[simp] theorem State.putCarry_insts (s : State) (k : Carry) : (s.putCarry k).insts = s.insts := rfl
@[simp] theorem State.putCarry_groups (s : State) (k : Carry) : (s.putCarry k).groups = s.groups := rfl
@[simp] theorem State.putCarry_tasks (s : State) (k : Carry) : (s.putCarry k).tasks = s.tasks := rfl
@[simp] theorem State.putCarry_reds (s : State) (k : Carry) : (s.putCarry k).reds = s.reds := rfl
@[simp] theorem State.putCarry_episodes (s : State) (k : Carry) : (s.putCarry k).episodes = s.episodes := rfl
@[simp] theorem State.putCarry_heard (s : State) (k : Carry) : (s.putCarry k).heard = s.heard := rfl
@[simp] theorem State.putCarry_regs (s : State) (k : Carry) : (s.putCarry k).regs = s.regs := rfl
@[simp] theorem State.putCarry_fnOn (s : State) (k : Carry) : (s.putCarry k).fnOn = s.fnOn := rfl
@[simp] theorem State.putCarry_pending (s : State) (k : Carry) : (s.putCarry k).pending = s.pending := rfl
@[simp] theorem State.putCarry_heldRecs (s : State) (k : Carry) : (s.putCarry k).heldRecs = s.heldRecs := rfl
@[simp] theorem State.putCarry_heldFaults (s : State) (k : Carry) : (s.putCarry k).heldFaults = s.heldFaults := rfl
@[simp] theorem State.putCarry_invBusy (s : State) (k : Carry) : (s.putCarry k).invBusy = s.invBusy := rfl
@[simp] theorem State.putCarry_dropped (s : State) (k : Carry) : (s.putCarry k).dropped = s.dropped := rfl
@[simp] theorem State.putCarry_repairBusy (s : State) (k : Carry) : (s.putCarry k).repairBusy = s.repairBusy := rfl
@[simp] theorem State.putCarry_hbmGiB (s : State) (k : Carry) : (s.putCarry k).hbmGiB = s.hbmGiB := rfl
@[simp] theorem State.putCarry_errBanks (s : State) (k : Carry) : (s.putCarry k).errBanks = s.errBanks := rfl
@[simp] theorem State.putCarry_errSeq (s : State) (k : Carry) : (s.putCarry k).errSeq = s.errSeq := rfl
@[simp] theorem State.putCarry_errNow (s : State) (k : Carry) : (s.putCarry k).errNow = s.errNow := rfl
@[simp] theorem State.putCarry_brkPast (s : State) (k : Carry) : (s.putCarry k).brkPast = s.brkPast := rfl
@[simp] theorem State.putCarry_ports (s : State) (k : Carry) : (s.putCarry k).ports = s.ports := rfl
@[simp] theorem State.putCarry_flows (s : State) (k : Carry) : (s.putCarry k).flows = s.flows := rfl
@[simp] theorem State.putCarry_inflows (s : State) (k : Carry) : (s.putCarry k).inflows = s.inflows := rfl
@[simp] theorem State.putCarry_peerDown (s : State) (k : Carry) : (s.putCarry k).peerDown = s.peerDown := rfl
@[simp] theorem State.putCarry_asks (s : State) (k : Carry) : (s.putCarry k).asks = s.asks := rfl
@[simp] theorem State.putCarry_recv (s : State) (k : Carry) : (s.putCarry k).recv = s.recv := rfl
@[simp] theorem State.putCarry_bridgeSums (s : State) (k : Carry) : (s.putCarry k).bridgeSums = s.bridgeSums := rfl
@[simp] theorem State.putCarry_romHash (s : State) (k : Carry) : (s.putCarry k).romHash = s.romHash := rfl
@[simp] theorem State.putCarry_blob (s : State) (k : Carry) : (s.putCarry k).blob = s.blob := rfl
@[simp] theorem State.putCarry_blobBad (s : State) (k : Carry) : (s.putCarry k).blobBad = s.blobBad := rfl
@[simp] theorem State.putCarry_counters (s : State) (k : Carry) : (s.putCarry k).counters = s.counters := rfl
@[simp] theorem State.putCarry_storeWrites (s : State) (k : Carry) : (s.putCarry k).storeWrites = s.storeWrites := rfl
@[simp] theorem State.putCarry_storeKey (s : State) (k : Carry) : (s.putCarry k).storeKey = s.storeKey := rfl
@[simp] theorem State.putCarry_capBusy (s : State) (k : Carry) : (s.putCarry k).capBusy = s.capBusy := rfl
@[simp] theorem State.putCarry_capNonces (s : State) (k : Carry) : (s.putCarry k).capNonces = s.capNonces := rfl
@[simp] theorem State.putCarry_sealKeys (s : State) (k : Carry) : (s.putCarry k).sealKeys = s.sealKeys := rfl
@[simp] theorem State.putCarry_filters (s : State) (k : Carry) : (s.putCarry k).filters = s.filters := rfl
@[simp] theorem State.putCarry_sealed (s : State) (k : Carry) : (s.putCarry k).sealed = s.sealed := rfl
@[simp] theorem State.setReg_cur (s : State) (fn off : Nat) (v : Word64) : (s.setReg fn off v).cur = s.cur := rfl
@[simp] theorem State.setReg_agenda (s : State) (fn off : Nat) (v : Word64) : (s.setReg fn off v).agenda = s.agenda := rfl
@[simp] theorem State.setReg_free (s : State) (fn off : Nat) (v : Word64) : (s.setReg fn off v).free = s.free := rfl
@[simp] theorem State.setReg_nextId (s : State) (fn off : Nat) (v : Word64) : (s.setReg fn off v).nextId = s.nextId := rfl
@[simp] theorem State.setReg_cycle (s : State) (fn off : Nat) (v : Word64) : (s.setReg fn off v).cycle = s.cycle := rfl
@[simp] theorem State.setReg_tsnow (s : State) (fn off : Nat) (v : Word64) : (s.setReg fn off v).tsnow = s.tsnow := rfl
@[simp] theorem State.setReg_tsfrac (s : State) (fn off : Nat) (v : Word64) : (s.setReg fn off v).tsfrac = s.tsfrac := rfl
@[simp] theorem State.setReg_tsHold (s : State) (fn off : Nat) (v : Word64) : (s.setReg fn off v).tsHold = s.tsHold := rfl
@[simp] theorem State.setReg_synced (s : State) (fn off : Nat) (v : Word64) : (s.setReg fn off v).synced = s.synced := rfl
@[simp] theorem State.setReg_timeRef (s : State) (fn off : Nat) (v : Word64) : (s.setReg fn off v).timeRef = s.timeRef := rfl
@[simp] theorem State.setReg_timeFound (s : State) (fn off : Nat) (v : Word64) : (s.setReg fn off v).timeFound = s.timeFound := rfl
@[simp] theorem State.setReg_slew (s : State) (fn off : Nat) (v : Word64) : (s.setReg fn off v).slew = s.slew := rfl
@[simp] theorem State.setReg_wrefCur (s : State) (fn off : Nat) (v : Word64) : (s.setReg fn off v).wrefCur = s.wrefCur := rfl
@[simp] theorem State.setReg_wrefLeft (s : State) (fn off : Nat) (v : Word64) : (s.setReg fn off v).wrefLeft = s.wrefLeft := rfl
@[simp] theorem State.setReg_boot (s : State) (fn off : Nat) (v : Word64) : (s.setReg fn off v).boot = s.boot := rfl
@[simp] theorem State.setReg_clusters (s : State) (fn off : Nat) (v : Word64) : (s.setReg fn off v).clusters = s.clusters := rfl
@[simp] theorem State.setReg_firmware (s : State) (fn off : Nat) (v : Word64) : (s.setReg fn off v).firmware = s.firmware := rfl
@[simp] theorem State.setReg_lifetime (s : State) (fn off : Nat) (v : Word64) : (s.setReg fn off v).lifetime = s.lifetime := rfl
@[simp] theorem State.setReg_errKinds (s : State) (fn off : Nat) (v : Word64) : (s.setReg fn off v).errKinds = s.errKinds := rfl
@[simp] theorem State.setReg_lastLife (s : State) (fn off : Nat) (v : Word64) : (s.setReg fn off v).lastLife = s.lastLife := rfl
@[simp] theorem State.setReg_lifeFrac (s : State) (fn off : Nat) (v : Word64) : (s.setReg fn off v).lifeFrac = s.lifeFrac := rfl
@[simp] theorem State.setReg_lastGrant (s : State) (fn off : Nat) (v : Word64) : (s.setReg fn off v).lastGrant = s.lastGrant := rfl
@[simp] theorem State.setReg_lastSlot (s : State) (fn off : Nat) (v : Word64) : (s.setReg fn off v).lastSlot = s.lastSlot := rfl
@[simp] theorem State.setReg_mem (s : State) (fn off : Nat) (v : Word64) : (s.setReg fn off v).mem = s.mem := rfl
@[simp] theorem State.setReg_poison (s : State) (fn off : Nat) (v : Word64) : (s.setReg fn off v).poison = s.poison := rfl
@[simp] theorem State.setReg_consumed (s : State) (fn off : Nat) (v : Word64) : (s.setReg fn off v).consumed = s.consumed := rfl
@[simp] theorem State.setReg_owners (s : State) (fn off : Nat) (v : Word64) : (s.setReg fn off v).owners = s.owners := rfl
@[simp] theorem State.setReg_wsBad (s : State) (fn off : Nat) (v : Word64) : (s.setReg fn off v).wsBad = s.wsBad := rfl
@[simp] theorem State.setReg_cells (s : State) (fn off : Nat) (v : Word64) : (s.setReg fn off v).cells = s.cells := rfl
@[simp] theorem State.setReg_phys (s : State) (fn off : Nat) (v : Word64) : (s.setReg fn off v).phys = s.phys := rfl
@[simp] theorem State.setReg_tlb (s : State) (fn off : Nat) (v : Word64) : (s.setReg fn off v).tlb = s.tlb := rfl
@[simp] theorem State.setReg_pairs (s : State) (fn off : Nat) (v : Word64) : (s.setReg fn off v).pairs = s.pairs := rfl
@[simp] theorem State.setReg_windows (s : State) (fn off : Nat) (v : Word64) : (s.setReg fn off v).windows = s.windows := rfl
@[simp] theorem State.setReg_parts (s : State) (fn off : Nat) (v : Word64) : (s.setReg fn off v).parts = s.parts := rfl
@[simp] theorem State.setReg_visit (s : State) (fn off : Nat) (v : Word64) : (s.setReg fn off v).visit = s.visit := rfl
@[simp] theorem State.setReg_ctxs (s : State) (fn off : Nat) (v : Word64) : (s.setReg fn off v).ctxs = s.ctxs := rfl
@[simp] theorem State.setReg_kernels (s : State) (fn off : Nat) (v : Word64) : (s.setReg fn off v).kernels = s.kernels := rfl
@[simp] theorem State.setReg_carafe (s : State) (fn off : Nat) (v : Word64) : (s.setReg fn off v).carafe = s.carafe := rfl
@[simp] theorem State.setReg_insts (s : State) (fn off : Nat) (v : Word64) : (s.setReg fn off v).insts = s.insts := rfl
@[simp] theorem State.setReg_groups (s : State) (fn off : Nat) (v : Word64) : (s.setReg fn off v).groups = s.groups := rfl
@[simp] theorem State.setReg_tasks (s : State) (fn off : Nat) (v : Word64) : (s.setReg fn off v).tasks = s.tasks := rfl
@[simp] theorem State.setReg_carries (s : State) (fn off : Nat) (v : Word64) : (s.setReg fn off v).carries = s.carries := rfl
@[simp] theorem State.setReg_reds (s : State) (fn off : Nat) (v : Word64) : (s.setReg fn off v).reds = s.reds := rfl
@[simp] theorem State.setReg_episodes (s : State) (fn off : Nat) (v : Word64) : (s.setReg fn off v).episodes = s.episodes := rfl
@[simp] theorem State.setReg_heard (s : State) (fn off : Nat) (v : Word64) : (s.setReg fn off v).heard = s.heard := rfl
@[simp] theorem State.setReg_fnOn (s : State) (fn off : Nat) (v : Word64) : (s.setReg fn off v).fnOn = s.fnOn := rfl
@[simp] theorem State.setReg_pending (s : State) (fn off : Nat) (v : Word64) : (s.setReg fn off v).pending = s.pending := rfl
@[simp] theorem State.setReg_heldRecs (s : State) (fn off : Nat) (v : Word64) : (s.setReg fn off v).heldRecs = s.heldRecs := rfl
@[simp] theorem State.setReg_heldFaults (s : State) (fn off : Nat) (v : Word64) : (s.setReg fn off v).heldFaults = s.heldFaults := rfl
@[simp] theorem State.setReg_invBusy (s : State) (fn off : Nat) (v : Word64) : (s.setReg fn off v).invBusy = s.invBusy := rfl
@[simp] theorem State.setReg_dropped (s : State) (fn off : Nat) (v : Word64) : (s.setReg fn off v).dropped = s.dropped := rfl
@[simp] theorem State.setReg_repairBusy (s : State) (fn off : Nat) (v : Word64) : (s.setReg fn off v).repairBusy = s.repairBusy := rfl
@[simp] theorem State.setReg_hbmGiB (s : State) (fn off : Nat) (v : Word64) : (s.setReg fn off v).hbmGiB = s.hbmGiB := rfl
@[simp] theorem State.setReg_errBanks (s : State) (fn off : Nat) (v : Word64) : (s.setReg fn off v).errBanks = s.errBanks := rfl
@[simp] theorem State.setReg_errSeq (s : State) (fn off : Nat) (v : Word64) : (s.setReg fn off v).errSeq = s.errSeq := rfl
@[simp] theorem State.setReg_errNow (s : State) (fn off : Nat) (v : Word64) : (s.setReg fn off v).errNow = s.errNow := rfl
@[simp] theorem State.setReg_brkPast (s : State) (fn off : Nat) (v : Word64) : (s.setReg fn off v).brkPast = s.brkPast := rfl
@[simp] theorem State.setReg_ports (s : State) (fn off : Nat) (v : Word64) : (s.setReg fn off v).ports = s.ports := rfl
@[simp] theorem State.setReg_flows (s : State) (fn off : Nat) (v : Word64) : (s.setReg fn off v).flows = s.flows := rfl
@[simp] theorem State.setReg_inflows (s : State) (fn off : Nat) (v : Word64) : (s.setReg fn off v).inflows = s.inflows := rfl
@[simp] theorem State.setReg_peerDown (s : State) (fn off : Nat) (v : Word64) : (s.setReg fn off v).peerDown = s.peerDown := rfl
@[simp] theorem State.setReg_asks (s : State) (fn off : Nat) (v : Word64) : (s.setReg fn off v).asks = s.asks := rfl
@[simp] theorem State.setReg_recv (s : State) (fn off : Nat) (v : Word64) : (s.setReg fn off v).recv = s.recv := rfl
@[simp] theorem State.setReg_bridgeSums (s : State) (fn off : Nat) (v : Word64) : (s.setReg fn off v).bridgeSums = s.bridgeSums := rfl
@[simp] theorem State.setReg_romHash (s : State) (fn off : Nat) (v : Word64) : (s.setReg fn off v).romHash = s.romHash := rfl
@[simp] theorem State.setReg_blob (s : State) (fn off : Nat) (v : Word64) : (s.setReg fn off v).blob = s.blob := rfl
@[simp] theorem State.setReg_blobBad (s : State) (fn off : Nat) (v : Word64) : (s.setReg fn off v).blobBad = s.blobBad := rfl
@[simp] theorem State.setReg_counters (s : State) (fn off : Nat) (v : Word64) : (s.setReg fn off v).counters = s.counters := rfl
@[simp] theorem State.setReg_storeWrites (s : State) (fn off : Nat) (v : Word64) : (s.setReg fn off v).storeWrites = s.storeWrites := rfl
@[simp] theorem State.setReg_storeKey (s : State) (fn off : Nat) (v : Word64) : (s.setReg fn off v).storeKey = s.storeKey := rfl
@[simp] theorem State.setReg_capBusy (s : State) (fn off : Nat) (v : Word64) : (s.setReg fn off v).capBusy = s.capBusy := rfl
@[simp] theorem State.setReg_capNonces (s : State) (fn off : Nat) (v : Word64) : (s.setReg fn off v).capNonces = s.capNonces := rfl
@[simp] theorem State.setReg_sealKeys (s : State) (fn off : Nat) (v : Word64) : (s.setReg fn off v).sealKeys = s.sealKeys := rfl
@[simp] theorem State.setReg_filters (s : State) (fn off : Nat) (v : Word64) : (s.setReg fn off v).filters = s.filters := rfl
@[simp] theorem State.setReg_sealed (s : State) (fn off : Nat) (v : Word64) : (s.setReg fn off v).sealed = s.sealed := rfl
@[simp] theorem State.setWindow_cur (s : State) (tw : Fin 8) (r : TwReg) : (s.setWindow tw r).cur = s.cur := rfl
@[simp] theorem State.setWindow_agenda (s : State) (tw : Fin 8) (r : TwReg) : (s.setWindow tw r).agenda = s.agenda := rfl
@[simp] theorem State.setWindow_free (s : State) (tw : Fin 8) (r : TwReg) : (s.setWindow tw r).free = s.free := rfl
@[simp] theorem State.setWindow_nextId (s : State) (tw : Fin 8) (r : TwReg) : (s.setWindow tw r).nextId = s.nextId := rfl
@[simp] theorem State.setWindow_cycle (s : State) (tw : Fin 8) (r : TwReg) : (s.setWindow tw r).cycle = s.cycle := rfl
@[simp] theorem State.setWindow_tsnow (s : State) (tw : Fin 8) (r : TwReg) : (s.setWindow tw r).tsnow = s.tsnow := rfl
@[simp] theorem State.setWindow_tsfrac (s : State) (tw : Fin 8) (r : TwReg) : (s.setWindow tw r).tsfrac = s.tsfrac := rfl
@[simp] theorem State.setWindow_tsHold (s : State) (tw : Fin 8) (r : TwReg) : (s.setWindow tw r).tsHold = s.tsHold := rfl
@[simp] theorem State.setWindow_synced (s : State) (tw : Fin 8) (r : TwReg) : (s.setWindow tw r).synced = s.synced := rfl
@[simp] theorem State.setWindow_timeRef (s : State) (tw : Fin 8) (r : TwReg) : (s.setWindow tw r).timeRef = s.timeRef := rfl
@[simp] theorem State.setWindow_timeFound (s : State) (tw : Fin 8) (r : TwReg) : (s.setWindow tw r).timeFound = s.timeFound := rfl
@[simp] theorem State.setWindow_slew (s : State) (tw : Fin 8) (r : TwReg) : (s.setWindow tw r).slew = s.slew := rfl
@[simp] theorem State.setWindow_wrefCur (s : State) (tw : Fin 8) (r : TwReg) : (s.setWindow tw r).wrefCur = s.wrefCur := rfl
@[simp] theorem State.setWindow_wrefLeft (s : State) (tw : Fin 8) (r : TwReg) : (s.setWindow tw r).wrefLeft = s.wrefLeft := rfl
@[simp] theorem State.setWindow_boot (s : State) (tw : Fin 8) (r : TwReg) : (s.setWindow tw r).boot = s.boot := rfl
@[simp] theorem State.setWindow_clusters (s : State) (tw : Fin 8) (r : TwReg) : (s.setWindow tw r).clusters = s.clusters := rfl
@[simp] theorem State.setWindow_firmware (s : State) (tw : Fin 8) (r : TwReg) : (s.setWindow tw r).firmware = s.firmware := rfl
@[simp] theorem State.setWindow_lifetime (s : State) (tw : Fin 8) (r : TwReg) : (s.setWindow tw r).lifetime = s.lifetime := rfl
@[simp] theorem State.setWindow_errKinds (s : State) (tw : Fin 8) (r : TwReg) : (s.setWindow tw r).errKinds = s.errKinds := rfl
@[simp] theorem State.setWindow_lastLife (s : State) (tw : Fin 8) (r : TwReg) : (s.setWindow tw r).lastLife = s.lastLife := rfl
@[simp] theorem State.setWindow_lifeFrac (s : State) (tw : Fin 8) (r : TwReg) : (s.setWindow tw r).lifeFrac = s.lifeFrac := rfl
@[simp] theorem State.setWindow_lastGrant (s : State) (tw : Fin 8) (r : TwReg) : (s.setWindow tw r).lastGrant = s.lastGrant := rfl
@[simp] theorem State.setWindow_lastSlot (s : State) (tw : Fin 8) (r : TwReg) : (s.setWindow tw r).lastSlot = s.lastSlot := rfl
@[simp] theorem State.setWindow_mem (s : State) (tw : Fin 8) (r : TwReg) : (s.setWindow tw r).mem = s.mem := rfl
@[simp] theorem State.setWindow_poison (s : State) (tw : Fin 8) (r : TwReg) : (s.setWindow tw r).poison = s.poison := rfl
@[simp] theorem State.setWindow_consumed (s : State) (tw : Fin 8) (r : TwReg) : (s.setWindow tw r).consumed = s.consumed := rfl
@[simp] theorem State.setWindow_owners (s : State) (tw : Fin 8) (r : TwReg) : (s.setWindow tw r).owners = s.owners := rfl
@[simp] theorem State.setWindow_wsBad (s : State) (tw : Fin 8) (r : TwReg) : (s.setWindow tw r).wsBad = s.wsBad := rfl
@[simp] theorem State.setWindow_cells (s : State) (tw : Fin 8) (r : TwReg) : (s.setWindow tw r).cells = s.cells := rfl
@[simp] theorem State.setWindow_phys (s : State) (tw : Fin 8) (r : TwReg) : (s.setWindow tw r).phys = s.phys := rfl
@[simp] theorem State.setWindow_tlb (s : State) (tw : Fin 8) (r : TwReg) : (s.setWindow tw r).tlb = s.tlb := rfl
@[simp] theorem State.setWindow_pairs (s : State) (tw : Fin 8) (r : TwReg) : (s.setWindow tw r).pairs = s.pairs := rfl
@[simp] theorem State.setWindow_parts (s : State) (tw : Fin 8) (r : TwReg) : (s.setWindow tw r).parts = s.parts := rfl
@[simp] theorem State.setWindow_visit (s : State) (tw : Fin 8) (r : TwReg) : (s.setWindow tw r).visit = s.visit := rfl
@[simp] theorem State.setWindow_ctxs (s : State) (tw : Fin 8) (r : TwReg) : (s.setWindow tw r).ctxs = s.ctxs := rfl
@[simp] theorem State.setWindow_kernels (s : State) (tw : Fin 8) (r : TwReg) : (s.setWindow tw r).kernels = s.kernels := rfl
@[simp] theorem State.setWindow_carafe (s : State) (tw : Fin 8) (r : TwReg) : (s.setWindow tw r).carafe = s.carafe := rfl
@[simp] theorem State.setWindow_insts (s : State) (tw : Fin 8) (r : TwReg) : (s.setWindow tw r).insts = s.insts := rfl
@[simp] theorem State.setWindow_groups (s : State) (tw : Fin 8) (r : TwReg) : (s.setWindow tw r).groups = s.groups := rfl
@[simp] theorem State.setWindow_tasks (s : State) (tw : Fin 8) (r : TwReg) : (s.setWindow tw r).tasks = s.tasks := rfl
@[simp] theorem State.setWindow_carries (s : State) (tw : Fin 8) (r : TwReg) : (s.setWindow tw r).carries = s.carries := rfl
@[simp] theorem State.setWindow_reds (s : State) (tw : Fin 8) (r : TwReg) : (s.setWindow tw r).reds = s.reds := rfl
@[simp] theorem State.setWindow_episodes (s : State) (tw : Fin 8) (r : TwReg) : (s.setWindow tw r).episodes = s.episodes := rfl
@[simp] theorem State.setWindow_heard (s : State) (tw : Fin 8) (r : TwReg) : (s.setWindow tw r).heard = s.heard := rfl
@[simp] theorem State.setWindow_regs (s : State) (tw : Fin 8) (r : TwReg) : (s.setWindow tw r).regs = s.regs := rfl
@[simp] theorem State.setWindow_fnOn (s : State) (tw : Fin 8) (r : TwReg) : (s.setWindow tw r).fnOn = s.fnOn := rfl
@[simp] theorem State.setWindow_pending (s : State) (tw : Fin 8) (r : TwReg) : (s.setWindow tw r).pending = s.pending := rfl
@[simp] theorem State.setWindow_heldRecs (s : State) (tw : Fin 8) (r : TwReg) : (s.setWindow tw r).heldRecs = s.heldRecs := rfl
@[simp] theorem State.setWindow_heldFaults (s : State) (tw : Fin 8) (r : TwReg) : (s.setWindow tw r).heldFaults = s.heldFaults := rfl
@[simp] theorem State.setWindow_invBusy (s : State) (tw : Fin 8) (r : TwReg) : (s.setWindow tw r).invBusy = s.invBusy := rfl
@[simp] theorem State.setWindow_dropped (s : State) (tw : Fin 8) (r : TwReg) : (s.setWindow tw r).dropped = s.dropped := rfl
@[simp] theorem State.setWindow_repairBusy (s : State) (tw : Fin 8) (r : TwReg) : (s.setWindow tw r).repairBusy = s.repairBusy := rfl
@[simp] theorem State.setWindow_hbmGiB (s : State) (tw : Fin 8) (r : TwReg) : (s.setWindow tw r).hbmGiB = s.hbmGiB := rfl
@[simp] theorem State.setWindow_errBanks (s : State) (tw : Fin 8) (r : TwReg) : (s.setWindow tw r).errBanks = s.errBanks := rfl
@[simp] theorem State.setWindow_errSeq (s : State) (tw : Fin 8) (r : TwReg) : (s.setWindow tw r).errSeq = s.errSeq := rfl
@[simp] theorem State.setWindow_errNow (s : State) (tw : Fin 8) (r : TwReg) : (s.setWindow tw r).errNow = s.errNow := rfl
@[simp] theorem State.setWindow_brkPast (s : State) (tw : Fin 8) (r : TwReg) : (s.setWindow tw r).brkPast = s.brkPast := rfl
@[simp] theorem State.setWindow_ports (s : State) (tw : Fin 8) (r : TwReg) : (s.setWindow tw r).ports = s.ports := rfl
@[simp] theorem State.setWindow_flows (s : State) (tw : Fin 8) (r : TwReg) : (s.setWindow tw r).flows = s.flows := rfl
@[simp] theorem State.setWindow_inflows (s : State) (tw : Fin 8) (r : TwReg) : (s.setWindow tw r).inflows = s.inflows := rfl
@[simp] theorem State.setWindow_peerDown (s : State) (tw : Fin 8) (r : TwReg) : (s.setWindow tw r).peerDown = s.peerDown := rfl
@[simp] theorem State.setWindow_asks (s : State) (tw : Fin 8) (r : TwReg) : (s.setWindow tw r).asks = s.asks := rfl
@[simp] theorem State.setWindow_recv (s : State) (tw : Fin 8) (r : TwReg) : (s.setWindow tw r).recv = s.recv := rfl
@[simp] theorem State.setWindow_bridgeSums (s : State) (tw : Fin 8) (r : TwReg) : (s.setWindow tw r).bridgeSums = s.bridgeSums := rfl
@[simp] theorem State.setWindow_romHash (s : State) (tw : Fin 8) (r : TwReg) : (s.setWindow tw r).romHash = s.romHash := rfl
@[simp] theorem State.setWindow_blob (s : State) (tw : Fin 8) (r : TwReg) : (s.setWindow tw r).blob = s.blob := rfl
@[simp] theorem State.setWindow_blobBad (s : State) (tw : Fin 8) (r : TwReg) : (s.setWindow tw r).blobBad = s.blobBad := rfl
@[simp] theorem State.setWindow_counters (s : State) (tw : Fin 8) (r : TwReg) : (s.setWindow tw r).counters = s.counters := rfl
@[simp] theorem State.setWindow_storeWrites (s : State) (tw : Fin 8) (r : TwReg) : (s.setWindow tw r).storeWrites = s.storeWrites := rfl
@[simp] theorem State.setWindow_storeKey (s : State) (tw : Fin 8) (r : TwReg) : (s.setWindow tw r).storeKey = s.storeKey := rfl
@[simp] theorem State.setWindow_capBusy (s : State) (tw : Fin 8) (r : TwReg) : (s.setWindow tw r).capBusy = s.capBusy := rfl
@[simp] theorem State.setWindow_capNonces (s : State) (tw : Fin 8) (r : TwReg) : (s.setWindow tw r).capNonces = s.capNonces := rfl
@[simp] theorem State.setWindow_sealKeys (s : State) (tw : Fin 8) (r : TwReg) : (s.setWindow tw r).sealKeys = s.sealKeys := rfl
@[simp] theorem State.setWindow_filters (s : State) (tw : Fin 8) (r : TwReg) : (s.setWindow tw r).filters = s.filters := rfl
@[simp] theorem State.setWindow_sealed (s : State) (tw : Fin 8) (r : TwReg) : (s.setWindow tw r).sealed = s.sealed := rfl
@[simp] theorem State.hostWrite_cur (s : State) (a : Nat) (bs : List Byte) : (s.hostWrite a bs).cur = s.cur := rfl
@[simp] theorem State.hostWrite_agenda (s : State) (a : Nat) (bs : List Byte) : (s.hostWrite a bs).agenda = s.agenda := rfl
@[simp] theorem State.hostWrite_free (s : State) (a : Nat) (bs : List Byte) : (s.hostWrite a bs).free = s.free := rfl
@[simp] theorem State.hostWrite_nextId (s : State) (a : Nat) (bs : List Byte) : (s.hostWrite a bs).nextId = s.nextId := rfl
@[simp] theorem State.hostWrite_cycle (s : State) (a : Nat) (bs : List Byte) : (s.hostWrite a bs).cycle = s.cycle := rfl
@[simp] theorem State.hostWrite_tsnow (s : State) (a : Nat) (bs : List Byte) : (s.hostWrite a bs).tsnow = s.tsnow := rfl
@[simp] theorem State.hostWrite_tsfrac (s : State) (a : Nat) (bs : List Byte) : (s.hostWrite a bs).tsfrac = s.tsfrac := rfl
@[simp] theorem State.hostWrite_tsHold (s : State) (a : Nat) (bs : List Byte) : (s.hostWrite a bs).tsHold = s.tsHold := rfl
@[simp] theorem State.hostWrite_synced (s : State) (a : Nat) (bs : List Byte) : (s.hostWrite a bs).synced = s.synced := rfl
@[simp] theorem State.hostWrite_timeRef (s : State) (a : Nat) (bs : List Byte) : (s.hostWrite a bs).timeRef = s.timeRef := rfl
@[simp] theorem State.hostWrite_timeFound (s : State) (a : Nat) (bs : List Byte) : (s.hostWrite a bs).timeFound = s.timeFound := rfl
@[simp] theorem State.hostWrite_slew (s : State) (a : Nat) (bs : List Byte) : (s.hostWrite a bs).slew = s.slew := rfl
@[simp] theorem State.hostWrite_wrefCur (s : State) (a : Nat) (bs : List Byte) : (s.hostWrite a bs).wrefCur = s.wrefCur := rfl
@[simp] theorem State.hostWrite_wrefLeft (s : State) (a : Nat) (bs : List Byte) : (s.hostWrite a bs).wrefLeft = s.wrefLeft := rfl
@[simp] theorem State.hostWrite_boot (s : State) (a : Nat) (bs : List Byte) : (s.hostWrite a bs).boot = s.boot := rfl
@[simp] theorem State.hostWrite_clusters (s : State) (a : Nat) (bs : List Byte) : (s.hostWrite a bs).clusters = s.clusters := rfl
@[simp] theorem State.hostWrite_firmware (s : State) (a : Nat) (bs : List Byte) : (s.hostWrite a bs).firmware = s.firmware := rfl
@[simp] theorem State.hostWrite_lifetime (s : State) (a : Nat) (bs : List Byte) : (s.hostWrite a bs).lifetime = s.lifetime := rfl
@[simp] theorem State.hostWrite_errKinds (s : State) (a : Nat) (bs : List Byte) : (s.hostWrite a bs).errKinds = s.errKinds := rfl
@[simp] theorem State.hostWrite_lastLife (s : State) (a : Nat) (bs : List Byte) : (s.hostWrite a bs).lastLife = s.lastLife := rfl
@[simp] theorem State.hostWrite_lifeFrac (s : State) (a : Nat) (bs : List Byte) : (s.hostWrite a bs).lifeFrac = s.lifeFrac := rfl
@[simp] theorem State.hostWrite_lastGrant (s : State) (a : Nat) (bs : List Byte) : (s.hostWrite a bs).lastGrant = s.lastGrant := rfl
@[simp] theorem State.hostWrite_lastSlot (s : State) (a : Nat) (bs : List Byte) : (s.hostWrite a bs).lastSlot = s.lastSlot := rfl
@[simp] theorem State.hostWrite_poison (s : State) (a : Nat) (bs : List Byte) : (s.hostWrite a bs).poison = s.poison := rfl
@[simp] theorem State.hostWrite_consumed (s : State) (a : Nat) (bs : List Byte) : (s.hostWrite a bs).consumed = s.consumed := rfl
@[simp] theorem State.hostWrite_owners (s : State) (a : Nat) (bs : List Byte) : (s.hostWrite a bs).owners = s.owners := rfl
@[simp] theorem State.hostWrite_wsBad (s : State) (a : Nat) (bs : List Byte) : (s.hostWrite a bs).wsBad = s.wsBad := rfl
@[simp] theorem State.hostWrite_cells (s : State) (a : Nat) (bs : List Byte) : (s.hostWrite a bs).cells = s.cells := rfl
@[simp] theorem State.hostWrite_phys (s : State) (a : Nat) (bs : List Byte) : (s.hostWrite a bs).phys = s.phys := rfl
@[simp] theorem State.hostWrite_tlb (s : State) (a : Nat) (bs : List Byte) : (s.hostWrite a bs).tlb = s.tlb := rfl
@[simp] theorem State.hostWrite_pairs (s : State) (a : Nat) (bs : List Byte) : (s.hostWrite a bs).pairs = s.pairs := rfl
@[simp] theorem State.hostWrite_windows (s : State) (a : Nat) (bs : List Byte) : (s.hostWrite a bs).windows = s.windows := rfl
@[simp] theorem State.hostWrite_parts (s : State) (a : Nat) (bs : List Byte) : (s.hostWrite a bs).parts = s.parts := rfl
@[simp] theorem State.hostWrite_visit (s : State) (a : Nat) (bs : List Byte) : (s.hostWrite a bs).visit = s.visit := rfl
@[simp] theorem State.hostWrite_ctxs (s : State) (a : Nat) (bs : List Byte) : (s.hostWrite a bs).ctxs = s.ctxs := rfl
@[simp] theorem State.hostWrite_kernels (s : State) (a : Nat) (bs : List Byte) : (s.hostWrite a bs).kernels = s.kernels := rfl
@[simp] theorem State.hostWrite_carafe (s : State) (a : Nat) (bs : List Byte) : (s.hostWrite a bs).carafe = s.carafe := rfl
@[simp] theorem State.hostWrite_insts (s : State) (a : Nat) (bs : List Byte) : (s.hostWrite a bs).insts = s.insts := rfl
@[simp] theorem State.hostWrite_groups (s : State) (a : Nat) (bs : List Byte) : (s.hostWrite a bs).groups = s.groups := rfl
@[simp] theorem State.hostWrite_tasks (s : State) (a : Nat) (bs : List Byte) : (s.hostWrite a bs).tasks = s.tasks := rfl
@[simp] theorem State.hostWrite_carries (s : State) (a : Nat) (bs : List Byte) : (s.hostWrite a bs).carries = s.carries := rfl
@[simp] theorem State.hostWrite_reds (s : State) (a : Nat) (bs : List Byte) : (s.hostWrite a bs).reds = s.reds := rfl
@[simp] theorem State.hostWrite_episodes (s : State) (a : Nat) (bs : List Byte) : (s.hostWrite a bs).episodes = s.episodes := rfl
@[simp] theorem State.hostWrite_heard (s : State) (a : Nat) (bs : List Byte) : (s.hostWrite a bs).heard = s.heard := rfl
@[simp] theorem State.hostWrite_regs (s : State) (a : Nat) (bs : List Byte) : (s.hostWrite a bs).regs = s.regs := rfl
@[simp] theorem State.hostWrite_fnOn (s : State) (a : Nat) (bs : List Byte) : (s.hostWrite a bs).fnOn = s.fnOn := rfl
@[simp] theorem State.hostWrite_pending (s : State) (a : Nat) (bs : List Byte) : (s.hostWrite a bs).pending = s.pending := rfl
@[simp] theorem State.hostWrite_heldRecs (s : State) (a : Nat) (bs : List Byte) : (s.hostWrite a bs).heldRecs = s.heldRecs := rfl
@[simp] theorem State.hostWrite_heldFaults (s : State) (a : Nat) (bs : List Byte) : (s.hostWrite a bs).heldFaults = s.heldFaults := rfl
@[simp] theorem State.hostWrite_invBusy (s : State) (a : Nat) (bs : List Byte) : (s.hostWrite a bs).invBusy = s.invBusy := rfl
@[simp] theorem State.hostWrite_dropped (s : State) (a : Nat) (bs : List Byte) : (s.hostWrite a bs).dropped = s.dropped := rfl
@[simp] theorem State.hostWrite_repairBusy (s : State) (a : Nat) (bs : List Byte) : (s.hostWrite a bs).repairBusy = s.repairBusy := rfl
@[simp] theorem State.hostWrite_hbmGiB (s : State) (a : Nat) (bs : List Byte) : (s.hostWrite a bs).hbmGiB = s.hbmGiB := rfl
@[simp] theorem State.hostWrite_errBanks (s : State) (a : Nat) (bs : List Byte) : (s.hostWrite a bs).errBanks = s.errBanks := rfl
@[simp] theorem State.hostWrite_errSeq (s : State) (a : Nat) (bs : List Byte) : (s.hostWrite a bs).errSeq = s.errSeq := rfl
@[simp] theorem State.hostWrite_errNow (s : State) (a : Nat) (bs : List Byte) : (s.hostWrite a bs).errNow = s.errNow := rfl
@[simp] theorem State.hostWrite_brkPast (s : State) (a : Nat) (bs : List Byte) : (s.hostWrite a bs).brkPast = s.brkPast := rfl
@[simp] theorem State.hostWrite_ports (s : State) (a : Nat) (bs : List Byte) : (s.hostWrite a bs).ports = s.ports := rfl
@[simp] theorem State.hostWrite_flows (s : State) (a : Nat) (bs : List Byte) : (s.hostWrite a bs).flows = s.flows := rfl
@[simp] theorem State.hostWrite_inflows (s : State) (a : Nat) (bs : List Byte) : (s.hostWrite a bs).inflows = s.inflows := rfl
@[simp] theorem State.hostWrite_peerDown (s : State) (a : Nat) (bs : List Byte) : (s.hostWrite a bs).peerDown = s.peerDown := rfl
@[simp] theorem State.hostWrite_asks (s : State) (a : Nat) (bs : List Byte) : (s.hostWrite a bs).asks = s.asks := rfl
@[simp] theorem State.hostWrite_recv (s : State) (a : Nat) (bs : List Byte) : (s.hostWrite a bs).recv = s.recv := rfl
@[simp] theorem State.hostWrite_bridgeSums (s : State) (a : Nat) (bs : List Byte) : (s.hostWrite a bs).bridgeSums = s.bridgeSums := rfl
@[simp] theorem State.hostWrite_romHash (s : State) (a : Nat) (bs : List Byte) : (s.hostWrite a bs).romHash = s.romHash := rfl
@[simp] theorem State.hostWrite_blob (s : State) (a : Nat) (bs : List Byte) : (s.hostWrite a bs).blob = s.blob := rfl
@[simp] theorem State.hostWrite_blobBad (s : State) (a : Nat) (bs : List Byte) : (s.hostWrite a bs).blobBad = s.blobBad := rfl
@[simp] theorem State.hostWrite_counters (s : State) (a : Nat) (bs : List Byte) : (s.hostWrite a bs).counters = s.counters := rfl
@[simp] theorem State.hostWrite_storeWrites (s : State) (a : Nat) (bs : List Byte) : (s.hostWrite a bs).storeWrites = s.storeWrites := rfl
@[simp] theorem State.hostWrite_storeKey (s : State) (a : Nat) (bs : List Byte) : (s.hostWrite a bs).storeKey = s.storeKey := rfl
@[simp] theorem State.hostWrite_capBusy (s : State) (a : Nat) (bs : List Byte) : (s.hostWrite a bs).capBusy = s.capBusy := rfl
@[simp] theorem State.hostWrite_capNonces (s : State) (a : Nat) (bs : List Byte) : (s.hostWrite a bs).capNonces = s.capNonces := rfl
@[simp] theorem State.hostWrite_sealKeys (s : State) (a : Nat) (bs : List Byte) : (s.hostWrite a bs).sealKeys = s.sealKeys := rfl
@[simp] theorem State.hostWrite_filters (s : State) (a : Nat) (bs : List Byte) : (s.hostWrite a bs).filters = s.filters := rfl
@[simp] theorem State.hostWrite_sealed (s : State) (a : Nat) (bs : List Byte) : (s.hostWrite a bs).sealed = s.sealed := rfl
@[simp] theorem State.noteWait_cur (s : State) (e : Engine) (k : WaitKind) : (s.noteWait e k).cur = s.cur := rfl
@[simp] theorem State.noteWait_agenda (s : State) (e : Engine) (k : WaitKind) : (s.noteWait e k).agenda = s.agenda := rfl
@[simp] theorem State.noteWait_free (s : State) (e : Engine) (k : WaitKind) : (s.noteWait e k).free = s.free := rfl
@[simp] theorem State.noteWait_nextId (s : State) (e : Engine) (k : WaitKind) : (s.noteWait e k).nextId = s.nextId := rfl
@[simp] theorem State.noteWait_cycle (s : State) (e : Engine) (k : WaitKind) : (s.noteWait e k).cycle = s.cycle := rfl
@[simp] theorem State.noteWait_tsnow (s : State) (e : Engine) (k : WaitKind) : (s.noteWait e k).tsnow = s.tsnow := rfl
@[simp] theorem State.noteWait_tsfrac (s : State) (e : Engine) (k : WaitKind) : (s.noteWait e k).tsfrac = s.tsfrac := rfl
@[simp] theorem State.noteWait_tsHold (s : State) (e : Engine) (k : WaitKind) : (s.noteWait e k).tsHold = s.tsHold := rfl
@[simp] theorem State.noteWait_synced (s : State) (e : Engine) (k : WaitKind) : (s.noteWait e k).synced = s.synced := rfl
@[simp] theorem State.noteWait_timeRef (s : State) (e : Engine) (k : WaitKind) : (s.noteWait e k).timeRef = s.timeRef := rfl
@[simp] theorem State.noteWait_timeFound (s : State) (e : Engine) (k : WaitKind) : (s.noteWait e k).timeFound = s.timeFound := rfl
@[simp] theorem State.noteWait_slew (s : State) (e : Engine) (k : WaitKind) : (s.noteWait e k).slew = s.slew := rfl
@[simp] theorem State.noteWait_wrefCur (s : State) (e : Engine) (k : WaitKind) : (s.noteWait e k).wrefCur = s.wrefCur := rfl
@[simp] theorem State.noteWait_wrefLeft (s : State) (e : Engine) (k : WaitKind) : (s.noteWait e k).wrefLeft = s.wrefLeft := rfl
@[simp] theorem State.noteWait_boot (s : State) (e : Engine) (k : WaitKind) : (s.noteWait e k).boot = s.boot := rfl
@[simp] theorem State.noteWait_clusters (s : State) (e : Engine) (k : WaitKind) : (s.noteWait e k).clusters = s.clusters := rfl
@[simp] theorem State.noteWait_firmware (s : State) (e : Engine) (k : WaitKind) : (s.noteWait e k).firmware = s.firmware := rfl
@[simp] theorem State.noteWait_lifetime (s : State) (e : Engine) (k : WaitKind) : (s.noteWait e k).lifetime = s.lifetime := rfl
@[simp] theorem State.noteWait_errKinds (s : State) (e : Engine) (k : WaitKind) : (s.noteWait e k).errKinds = s.errKinds := rfl
@[simp] theorem State.noteWait_lastLife (s : State) (e : Engine) (k : WaitKind) : (s.noteWait e k).lastLife = s.lastLife := rfl
@[simp] theorem State.noteWait_lifeFrac (s : State) (e : Engine) (k : WaitKind) : (s.noteWait e k).lifeFrac = s.lifeFrac := rfl
@[simp] theorem State.noteWait_lastGrant (s : State) (e : Engine) (k : WaitKind) : (s.noteWait e k).lastGrant = s.lastGrant := rfl
@[simp] theorem State.noteWait_lastSlot (s : State) (e : Engine) (k : WaitKind) : (s.noteWait e k).lastSlot = s.lastSlot := rfl
@[simp] theorem State.noteWait_mem (s : State) (e : Engine) (k : WaitKind) : (s.noteWait e k).mem = s.mem := rfl
@[simp] theorem State.noteWait_poison (s : State) (e : Engine) (k : WaitKind) : (s.noteWait e k).poison = s.poison := rfl
@[simp] theorem State.noteWait_consumed (s : State) (e : Engine) (k : WaitKind) : (s.noteWait e k).consumed = s.consumed := rfl
@[simp] theorem State.noteWait_owners (s : State) (e : Engine) (k : WaitKind) : (s.noteWait e k).owners = s.owners := rfl
@[simp] theorem State.noteWait_wsBad (s : State) (e : Engine) (k : WaitKind) : (s.noteWait e k).wsBad = s.wsBad := rfl
@[simp] theorem State.noteWait_phys (s : State) (e : Engine) (k : WaitKind) : (s.noteWait e k).phys = s.phys := rfl
@[simp] theorem State.noteWait_tlb (s : State) (e : Engine) (k : WaitKind) : (s.noteWait e k).tlb = s.tlb := rfl
@[simp] theorem State.noteWait_pairs (s : State) (e : Engine) (k : WaitKind) : (s.noteWait e k).pairs = s.pairs := rfl
@[simp] theorem State.noteWait_windows (s : State) (e : Engine) (k : WaitKind) : (s.noteWait e k).windows = s.windows := rfl
@[simp] theorem State.noteWait_parts (s : State) (e : Engine) (k : WaitKind) : (s.noteWait e k).parts = s.parts := rfl
@[simp] theorem State.noteWait_visit (s : State) (e : Engine) (k : WaitKind) : (s.noteWait e k).visit = s.visit := rfl
@[simp] theorem State.noteWait_ctxs (s : State) (e : Engine) (k : WaitKind) : (s.noteWait e k).ctxs = s.ctxs := rfl
@[simp] theorem State.noteWait_kernels (s : State) (e : Engine) (k : WaitKind) : (s.noteWait e k).kernels = s.kernels := rfl
@[simp] theorem State.noteWait_carafe (s : State) (e : Engine) (k : WaitKind) : (s.noteWait e k).carafe = s.carafe := rfl
@[simp] theorem State.noteWait_insts (s : State) (e : Engine) (k : WaitKind) : (s.noteWait e k).insts = s.insts := rfl
@[simp] theorem State.noteWait_groups (s : State) (e : Engine) (k : WaitKind) : (s.noteWait e k).groups = s.groups := rfl
@[simp] theorem State.noteWait_tasks (s : State) (e : Engine) (k : WaitKind) : (s.noteWait e k).tasks = s.tasks := rfl
@[simp] theorem State.noteWait_carries (s : State) (e : Engine) (k : WaitKind) : (s.noteWait e k).carries = s.carries := rfl
@[simp] theorem State.noteWait_reds (s : State) (e : Engine) (k : WaitKind) : (s.noteWait e k).reds = s.reds := rfl
@[simp] theorem State.noteWait_episodes (s : State) (e : Engine) (k : WaitKind) : (s.noteWait e k).episodes = s.episodes := rfl
@[simp] theorem State.noteWait_heard (s : State) (e : Engine) (k : WaitKind) : (s.noteWait e k).heard = s.heard := rfl
@[simp] theorem State.noteWait_regs (s : State) (e : Engine) (k : WaitKind) : (s.noteWait e k).regs = s.regs := rfl
@[simp] theorem State.noteWait_fnOn (s : State) (e : Engine) (k : WaitKind) : (s.noteWait e k).fnOn = s.fnOn := rfl
@[simp] theorem State.noteWait_pending (s : State) (e : Engine) (k : WaitKind) : (s.noteWait e k).pending = s.pending := rfl
@[simp] theorem State.noteWait_heldRecs (s : State) (e : Engine) (k : WaitKind) : (s.noteWait e k).heldRecs = s.heldRecs := rfl
@[simp] theorem State.noteWait_heldFaults (s : State) (e : Engine) (k : WaitKind) : (s.noteWait e k).heldFaults = s.heldFaults := rfl
@[simp] theorem State.noteWait_invBusy (s : State) (e : Engine) (k : WaitKind) : (s.noteWait e k).invBusy = s.invBusy := rfl
@[simp] theorem State.noteWait_dropped (s : State) (e : Engine) (k : WaitKind) : (s.noteWait e k).dropped = s.dropped := rfl
@[simp] theorem State.noteWait_repairBusy (s : State) (e : Engine) (k : WaitKind) : (s.noteWait e k).repairBusy = s.repairBusy := rfl
@[simp] theorem State.noteWait_hbmGiB (s : State) (e : Engine) (k : WaitKind) : (s.noteWait e k).hbmGiB = s.hbmGiB := rfl
@[simp] theorem State.noteWait_errBanks (s : State) (e : Engine) (k : WaitKind) : (s.noteWait e k).errBanks = s.errBanks := rfl
@[simp] theorem State.noteWait_errSeq (s : State) (e : Engine) (k : WaitKind) : (s.noteWait e k).errSeq = s.errSeq := rfl
@[simp] theorem State.noteWait_errNow (s : State) (e : Engine) (k : WaitKind) : (s.noteWait e k).errNow = s.errNow := rfl
@[simp] theorem State.noteWait_brkPast (s : State) (e : Engine) (k : WaitKind) : (s.noteWait e k).brkPast = s.brkPast := rfl
@[simp] theorem State.noteWait_ports (s : State) (e : Engine) (k : WaitKind) : (s.noteWait e k).ports = s.ports := rfl
@[simp] theorem State.noteWait_flows (s : State) (e : Engine) (k : WaitKind) : (s.noteWait e k).flows = s.flows := rfl
@[simp] theorem State.noteWait_inflows (s : State) (e : Engine) (k : WaitKind) : (s.noteWait e k).inflows = s.inflows := rfl
@[simp] theorem State.noteWait_peerDown (s : State) (e : Engine) (k : WaitKind) : (s.noteWait e k).peerDown = s.peerDown := rfl
@[simp] theorem State.noteWait_asks (s : State) (e : Engine) (k : WaitKind) : (s.noteWait e k).asks = s.asks := rfl
@[simp] theorem State.noteWait_recv (s : State) (e : Engine) (k : WaitKind) : (s.noteWait e k).recv = s.recv := rfl
@[simp] theorem State.noteWait_bridgeSums (s : State) (e : Engine) (k : WaitKind) : (s.noteWait e k).bridgeSums = s.bridgeSums := rfl
@[simp] theorem State.noteWait_romHash (s : State) (e : Engine) (k : WaitKind) : (s.noteWait e k).romHash = s.romHash := rfl
@[simp] theorem State.noteWait_blob (s : State) (e : Engine) (k : WaitKind) : (s.noteWait e k).blob = s.blob := rfl
@[simp] theorem State.noteWait_blobBad (s : State) (e : Engine) (k : WaitKind) : (s.noteWait e k).blobBad = s.blobBad := rfl
@[simp] theorem State.noteWait_counters (s : State) (e : Engine) (k : WaitKind) : (s.noteWait e k).counters = s.counters := rfl
@[simp] theorem State.noteWait_storeWrites (s : State) (e : Engine) (k : WaitKind) : (s.noteWait e k).storeWrites = s.storeWrites := rfl
@[simp] theorem State.noteWait_storeKey (s : State) (e : Engine) (k : WaitKind) : (s.noteWait e k).storeKey = s.storeKey := rfl
@[simp] theorem State.noteWait_capBusy (s : State) (e : Engine) (k : WaitKind) : (s.noteWait e k).capBusy = s.capBusy := rfl
@[simp] theorem State.noteWait_capNonces (s : State) (e : Engine) (k : WaitKind) : (s.noteWait e k).capNonces = s.capNonces := rfl
@[simp] theorem State.noteWait_sealKeys (s : State) (e : Engine) (k : WaitKind) : (s.noteWait e k).sealKeys = s.sealKeys := rfl
@[simp] theorem State.noteWait_filters (s : State) (e : Engine) (k : WaitKind) : (s.noteWait e k).filters = s.filters := rfl
@[simp] theorem State.noteWait_sealed (s : State) (e : Engine) (k : WaitKind) : (s.noteWait e k).sealed = s.sealed := rfl

end Sys2Proof.Machine
end

