-- ==== Sys2Proof/Laws/Words.lean ====
section
/-! SUPPORT. What the shared operations of words give: the waits, the sources, and the end of a word. -/

namespace Sys2Proof.Machine

open Sys2Proof

/-- A word whose shared waits are over is its body. -/
theorem runWord_ready {e t s c k} (h : Ready e t s c k) (body : Cell → Task → Except Stop State) :
    runWord e t s body = finishWord e s c k (body c k) := by
  simp [runWord, h.here, h.sound, h.tokens, h.room, h.buffer]

/-- Tags that are all one clock pass the check of R137. -/
theorem sameClock_all {q : Clk} : ∀ {l : List Clk}, (∀ x ∈ l, x = q) → (l = [] → q = 0) → sameClock l = .ok q
  | [], _, h => by simp [sameClock, h rfl]
  | [x], h, _ => by simp [sameClock, h x]
  | x :: y :: l, h, _ => by
    have := sameClock_all (l := y :: l) (q := q) (fun z hz => h z (List.mem_cons_of_mem _ hz)) (by simp)
    simp [sameClock, h x, h y, ← this]

/-- What `gather` gives for readable sources whose clock is known, or that of the first, and present. -/
theorem gather_readable {e s c k q srcs form wr known more}
    (hr : ∀ x ∈ srcs, ∃ p, ReadsAs e s c k p x) (hf : form (srcs.map fun x => (srcVal e c.core x).tag) = .ok q)
    (hc : OnClock c.core q) (hk : known = some q ∨ (known = none ∧ ∀ x, srcs.head? = some x → (srcVal e c.core x).tag = q))
    (hw : e = .c → s.mirrorWait k s.cur.cell c wr = .ok ()) (hm : more (srcVals e c srcs) = .ok ()) :
    gather e s c k srcs known form false wr more =
      .ok ⟨s, srcVals e c srcs, srcs.map fun x => (srcVal e c.core x).tag, q, true⟩ := by
  have hins : (srcs.map fun x => SrcIn.mk x (srcVal e c.core x) (s.bindOf k s.cur.cell c e x)) =
      srcs.map fun x => SrcIn.mk x (srcVal e c.core x) none :=
    List.map_congr_left fun x hx => by obtain ⟨p, h⟩ := hr x hx; rw [h.free]
  have hfree : (srcs.map fun x => SrcIn.mk x (srcVal e c.core x) none).filter (fun i => i.q.isNone) =
      srcs.map fun x => SrcIn.mk x (srcVal e c.core x) none := by
    rw [List.filter_eq_self]; simp
  have hqs : (srcs.map fun x => SrcIn.mk x (srcVal e c.core x) none).filterMap SrcIn.q = [] := by
    rw [List.filterMap_eq_nil_iff]; simp
  have hp : srcWait e s c k srcs = .ok () := by
    have : srcs.any (srcPending e s c k) = false := by
      simp only [List.any_eq_false]; intro x hx; obtain ⟨p, h⟩ := hr x hx; simp [srcPending, h.there]
    simp [srcWait, this]
  have hb : ((srcs.map fun x => SrcIn.mk x (srcVal e c.core x) none).any fun i => i.raw.bad != 0) = false := by
    simp only [List.any_map, List.any_eq_false]; intro x hx; obtain ⟨p, h⟩ := hr x hx; simp [h.whole]
  have hg : ((srcs.map fun x => SrcIn.mk x (srcVal e c.core x) none).any fun i => i.raw.tagBad) = false := by
    simp only [List.any_map, List.any_eq_false]; intro x hx; obtain ⟨p, h⟩ := hr x hx; simp [h.tagged]
  have hearly : ∀ z, (known <|> ((srcs.map fun x => SrcIn.mk x (srcVal e c.core x) none).head?.map fun i => i.raw.tag)) =
      some z → z = q := by
    intro z hz
    rcases hk with rfl | ⟨rfl, hk⟩
    · simpa using hz.symm
    · cases srcs with
      | nil => simp at hz
      | cons x xs => simp at hz; rw [← hz]; exact hk x rfl
  have hwait : (if (e == Engine.c) = true then s.mirrorWait k s.cur.cell c wr else .ok ()) = .ok () := by
    by_cases he : e = .c <;> simp [he, hw]
  unfold gather
  simp only [hins, hfree, hqs, hp, List.eraseDups_nil]
  have hrest : gather.gatherRest e s c k form false wr more s.cur.cell
      (srcs.map fun x => SrcIn.mk x (srcVal e c.core x) none) (srcs.map fun x => SrcIn.mk x (srcVal e c.core x) none) [] =
      .ok ⟨s, srcVals e c srcs, srcs.map fun x => (srcVal e c.core x).tag, q, true⟩ := by
    unfold gather.gatherRest gather.clocks
    simp only [srcVals] at hm
    simp only [srcVals, List.map_map, Function.comp_def, hb, hg, needSound, clockRead, encodingOk, hf, hc.on, hc.sound, hm, List.mapM_nil, bind, Except.bind,
      pure, Except.pure, State.takeBound, Bool.not_true, Bool.false_eq_true, Bool.false_and, Bool.false_or, if_false, List.map_nil, List.sum_nil]
    by_cases he : e = .c
    · simp [he, hw he]
    · simp [he]
  generalize hg' : (known <|> _) = early at hearly
  cases early with
  | none => exact hrest
  | some z =>
    have := hearly z rfl
    subst this
    simpa [hc.on, bind, Except.bind] using hrest

/-- What `gather` gives for a present word. -/
theorem present_gather {e s c k srcs q wr} (h : Present e s c k srcs q wr) :
    gather e s c k srcs none sameClock false wr =
      .ok ⟨s, srcVals e c srcs, srcs.map fun x => (srcVal e c.core x).tag, q, true⟩ := by
  refine gather_readable (fun x hx => ⟨q, h.reads x hx⟩) (sameClock_all ?_ ?_) h.clock
    (.inr ⟨rfl, fun x hx => (h.reads x (List.mem_of_mem_head? hx)).tag⟩) h.room rfl
  · intro x hx
    obtain ⟨y, hy, rfl⟩ := List.mem_map.1 hx
    exact (h.reads y hy).tag
  · intro hx
    exact h.alone (by simpa using hx)

/-- A present scalar word finishes with its value. -/
theorem scalarWord_present {e t s c k len d srcs f q} (hr : Ready e t s c k) (hp : Present e s c k srcs q (dstNamed d)) :
    scalarWord e t s len d srcs f =
      .next (finish e s c k t (c.core.pc.get e + len) (resultOf d q true (f (srcVals e c srcs)))) := by
  simp [scalarWord, runWord_ready hr, present_gather hp, bind, Except.bind, pure, Except.pure, finishWord]

/-- The cell of a state. -/
theorem getCell_putCell (s : State) (ctx cell : Nat) (c : Cell) : (s.putCell ctx cell c).getCell ctx cell = some c :=
  mget_mset_same _ _ _

/-- Another cell of a state. -/
theorem getCell_putCell_other (s : State) (ctx cell x y : Nat) (c : Cell) (h : cellKey x y ≠ cellKey ctx cell) :
    (s.putCell ctx cell c).getCell x y = s.getCell x y :=
  mget_mset_other _ _ h

/-- The cell that a word runs in. -/
theorem here_cell {s : State} {c : Cell} {k : Task} (h : s.here = some (c, k)) : s.getCell s.cur.ctx s.cur.cell = some c := by
  unfold State.here at h
  cases hc : s.getCell s.cur.ctx s.cur.cell with
  | none => simp [hc] at h
  | some x =>
    simp only [hc, Option.bind_some] at h
    cases hx : x.task with
    | none => simp [hx] at h
    | some id => cases hi : s.getTask id <;> simp_all

/-- The end of a word that ends alone: its own cell, retired with its result. -/
theorem finish_alone {e : Engine} {s : State} {c old : Cell} {k : Task} {t : Tok} {pc : Nat} {r : Result}
    (hc : s.getCell s.cur.ctx s.cur.cell = some c) (he : e = .c ∨ e = .a) (hf : e = .a → c.fly = [])
    (hm : ∀ n, r.reg.map Prod.fst = some n → s.mirrorsOf k s.cur.cell old n = []) :
    finish e s old k t pc r = s.putHere ({ c with core := c.core.put e r }.retire e t pc) := by
  rcases he with rfl | rfl
  · cases hr : r.reg with
    | none => simp [finish, hc, hr, Cell.retireScalar]
    | some p =>
      have := hm p.1 (by simp [hr])
      simp only [finish, hc, hr, Cell.retireScalar, State.mirror]
      split
      · rfl
      · show List.foldl _ _ ((s.putHere _).mirrorsOf k s.cur.cell old p.1) = _
        have h2 : ∀ x, (s.putHere x).mirrorsOf k s.cur.cell old p.1 = s.mirrorsOf k s.cur.cell old p.1 := fun _ => rfl
        rw [h2, this]; rfl
  · simp [finish, hc, Cell.retireScalar, hf]

/-- A retired scalar word has taken a scalar step. -/
theorem scalarStep_retire (e : Engine) (t : Tok) (pc : Nat) (r : Result) (c : Cell) (he : e = .c ∨ e = .a) :
    ScalarStep e t pc r c ({ c with core := c.core.put e r }.retire e t pc) := by
  rcases he with rfl | rfl <;> rcases r with ⟨_ | v, _ | ⟨n, w⟩⟩ <;>
    exact {
      toks := rfl
      pcs := rfl
      crema := rfl
      named := by
        intro j
        simp [Core.named, Core.put, Core.setNamed, Core.dropVal, Cell.retire, Fin.ext_iff, Vector.getElem_set]
      other := fun _ => ⟨rfl, rfl⟩
      rest := rfl
      cell := rfl }

end Sys2Proof.Machine
end

