-- ==== Sys2Proof/Tests/Slice0.lean ====
section
/-! SUPPORT. Tests: the words of the spec's encodings decode to their instructions, ill-formed terms are refused, one
witness for the hypotheses of each statement, and a few single steps with results worked out from the rules. -/

set_option Elab.async false
set_option linter.unusedSimpArgs false

namespace Sys2Proof.Tests

open Sys2Proof Sys2Proof.Machine

/-! ## A small machine -/

/-- The one task of the small machine: stage 0 of instance 1, at the pour line. -/
def k0 : Task := { id := 1, ctx := 0, inst := 1, stage := 0, ts := 0, key := [0, 0], group := some 1 }

/-- A cell of the small machine whose core is `f` of an empty one. -/
def cellOf (f : Core → Core) : Cell := { core := f {}, group := some 1, task := some 1 }

/-- A Ready part with one partition, whose context 0 runs an instance of one kernel with the stage `g` in the cell `c`. -/
def demoOf (g : Stage) (c : Cell) : State :=
  { State.reset.withFetchWord 32 0 with
    agenda := [], cells := [(0, c)], kernels := [{ ctx := 0, handle := 1, stages := [g] }] }

/-- The same, with a text of four one-word instructions. -/
def demo (c : Cell) : State := demoOf { num := 0, text := [0, 0, 0, 0] } c

/-- No token moves. -/
def t0 : Tok := ⟨false, false, false, false⟩

/-! The premises of the statements, as checks that can be decided. -/

/-- An answer without an error. -/
def isOk {α : Type} : Except Stop α → Bool
  | .ok _ => true
  | .error _ => false

theorem ok_unit (x : Except Stop Unit) : x = .ok () ↔ isOk x = true := by
  cases x with
  | ok u => exact ⟨fun _ => rfl, fun _ => rfl⟩
  | error e => exact ⟨fun h => (nomatch h), fun h => (nomatch h)⟩

def readyB (e : Engine) (t : Tok) (s : State) (c : Cell) (k : Task) : Bool :=
  s.here = some (c, k) && k.fault.isNone && tokReady c.core.toks e t && tokRoom c.core.toks c.tokRsv e t &&
    !turnsDirect s e c k

theorem ready_iff {e : Engine} {t : Tok} {s : State} {c : Cell} {k : Task} : Ready e t s c k ↔ readyB e t s c k = true := by
  simp only [readyB, Bool.and_eq_true, Bool.not_eq_true', decide_eq_true_eq, Option.isNone_iff_eq_none]
  exact ⟨fun h => ⟨⟨⟨⟨h.1, h.2⟩, h.3⟩, h.4⟩, h.5⟩, fun h => ⟨h.1.1.1.1, h.1.1.1.2, h.1.1.2, h.1.2, h.2⟩⟩

def readsB (e : Engine) (s : State) (c : Cell) (k : Task) (q : Clk) (x : Src) : Bool :=
  (s.bindOf k s.cur.cell c e x).isNone && (srcVal e c.core x).pend.isNone && decide ((srcVal e c.core x).bad = 0) &&
    !(srcVal e c.core x).tagBad && decide ((srcVal e c.core x).tag = q)

theorem reads_iff {e : Engine} {s : State} {c : Cell} {k : Task} {q : Clk} {x : Src} : ReadsAs e s c k q x ↔
    readsB e s c k q x = true := by
  simp only [readsB, Bool.and_eq_true, Bool.not_eq_true', decide_eq_true_eq, Option.isNone_iff_eq_none]
  exact ⟨fun h => ⟨⟨⟨⟨h.1, h.2⟩, h.3⟩, h.4⟩, h.5⟩, fun h => ⟨h.1.1.1.1, h.1.1.1.2, h.1.1.2, h.1.2, h.2⟩⟩

theorem clock_iff {c : Core} {q : Clk} : OnClock c q ↔ (clkOn c q && !clkBad c q) = true := by
  simp only [Bool.and_eq_true, Bool.not_eq_true']
  exact ⟨fun h => ⟨h.1, h.2⟩, fun h => ⟨h.1, h.2⟩⟩

def presentB (e : Engine) (s : State) (c : Cell) (k : Task) (srcs : List Src) (q : Clk) (wr : Option (Fin 16)) : Bool :=
  srcs.all (readsB e s c k q) && (!srcs.isEmpty || decide (q = 0)) && (clkOn c.core q && !clkBad c.core q) &&
    (decide (e ≠ .c) || isOk (s.mirrorWait k s.cur.cell c wr))

theorem present_iff {e : Engine} {s : State} {c : Cell} {k : Task} {srcs : List Src} {q : Clk} {wr : Option (Fin 16)} :
    Present e s c k srcs q wr ↔ presentB e s c k srcs q wr = true := by
  simp only [presentB, Bool.and_eq_true, Bool.or_eq_true, List.all_eq_true, decide_eq_true_eq, Bool.not_eq_true',
    List.isEmpty_eq_false_iff, ← ok_unit]
  constructor
  · intro h
    refine ⟨⟨⟨fun x m => reads_iff.1 (h.1 x m), ?_⟩, h.3.1, h.3.2⟩, ?_⟩
    · by_cases n : srcs = []
      · exact .inr (h.2 n)
      · exact .inl n
    · by_cases n : e = .c
      · exact .inr (h.4 n)
      · exact .inl n
  · rintro ⟨⟨⟨a, b⟩, p⟩, d⟩
    exact ⟨fun x m => reads_iff.2 (a x m), fun n => b.resolve_left fun h => h n, ⟨p.1, p.2⟩, fun n => d.resolve_left fun h => h n⟩

def vpresentB (c : Core) (regs : List (Fin 32)) (ms : List MaskReg) (q : Clk) : Bool :=
  !regs.isEmpty && regs.all (fun r => decide (c.vregs[r].tag = q) && !c.vregs[r].tagBad && decide (c.vregs[r].bad = 0)) &&
    (clkOn c q && !clkBad c q) && ms.all fun m => decide (c.masks[m].bad = 0)

theorem vpresent_iff {c : Core} {regs : List (Fin 32)} {ms : List MaskReg} {q : Clk} : VPresent c regs ms q ↔
    vpresentB c regs ms q = true := by
  simp only [vpresentB, Bool.and_eq_true, List.all_eq_true, decide_eq_true_eq, Bool.not_eq_true', List.isEmpty_eq_false_iff]
  exact ⟨fun h => ⟨⟨⟨h.1, fun r m => ⟨⟨h.2 r m, h.3 r m⟩, h.5 r m⟩⟩, h.4.1, h.4.2⟩, h.6⟩,
    fun h => ⟨h.1.1.1, fun r m => (h.1.1.2 r m).1.1, fun r m => (h.1.1.2 r m).1.2, ⟨h.1.2.1, h.1.2.2⟩,
      fun r m => (h.1.1.2 r m).2, h.2⟩⟩

theorem owes_iff {s : State} {x : Nat} : OwesNothing s x ↔ (∀ q ∈ s.tasks, q.2.ctx = x → q.2.fault = none ∧ q.2.doomed = false) ∧
    ∀ r ∈ s.recv, r.1 ≠ x := ⟨fun h => ⟨h.1, h.2⟩, fun h => ⟨h.1, h.2⟩⟩

theorem endsAlone_iff {e : Engine} {s : State} {c : Cell} {k : Task} {wr : Option (Fin 16)} : EndsAlone e s c k wr ↔
    (e = .a → c.fly = []) ∧ ∀ n, wr = some n → s.mirrorsOf k s.cur.cell c n = [] := Iff.rfl

theorem inFmt_iff {c : Core} {regs : List (Fin 32)} {g : Fmt} : InFmt c regs g ↔ ∀ r ∈ regs, c.vregs[r].fmt = g := Iff.rfl

theorem tables_iff {s : State} : Tables s ↔ (s.regs.Pairwise fun p q => p.1 < q.1) ∧
    (s.parts.Pairwise fun p q => p.1 < q.1) ∧ (s.tasks.Pairwise fun p q => p.1 < q.1) ∧ (∀ p ∈ s.tasks, p.2.id = p.1) ∧
      ∀ x ∈ s.sealed, ∀ p ∈ x.2.tasks, p.2.id = p.1 :=
  ⟨fun h => ⟨h.1, h.2, h.3, h.4, h.5⟩, fun h => ⟨h.1, h.2.1, h.2.2.1, h.2.2.2.1, h.2.2.2.2⟩⟩

/-- A next state, and what holds of it. -/
def nextThat (o : Host.Outcome State Machine.Fault Refusal) (p : State → Bool) : Bool :=
  match o with
  | .next u => p u
  | .fault _ => false
  | .refused _ => false

theorem next_iff (o : Host.Outcome State Machine.Fault Refusal) : (∃ u, o = .next u) ↔ nextThat o (fun _ => true) = true := by
  cases o with
  | next u => exact ⟨fun _ => rfl, fun _ => ⟨u, rfl⟩⟩
  | fault f => exact ⟨fun h => h.elim fun _ h => (nomatch h), fun h => (nomatch h)⟩
  | refused f => exact ⟨fun h => h.elim fun _ h => (nomatch h), fun h => (nomatch h)⟩

theorem ok_iff {α : Type} (x : Except Stop α) : (∃ r, x = .ok r) ↔ isOk x = true := by
  cases x with
  | ok u => exact ⟨fun _ => rfl, fun _ => ⟨u, rfl⟩⟩
  | error e => exact ⟨fun h => h.elim fun _ h => (nomatch h), fun h => (nomatch h)⟩

/-- An answer's value. -/
def okIs {α : Type} [DecidableEq α] (x : Except Stop α) (v : α) : Bool :=
  match x with
  | .ok w => w = v
  | .error _ => false

theorem ok_eq {α : Type} [DecidableEq α] (x : Except Stop α) (v : α) : x = .ok v ↔ okIs x v = true := by
  cases x with
  | ok w => simp [okIs]
  | error e => exact ⟨fun h => (nomatch h), fun h => (nomatch h)⟩

theorem allowed_iff {s : State} {k : Task} {cell : Nat} {ea : Word64} {size : Nat} {cls : Fin 16} {a : Access} {p : Page}
    {r : MemRef} : Allowed s k cell ea size cls a p r ↔ (canonical ea && decide (ea.toNat % size = 0) &&
      okIs (s.pageOf k.ctx cell ea) p && okIs ((s.permit k.ctx ea a p).map fun x => { x with size := size, cls := cls }) r) = true := by
  simp only [Bool.and_eq_true, decide_eq_true_eq, ← ok_eq]
  exact ⟨fun h => ⟨⟨⟨h.1, h.2⟩, h.3⟩, h.4⟩, fun h => ⟨h.1.1.1, h.1.1.2, h.1.2, h.2⟩⟩

theorem poppable_iff {s : State} {k : Task} {c : Cell} {cell q : Nat} {e : QEntry} : Poppable s k c cell q e ↔
    s.queueHead k c cell q = some e ∧ (q < 13 → e.inst ≤ k.instant) := ⟨fun h => ⟨h.1, h.2⟩, fun h => ⟨h.1, h.2⟩⟩

theorem fed_iff {s : State} {k : Task} {c : Cell} {cell : Nat} {q : QNum} : Fed s k c cell q ↔
    (decide (q ≠ 1 ∧ q ≠ 3) || (s.queueHead k c cell q.val).any fun e => decide (q.val < 13 → e.inst ≤ k.instant)) = true := by
  simp only [Bool.or_eq_true, decide_eq_true_eq, Option.any_eq_true]
  constructor
  · intro h
    by_cases n : q = 1 ∨ q = 3
    · obtain ⟨e, p⟩ := h n
      exact .inr ⟨e, p.1, p.2⟩
    · exact .inl ⟨fun z => n (.inl z), fun z => n (.inr z)⟩
  · rintro (⟨a, b⟩ | ⟨e, x, y⟩) n
    · exact absurd n (by rintro (h | h) <;> contradiction)
    · exact ⟨e, x, y⟩

theorem linesOut_iff {s : State} {k : Task} : LinesOut s k ↔ (s.linesChecked k && (s.linesOf k).all fun p => !s.lostLine p.2 &&
    !(s.heardLines k).killed p.2) = true := by
  simp only [List.all_eq_true, Bool.and_eq_true, Bool.not_eq_true']
  exact ⟨fun h => ⟨h.checked, fun p m => ⟨h.home p m, h.sound p m⟩⟩, fun h => ⟨fun p m => (h.2 p m).1, h.1, fun p m => (h.2 p m).2⟩⟩

theorem publishes_iff {s : State} {k : Task} : Publishes s k ↔ s.atPour k = true ∧ s.settledTask k = true ∧ LinesOut s k :=
  ⟨fun h => ⟨h.1, h.2, h.3⟩, fun h => ⟨h.1, h.2.1, h.2.2⟩⟩

theorem sound_iff {s : State} {r : MemRef} : Sound s r ↔ s.peerOf r.pa = none ∧ r.pa / 64 ∉ s.poison ∧
    ∀ w ∈ s.wsBad, 8 * w + 8 ≤ r.pa ∨ r.pa + r.size ≤ 8 * w := ⟨fun h => ⟨h.1, h.2, h.3⟩, fun h => ⟨h.1, h.2.1, h.2.2⟩⟩

theorem barv_iff {s : State} {c : Cell} {k : Task} {sc : Scope} : BarvReady s c k sc ↔
    (∀ r ∈ s.reds, r.ctx = k.ctx → r.cell ≠ s.cur.cell) ∧ (s.crossGroup k sc (unitOf sc s.cur.cell) = true → s.atPour k = true) ∧
      (s.crossGroup k sc (unitOf sc s.cur.cell) = true → s.settledTask k = true) ∧
      (sc = .dom → s.crossGroup k sc (unitOf sc s.cur.cell) = true → s.switchDue k.ctx = false) :=
  ⟨fun h => ⟨h.1, h.2, h.3, h.4⟩, fun h => ⟨h.1, h.2.1, h.2.2.1, h.2.2.2⟩⟩
/-- A cell whose named registers of C and A hold `x` in register 1 and `y` in register 14, with the tag `q`. -/
def cellXY (x y : Word64) (q : Clk) : Cell := cellOf fun c =>
  { c with sregs := (c.sregs.set 1 { val := x, tag := q }).set 14 { val := y, tag := q }
           aregs := (c.aregs.set 1 { val := x, tag := q }).set 14 { val := y, tag := q } }

/-- A cell's memory place 0 to 64 KiB as the page of virtual address 0, readable and writable. -/
def withPage (s : State) (leaf : Word64) : State := { s with tlb := [⟨0, 0, 0, 65536, leaf⟩] }

def bucketMem (dflt : Nat) : Memory :=
  writeBytes (writeBytes (writeBytes [] 2040 (leBytes 4096 8)) 4096 (leBytes (2 + 65536 * dflt) 8)) 4104 (leBytes 3 4 ++ leBytes 1 4)

/-- The small machine with a bucket directory at address 0, whose slot 255 names a table of two entries. -/
def bucketDemo (dflt : Nat) (c : Cell) : State :=
  { withPage (demoOf { num := 0, text := [0, 0, 0, 0], grinder := some 0 } c) 0xF with mem := bucketMem dflt }

/-- A cell with k1 true and k2 false on complementary values under k0, register 1 on k1 and register 14 on k2. -/
def clocked : Cell := cellOf fun c =>
  { c with clks := (c.clks.set 1 ⟨true, true, 0, true, false⟩).set 2 ⟨false, true, 0, false, false⟩
           sregs := (c.sregs.set 1 { val := 7, tag := 1 }).set 14 { val := 9, tag := 2 } }

/-- A function bound to the partition, with CTXID.BRK. -/
def boundDemo (brk : Bool) (c : Cell) : State :=
  { demo c with fnOn := [1], blob := { bindings := [(1, 0)] }
                regs := if brk then [(65536 + 0x410, 0x100000000)] else [] }

/-- A default launch record of stage 0 for one cell with the timestamp `ts` and room for one task. -/
def launchRec (ts : Nat) : BitVec 1024 :=
  BitVec.ofNat 1024 (ts * 2 ^ 512 + 2 ^ (8 * 77) + 2 ^ (8 * 78) + 2 ^ (8 * 79) + 2 ^ (8 * 84))

def launchDemo (ts : Nat) (depth : Nat) (full : Bool) (c : Cell) : State :=
  { demo c with
    kernels := [{ ctx := 0, handle := 1, stages := [{ num := 0, text := [0] }], lrecs := [launchRec ts] }]
    tasks := [(1, { k0 with depth := depth })], nextId := 2, carafe := if full then [(0, 1, 0)] else [] }

/-- The small machine with a group of two cells, cell 0 and its twin. -/
def twinDemo (c c' : Cell) : State :=
  { demo c with
    cells := [(0, c), (320, c')]
    groups := [(1, { id := 1, ctx := 0, inst := 1, stage := 0, ox := 0, oy := 0, oz := 0, w := 1, h := 1, d := 2, st := .running })] }

/-- A load in motion, of the last double word of the first page of memory. -/
def loadFly : Fly := { id := 5, pc := 0, op := .load ⟨65528, 65528, 8, 3, false, false⟩ (List.replicate 8 none) .d, tok := t0 }

/-- A scalar entry on the clock `q`. -/
def entryOn (q : Clk) : QEntry := { val := 5, clk := q }

/-- A cell whose queues all hold the entries `es`, with the last double word of the first page in its first registers. -/
def queueCell (es : List QEntry) : Cell := { cellXY 65528 0 0 with queues := Vector.replicate 13 { es := es } }

def queueDemo (es : List QEntry) : State := withPage (demo (queueCell es)) 0xF

/-- A cell with three addresses in registers 1, 14 and 2 of A, and `spad` in its scratchpad. -/
def cell3 (x y z : Word64) (spad : Memory) : Cell :=
  { cellOf fun c => { c with aregs := ((c.aregs.set 1 { val := x }).set 14 { val := y }).set 2 { val := z } } with spad := spad }

/-- An atomic of 64 bits in class 15. -/
def amoX : AmoExt := ⟨.dev, false, false, false, true, 15⟩

/-- A cell whose vector registers 1 and 2 have the format `g`, the tag `q` and the poison `b`, and the others too. -/
def vcell (g : Fmt) (q : Clk) (b : Bool) : Cell :=
  cellOf fun c => { c with vregs := Vector.replicate 32 { bits := 0x3F800000, fmt := g, tag := q, bad := if b then 1 else 0 } }

/-- The page of virtual address 0 in `withPage`, and a place in it. -/
def page0 : Page := ⟨0, 0, 65536, 0xF⟩
def place0 (a n : Nat) (cls : Fin 16) : MemRef := ⟨a, a, n, cls, false, false⟩

/-! ## The hypotheses of the statements can be met

Each theorem names its statement and shows states and operands that meet the hypotheses of its clauses, at the boundary
values of their ranges. -/

theorem witness_DecodeEncode :
    wordOf (.mexecExt ⟨true, true, true, true⟩ 63 7 0xFFFF 1 0xFFFF) = some (.m, ⟨true, true, true, true⟩) ∧
      wellFormed (.mexecExt ⟨true, true, true, true⟩ 63 7 0xFFFF 1 0xFFFF) = true ∧
      wordOf (.vrb t0 0 31) = some (.v, t0) ∧ wellFormed (.vrb t0 0 31) = true := by decide +kernel

theorem witness_DecodeEngine : decode [0x00D80000] = some (.nop t0) := by decide +kernel

/-- A turn that gives engine C its word, an instruction or none. -/
theorem witness_StepIssue :
    (State.reset.withFetchWord 32 0x00D80000).agenda = [⟨0, 0, .issue 0 0 .c⟩] ∧
      ∀ w ∈ ([0x00D80000, 0x00D80001] : List Nat),
        let s := State.reset.withFetchWord 32 w
        let s1 : State := { ({ s with agenda := [] }.tick ⟨0, 0, .issue 0 0 .c⟩) with cur := ⟨0, 0⟩ }
        (s1.nextWord .c).isSome = true ∧ (decode [BitVec.ofNat 32 w]).isSome = (w == 0x00D80000) ∧
          Ready .c { tokOf w with hp := false, hn := false } (s1.putHere (({ group := some 1, task := some 1 } : Cell).standAt .c 0))
            (({ group := some 1, task := some 1 } : Cell).standAt .c 0) k0 := by
  simp only [ready_iff]; decide +kernel

/-- An event, an engine of a stopped cell, and no turn at all. -/
theorem witness_StepEvent :
    ({ State.reset with agenda := [⟨1, 0, .event .powerUp⟩] } : State).agenda = ⟨1, 0, .event .powerUp⟩ :: [] ∧
      ({ demo { cellOf id with halted := true } with cur := ⟨0, 0⟩ } : State).nextWord .c = none ∧ State.reset.agenda = [] := by
  decide +kernel

/-- No task; a held fault; a token missing; no room for a token. -/
theorem witness_WordGate :
    State.reset.here = none ∧
      ({ demo (cellOf id) with tasks := [(1, { k0 with fault := some { code := .align } })] } : State).here =
        some (cellOf id, { k0 with fault := some { code := .align } }) ∧
      (demo (cellOf id)).here = some (cellOf id, k0) ∧
      tokReady (cellOf id).core.toks .c { t0 with pp := true } = false ∧
      tokRoom (cellOf fun c => { c with toks := Vector.replicate 8 8 }).core.toks (Vector.replicate 8 0) .c { t0 with hn := true }
        = false := by decide +kernel

theorem witness_MemoryForm :
    Memory.wf ({ demo (cellOf id) with mem := [(0, 1), (2 ^ 52 - 1, 255)] } : State).mem = true ∧
      nextThat (step { demo (cellOf id) with mem := [(0, 1), (2 ^ 52 - 1, 255)] }) (fun _ => true) = true := by decide +kernel

theorem witness_TableForm :
    Tables ({ demo (cellOf id) with regs := [(0, 1), (5, 2)] } : State) ∧
      nextThat (step { demo (cellOf id) with regs := [(0, 1), (5, 2)] }) (fun _ => true) = true := by
  simp only [tables_iff]; decide +kernel

theorem witness_ReadAfterWrite : Memory.wf [(3, 1)] = true ∧ 0xFFFF < 2 ^ (8 * 2) ∧ (2 < 3 ∨ 3 + 1 ≤ 2) ∧ (4 < 3 ∨ 3 + 1 ≤ 4) := by
  decide

/-- ScalarResult and ScalarFrame: add on C into s2, li with no source, and aadd on A into a2. -/
theorem witness_ScalarResult :
    let c := cellXY 7 0 0
    (scalarForm (.add t0 (.reg 2) (.r 1) (.r 14))).isSome = true ∧ (scalarForm (.li t0 (.reg 2) 5)).isSome = true ∧
      Present .c (demo c) c k0 [.r 1, .r 14] 0 (some 2) ∧ Present .c (demo c) c k0 [] 0 (some 2) ∧
      EndsAlone .c (demo c) c k0 (some 2) ∧ Ready .c t0 (demo c) c k0 ∧
      (scalarForm (.aadd t0 (.reg 2) (.r 1) (.r 14))).isSome = true ∧ Present .a (demo c) c k0 [.r 1, .r 14] 0 (some 2) ∧
      EndsAlone .a (demo c) c k0 (some 2) ∧ Ready .a t0 (demo c) c k0 ∧
      nextThat (exec (.add t0 (.reg 2) (.r 1) (.r 14)) (demo c)) (fun _ => true) = true := by
  simp only [present_iff, clock_iff, endsAlone_iff, ready_iff, reads_iff, ok_unit]; decide +kernel

/-- ScalarAbsent: two sources on the undefined clock k1. -/
theorem witness_ScalarAbsent :
    let c := cellXY 7 0 1
    (scalarForm (.add t0 (.reg 2) (.r 1) (.r 14))).isSome = true ∧ Ready .c t0 (demo c) c k0 ∧
      (∀ x ∈ [Src.r 1, .r 14], ReadsAs .c (demo c) c k0 1 x) ∧ clkOn c.core 1 = false ∧ clkBad c.core 1 = false := by
  simp only [ready_iff, reads_iff]; decide +kernel

/-- ScalarFaults: two tags; a poisoned source of a present clock; a poisoned tag and a poisoned clock. -/
theorem witness_ScalarFaults :
    let c := cellXY 7 0 1
    let p := cellOf fun k => { k with sregs := k.sregs.set 1 { bad := 2 } }
    let tb := cellOf fun k => { k with sregs := k.sregs.set 1 { tagBad := true } }
    let cb := cellOf fun k => { k with clks := k.clks.set 1 { dfn := true, bad := true }, sregs := (k.sregs.set 1 { tag := 1 }).set 2 { tag := 1 } }
    Ready .c t0 (demo c) c k0 ∧ (∀ x ∈ [Src.r 1, .r 2], (demo c).bindOf k0 0 c .c x = none ∧ (srcVal .c c.core x).pend = none) ∧
      (∃ x ∈ [Src.r 1, .r 2], ∃ y ∈ [Src.r 1, .r 2], (srcVal .c c.core x).tag ≠ (srcVal .c c.core y).tag) ∧
      Ready .c t0 (demo p) p k0 ∧ (∀ x ∈ [Src.r 1, .r 2], (demo p).bindOf k0 0 p .c x = none ∧ (srcVal .c p.core x).pend = none) ∧
      (∀ x ∈ [Src.r 1, .r 2], (srcVal .c p.core x).tag = 0) ∧ clkOn p.core 0 = true ∧
      (∃ x ∈ [Src.r 1, .r 2], (srcVal .c p.core x).bad ≠ 0) ∧ Ready .c t0 (demo tb) tb k0 ∧
      (∃ x ∈ [Src.r 1, .r 2], (srcVal .c tb.core x).tagBad = true) ∧ Ready .c t0 (demo cb) cb k0 ∧
      (∀ x ∈ [Src.r 1, .r 2], (srcVal .c cb.core x).tagBad = false ∧ (srcVal .c cb.core x).tag = 1) ∧ clkBad cb.core 1 = true ∧ (demo p).mirrorWait k0 0 p (some 2) = .ok () := by
  simp only [ready_iff, ok_unit]; decide +kernel

/-- Division: a divisor of 0, the overflowing pair, and an ordinary pair. -/
theorem witness_Division :
    ([(3, Instr.div t0 .drop (.r 1) (.r 14)), (4, .divu t0 .drop (.r 1) (.r 14)), (5, .rem t0 .drop (.r 1) (.r 14)),
        (6, .remu t0 .drop (.r 1) (.r 14))].lookup 3) = some (.div t0 .drop (.r 1) (.r 14)) ∧
      (∀ p ∈ ([(7, 0), (0x8000000000000000, 0xFFFFFFFFFFFFFFFF), (7, 2)] : List (Nat × Nat)),
        let x := BitVec.ofNat 64 p.1; let y := BitVec.ofNat 64 p.2; let c := cellXY x y 0
        Ready .c t0 (demo c) c k0 ∧ Present .c (demo c) c k0 [.r 1, .r 14] 0 none ∧ srcVals .c c [.r 1, .r 14] = [x, y]) := by
  simp only [present_iff, clock_iff, ready_iff, reads_iff, ok_unit]; decide +kernel

theorem witness_KeepTake :
    let c := cellXY 7 0 1
    Ready .c t0 (demo c) c k0 ∧ Ready .a t0 (demo c) c k0 ∧ (srcVal .c c.core (.b 15)).pend = none ∧
      (srcVal .c c.core (.b 15)).bad = 0 ∧ (srcVal .c c.core (.b 15)).tagBad = false ∧ (srcVal .a c.core (.b 0)).pend = none ∧ (srcVal .a c.core (.b 0)).bad = 0 ∧ (srcVal .a c.core (.b 0)).tagBad = false ∧
      (demo c).mirrorWait k0 0 c (some 15) = .ok () ∧ ReadsAs .c (demo c) c k0 1 (.r 1) ∧
      c.core.sregs[(1 : Fin 16)] = { val := 7, tag := 1 } ∧ c.core.aregs[(1 : Fin 16)] = { val := 7, tag := 1 } := by
  simp only [ready_iff, reads_iff, ok_unit]; decide +kernel

/-- Branches: the lowest and highest word of the text as target, and tested values and counts 0, 1, 2 and 3. -/
theorem witness_Branches :
    ∀ n ∈ [0, 1, 2, 3], let x := BitVec.ofNat 64 n; let c := cellXY x 0 0
      Ready .c t0 (demo c) c k0 ∧ Present .c (demo c) c k0 [.r 1] 0 none ∧ Present .c (demo c) c k0 [.r 1] 0 (some 1) ∧
        srcVals .c c [.r 1] = [x] ∧ (demo c).target k0 x.toNat = .ok x.toNat ∧
        (demo c).target k0 (c.core.pc.c + (0 : BitVec 19).toInt) = .ok 0 := by
  simp only [present_iff, clock_iff, ready_iff, reads_iff, ok_eq]; decide +kernel

theorem witness_Branches_a :
    ∀ n ∈ [0, 1, 2], let x := BitVec.ofNat 64 n; let c := cellXY x 0 0
      Ready .a t0 (demo c) c k0 ∧ Present .a (demo c) c k0 [.r 1] 0 none ∧ Present .a (demo c) c k0 [.r 1] 0 (some 1) ∧
        srcVals .a c [.r 1] = [x] ∧ (demo c).target k0 (c.core.pc.a + (3 : BitVec 14).toInt) = .ok 3 := by
  simp only [present_iff, clock_iff, ready_iff, reads_iff, ok_eq]; decide +kernel

/-- BadTargets: the word before the text, the word after it, and an extension word. -/
theorem witness_BadTargets :
    let c := cellXY 4 0 0
    let z := cellXY 0 0 0
    Ready .c t0 (demo c) c k0 ∧ Ready .a t0 (demo c) c k0 ∧ Present .c (demo c) c k0 [.r 1] 0 none ∧
      Present .a (demo c) c k0 [.r 1] 0 none ∧ srcVals .c c [.r 1] = [4] ∧ srcVals .a c [.r 1] = [4] ∧
      ((c.core.pc.c : Int) + (-1 : BitVec 19).toInt < 0) ∧ isHead ((demo c).textOf k0) ((c.core.pc.a : Int) + (4 : BitVec 14).toInt).toNat = false ∧
      isHead ((demo c).textOf k0) (4 : Word64).toNat = false ∧ isHead [0x20000000, 0] 0 = true ∧ isHead [0x20000000, 0] 1 = false ∧
      Ready .c t0 (demo z) z k0 ∧ Present .c (demo z) z k0 [.r 1] 0 none ∧ srcVals .c z [.r 1] = [0] := by
  simp only [present_iff, clock_iff, ready_iff, reads_iff, ok_unit]; decide +kernel

/-- CallReturn: a call at depth 0 and 254, one at 255; a return at depth 1 and one at 0; a return to an absent s15. -/
theorem witness_CallReturn :
    (let c := cellOf fun k => { k with callDepth := 1, sregs := k.sregs.set 15 { tag := 1 } };
      Ready .c t0 (demo c) c k0 ∧ ReadsAs .c (demo c) c k0 1 (.r 15) ∧ clkOn c.core 1 = false ∧ clkBad c.core 1 = false ∧ c.core.callDepth ≠ 0) ∧
    ∀ n ∈ [0, 1, 254, 255], let c := cellOf fun k => { k with callDepth := n, sregs := k.sregs.set 15 { val := 3 } }
      Ready .c t0 (demo c) c k0 ∧ (demo c).mirrorWait k0 0 c (some 15) = .ok () ∧ (demo c).mirrorsOf k0 0 c 15 = [] ∧
        c.core.callDepth = n ∧ (demo c).target k0 (c.core.pc.c + (3 : BitVec 19).toInt) = .ok 3 ∧
        Present .c (demo c) c k0 [.r 15] 0 none ∧ ReadsAs .c (demo c) c k0 0 (.r 15) ∧ (demo c).target k0 c.core.sregs[(15 : Fin 16)].val.toNat = .ok 3 := by
  simp only [ready_iff, present_iff, reads_iff, ok_unit, ok_eq]; decide +kernel

/-- Steering: xbrk to the last word; bksel of slot 255 with dimension 0, at the two ends of both rows, and past the table. -/
theorem witness_Steering :
    (Ready .c t0 (demo (cellOf id)) (cellOf id) k0 ∧ (demo (cellOf id)).target k0 ((0 : Nat) + (3 : BitVec 19).toInt) = .ok 3 ∧
      (cellOf id).ranOut = true ∧ ({ cellOf id with mwait := some (0, t0) } : Cell).ranOut = false ∧
      Ready .c t0 (demo { cellOf id with mwait := some (0, t0) }) { cellOf id with mwait := some (0, t0) } k0) ∧
      ∀ n ∈ [0, 1, 128, 129, 256, 257], let x := BitVec.ofNat 64 n; let c := cellXY x 0 0; let s := bucketDemo 1 c;
        Ready .c t0 s c k0 ∧ Present .c s c k0 [.r 1] 0 none ∧ srcVals .c c [.r 1] = [x] ∧
          (match bkselTable s k0 x 255 with
            | .ok (u, t, v) => t == (if n ≤ 128 then 3 else 1) && v == (if n = 0 then 0 else (n - 1) % 128 + 1) &&
                u.getCell 0 0 == some c
            | .error _ => false) = true := by
  simp only [present_iff, clock_iff, ready_iff, reads_iff, ok_eq]; decide +kernel

/-- BucketTable: no directory, an empty slot, an empty table, an index past a table without and with the default bit. -/
theorem witness_BucketTable :
    ((demo (cellOf id)).stageOf k0).bind Stage.grinder = none ∧
      ((bucketDemo 1 (cellOf id)).stageOf k0).bind Stage.grinder = some 0 ∧
      (∀ p ∈ [(0, 0), (255, 4096)], okIs (((bucketDemo 1 (cellOf id)).readVirt k0 0 .issue (BitVec.ofNat 64 (0 + 8 * p.1)) 8).map
        fun r => leNat r.2) p.2 = true) ∧
      (∀ d ∈ [0, 1], okIs (((bucketDemo d (cellOf id)).readVirt k0 0 .issue (BitVec.ofNat 64 4096) 8).map
        fun r => (leNat r.2 % 65536, leNat r.2 / 65536 % 2)) (2, d) = true) ∧
      okIs (((bucketDemo 1 (cellOf id)).readVirt k0 0 .issue (BitVec.ofNat 64 8192) 8).map fun r => leNat r.2 % 65536) 0 = true ∧
      ((256 : Word64).toNat - 1) / 128 = 1 ∧ 2 ≤ ((257 : Word64).toNat - 1) / 128 ∧
      okIs (((bucketDemo 1 (cellOf id)).readVirt k0 0 .issue (BitVec.ofNat 64 (4096 + 8 + 4 * 1)) 4).map fun r => leNat r.2 % 65536) 1
        = true ∧ isHead ((bucketDemo 1 (cellOf id)).textOf k0) 1 = true := by decide +kernel

/-- ClockDefine: k15 under k1 with a value on k1; an undefined parent; a tag that is not the parent's; k1 again. -/
theorem witness_ClockDefine :
    Ready .c t0 (demo clocked) clocked k0 ∧ (∀ j, clkBad clocked.core j = false) ∧ clkDef clocked.core 1 = true ∧ clkDef clocked.core 15 = false ∧
      ReadsAs .c (demo clocked) clocked k0 1 (.r 1) ∧ srcVals .c clocked [.r 1] = [7] ∧ clkDef clocked.core 3 = false ∧
      ReadsAs .c (demo clocked) clocked k0 0 (.r 2) ∧ (0 : Clk) ≠ 1 ∧ clkDef clocked.core 0 = true := by
  simp only [ready_iff, reads_iff]; decide +kernel

/-- ClockReads: a defined true clock, a defined false one, an undefined one; the first and an unassigned state register. -/
theorem witness_ClockReads :
    Ready .c t0 (demo clocked) clocked k0 ∧ (demo clocked).mirrorWait k0 0 clocked (some 15) = .ok () ∧
      (∀ q : Clk, clocked.core.clks[q].bad = false) ∧ (demo clocked).srAssigned k0 0 0 = true ∧
      (demo clocked).srAssigned k0 0 1023 = false := by
  simp only [ready_iff, ok_unit]; decide +kernel

/-- StateRegisters: a value of all ones, and 0; the group's registers; the ends of each range of registers not to be written. -/
theorem witness_StateRegisters :
    (∀ n ∈ [0, 0xFFFFFFFFFFFFFFFF], let x := BitVec.ofNat 64 n; let c := cellXY x 0 0;
      Ready .c t0 (demo c) c k0 ∧ Present .c (demo c) c k0 [.r 1] 0 none ∧ srcVals .c c [.r 1] = [x]) ∧
      ((demo (cellOf id)).groupOf k0).isSome = true ∧
      (let s := demo (cellXY 0 0 0); (∀ n ∈ [0, 5], s.queueAssigned k0 s.cur.cell n = true) ∧
        ∀ sr ∈ ([0x106, 0x13F] : List (Fin 1024)), 0x100 ≤ sr.val ∧ sr.val < 0x140 ∧ s.queueAssigned k0 s.cur.cell (sr.val % 32) = false) ∧
      ∀ sr ∈ ([0, 0xF, 0x11, 0x12, 0x1F, 0x21, 0x28, 0x32, 0xFF, 0x140, 0x3FF] : List (Fin 1024)),
        sr.val < 0x100 ∧ sr.val ∉ [0x010, 0x018, 0x020, 0x030, 0x031] ∨ 0x140 ≤ sr.val := by
  simp only [present_iff, clock_iff, ready_iff, reads_iff, ok_unit]; decide +kernel

/-- Sampling: when onto k1 from k0, cur onto k0 from k1, merge of k1 and k2, dly of a slot that is free, bound to k1, or
written; and the clocks that each refuses. -/
theorem witness_Sampling :
    Ready .c t0 (demo clocked) clocked k0 ∧ (∀ n : Fin 16, (demo clocked).mirrorWait k0 0 clocked (some n) = .ok ()) ∧
      (demo clocked).mirrorWait k0 0 clocked none = .ok () ∧ (∀ j, clkBad clocked.core j = false) ∧
      clocked.core.delays[(63 : Fin 64)].tagBad = false ∧
      ReadsAs .c (demo clocked) clocked k0 0 (.r 2) ∧ ReadsAs .c (demo clocked) clocked k0 1 (.r 1) ∧
      ReadsAs .c (demo clocked) clocked k0 2 (.r 14) ∧
      (clkOn clocked.core 1 = true ∧ isAncestor clocked.core 0 16 1 = true) ∧
      (clkOn clocked.core 0 = true ∧ clkDef clocked.core 1 = true ∧ isAncestor clocked.core 0 16 1 = true ∧
        clocked.core.sregs[(15 : Fin 16)].bad = 0) ∧
      (clkDef clocked.core 2 = true ∧ clocked.core.clks[(1 : Fin 16)].parent = 0 ∧ clocked.core.clks[(2 : Fin 16)].parent = 0 ∧
        clocked.core.clks[(1 : Fin 16)].pol = !clocked.core.clks[(2 : Fin 16)].pol ∧
        clocked.core.clks[(1 : Fin 16)].val = !clocked.core.clks[(2 : Fin 16)].val) ∧
      (clocked.core.delays[(63 : Fin 64)].bnd = false ∧ clocked.core.delays[(63 : Fin 64)].wrote = false ∧
        clocked.core.delays[(63 : Fin 64)].bad &&& 3 = 0) ∧
      clkDef clocked.core 3 = false ∧ isAncestor clocked.core 1 16 2 = false ∧ isAncestor clocked.core 2 16 1 = false := by
  simp only [ready_iff, reads_iff, ok_unit]; decide +kernel

theorem witness_Sampling_slots :
    ∀ w ∈ [false, true], let c := cellOf fun c => { c with delays := c.delays.set 63 { cb := 0, bnd := true, wrote := w } };
      Ready .c t0 (demo c) c k0 ∧ ReadsAs .c (demo c) c k0 0 (.r 1) ∧ clkOn c.core 0 = true ∧
        c.core.delays[(63 : Fin 64)].bnd = true ∧ c.core.delays[(63 : Fin 64)].cb = 0 ∧ c.core.delays[(63 : Fin 64)].cb ≠ 1 ∧
        c.core.delays[(63 : Fin 64)].wrote = w := by
  simp only [ready_iff, reads_iff]; decide +kernel

/-- NopWord and Traps: with BRK and without. -/
theorem witness_Traps :
    ∀ b ∈ [false, true], let c := cellOf id; let s := boundDemo b c;
      Ready .c t0 s c k0 ∧ s.breaks 0 = b ∧ Tables s := by
  simp only [ready_iff, tables_iff]; decide +kernel

/-- FaultEntry: a task without and with a fault; a fault to deliver, without a bound function and with one, over a host link that is
up and one that is down; and a delivered one. -/
theorem witness_FaultEntry :
    (demo (cellOf id)).getTask k0.id = some k0 ∧ k0.fault = none ∧
      (∀ p ∈ [([], 0), ([1], 0), ([1], 2)], let t := { k0 with fault := some { code := .align } };
       let s := { demo (cellOf id) with tasks := [(1, t)], fnOn := p.1, blob := { bindings := [(1, 0)] }, ports := [(26, { st := p.2 })] };
       s.getTask t.id = some t ∧ t.fault ≠ none ∧ t.fault = some { code := .align } ∧ (s.getInst t.ctx t.inst).isSome = true ∧
        t.group = some 1 ∧ (mget s.groups 1).isSome = true ∧ (s.partOfCtx t.ctx).map Prod.fst = some 0 ∧ s.boundFns 0 = p.1 ∧ s.hostUp = decide (p.2 = 2)) ∧
      (∃ f, ({ k0 with fault := some { code := .align, delivered := true } } : Task).fault = some f ∧ f.delivered = true) := by
  refine ⟨?_, ?_, ?_, ⟨_, rfl, rfl⟩⟩ <;> decide +kernel

/-- FaultReport: an empty ring with its pointers at the highest value, and a full one of depth 16. -/
theorem witness_FaultReport :
    (let s := { State.reset with regs := [(0x510, 0xFFFFFFFF), (0x514, 0xFFFFFFFF)] };
      Tables s ∧ ((s.reg 0 0x510).toNat + 2 ^ 32 - (s.reg 0 0x514).toNat) % 2 ^ 32 ≠ 2 ^ ((s.reg 0 0x508).toNat % 32)) ∧
      (let s := { State.reset with regs := [(0x510, 3), (0x514, 0xFFFFFFF3)] };
        Tables s ∧ ((s.reg 0 0x510).toNat + 2 ^ 32 - (s.reg 0 0x514).toNat) % 2 ^ 32 = 2 ^ ((s.reg 0 0x508).toNat % 32)) := by
  simp only [tables_iff]; decide +kernel

/-- FaultReturn: a halted group of the instance; a fault that is TRAP, one that is not, and a cell. -/
theorem witness_FaultReturn :
    (let s := { demo (cellOf id) with groups := [(1, { id := 1, ctx := 0, inst := 1, stage := 0, ox := 0, oy := 0, oz := 0, w := 1, h := 1, d := 1, st := .halted })] };
      ((mget s.groups 1).map fun g => (g.ctx, g.inst, g.st)) = some (0, 1, .halted)) ∧
      FaultCode.align ≠ .trap ∧ FaultCode.align ≠ .brk ∧ ((demo (cellOf id)).getCell k0.ctx 0).isSome = true := by decide +kernel

/-- Launches: arming with room and with none, a record out of range, a timestamp that is not later, a nesting of 24. -/
theorem witness_Launches :
    ∀ p ∈ [(1, 0, false), (1, 23, true), (0, 0, false), (1, 24, false)],
      let c := cellXY 7 3 0; let s := launchDemo p.1 p.2.1 p.2.2 c; let k := { k0 with depth := p.2.1 };
      Ready .c t0 s c k ∧ Present .c s c k [.r 1] 0 (some 2) ∧ Present .c s c k [.r 1, .r 14] 0 none ∧
        srcVals .c c [.r 1] = [7] ∧ srcVals .c c [.r 14] = [3] ∧ s.kindOf k ((7 : Word64).toNat / 8 % 4096) = .ok (launchRec p.1) ∧
        s.recOk k (launchRec p.1) = true ∧ decide (k.ts < recField (launchRec p.1) 64 8) = (p.1 == 1) ∧
        decide (recField (launchRec p.1) 84 4 ≤ s.carafe.count (0, 1, 0)) = p.2.2 ∧ k.id ≠ s.nextId := by
  simp only [present_iff, clock_iff, ready_iff, reads_iff, ok_eq]; decide +kernel

theorem witness_Launches_range :
    (launchDemo 1 0 false (cellXY 7 3 0)).recOk k0 (recPut (launchRec 1) 76 1 63) = false ∧
      (cellOf fun c => { c with staging := c.staging.set 7 ⟨some 0, recPut (launchRec 1) 76 1 63⟩ }).core.staging[(7 : Fin 8)].kind
        = some 0 := by decide +kernel

/-- InstantEnd: done with room for another instant, and a word unfinished. -/
theorem witness_InstantEnd :
    (let c := cellOf id;
      Ready .c t0 (demo c) c k0 ∧ k0.launched = false ∧ c.wordsDone k0.id = true ∧ c.ckpts.length < 4 ∧
        (demo c).switchDue k0.ctx = false ∧ Tables (demo c) ∧ k0.ctx = (demo c).cur.ctx) ∧
      (let c : Cell := { cellOf id with mwait := some (0, t0) };
        Ready .c t0 (demo c) c k0 ∧ c.wordsDone k0.id = false) := by
  simp only [ready_iff, tables_iff]; decide +kernel

/-- TaskExit: texit, and iend of a launched task: a word unfinished, a bank owned, and nothing left. -/
theorem witness_TaskExit :
    (∀ b ∈ [0, 127, 128], let c := cellOf fun c => { c with bankMap := BitVec.ofNat 128 (2 ^ b) };
      let k := { k0 with launched := true }; let s := { demo c with tasks := [(1, k)] };
      Ready .c t0 s c k ∧ k.launched = true ∧ c.wordsDone k.id = true ∧ (∀ b : Fin 16, c.batches[b].st = .idle) ∧
        decide (c.core.bankMap = 0) = decide (b = 128) ∧ c.lic.held = false ∧ c.lic.claim = false ∧
        s.switchDue s.cur.ctx = false) ∧
      (let c : Cell := { cellOf id with mwait := some (0, t0) };
        Ready .c t0 (demo c) c k0 ∧ c.wordsDone k0.id = false) := by
  simp only [ready_iff]; decide +kernel

/-- TwinWindow: an empty, a full register, one that has changed in this cycle, and a group of depth 1. -/
theorem witness_TwinWindow :
    (let c := cellXY 7 0 0; let s := twinDemo c c;
      Ready .c t0 s c k0 ∧ s.atPour k0 = true ∧ (s.groupOf k0).map Group.d = some 2 ∧ Present .c s c k0 [.r 1] 0 none ∧
        Present .c s c k0 [.r 1] 0 (some 2) ∧ srcVals .c c [.r 1] = [7] ∧ (s.window 7).full = false ∧ (s.window 7).past = none ∧ c.xchg = none) ∧
      (let s := { twinDemo (cellXY 7 0 0) (cellXY 7 0 0) with windows := [(windowKey 0 0 7, { val := 1, full := true })] };
        (s.window 7).full = true ∧ (s.window 7).tag = 0 ∧ (s.window 7).bad = 0 ∧ (s.window 7).tagBad = false ∧ (s.window 7).past = none) ∧
      (let s := { twinDemo (cellXY 7 0 0) (cellXY 7 0 0) with windows := [(windowKey 0 0 7, { val := 1, past := some (0, 0, 0, false) })] };
        (s.window 7).full = false ∧ ∃ p, (s.window 7).past = some p ∧ p.1 = s.cycle) ∧
      ((demo (cellXY 7 0 0)).groupOf k0).map Group.d = some 1 ∧
      (let c := cellXY 7 0 1; let s := twinDemo c c; ReadsAs .c s c k0 1 (.r 1) ∧ clkOn c.core 1 = false ∧ clkBad c.core 1 = false) := by
  simp only [present_iff, clock_iff, ready_iff, reads_iff, ok_unit]
  refine ⟨by decide +kernel, by decide +kernel, ⟨by decide +kernel, _, rfl, by decide +kernel⟩, by decide +kernel, by decide +kernel, by decide +kernel⟩

/-- TwinWindow: two twins at one register; a wait of 16,384 cycles without the twin, and one of 16,383. -/
theorem witness_TwinWindow_meet :
    (let c : Cell := { cellXY 7 0 0 with xchg := some ⟨t0, .reg 2, 7, .r 1, 0⟩ }; let s := twinDemo c c;
      s.sideOf 0 0 .c = some (c, k0) ∧ s.sideOf 0 (twinOf 0) .c = some (c, k0) ∧
        Present .c (s.goTo 0 0) c k0 [.r 1] 0 (some 2) ∧ EndsAlone .c (s.goTo 0 0) c k0 (some 2) ∧
        Present .c (s.goTo 0 (twinOf 0)) c k0 [.r 1] 0 (some 2) ∧ EndsAlone .c (s.goTo 0 (twinOf 0)) c k0 (some 2)) ∧
      ∀ n ∈ [16383, 16384], let c : Cell := { cellXY 7 0 0 with xchg := some ⟨t0, .reg 2, 7, .r 1, n⟩ };
        (demo c).sideOf 0 0 .c = some (c, k0) ∧ (demo c).sideOf 0 (twinOf 0) .c = none := by
  simp only [present_iff, clock_iff, endsAlone_iff, reads_iff, ok_unit]; decide +kernel

/-- LicenceWords: held, and Halting too, not held, and a task that is not at the pour line. -/
theorem witness_LicenceWords :
    (∀ b ∈ [(false, false), (true, false), (true, true)], let c : Cell := { cellOf id with lic := { held := b.1, halting := b.2 } };
      Ready .c t0 (demo c) c k0 ∧ (demo c).atPour k0 = true ∧ c.lic.held = b.1 ∧ c.lic.halting = b.2 ∧ c.licensedCmds = [] ∧
        (demo c).getCell 0 (twinOf 0) = none) ∧
      (let k := { k0 with key := [1, 0] }; let s := { demo (cellOf id) with tasks := [(1, k), (2, { k0 with id := 2 })] };
        Ready .c t0 s (cellOf id) k ∧ s.atPour k = false ∧ s.abortsInstead k .pourLine = false) := by
  simp only [ready_iff]; decide +kernel

/-- LicenceWords: the four events, each at the ends of its condition. -/
theorem witness_LicenceWords_events :
    let clm : Licence := { claim := true }; let hld : Licence := { held := true, cyc := 4096, age := 4096 };
    (let s := { twinDemo { cellOf id with lic := clm } { cellOf id with lic := clm } with clusters := [(0, { grant := 1 }), (20, { grant := 1 })] };
      s.boot = .ready ∧ s.pairFree 0 = true ∧ s.contends 0 0 = true ∧ s.contends 0 (twinOf 0) = true ∧ (s.getPair 0).last = none ∧
        clm.first = false ∧ clm.held = false ∧ hld.held = true) ∧
      (let s := twinDemo { cellOf id with lic := hld } { cellOf id with lic := clm };
        s.cellOff (twinOf 0) = false ∧ (s.getCell 0 0).map (fun c => (c.lic.held, c.lic.pass, decide (c.lic.cyc ≤ c.lic.age),
          c.group.isSome, c.lic.halting)) = some (true, false, true, true, false)) ∧
      (let s : State := { twinDemo (cellOf id) (cellOf id) with phys := [(twinOf 0, { disabled := true })] }; s.cellOff (twinOf 0) = true) ∧
      ({ hld with age := 4095 } : Licence).age < 4096 ∧
      (∀ m ∈ [1, 2], let s := { twinDemo { cellOf id with lic := { hld with pass := true } } { cellOf id with lic := clm } with
          pairs := [(0, { passing := some m })], clusters := [(20, { grant := 1 })] };
        (s.getPair 0).passing = some m ∧ hld.halting = false ∧ s.contends 0 (twinOf 0) = true ∧
          (s.getCell 0 0).map Cell.licensedCmds = some []) ∧
      ∀ m ∈ [4095, 4096], (({ twinDemo { cellOf id with lic := { first := true } } (cellOf id) with
        pairs := [(0, { firstCyc := m })] } : State).getPair 0).firstCyc = m := by decide +kernel

/-- Barriers: the first and last barrier in each phase, a scope of each kind, and a launched task. -/
theorem witness_Barriers :
    ∀ p ∈ [BarPhase.idle, .arrived, .released], let c := cellOf fun c => { c with bars := (c.bars.set 0 ⟨p, 7, .cel, 0⟩).set 31 ⟨p, 7, .prt, 0⟩ };
      Ready .c t0 (demo c) c k0 ∧ c.core.bars[(0 : Fin 32)].st = p ∧ c.core.bars[(31 : Fin 32)].st = p ∧ k0.launched = false ∧
        BarvReady (demo c) c k0 .cel ∧ BarvReady (demo c) c k0 .prt ∧
        (demo c).crossGroup k0 .cel (unitOf .cel 0) = false ∧ (demo c).crossGroup k0 .prt (unitOf .prt 0) = false := by
  simp only [ready_iff, barv_iff]; decide +kernel

/-- Barriers: an arrival of a gang of two instances, which publishes first; an ared outstanding; a launched task. -/
theorem witness_Barriers_gang :
    (let c := cellOf id; let i : Inst := { part := 0, ctx := 0, id := 1, handle := 1, st := .running, gangKey := 5, gangWidth := 2 };
      let s := { demo c with insts := [i], ctxs := [(0, { num := 0, gang := 3 })] };
      Ready .c t0 s c k0 ∧ BarvReady s c k0 .dom ∧ s.crossGroup k0 .dom (unitOf .dom 0) = true ∧ s.getInst 0 1 = some i ∧ i.gangKey ≠ 0 ∧
        (mget s.ctxs 0).map Ctx.gang = some 3 ∧
        (match s.publishFirst k0 with | .ok u => u.cur == s.cur && (u.getCell 0 0).isSome | .error _ => false) = true) ∧
      (let s := { demo (cellOf id) with reds := [⟨0, 0, 1, 5, 0, ⟨0, 0, 8, 3, false, true⟩, .add, 7, amoX, none⟩] };
        Ready .c t0 s (cellOf id) k0 ∧ s.crossGroup k0 .cel (unitOf .cel 0) = false ∧ ∃ r ∈ s.reds, r.ctx = k0.ctx ∧ r.cell = s.cur.cell) ∧
      (let k := { k0 with launched := true }; let s := { demo (cellOf id) with tasks := [(1, k)] };
        Ready .c t0 s (cellOf id) k ∧ BarvReady s (cellOf id) k .cel) := by
  simp only [ready_iff, barv_iff]; decide +kernel

/-- Banks: 1 and 128 of 128 free banks, 128 with one owned, 129, and 0; a release past bank 127, of owned and of free banks. -/
theorem witness_Banks :
    (∀ n ∈ [0, 1, 128, 129], let x := BitVec.ofNat 64 n; let c := cellXY x 0 0;
      Ready .c t0 (demo c) c k0 ∧ Present .c (demo c) c k0 [.r 1] 0 (some 2) ∧ srcVals .c c [.r 1] = [x] ∧
        Present .c (demo c) c k0 [.r 1, .r 14] 0 none ∧ srcVals .c c [.r 1, .r 14] = [x, 0]) ∧
      (∀ j, j < 128 → (cellOf id).core.bankMap.getLsbD j = false) ∧
      (cellOf fun c => { c with bankMap := 1 }).core.bankMap.getLsbD 0 = true ∧
      (∀ n ∈ [1, 127, 128], let x := BitVec.ofNat 64 n; let c := { cellXY x 1 0 with core := { (cellXY x 1 0).core with bankMap := BitVec.ofNat 128 2 } };
        Ready .c t0 (demo c) c k0 ∧ c.coveredBanks = 0 ∧ srcVals .c c [.r 1, .r 14] = [x, 1] ∧ decide (128 < n + 1) = decide (n = 128) ∧
          (∀ j, j < 128 → c.coveredBanks.getLsbD j = false) ∧ c.core.bankMap.getLsbD n = decide (n = 1)) := by
  simp only [present_iff, clock_iff, ready_iff, reads_iff, ok_unit]; decide +kernel

/-- Templates: the first and last 32 bytes of the input half, a misaligned offset, one outside the half; bytes of zeros pass
the checks and an operation 11 does not. -/
theorem witness_Templates :
    (∀ n ∈ [0, 1, 0x7FFE0, 0x80000], let x := BitVec.ofNat 64 n; let c := { cellXY x 0 0 with spad := [(0x7FFE0, 11)] };
      Ready .c t0 (demo c) c k0 ∧ Present .c (demo c) c k0 [.r 1] 0 none ∧ srcVals .c c [.r 1] = [x] ∧
        decide (n % 32 = 0) = decide (n ≠ 1) ∧ inHalf c.core.phase false n 32 = decide (n ≠ 0x80000) ∧ c.badWords n 32 = [] ∧
        loadCheck (BitVec.ofNat 256 (leNat (readBytes c.spad n 32))) = decide (n ≠ 0x7FFE0)) ∧ (63 : Fin 64) ≠ 0 := by
  simp only [present_iff, clock_iff, ready_iff, reads_iff, ok_unit]; decide +kernel

theorem witness_IssueOfA :
    (demo (cellOf id)).getCell 0 0 = some (cellOf id) ∧ k0.ctx = (demo (cellOf id)).cur.ctx ∧ (cellOf id).fly = [] ∧
      (∀ f, ((cellOf id).fly ++ [({ id := 0, pc := 0, op := .stream, tok := t0 } : Fly)]).head? = some f → f.op ≠ .done) := by
  refine ⟨by decide +kernel, by decide, by decide, fun f h => ?_⟩
  cases h
  decide

/-- Loads: the first and last double word of a page, with and without an offset; a misaligned address; one that is not
canonical. -/
theorem witness_Loads :
    (∀ n ∈ [0, 65528], let x := BitVec.ofNat 64 n; let c := cellXY x 0 0; let s := withPage (demo c) 0xF;
      Ready .a t0 s c k0 ∧ Present .a s c k0 [.r 1] 0 none ∧ srcVals .a c [.r 1] = [x] ∧
        Allowed s k0 s.cur.cell x (ldSize .d) 15 .read page0 (place0 n 8 15) ∧
        Allowed s k0 s.cur.cell (65528 + (-65528 : BitVec 29).signExtend 64) (ldSize .d) 15 .read page0 (place0 0 8 15)) ∧
      (canonical 1 = true ∧ (1 : Word64).toNat % ldSize .h ≠ 0) ∧ canonical 0x80000000000000 = false := by
  simp only [present_iff, ready_iff, allowed_iff]; decide +kernel

theorem witness_Loads_return :
    let c : Cell := { cellOf fun c => { c with aregs := c.aregs.set 2 { pend := some 5 } } with fly := [loadFly] }; let s := demo c;
    s.flyOf 0 0 5 = some (c, k0, loadFly) ∧ c.fly = [loadFly] ∧ loadFly.push = [] ∧ s.mayPerform 0 0 c loadFly = true ∧
      s.steep 65528 = false ∧ ¬((List.replicate 8 (none : Option Byte)).all Option.isSome = true) ∧ Sound s (place0 65528 8 3) ∧
      ¬(wsBase ≤ 65528) ∧ (s.getTask k0.id).isSome = true := by
  simp only [sound_iff]; decide +kernel

/-- Stores: a buffered store at both ends of a page, a direct one, one to host memory, an absent one. -/
theorem witness_Stores :
    (∀ n ∈ [0, 65528], let x := BitVec.ofNat 64 n; let c := cellXY 7 x 0; let s := withPage (demo c) 0xF; let r := place0 n 8 15;
      Ready .a t0 s c k0 ∧ Present .a s c k0 [.r 1, .r 14] 0 none ∧ srcVals .a c [.r 1, .r 14] = [7, x] ∧
        Allowed s k0 s.cur.cell x (sizeBytes .d) 15 .write page0 r ∧ s.backing 0 n ≠ .host ∧ k0.direct = false ∧
        RecordRoom c (c.lineBytes k0 (storeLine r (bytesFrom (7 : Word64) 0 8)))) ∧
      (let k := { k0 with direct := true }; let s := { withPage (demo (cellXY 7 0 0)) 0xF with tasks := [(1, k)] };
        Ready .a t0 s (cellXY 7 0 0) k ∧ Allowed s k s.cur.cell 0 (sizeBytes .b) 0 .write page0 (place0 0 1 0)) ∧
      (let c := cellXY 7 0 0; let s := { withPage (demo c) (BitVec.ofNat 64 (hostBase + 0xF)) with ports := [(26, { st := 2 })] };
        let r : MemRef := ⟨0, hostBase, 8, 15, false, false⟩;
        Ready .a t0 s c k0 ∧ Allowed s k0 s.cur.cell 0 (sizeBytes .d) 15 .write ⟨0, hostBase, 65536, hostBase + 0xF⟩ r ∧
          s.backing 0 hostBase = .host ∧ Publishes s k0) ∧
      (let c := cellXY 7 0 1;
        Ready .a t0 (demo c) c k0 ∧ ReadsAs .a (demo c) c k0 1 (.r 1) ∧ ReadsAs .a (demo c) c k0 1 (.r 14) ∧ clkOn c.core 1 = false ∧
          clkBad c.core 1 = false) := by
  simp only [present_iff, ready_iff, reads_iff, allowed_iff, publishes_iff, linesOut_iff, RecordRoom]; decide +kernel

theorem witness_Stores_perform :
    let r := place0 63 1 0; let n := storeLine r [9];
    let f : Fly := { id := 5, pc := 0, op := .direct r n.mask n.data, tok := t0 }; let c : Cell := { cellOf id with fly := [f] };
    (demo c).flyOf 0 0 5 = some (c, k0, f) ∧ (demo c).mayPerform 0 0 c f = true ∧ Sound (demo c) r ∧
      Memory.wf (demo c).mem = true ∧ Memory.wf [(63, 1)] = true ∧ 1 ∈ [1] ∧ 0 ∉ [1] := by
  simp only [sound_iff]; decide +kernel

/-- QueueWords: pushes of queues 0 and 2 with their last slot free, and loads into them. -/
theorem witness_QueueWords :
    ∀ q ∈ ([0, 2] : List QNum), let c := queueCell (List.replicate 7 (entryOn 0)); let s := queueDemo (List.replicate 7 (entryOn 0));
      Ready .a t0 s c k0 ∧ Present .a s c k0 [.r 1] 0 none ∧ srcVals .a c [.r 1] = [65528] ∧
        s.pushAssigned k0 0 .a q.val = true ∧ s.pushAssigned k0 0 .a 1 = false ∧ s.pushRoom k0 0 q.val 16 = .ok () ∧
        Allowed s k0 s.cur.cell 65528 (sizeBytes .d) 15 .read page0 (place0 65528 8 15) := by
  simp only [present_iff, ready_iff, allowed_iff, ok_unit]; decide +kernel

/-- QueueWords: pops of queues 1 and 3, with the head on k0, on another clock, absent, and with no head. -/
theorem witness_QueueWords_pop :
    (∀ q ∈ ([1, 3] : List QNum), let c := queueCell [entryOn 0]; let s := queueDemo [entryOn 0];
      Ready .a t0 s c k0 ∧ Present .a s c k0 [.r 1] 0 none ∧ s.popAssigned k0 0 .a q.val = true ∧
        Poppable s k0 c 0 q.val (entryOn 0) ∧ RecordRoom c (s.popBytes k0 (entryOn 0)) ∧ OnClock c.core 0 ∧ (entryOn 0).vec = false ∧
        popConvert c.core.qpopFmt[q] (entryOn 0) = .ok (entryOn 0)) ∧
      (entryOn 1).clk ≠ 0 ∧ (demo (cellOf id)).popAssigned k0 0 .a 0 = false ∧ clkOn (cellOf id).core 1 = false ∧
      clkBad (cellOf id).core 1 = false ∧ clkOn (cellOf id).core 0 = true ∧
      (demo (cellOf id)).queueHead k0 (cellOf id) 0 1 = none := by
  simp only [present_iff, ready_iff, clock_iff, poppable_iff, RecordRoom, ok_eq]; decide +kernel

/-- QueueWords: a store of a head, buffered and direct. -/
theorem witness_QueueWords_qst :
    let c := queueCell [entryOn 0]; let s := queueDemo [entryOn 0]; let r := place0 65528 8 15;
    Allowed s k0 s.cur.cell 65528 (sizeBytes .d) 15 .write page0 r ∧ s.backing 0 r.pa ≠ .host ∧ k0.direct = false ∧
      ({ k0 with direct := true } : Task).direct = true ∧
      RecordRoom c (s.popBytes k0 (entryOn 0) + c.lineBytes k0 (storeLine r (bytesFrom (5 : Word64) 0 8))) := by
  simp only [allowed_iff, RecordRoom]; decide +kernel

/-- QueueWords: deposits into queues 0 and 7, and from a cell to its neighbours across queues 8 and 12; an entry of V of the same
cycle, which one of A goes before; a pop at the pour line. -/
theorem witness_QueueWords_deposit :
    (∀ p ∈ [(8, 20), (12, 320)], let s := { demo (cellOf id) with cells := [(0, cellOf id), (20, cellOf id), (320, cellOf id)] };
      s.getCell k0.ctx 0 = some (cellOf id) ∧ nbrOf 0 p.1 = some p.2 ∧ s.getCell k0.ctx p.2 = some (cellOf id) ∧ s.atPour k0 = true ∧
        ((cellOf id).queue (landing p.1)).es = []) ∧
      (let c := { cellOf id with queues := Vector.replicate 13 { es := [entryOn 0] } }; (c.queue 12).es = entryOn 0 :: []) ∧
      (let e : QEntry := { entryOn 0 with cyc := 0, rank := pushRank .v }; let c := { cellOf id with queues := Vector.replicate 13 { es := [e] } };
        [] ++ e :: [] = (c.queue 7).es ∧ e.cyc = (demo c).cycle ∧ pushRank .a < e.rank) := by
  decide +kernel

/-- StreamsCopies: three units busy; a loading and a storing pattern at the ends of the input half; index queues fed by C and by
A; a class with a copy and one without. -/
theorem witness_StreamsCopies :
    (∀ p ∈ [(0, false), (0x7FFE0, true)],
      let c : Cell := { cell3 (BitVec.ofNat 64 p.1) 0 0 (if p.2 then [(p.1 + 25, 1)] else []) with
        queues := Vector.replicate 13 { es := [entryOn 0] } };
      let s := demo c;
      Ready .a t0 s c k0 ∧ Present .a s c k0 [.r 1] 0 none ∧ s.pushAssigned k0 0 .a 0 = true ∧ s.popAssigned k0 0 .a 3 = true ∧
        s.popAssigned k0 0 .a 1 = true ∧ Fed s k0 c 0 1 ∧ Fed s k0 c 0 3 ∧ Fed s k0 (cellOf id) 0 6 ∧
        inHalf c.core.phase false p.1 32 = true ∧ c.lentOut false p.1 32 = false ∧
        c.badWords p.1 32 = [] ∧ (match patternOf (readBytes c.spad p.1 32) with | .ok k => k.stores == p.2 | .error _ => false) = true) ∧
      (List.replicate 3 ({ id := 0, pc := 0, kind := .gth 0 1 1, q := 0, cls := 0, clk := 0 } : StreamUnit)).length < 4 ∧
      ([({ id := 0, pc := 0, dst := .spad 0, src := .virt 0, len := 64, cls := 3, task := 1, phase := false, ord := 0 } : Copy)].any
        fun x => x.cls == 3) = true := by
  simp only [present_iff, ready_iff, fed_iff]; decide +kernel

/-- StreamsCopies: a storing pattern of no element, of one in memory, and of one in host memory. -/
theorem witness_StreamsCopies_host :
    (∀ p ∈ [(0xF, 0, false), (0xF, 1, false), (hostBase + 0xF, 0, false), (hostBase + 0xF, 1, true)],
      let c : Cell := cell3 0 0 0 [(8, BitVec.ofNat 8 p.2.1), (12, BitVec.ofNat 8 p.2.1), (25, 1)];
      let s := { withPage (demo c) (BitVec.ofNat 64 p.1) with ports := [(26, { st := 2 })] };
      Ready .a t0 s c k0 ∧ Present .a s c k0 [.r 1] 0 none ∧ Publishes s k0 ∧
        okIs (patternOf (readBytes c.spad 0 32)) (.pat 0 p.2.1 p.2.1 0 0 0 true) = true ∧
        s.patHost k0 s.cur.cell (.pat 0 p.2.1 p.2.1 0 0 0 true) = p.2.2) := by
  simp only [present_iff, ready_iff, publishes_iff, linesOut_iff]; decide +kernel

/-- StreamsCopies: a copy of no byte, of one and of 512 KiB, into the output half; a weight-store write of the store's last unit. -/
theorem witness_StreamsCopies_cpy :
    (∀ n ∈ [0, 1, 0x80000], let w := BitVec.ofNat 64 n; let c := cell3 0x8000000000080000 0 w []; let s := withPage (demo c) 0xF;
      Ready .a t0 s c k0 ∧ Present .a s c k0 [.r 1, .r 14, .r 2] 0 none ∧ srcVals .a c [.r 1, .r 14, .r 2] = [0x8000000000080000, 0, w] ∧
        c.copyChecks (copyEnd 0x8000000000080000) (copyEnd 0) w.toNat = .ok () ∧
        s.touchesHost k0 0 (copyEnd 0x8000000000080000) w.toNat = false) ∧
      (let c := cell3 0x3FFFFC0 0 64 []; let s := withPage (demo c) 0xF;
        Ready .a t0 s c k0 ∧ Present .a s c k0 [.r 1, .r 14, .r 2] 0 none ∧ s.atPour k0 = true ∧ (s.partOfCtx 0).map Prod.fst = some 0 ∧
          s.otherInstance k0 0 = false ∧ 0x3FFFFC0 + 64 ≤ 2 ^ 26 ∧ c.copyFrom (copyEnd 0) 64 = .ok () ∧
          s.readable k0 0 (copyEnd 0) 64 = .ok ()) := by
  simp only [present_iff, ready_iff, ok_unit]; decide +kernel

/-- StreamsCopies: a gather at its index and at its end marker, a pattern at its end (of words and of vectors) and at its last element. -/
theorem witness_StreamsCopies_streams :
    (∀ q ∈ ([1, 3, 6] : List QNum), let u : StreamUnit := { id := 5, pc := 0, kind := .gth 0 8 q, q := 0, cls := 0, clk := 0 };
      let c := { queueCell [entryOn 0] with streams := [u] }; let s := withPage (demo c) 0xF; let g := s.goTo 0 0;
      s.moving 0 0 = some (c, k0) ∧ c.streams.find? (fun u => u.id = 5) = some u ∧
        s.mayMove 0 0 c 5 u.cls (s.nextPlaces 0 0 u) = true ∧ Poppable g k0 c 0 q.val (entryOn 0) ∧
        RecordRoom c (g.popBytes k0 (entryOn 0)) ∧ clkBad c.core 0 = false ∧
        popConvert c.core.qpopFmt[q] (entryOn 0) = .ok (entryOn 0) ∧ g.pushRoom k0 0 0 16 = .ok ()) ∧
      (∀ es ∈ [0, 4], let u : StreamUnit := { id := 5, pc := 0, kind := .pat 0 0 0 0 0 es false, q := 0, cls := 0, clk := 0 };
        let c := { queueCell [] with streams := [u] }; let s := withPage (demo c) 0xF;
        s.moving 0 0 = some (c, k0) ∧ s.mayMove 0 0 c 5 u.cls (s.nextPlaces 0 0 u) = true ∧
          (s.goTo 0 0).pushRoom k0 0 0 (if es = 4 then 272 else 16) = .ok ()) ∧
      (let u : StreamUnit := { id := 5, pc := 0, kind := .pat 65528 1 1 0 0 3 false, q := 0, cls := 0, clk := 0 };
        let f : Fly := { id := 5, pc := 0, op := .stream, tok := t0 };
        let c := { queueCell [] with streams := [u], fly := [f] }; let s := withPage (demo c) 0xF; let g := s.goTo 0 0;
        s.moving 0 0 = some (c, k0) ∧ s.mayMove 0 0 c 5 u.cls (s.nextPlaces 0 0 u) = true ∧
          Allowed g k0 0 (BitVec.ofInt 64 65528) (2 ^ 3) 0 .read page0 (place0 65528 8 0) ∧ Sound g (place0 65528 8 0) ∧
          g.steep 65528 = false ∧ g.linked 65528 = true ∧ c.fly.find? (fun f => f.id = 5) = some f ∧
          g.pushRoom k0 0 0 16 = .ok ()) := by
  simp only [poppable_iff, RecordRoom, ok_unit, ok_eq, allowed_iff, sound_iff]
  refine ⟨?_, ?_, ?_⟩ <;> decide +kernel

/-- StreamsCopies: the first and the last unit of a copy within the scratchpad, and of a weight-store write. -/
theorem witness_StreamsCopies_units :
    (∀ p ∈ [0, 64], let y : Copy :=
        { id := 5, pc := 0, dst := .spad 0x80000, src := .spad 0, len := 100, pos := p, cls := 3, task := 1, phase := false, ord := 0 };
      let c := { cellOf id with copies := [y] }; let s := demo c;
      s.moving 0 0 = some (c, k0) ∧ c.copies.find? (fun y => y.id = 5) = some y ∧ s.mayMove 0 0 c 5 y.cls [] = true ∧
        s.atPour k0 = true ∧ s.getTask k0.id = some k0 ∧ c.badWords (0 + p) (Nat.min 64 (100 - p)) = [] ∧
        s.laterWriters 0 k0.inst k0.stage 0 (some k0) (unitsOf (0x80000 + p) (Nat.min 64 (100 - p))) = []) ∧
      ∀ p ∈ [0, 64], let w : Wst := { id := 5, pc := 0, off := 0x400000, src := .spad 0, len := 128, pos := p };
        let c := { cellOf id with wsts := [w], fly := [{ id := 5, pc := 0, op := .wst, tok := t0 }] }; let s := demo c;
        s.moving 0 0 = some (c, k0) ∧ c.wsts.find? (fun w => w.id = 5) = some w ∧ (∀ f ∈ c.fly, f.op.unsettled = false) ∧
          c.badWords (0 + p) 64 = [] ∧ s.steep (wsBase + 0x400000 + p) = false := by
  decide +kernel

/-- AtomicsFences: an atomic, a compare-and-swap and a reduction of the last double word of a page, with an empty buffer and with a
store line to publish. -/
theorem witness_AtomicsFences :
    (∀ b ∈ [false, true],
      let c : Cell := { cell3 65528 7 9 [] with bufs := if b then [{ task := 1, lines := [storeLine (place0 0 1 0) [9]] }] else [] };
      let s := withPage (demo c) 0xF; let r := place0 65528 8 15;
      Ready .a t0 s c k0 ∧ c.scWait = none ∧ Publishes s k0 ∧ amoX.sc = false ∧ Present .a s c k0 [.r 1, .r 14] 0 none ∧
        Present .a s c k0 [.r 1, .r 14, .r 2] 0 none ∧ srcVals .a c [.r 1, .r 14, .r 2] = [65528, 7, 9] ∧
        Allowed s k0 s.cur.cell 65528 (if amoX.wide then 8 else 4) amoX.cls .atomic page0 r ∧
        Allowed s k0 s.cur.cell 65528 (if amoX.wide then 8 else 4) amoX.cls .red page0 r ∧
        (r.rwin && s.switchDue k0.ctx) = false ∧ ({ amoX with sc := true } : AmoExt).sc = true ∧ ({ amoX with sc := true } : AmoExt).cls = amoX.cls) := by
  simp only [present_iff, ready_iff, allowed_iff, publishes_iff, linesOut_iff]; decide +kernel

/-- AtomicsFences: the prefetch of a mapped, of an unmapped and of a non-canonical address; fences that move on, that wait and
that take no class. -/
theorem witness_AtomicsFences_words :
    (let c := cell3 0 0x80000000000000 0 []; let s := withPage (demo c) 0xF;
      Ready .a t0 s c k0 ∧ Present .a s c k0 [.r 1] 0 none ∧ canonical 0 = true ∧
        s.pageOf 0 0 0 = .ok page0 ∧ s.pageOf 0 0 (0 + (65528 : BitVec 29).signExtend 64) = .ok page0 ∧
        canonical 0x80000000000000 = false ∧ (0x8000 : BitVec 16) ≠ 0 ∧ c.fly = [] ∧ s.reds = []) ∧
      (let c := cell3 0 0 0 []; let s := demo c; Ready .a t0 s c k0 ∧ Present .a s c k0 [.r 1] 0 none ∧
        (match s.pageOf 0 0 0 with | .ok _ => false | .error _ => true) = true) ∧
      (let c := { cellOf id with fly := [{ loadFly with op := .load ⟨0, 0, 8, 15, false, false⟩ [] .d }] };
        Ready .a t0 (demo c) c k0 ∧ ∃ f ∈ c.fly, inMask 0x8000 (c.flyCls f) = true) := by
  simp only [present_iff, ready_iff, ok_eq]; decide +kernel

/-- AtomicsFences: an atomic and reductions that perform, two that combine, and the slot of a waiting word. -/
theorem witness_AtomicsFences_home :
    let r : MemRef := ⟨0, 0, 8, 3, false, true⟩; let f : Fly := { id := 5, pc := 0, op := .atomic r none 7 0 amoX, tok := t0 };
    (let c := { cellOf id with fly := [f] }; let s := demo c;
      s.flyOf 0 0 5 = some (c, k0, f) ∧ s.mayPerform 0 0 c f = true ∧ Sound s r ∧ Memory.wf s.mem = true ∧
        (match (s.performRmw 0 0 1 5 r none 7 0 64).2 with | .ok v => v == 0 | .error _ => false) = true ∧
        (match (s.readHome 0 0 r).2 with | .ok b => b.length == 8 | .error _ => false) = true ∧
        s.getTask k0.id = some k0 ∧ s.conflicts k0 [r.pa / 64] = [] ∧ c.fly = [f] ∧ f.push = []) ∧
      (let q : Red := ⟨0, 0, 1, 5, 0, r, .add, 7, amoX, none⟩; let s := { demo (cellOf id) with reds := [q, { q with cell := 1 }] };
        s.reds[0]? = some q ∧ q.grp = none ∧ s.redReady q = true ∧ s.linked q.r.pa = true ∧ Sound s q.r ∧
          s.reds[1]? = some { q with cell := 1 } ∧ s.redReady { q with cell := 1 } = true) ∧
      (let c := { cellOf id with scWait := some ⟨t0, 1, none, none⟩ }; let s := demo c;
        s.slotWaits 0 0 = some (c, k0, ⟨t0, 1, none, none⟩) ∧ ((s.partOfCtx 0).map fun p => s.slotOpen p.2) = some true ∧
          ((s.partOfCtx 0).map fun p => (s.slotTurns 0 p.2).head?) = some (some 0) ∧ c.fly = [] ∧ s.reds = [] ∧
          s.slotBehind 0 ⟨t0, 1, none, some s.cycle⟩ = false) := by
  simp only [sound_iff]; decide +kernel

/-- AtomicsFences: an SC compare-and-swap and an SC reduction that hold their slots. -/
theorem witness_AtomicsFences_slot :
    ∀ d ∈ [some (Dst.reg 2), none], let r : MemRef := ⟨0, 0, 8, 3, false, false⟩;
      let w : ScWait := ⟨t0, 2, some ⟨r, none, 7, 0, { amoX with sc := true, scope := .dom }, d, 0⟩, some 0⟩;
      let c := { cellOf id with scWait := some w }; let s := demo c;
      s.slotWaits 0 0 = some (c, k0, w) ∧ (s.partOfCtx 0).isSome = true ∧ c.fly = [] ∧ s.reds = [] ∧ s.linked r.pa = true ∧
        s.putsOpen 0 = false ∧ s.slotBehind 0 w = false ∧ Sound s r ∧ s.getTask k0.id = some k0 ∧ s.conflicts k0 [r.pa / 64] = [] := by
  simp only [sound_iff]; decide +kernel

/-- VectorLanes: vadd of FP32 registers and a masked vfma of INT8 ones that keeps lanes, up to register 31. -/
theorem witness_VectorLanes :
    (∀ g ∈ [Fmt.fp32, .int8], let c := vcell g 0 false; let x : VX := { noVX with msk := true, m := 7 };
      (vecForm (.vadd t0 31 1 2)).isSome = true ∧ (vecForm (.vfmaExt t0 31 1 2 x)).isSome = true ∧ Ready .v t0 (demo c) c k0 ∧
        VPresent c.core [1, 2, 31] [7] 0 ∧ InFmt c.core [1, 2, 31] g ∧ isArith g = true ∧
        ∀ i f, i = .vfmaExt t0 31 1 2 x → vecForm i = some f → f.regs c.core = [1, 2, 31] ∧ maskUse f.x = [7] ∧ f.ok g = true) := by
  intro g hg
  simp only [List.mem_cons, List.not_mem_nil, or_false] at hg
  rcases hg with rfl | rfl <;> simp only [vpresent_iff, clock_iff, ready_iff, inFmt_iff] <;>
    refine ⟨by decide, by decide, by decide +kernel, by decide +kernel, by decide +kernel, by decide, ?_⟩ <;>
    (intro i f h hf; subst h; cases hf; decide +kernel)

/-- VectorLanes: two clocks, a format that vadd does not take, an absent clock, a poisoned register. -/
theorem witness_VectorLanes_stops :
    (let c := cellOf fun c => { c with vregs := c.vregs.set 1 { tag := 1 } };
      Ready .v t0 (demo c) c k0 ∧ c.core.vregs[(1 : Fin 32)].tag ≠ c.core.vregs[(2 : Fin 32)].tag) ∧
      (let c := vcell .raw 0 false; Ready .v t0 (demo c) c k0 ∧ InFmt c.core [1, 2] .raw ∧ clkBad c.core 0 = false ∧ isArith .raw = false ∧ bitFmt .raw = true) ∧
      (let c := vcell .fp32 1 false; Ready .v t0 (demo c) c k0 ∧ InFmt c.core [1, 2] .fp32 ∧ clkOn c.core 1 = false ∧
        clkBad c.core 1 = false ∧ ∀ r ∈ ([1, 2] : List (Fin 32)), c.core.vregs[r].tag = 1 ∧ c.core.vregs[r].tagBad = false) ∧
      (let c := vcell .fp32 0 true; Ready .v t0 (demo c) c k0 ∧ InFmt c.core [1, 2] .fp32 ∧ clkOn c.core 0 = true ∧
        ∃ r ∈ ([1, 2] : List (Fin 32)), c.core.vregs[r].bad ≠ 0) ∧
      (let c := cellOf fun c => { c with vregs := c.vregs.set 1 { tagBad := true } };
        Ready .v t0 (demo c) c k0 ∧ ∃ r ∈ ([1, 2] : List (Fin 32)), c.core.vregs[r].tagBad = true) := by
  simp only [ready_iff, inFmt_iff]; and_intros <;> decide +kernel

/-- VectorMoves, VectorOrder, VectorConvert: registers of an arithmetic format on k0; one format in two registers and another
in the destination. -/
theorem witness_VectorMoves :
    (let c := vcell .fp32 0 false;
      (moveForm (.vpermExt t0 31 1 2 { noVX with msk := true, m := 7, z := true })).isSome = true ∧ Ready .v t0 (demo c) c k0 ∧
        VPresent c.core [1, 2] [7] 0 ∧ InFmt c.core [1, 2] .fp32 ∧ isArith .fp32 = true ∧ VPresent c.core [1] [] 0 ∧
        InFmt c.core [1] .fp32) ∧
      (let c := cellOf fun c => { c with vregs := c.vregs.set 31 { fmt := .fp32 } };
        (moveForm (.vmovExt t0 31 1 { noVX with msk := true })).isSome = true ∧ c.core.vregs[(31 : Fin 32)].fmt ≠ c.core.vregs[(1 : Fin 32)].fmt) := by
  simp only [ready_iff, vpresent_iff, clock_iff, inFmt_iff]; and_intros <;> decide +kernel

/-- VectorConvert: FP32 to BF16, to FP4, two registers into one of half the width, and the three refusals. -/
theorem witness_VectorConvert :
    (let c := vcell .fp32 0 false; let x : VX := { noVX with fmt := .bf16 };
      (convForm (.vcvt t0 30 1 x)).isSome = true ∧ (convForm (.vpack t0 31 1 2 x)).isSome = true ∧ Ready .v t0 (demo c) c k0 ∧
        VPresent c.core [1, 2] [] 0 ∧ VPresent c.core [1] [] 0 ∧ InFmt c.core [1, 2] .fp32 ∧ convFmt .fp32 = true ∧
        convFmt .bf16 = true ∧ (2 * fmtWidth .bf16 == fmtWidth .fp32) = true ∧ x.fmt ≠ .fp4 ∧
        ({ x with fmt := .fp4 } : VX).fmt = .fp4 ∧ (2 * fmtWidth .int32 == fmtWidth .fp32) = false ∧ convFmt .raw = false ∧
        clkOn c.core c.core.vregs[(1 : Fin 32)].tag = true) ∧
      clkOn (vcell .fp32 1 false).core (vcell .fp32 1 false).core.vregs[(1 : Fin 32)].tag = false := by
  simp only [ready_iff, vpresent_iff, clock_iff, inFmt_iff]; and_intros <;> decide +kernel

/-- VectorMemory: rows 0 and 2,047 of the input half and row 2,048 of the output half; a row lent by an open batch. -/
theorem witness_VectorMemory :
    (∀ n ∈ [0, 2047, 2048], let c := vcell .fp32 0 false;
      Ready .v t0 (demo c) c k0 ∧ k0.ctx = (demo c).cur.ctx ∧ inHalf c.core.phase false (256 * n) 256 = decide (n < 2048) ∧
        inHalf c.core.phase true (256 * n) 256 = decide (2048 ≤ n) ∧ c.lentOut false (256 * n) 256 = false ∧
        c.lentOut true (256 * n) 256 = false ∧ c.badWords (256 * n) 256 = [] ∧ c.core.vregs[(1 : Fin 32)].bad = 0 ∧ c.core.vregs[(1 : Fin 32)].tagBad = false ∧
        clkOn c.core c.core.vregs[(1 : Fin 32)].tag = true ∧ clkBad c.core c.core.vregs[(1 : Fin 32)].tag = false ∧ (demo c).specOf 1 = false ∧
        (demo c).laterWriters 0 1 0 0 ((demo c).getTask 1) (unitsOf (256 * n) 256) = []) ∧
      (let c := { cellOf id with batches := Vector.replicate 16 { st := .gathering, members := [⟨1, 0, [⟨0, 4, true⟩]⟩] } };
        Ready .v t0 (demo c) c k0 ∧ inHalf c.core.phase false 0 256 = true ∧ c.lentOut false 0 256 = true) := by
  simp only [ready_iff]; decide +kernel

/-- VectorMemory: queues 2 and 4 with a vector and a scalar at the head, queues 3 and 5 with a slot free, and the queues that V
may not use; bank 127 held and not held. -/
theorem witness_VectorMemory_queues :
    (∀ p ∈ [(2, true), (4, false)], let e : QEntry := { entryOn 0 with vec := p.2, fmt := .fp32 };
      let c := { vcell .fp32 0 false with queues := Vector.replicate 13 { es := [e] } }; let s := demo c;
      Ready .v t0 s c k0 ∧ s.popAssigned k0 0 .v p.1 = true ∧ Poppable s k0 c 0 p.1 e ∧ RecordRoom c (s.popBytes k0 e) ∧ e.clk = 0 ∧
        (match popConvert c.core.qpopFmt[Fin.ofNat 32 p.1] e with | .ok r => r.vec == p.2 | .error _ => false) = true ∧
        s.pushAssigned k0 0 .v (p.1 + 1) = true ∧ isOk (s.pushRoom k0 0 (p.1 + 1) 272) = true ∧
        c.core.qpushFmt[Fin.ofNat 32 (p.1 + 1)].getLsbD 4 = false ∧ s.pushAssigned k0 0 .v 0 = false ∧ s.popAssigned k0 0 .v 1 = false) ∧
      (∀ b ∈ [false, true], let c := cellOf fun c => { c with bankMap := if b then BitVec.ofNat 128 (2 ^ 127) else 0, vregs := Vector.replicate 32 { fmt := .fp32 } };
        Ready .v t0 (demo c) c k0 ∧ c.coveredBanks.getLsbD 127 = false ∧ c.core.bankMap.getLsbD 127 = b ∧ c.accBad = [] ∧
          mget c.undoImgs 127 = none ∧ c.core.vregs[(1 : Fin 32)].fmt = .fp32) := by
  simp only [ready_iff, poppable_iff, RecordRoom]; decide +kernel

/-- VectorControl: k1 and k2 as in Sampling, on vector registers; a free slot, one bound to k1, one written. -/
theorem witness_VectorControl :
    ∀ p ∈ [(false, false), (true, false), (true, true)],
      let c := cellOf fun c => { c with clks := clocked.core.clks, delays := c.delays.set 63 { cb := 1, bnd := p.1, wrote := p.2 }, vregs := (c.vregs.set 1 { tag := 1 }).set 2 { tag := 2 } };
      Ready .v t0 (demo c) c k0 ∧ c.core.vregs[(1 : Fin 32)].bad = 0 ∧ clkOn c.core 1 = true ∧ isAncestor c.core 0 16 1 = true ∧
        chainBad c.core 0 16 1 = false ∧ clkBad c.core 0 = false ∧ clkBad c.core 1 = false ∧ clkBad c.core 2 = false ∧
        clkDef c.core 3 = false ∧ clkDef c.core 2 = true ∧ c.core.clks[(1 : Fin 16)].parent = 0 ∧ c.core.clks[(2 : Fin 16)].parent = 0 ∧
        c.core.clks[(1 : Fin 16)].pol = !c.core.clks[(2 : Fin 16)].pol ∧ c.core.clks[(1 : Fin 16)].val = !c.core.clks[(2 : Fin 16)].val ∧
        clkOn c.core 0 = true ∧ c.core.delays[(63 : Fin 64)].fmt ≠ .int64 ∧ c.core.delays[(63 : Fin 64)].wrote = p.2 ∧
        c.core.delays[(63 : Fin 64)].bnd = p.1 ∧ c.core.delays[(63 : Fin 64)].cb = 1 ∧ c.core.delays[(63 : Fin 64)].bad = 0 ∧ c.core.delays[(63 : Fin 64)].tagBad = false := by
  simp only [ready_iff]; decide +kernel

/-- VectorControl: masks of none and of all lanes, counts 0, 1 and 2, and branches to both ends of the text. -/
theorem witness_VectorControl_masks :
    ∀ n ∈ [0, 1, 2], let c := cellOf fun c => { c with masks := c.masks.set 7 { bits := BitVec.ofNat 64 (n * 0x7FFFFFFFFFFFFFFF) }, vrb := ⟨0, 31, 31, BitVec.ofNat 32 n⟩ };
      Ready .v t0 (demo c) c k0 ∧ c.core.masks[(7 : Fin 8)].bad = 0 ∧ decide (c.core.masks[(7 : Fin 8)].bits = 0) = decide (n = 0) ∧
        (demo c).pushAssigned k0 0 .v 5 = true ∧ (demo c).pushRoom k0 0 5 16 = .ok () ∧
        (demo c).target k0 (c.core.pc.v + (3 : BitVec 14).toInt) = .ok 3 ∧ (demo c).target k0 (c.core.pc.v + (0 : BitVec 15).toInt) = .ok 0 ∧
        decide (1 < c.core.vrb.count) = decide (n = 2) := by
  simp only [ready_iff, ok_eq]; decide +kernel

/-- A descriptor: operation, flags, bank, k-steps, batch, with BF16 operands. -/
def desc (op flags bank k batch : Nat) : BitVec 256 :=
  BitVec.ofNat 256 (op + 10 * 2 ^ 6 + 10 * 2 ^ 10 + flags * 2 ^ 16 + bank * 2 ^ 64 + k * 2 ^ 80 + batch * 2 ^ 96)

/-- A cell with a descriptor in t63 that owns every bank, with its batches in a state. -/
def mcell (d : BitVec 256) (b : BatchSt) : Cell :=
  { cellOf fun c => { c with tmpls := c.tmpls.set 63 { bits := d }, bankMap := BitVec.allOnes 128 } with
    batches := Vector.replicate 16 { st := b } }

/-- Matrix: operations 0, 9 and 10 with an Idle and a Draining batch, and an operation that is none. -/
theorem witness_Matrix :
    (∀ op ∈ [0, 9, 10], let d := desc op 0 0 0 15; let c := mcell d .idle;
      Ready .m t0 (demo c) c k0 ∧ c.core.tmpls[(63 : Fin 64)].bad = 0 ∧ patch c.core.tmpls[(63 : Fin 64)].bits 0 0 = d ∧
        commandOk d = true ∧ dOp d = op ∧ (c.closeBatch (batchOf d)).batches[batchOf d].st = .idle) ∧
      (let d := desc 10 0 0 0 15; let c := mcell d .draining;
        Ready .m t0 (demo c) c k0 ∧ (c.closeBatch (batchOf d)).batches[batchOf d].st ≠ .idle) ∧
      (let d := desc 11 0 0 0 0; let c := mcell d .idle; mWaits (demo c) c k0 d = .ok () ∧ isPaired d = false ∧ commandOk d = false) ∧
      (let d := desc 0 0 0 0 0; let c := cellOf fun c => { c with tmpls := c.tmpls.set 63 { bits := d, bad := 128 } };
        Ready .m t0 (demo c) c k0 ∧ mWaits (demo c) c k0 d = .ok () ∧ c.core.tmpls[(63 : Fin 64)].bad ≠ 0) := by
  simp only [ready_iff, ok_unit]; decide +kernel

/-- Matrix: a clearing of banks 0 to 127, with the banks held and not held; a read of a poisoned bank; a product without the
licence and with it; a paired product in a group of depth 2 and 1. -/
theorem witness_Matrix_commands :
    (let d := desc 3 0 127 1 15; let c := mcell d .idle;
      mWaits (demo c) c k0 d = .ok () ∧ commandOk d = true ∧ isPaired d = false ∧ isLicensed d = false ∧ c.holdsBanks d = true ∧
        c.bankPoison d = false ∧ (demo c).atPour k0 = true ∧ c.undoImgs = [] ∧ isOk ((demo c).command k0 0 c d) = true ∧ (cellOf id).holdsBanks d = false) ∧
      (let d := desc 5 0 0 1 0; let c := { mcell d .idle with accBad := [0] };
        mWaits (demo c) c k0 d = .ok () ∧ commandOk d = true ∧ c.holdsBanks d = true ∧ c.bankPoison d = true) ∧
      (let d := desc 1 0 0 1 0; let c := mcell d .idle; mWaits (demo c) c k0 d = .ok () ∧ commandOk d = true ∧ isPaired d = false ∧
        isLicensed d = true ∧ c.lic.held = false) ∧
      (let d := desc 2 0 0 1 0; let c := { mcell d .idle with lic := { held := true } }; let s := { demo c with clusters := [(0, { grant := 1 })] };
        mWaits s c k0 d = .ok () ∧ c.lic.held = true ∧ isLicensed d = true ∧ c.holdsBanks d = true ∧ c.bankPoison d = false ∧
          c.readable k0 false (mOperandA d) = .ok () ∧ c.readable k0 false (mOperandB d) = .ok ()) ∧
      (let d := desc 1 1 0 1 0; let c := mcell d .idle; mWaits (demo c) c k0 d = .ok () ∧ commandOk d = true ∧ isPaired d = true ∧
        c.pair = none ∧ ((demo c).groupOf k0).map Group.d = some 1 ∧ ((twinDemo c c).groupOf k0).map Group.d = some 2) := by
  simp only [ok_unit]; decide +kernel

/-- Matrix: a command that is over, one whose array is busy; a matching pair whose first side drives, one without a licence and
one that does not match. -/
theorem witness_Matrix_events :
    (let k : Cmd := { id := 1, task := 1, inst := 1, desc := desc 3 0 0 1 0, phase := false, licensed := false, lent := [], banks := 1, arrayBusy := false };
      let c := { cellOf id with cmds := [k], batches := Vector.replicate 16 { st := .draining } };
      (demo c).getCell 0 0 = some c ∧ c.cmds = k :: [] ∧ k.partner = none ∧ c.batches[batchOf k.desc].st = .draining ∧
        ({ k with arrayBusy := true } : Cmd).arrayBusy = true ∧ c.banks.Pairwise (fun p q => p.1 < q.1)) ∧
      (let d := desc 1 9 0 1 0; let d' := desc 1 1 0 1 0;
        let c := { mcell d .idle with pair := some ⟨t0, 1, d, 0⟩, lic := { held := true } }; let c' := { mcell d' .idle with pair := some ⟨t0, 1, d', 0⟩ };
        let s := { twinDemo c c' with clusters := [(0, { grant := 1 })] };
        s.sideOf 0 0 .m = some (c, k0) ∧ s.sideOf 0 (twinOf 0) .m = some (c', k0) ∧ pairMatches d d' = true ∧ pairMatches d d = false ∧
          c.lic.held = true ∧ c'.lic.held = false ∧ c'.lic.claim = false ∧ dFlag d 3 = true ∧
          c.holdsBanks d = true ∧ c.bankPoison d = false) := by decide +kernel

/-- Matrix: a pair whose holder has a wait of step 1, and one that may start. -/
theorem witness_Matrix_pair :
    ∀ b ∈ [BatchSt.idle, .draining], let d := desc 1 9 0 1 0; let d' := desc 1 1 0 1 0;
      let c := { mcell d b with pair := some ⟨t0, 1, d, 0⟩, lic := { held := true } }; let c' := { mcell d' .idle with pair := some ⟨t0, 1, d', 0⟩ };
      let s := { twinDemo c c' with clusters := [(0, { grant := 1 })] };
      s.pairWaits 0 0 c k0 ⟨t0, 1, d, 0⟩ c' k0 ⟨t0, 1, d', 0⟩ = decide (b = .draining) ∧ copyOk d = true ∧ copyOk d' = true ∧
        c.readable k0 c.core.phase (mOperandA d) = .ok () ∧ c'.readable k0 c'.core.phase (mOperandB d') = .ok () ∧ c.undoImgs = [] := by
  simp only [ok_unit]; decide +kernel

/-- A store line of one byte at address 64 in the write buffer of task 1. -/
def oneLine : TaskBuf := { task := 1, lines := [⟨1, 64, false, 0, 1, 9⟩] }

/-- TaskEvents: COMMIT of a task that has not ended, of one that has, of one with a poisoned line, and with a digest to check at the
first and the last position, over a host link that is up and one that is down. -/
theorem witness_TaskEvents :
    (let t := { k0 with ended := [0] }; let s := { demo { cellOf id with bufs := [oneLine] } with tasks := [(1, t)] };
      s.getTask 1 = some t ∧ (s.getInst 0 1).map Inst.st = some .running ∧ (demo (cellOf id)).taskEnded k0 = false ∧
        s.mayCommit 0 = true ∧ s.atPour t = true ∧ t.fault = none ∧ s.taskEnded t = true ∧ LinesOut s t ∧ s.digestAt 0 = none ∧
        ((s.getInst 0 1).map s.digestHeld) = some false ∧
        (match ({ s with poison := [1] } : State).publish t with | .error (.lines _ _ _ _) => true | _ => false) = true) ∧
      (∀ p ∈ [0, 1], ∀ m ∈ [false, true], ∀ up ∈ [0, 2], let t := { k0 with ended := [0] }; let i : Inst := { part := 0, ctx := 0, id := 1, handle := 1, st := .running, dmode := 2, mis := m };
        let s := { demo (cellOf id) with
          tasks := [(1, t)], insts := [i], regs := [(0x1C10, 2), (0x1C14, BitVec.ofNat 64 p)], ports := [(26, { st := up })] };
        s.getInst 0 1 = some i ∧ s.digestHeld i = decide (up = 0) ∧ s.taskEnded t = true ∧ s.digestAt 0 = some (32 * p) ∧
          readBytes s.mem (hostBase + 32 * p) 32 ≠ s.digestRecord t ∧ t.frontier = false ∧ t.direct = false ∧ LinesOut s t) := by
  simp only [linesOut_iff]; decide +kernel

/-- TaskEvents: a count at and past MAXINSTANT; a cell whose checker disagrees while its slot is Running and Halting, with no bound
function and with one, over a host link that is up and one that is down; a refetch of
one stage unit. -/
theorem witness_TaskEvents_cells :
    (∀ n ∈ [4096, 4097], let c := { cellOf id with watch := n }; let s := demo c;
      (s.goTo 0 0).here = some (c, k0) ∧ ((s.stageOf k0).map fun g => decide (g.maxInstant < c.watch)) = some (decide (n = 4097))) ∧
      (∀ h ∈ [SlotSt.running, .halting], ∀ b ∈ [([], 2), ([1], 0), ([1], 2)], let c := { cellOf id with safe := false };
        let s : State := { demo c with fnOn := b.1, blob := { bindings := [(1, 0)] }, ports := [(26, { st := b.2 })], parts := [(0, { cols := List.range 20, slots := Vector.replicate 34 { ctx := 0, st := h } })] };
        (s.goTo 0 0).here = some (c, k0) ∧ s.mayIssue 0 0 c k0 .v = true ∧ (s.partOfCtx 0).map Prod.fst = some 0 ∧
          ((s.partOfCtx 0).map fun p => (p.2.slots[0].ctx, p.2.slots[0].st)) = some (0, h) ∧ s.boundFns 0 = b.1 ∧ s.hostUp = decide (b.2 = 2)) ∧
      (let c := { cellOf fun c => { c with origins := [(0, .stage)] } with refetch := true, spadBad := [7] }; let s := demo c;
        s.moving 0 0 = some (c, k0) ∧ Memory.wf c.spad = true ∧
          (∀ w ∈ c.badWords (halfBase false false) 0x80000, mget c.core.origins (w / 8) ≠ none → mget c.core.origins (w / 8) = some .stage) ∧
          ∃ w ∈ c.badWords (halfBase false false) 0x80000, c.refetchable w = true) := by
  refine ⟨by decide +kernel, by decide +kernel, by decide +kernel⟩

/-- TaskEvents: a task that 2^20 visits left unplaced; a group whose preparation has passed; an instance that is and is not
due; a task that a visit places, with no bound function, with a full ring, and with one that has overrun. -/
theorem witness_TaskEvents_place :
    (let t := { k0 with group := none, stall := 2 ^ 20 }; let s := { demo (cellOf id) with tasks := [(1, t)] };
      (!t.launched && t.group.isNone && s.atPour t && t.stall = 2 ^ 20 && !t.stallSent) = true ∧ (s.partOfCtx 0).map Prod.fst = some 0) ∧
      (let g : Group := { id := 1, ctx := 0, inst := 1, stage := 0, ox := 0, oy := 0, oz := 0, w := 1, h := 1, d := 1 };
        let s := { demo { cellOf id with task := none } with groups := [(1, g)] };
        mget s.groups 1 = some g ∧ (s.tasks.map Prod.snd).find? (fun t => t.group = some 1) = some k0 ∧ (s.stageOf k0).isSome = true ∧
          g.st = .starting ∧ g.left = 0 ∧ (cellOf id).licensedCmds = []) ∧
      (∀ n ∈ [0, 1], let i : Inst := { part := 0, ctx := 0, id := 1, handle := 1, start := n }; let s := { demo (cellOf id) with insts := [i] };
        s.getInst 0 1 = some i ∧ (s.getKernel 0 1).isSome = true ∧ i.st = .queued ∧ ((s.partOfCtx 0).map fun p => p.2.running) = some (some 0) ∧
          ((s.partOfCtx 0).map fun p => p.2.writer) = some none ∧ decide (i.start ≤ s.tsnow) = decide (n = 0)) ∧
      (∀ b ∈ [([], 16), ([1], 16), ([1], 17)], let t := { k0 with group := none };
        let s := { demo (cellOf id) with
          tasks := [(1, t)], cells := [], groups := [], fnOn := b.1, blob := { bindings := [(1, 0)] }, ports := [(26, { st := 2 })]
          regs := [(65536 + 0x1008, 0x104), (65536 + 0x1010, BitVec.ofNat 64 b.2)] };
        s.boot = .ready ∧ s.nextPart = some 0 ∧ s.nextPart ≠ some 1 ∧ s.boundFns 0 = b.1 ∧ s.ringActive 1 0 = true ∧
          s.ringLag 1 0 = b.2 ∧ s.ringDepth 1 0 = 16 ∧ (∀ v, s.visit = some v → v.cycle < s.cycle) ∧
          ([1].flatMap fun i => (s.tasksOf 0 i).filter s.readyTask).filter s.atPour = [t] ∧ s.fitAt 0 t (s.cellHeld 0) = some (0, 0, 0)) := by
  decide +kernel

theorem due_iff {s : State} {part ctx n : Nat} {e : List Byte} : EntryDue s part ctx n e ↔
    s.visit = some ⟨part, s.cycle, false⟩ ∧ s.boot = .ready ∧ s.nextEntry part = some (n, e) ∧
      (mget s.parts part).bind Part.running = some ctx := by
  constructor
  · rintro ⟨⟨⟨p, y, r⟩, h, rfl, rfl, rfl⟩, b, c, d⟩
    exact ⟨h, b, c, d⟩
  · rintro ⟨h, b, c, d⟩
    exact ⟨⟨_, h, rfl, rfl, rfl⟩, b, c, d⟩

/-- An entry of operation `op` for the kernel or instance `h`, `bad` in a reserved byte. -/
def ringEntry (op h bad : Nat) : List Byte := leBytes (op + bad * 2 ^ 16 + h * 2 ^ 256) 64

/-- The small machine with that entry in ring 0 of function 1. -/
def ringDemo (e : List Byte) (s : State) : State :=
  { s with fnOn := [1], blob := { bindings := [(1, 0)] }, regs := [(65536 + 0x1008, 0x104), (65536 + 0x1010, 1)]
           ports := [(26, { st := 2 })], visit := some { part := 0, cycle := s.cycle }, mem := writeBytes [] hostBase e }

/-- RingEvents: each operation, an unknown one, an ill-formed entry, known and unknown kernels and instances. -/
theorem witness_RingEvents :
    (∀ p ∈ [(0, 0, 0), (255, 0, 0), (1, 0, 0), (1, 0, 1), (2, 1, 0), (2, 2, 0), (3, 1, 0), (3, 2, 0), (4, 1, 0), (5, 1, 0)],
      let e := ringEntry p.1 p.2.1 p.2.2;
      EntryDue (ringDemo e (demo (cellOf id))) 0 0 8 e ∧ entryOp e = p.1 ∧ entryOk e = decide (p.1 ≠ 255 ∧ p.2.2 = 0) ∧
        fieldAt e 8 8 % 64 = 0 ∧ fieldAt e 24 8 = 0 ∧ fieldAt e 36 4 = 0 ∧ fieldAt e 32 4 = p.2.1) ∧
      ((demo (cellOf id)).getKernel 0 1).isSome = true ∧ (demo (cellOf id)).getKernel 0 2 = none ∧
      ((demo (cellOf id)).instOfPart 0 1).map Inst.st = some .running ∧ (demo (cellOf id)).instOfPart 0 2 = none := by
  simp only [due_iff]; decide +kernel

/-- RingEvents: a retired instance, a kernel that none uses, a faulted instance of a restartable fault and one of others. -/
theorem witness_RingEvents_insts :
    (let i : Inst := { part := 0, ctx := 0, id := 1, handle := 1, st := .retired }; let s := { demo (cellOf id) with insts := [i] };
      s.instOfPart 0 1 = some i ∧ (∀ j ∈ s.insts, j.ctx = 0 → j.handle = 1 → j.st = .retired) ∧ s.pending = []) ∧
      ∀ f ∈ [FaultCode.trap, .align, .accHeldAtExit], let i : Inst := { part := 0, ctx := 0, id := 1, handle := 1, st := .faulted };
        let t := { k0 with fault := some { code := f, delivered := true } }; let s := { demo (cellOf id) with insts := [i], tasks := [(1, t)] };
        s.faultedTask i = some (t, { code := f, delivered := true }) ∧ i.st = .faulted ∧ i.ctx = 0 ∧ restartable f = decide (f = .trap) ∧ f ≠ .digestMismatch ∧
          s.instOfPart 0 1 = some i := by decide +kernel

/-- An image with one stage of one cell, whose text is one word, laid out as R84 to R88 say. -/
def imageHead : List Byte := leBytes 0xB1E70A11 4 ++ leBytes 0x0100 2 ++ leBytes 2 2 ++ leBytes 0 8 ++ leBytes 148 8
def imageTail : List Byte :=
  leBytes 0 8 ++ (leBytes 1 2 ++ leBytes 0 6 ++ leBytes 128 8 ++ leBytes 16 8 ++ leBytes 0 8) ++
    (leBytes 2 2 ++ leBytes 0 6 ++ leBytes 144 8 ++ leBytes 4 8 ++ leBytes 1 8) ++
    (leBytes 0x00010101 4 ++ leBytes 1 4 ++ leBytes 4096 4 ++ leBytes 0 4) ++ leBytes 0x00D80000 4
def image : List Byte := imageHead ++ sha256 (imageHead ++ List.replicate 32 0 ++ imageTail) ++ imageTail

/-- RingEvents: an argument read, over a host link that is up and one that is down; a load past the memory, one of zeros, and one of a good image. -/
theorem witness_RingEvents_pending :
    (let q : Pending := ⟨2, 0, 0, 1, 0, ringEntry 2 1 0⟩; ([q].find? (fun q => q.kind = 2 && q.part = 0)) = some q ∧
        ∀ up ∈ [0, 2], ({ demo (cellOf id) with pending := [q], ports := [(26, { st := up })] } : State).hostUp = decide (up = 2)) ∧
      (let e := leBytes (1 + 2 ^ 127) 64; (demo (cellOf id)).hbmCap < fieldAt e 8 8 + fieldAt e 16 8) ∧
      (let e := leBytes (1 + 148 * 2 ^ 128) 64; let s := demo (cellOf id);
        fieldAt e 8 8 + fieldAt e 16 8 ≤ s.hbmCap ∧ s.imagePoisoned 0 148 = false ∧
          s.loadStatus 0 { cols := List.range 20 } 0 (readBytes s.mem 0 148) 148 0 0 ≠ 0) := by decide +kernel

theorem witness_RingEvents_image :
    (demo (cellOf id)).loadStatus 0 ((mget (demo (cellOf id)).parts 0).getD { cols := [] }) 0
      (readBytes (writeBytes [] 0 image) 0 148) 148 0 0 = 0 := by decide +kernel


/-- The small machine with function 1 and function 384 bound to its partition, and some host registers. -/
def hostDemo (regs : AMap Word64) : State :=
  { demo (cellOf id) with fnOn := [1, 384], blob := { bindings := [(1, 0), (384, 0)] }, regs := regs }

/-- HostRegisters: the first and the last ring of the first and the last function, enabled and not; a completion read
pointer at and past the depth; an idle and a busy invalidation; bits of plain registers; the LOG2DEPTH values at their
bounds; functions that do not answer. -/
theorem witness_HostRegisters :
    (∀ fn ∈ [1, 384], ∀ ring ∈ [0, 7], ∀ b ∈ [false, true],
      let s := hostDemo [(65536 * fn + (0x1008 + 0x40 * ring), if b then 0x104 else 4)];
      Tables s ∧ s.fnPart fn = some 0 ∧ (s.reg fn (0x1008 + 0x40 * ring)).getLsbD 8 = b ∧ (∀ r ∈ s.heldRecs, r.1 ≠ fn) ∧ mget s.invBusy fn = none) ∧
      (∀ w ∈ [16, 17], let s := hostDemo [(65536 + 0x1410, BitVec.ofNat 64 w)];
        decide (((s.reg 1 0x1410).toNat + 2 ^ 32 - 0) % 2 ^ 32 ≤ 2 ^ ((s.reg 1 0x1408).toNat % 32)) = decide (w = 16)) ∧
      (∀ off ∈ [0x408, 0x1C08], (vfMask off).isSome = true ∧ (off < 0x1000 ∨ 0x1200 ≤ off)) ∧
      (∀ n ∈ [4, 16], 4 ≤ (BitVec.ofNat 64 n).toNat % 32 ∧ (BitVec.ofNat 64 n).toNat % 32 ≤ 16) ∧
      (0x10000 : Word64).getLsbD 16 = true ∧ (hostDemo []).fnPart 2 = none ∧ (hostDemo []).fnPart 0 = none := by
  simp only [tables_iff]; decide +kernel

/-- HostRegisters: no invalidation, one without a user, one whose access has performed; the physical function's registers;
REPAIR with a partition running, or stopped by its checker before and after its cells have stopped, of a member that is not there, of a last pair, and of one of twelve; REPAIR_DONE; the
numbers of functions at their bounds. -/
theorem witness_HostRegisters_device :
    (let b : InvBusy := ⟨0, [0], false⟩; let e : TlbEntry := ⟨0, 0, 0, 2 ^ 21, 0⟩;
      let s : State := { hostDemo [] with invBusy := [(1, b)], tlb := [e] };
      mget s.invBusy 1 = some b ∧ mget (hostDemo []).invBusy 1 = none ∧ (∀ t ∈ s.tlb, b.hits t = true →
        (∀ p ∈ s.cells, ∀ r ∈ p.2.openRefs, t.holds (p.1 / 1024) (p.1 % 1024) r.1 r.2 = false) ∧
          ∀ q ∈ s.reds, t.holds q.ctx q.cell q.r.va q.r.size = false) ∧
        b.hits e = true ∧ ∃ r ∈ ({ cellOf id with bufs := [oneLine] } : Cell).openRefs, e.holds 0 0 r.1 r.2 = true) ∧
      (∀ off ∈ [0x2000, 0x2AF8], (pfMask off).isSome = true) ∧
      (let s := hostDemo []; Tables s ∧ s.boot = .ready ∧ s.repairBusy = none ∧ ∃ q ∈ s.parts, q.2.slots[0].st = .running) ∧
      (∀ b ∈ [false, true], let s : State := { demo { cellOf id with safe := b } with parts := [(0, { cols := List.range 20, slots := Vector.replicate 34 { ctx := 0, st := .halted } })] };
        Tables s ∧ s.repairBusy = none ∧ s.allStopped 0 = b ∧ ∀ q ∈ s.parts, q.2.slots[0].st = .halted ∧ q.2.slots[0].ctx = 0) ∧
      (let s : State := { hostDemo [] with parts := [] }; Tables s ∧ (∀ q ∈ s.parts, q.2.slots[0].st ≠ .running ∧ q.2.slots[0].st ≠ .halting ∧
          (q.2.slots[0].st = .halted → s.allStopped q.2.slots[0].ctx = true)) ∧
        11 ∈ s.members 63 ∧ 12 ∉ s.members 63 ∧ 3 ≤ (s.members 63).length ∧ 12 < 16) ∧
      (let s : State := { hostDemo [] with parts := [], dropped := (List.range 10).map fun k => (k + 2, 0) };
        0 ∈ s.members 0 ∧ (s.members 0).length < 3) ∧
      ({ hostDemo [] with repairBusy := some (2, 0) } : State).repairBusy = some (2, 0) ∧ 384 ≤ 384 ∧ 384 < 385 := by
  simp only [tables_iff]; and_intros <;> decide +kernel

/-! Contexts: the small machine's partition with its slots and a command. -/

/-- A partition with every slot empty but slots 0, 1 and `k`. -/
def slotsPart (a b : SlotSt) (k : Nat) (c : SlotSt) (busy : Option CtxBusy) : Part :=
  { cols := List.range 20, busy := busy,
    slots := Vector.ofFn fun i => if i.val = 0 then ⟨a, 1⟩ else if i.val = 1 then ⟨b, 2⟩ else if i.val = k then ⟨c, 3⟩ else {} }

/-- The small machine with that partition and its contexts; register CTXID names context 5. -/
def ctxDemo (p : Part) : State :=
  { hostDemo [(65536 + 0x410, 5), (65536 + 0x420, 0x40000000)] with
    parts := [(0, p)], ctxs := [(1, { num := 1, save := 0x80000000 }), (2, { num := 2, save := 0xC0000000 }), (3, { num := 3, save := 0x100000000 })] }

/-- ContextCommands: SETUP in the first and last slot with room and a free number, without room, with a number taken, and
in slots that no context is made in. -/
theorem witness_ContextCommands :
    (let p := slotsPart .running .empty 2 .empty none; let s := ctxDemo p;
      Tables s ∧ s.fnPart 1 = some 0 ∧ mget s.parts 0 = some p ∧ p.busy = none ∧ s.outranked 0 1 p.go Act.ctxFn = false ∧
        s.outranked 0 384 (some (s.cycle, 1)) Act.ctxFn = true ∧ s.outranked 0 384 (some (s.cycle + 1, 1)) Act.ctxFn = false ∧
        (∀ k ∈ [2, 33], (p.slot k).st = .empty ∧ s.slotInCapsule 0 k = false) ∧
        s.saveFree (s.ctxOfRegs 1 0).save (saveSize p.cols.length) = true ∧ s.numberFree (s.ctxOfRegs 1 0).num = true ∧
        ({ s with hbmGiB := 1 } : State).saveFree (s.ctxOfRegs 1 0).save (saveSize p.cols.length) = false ∧
        ({ s with ctxs := [(5, { num := 5, save := 0x100000000 })] } : State).numberFree (s.ctxOfRegs 1 0).num = false ∧
        1 < 2 ∧ 33 < 34 ∧ (p.slot 0).st ≠ .empty) := by
  simp only [tables_iff]; decide +kernel

/-- ContextCommands: the slot states that FETCH, PARK, SWITCH, HALT, RESUME and END ask for. -/
theorem witness_ContextCommands_slots :
    (∀ a ∈ [SlotSt.running, .halted], ∀ b ∈ [SlotSt.empty, .shadow], ∀ c ∈ [SlotSt.empty, .parked, .ended],
      let p := slotsPart a b 2 c none; let s := ctxDemo p;
      Tables s ∧ s.fnPart 1 = some 0 ∧ mget s.parts 0 = some p ∧ p.busy = none ∧ s.outranked 0 1 p.go Act.ctxFn = false ∧ p.wedged = false ∧ (p.slot 0).st = a ∧ (p.slot 1).st = b ∧
        (p.slot 2).st = c ∧ OwesNothing s 1 ∧ s.slotInCapsule 0 0 = false ∧ s.slotInCapsule 0 1 = false ∧ s.slotInCapsule 0 2 = false) := by
  simp only [tables_iff, owes_iff]; decide +kernel

/-- ContextCommands: the commands in progress, of contexts that owe nothing; a time that has come and one that has not; a context that
has stopped and one that has not. -/
theorem witness_ContextCommands_events :
    (∀ op ∈ [2, 3, 4, 5], ∀ st ∈ [SlotSt.running, .halting], ∀ b ∈ [SlotSt.empty, .shadow],
      let y : CtxBusy := { op := op, slot := 33, fn := 1, at_ := 0, due := st = .halting };
      let p := slotsPart st b 33 (if op = 2 then .parked else .empty) (some y); let s := ctxDemo p;
      Tables s ∧ mget s.parts 0 = some p ∧ p.busy = some y ∧ 2 ≤ y.slot ∧ y.slot < 34 ∧ (op = 2 → mget s.ctxs (p.slot 33).ctx = some { num := 3, save := 0x100000000 }) ∧
        (b = .shadow → mget s.ctxs (p.slot 1).ctx = some { num := 2, save := 0xC0000000 }) ∧ (p.slot 0).st = st ∧ s.isDue y = decide (st = .running) ∧ y.due = decide (st = .halting) ∧
        p.wedged = false ∧ s.drained 1 = true ∧ OwesNothing s 1 ∧ OwesNothing s 2) ∧
      (let y : CtxBusy := { op := 4, slot := 0, fn := 1, at_ := 9 }; (ctxDemo (slotsPart .running .empty 2 .empty (some y))).isDue y = false) ∧
      (let s : State := { ctxDemo (slotsPart .halting .empty 2 .empty (some { op := 4, slot := 0, fn := 1, at_ := 0, due := true })) with
        cells := [(1024, { cellOf id with safe := false })], tasks := [(1, { k0 with ctx := 1 })] };
        s.drained 1 = false) := by
  simp only [tables_iff, owes_iff]; decide +kernel


/-! Capsules. -/

theorem readBytes_nil (a n : Nat) : readBytes [] a n = List.replicate n 0 := by
  induction n generalizing a with
  | zero => rfl
  | succ n ih => rw [readBytes, ih, List.replicate_succ]; rfl

theorem crc64_zeros (n : Nat) : crc64 (List.replicate n 0) = 0 := by
  have h : ∀ n, (List.replicate n (0 : Byte)).foldl crcByte 0 = 0 := by
    intro n
    induction n with
    | zero => rfl
    | succ n ih =>
      have z : crcByte 0 0 = 0 := by decide +kernel
      rw [List.replicate_succ, List.foldl_cons, z, ih]
  exact h n

theorem leNat_zeros (n : Nat) : leNat (List.replicate n 0) = 0 := by
  induction n with
  | zero => rfl
  | succ n ih => rw [List.replicate_succ, leNat, ih]; rfl

theorem readLe_nil (a n : Nat) : readLe [] a n = 0 := by rw [readLe, readBytes_nil, leNat_zeros]

theorem crcOk_nil (s : State) (h : s.mem = []) (a n : Nat) : s.crcOk a n = true := by
  rw [State.crcOk, h, readBytes_nil, readLe_nil, crc64_zeros]; rfl

theorem saveOk_nil (s : State) (h : s.mem = []) (q : s.poison = []) (x : Ctx) (p : Part) : s.saveOk x p = true := by
  have z : ∀ n, (List.replicate n (0 : Byte)).all (fun b => decide (b.toNat < 16)) = true := by simp
  have r : ∀ b, s.recordOk b = true := by
    intro b; simp only [State.recordOk, h, readLe_nil, readBytes_nil, crcOk_nil s h, z]; rfl
  simp [State.saveOk, q, r, crcOk_nil s h]

theorem saveOk_lost (s : State) (x : Ctx) (p : Part)
    (h : s.poison.any (fun q => x.save < 64 * q + 64 && 64 * q < x.save + saveSize p.cols.length) = true) : s.saveOk x p = false := by
  simp only [State.saveOk, h, Bool.not_true, Bool.false_and]

/-- ContextCommands: a save area that FETCH takes, all zeros, and one with a lost line. -/
theorem witness_ContextCommands_fetch :
    (let y : CtxBusy := { op := 2, slot := 33, fn := 1, at_ := 0 };
      let s : State := { ctxDemo (slotsPart .running .empty 33 .parked (some y)) with poison := [0x100000000 / 64] };
      s.saveOk { num := 3, save := 0x100000000 } (slotsPart .running .empty 33 .parked (some y)) = false) ∧
      ∀ s : State, s.mem = [] → s.poison = [] → ∀ x p, s.saveOk x p = true := by
  exact ⟨saveOk_lost _ _ _ (by decide +kernel), saveOk_nil⟩

/-- The small machine with contexts, a seal key for slot 2 and slot 3, and the counter 0 as given. -/
def capDemo (c : Counter) (busy : List CapBusy) : State :=
  { ctxDemo (slotsPart .running .empty 2 .parked none) with
    sealKeys := [(2, ⟨7, 0⟩), (3, ⟨7, 0⟩)], counters := [(0, c)], capBusy := busy, mem := [], ports := [(26, { st := 2 })]
    regs := [(65536 + 0x410, 5), (65536 + 0x420, 0x40000000), (65536 + 0x608, 0x200000000)] }

/-- Capsules: a partition without a command, a slot with a key and one without, a counter of the key and one of another, and a
context to seal. -/
theorem witness_Capsules :
    let o := beNat (sha256 (beBytes 7 32)); let s := capDemo ⟨1, o⟩ []; let p := slotsPart .running .empty 2 .parked none;
    Tables s ∧ s.fnPart 1 = some 0 ∧ mget s.parts 0 = some p ∧ (∀ b ∈ s.capBusy, b.part ≠ 0) ∧ mget s.sealKeys (64 * 0 + 2) = some ⟨7, 0⟩ ∧
      mget s.sealKeys (64 * 0 + 4) = none ∧ p.slotInCommand 2 = false ∧ s.outranked 0 1 p.capGo Act.capFn = false ∧
      s.outranked 0 384 (some (s.cycle, 1)) Act.capFn = true ∧ s.hostUp = true ∧ ({ s with ports := [] } : State).hostUp = false ∧ s.poison = [] ∧ s.wsBad = [] ∧
      s.peerOf (s.localPa (s.reg 1 0x608).toNat) = none ∧ s.peerOf (s.localPa ((s.reg 1 0x628).toNat + 8)) = none ∧ ({ p with busy := some { op := 2, slot := 2, fn := 1, at_ := 0 } } : Part).slotInCommand 2 = true ∧
      (∀ k ∈ [0, 1], ({ p with busy := some { op := 5, slot := 0, fn := 1, at_ := 0 } } : Part).slotInCommand k = decide (k = 0)) ∧ (s.counter 0).owner = o ∧ ((capDemo ⟨1, 5⟩ []).counter 0).owner ≠ o ∧
      (p.slot 2).st = .parked ∧ (p.slot 3).st ≠ .parked ∧ mget s.ctxs (p.slot 2).ctx = some { num := 3, save := 0x100000000 } ∧
      readLe s.mem (s.localPa (s.reg 1 0x628).toNat) 8 = 0 ∧ (s.counter 1).owner = 0 ∧ listEntries [] 0 = [] := by
  simp only [tables_iff]; decide +kernel

/-- Capsules, and every place without a lost line or word: no line of them is lost; a lost line at the first and at the last byte, a lost
word of a weight store. -/
theorem witness_clean : (∀ (s : State) (a n : Nat), s.poison = [] → s.wsBad = [] → s.Clean a n ∧ s.Whole a n) ∧
    (∀ l ∈ [0x200000000 / 64, (0x200000000 + 383) / 64], ¬ ({ capDemo ⟨1, 0⟩ [] with poison := [l] } : State).Whole 0x200000000 384) ∧
      ¬ ({ capDemo ⟨1, 0⟩ [] with wsBad := [0x200000000 / 8] } : State).Whole 0x200000000 384 := by
  have c : ∀ (s : State) (a n : Nat), s.poison = [] → s.Clean a n := fun s a n h l _ => by rw [h]; exact List.not_mem_nil
  refine ⟨fun s a n h w => ⟨c s a n h, c s a n h, fun x m => ?_⟩, fun l m h => h.1 l ?_ List.mem_cons_self, fun h => ?_⟩
  · rw [w] at m
    exact absurd m List.not_mem_nil
  · have q : ∀ l ∈ [0x200000000 / 64, (0x200000000 + 383) / 64], l ∈ unitsOf 0x200000000 384 := by decide +kernel
    exact q l m
  · have := h.2 (0x200000000 / 8) List.mem_cons_self
    omega

/-- Capsules: 384 bytes FF decrypt under no key. What does decrypt rests on the device's own key. -/
theorem witness_Capsules_keywrap :
    oaepDecrypt Config.trkModulus.toNat Config.trkExponent.toNat (List.replicate 384 0xFF) = none := by
  have h : Config.trkModulus.toNat ≤ beNat (List.replicate 384 0xFF) := by
    have := Config.trkModulus.isLt
    have e : beNat (List.replicate 384 0xFF) = 2 ^ 3072 - 1 := by decide +kernel
    omega
  unfold oaepDecrypt
  rw [if_pos (by simp only [h, decide_true, Bool.true_or])]

theorem length_shaBlock (h : List (BitVec 32)) (k : List Byte) (n : h.length = 8) : (shaBlock h k).length = 8 := by
  have r : ∀ (l h : List (BitVec 32)), h.length = 8 → (l.foldl shaRound h).length = 8 := by
    intro l
    induction l with
    | nil => exact fun _ h => h
    | cons p l ih =>
      intro h n
      refine ih _ ?_
      match h, n with
      | [_, _, _, _, _, _, _, _], _ => rfl
  rw [shaBlock, List.length_zipWith, n, r _ _ n]
  rfl

theorem length_beBytes (v n : Nat) : (beBytes v n).length = n := by
  have h : ∀ n v, (leBytes v n).length = n := by
    intro n
    induction n with
    | zero => exact fun _ => rfl
    | succ n ih => intro v; simp [leBytes, ih]
  simp [beBytes, h]

theorem length_leBytes (v n : Nat) : (leBytes v n).length = n := by
  have := length_beBytes v n
  simpa [beBytes] using this

theorem length_sha256 (m : List Byte) : (sha256 m).length = 32 := by
  have r : ∀ (n : Nat) (h : List (BitVec 32)) (bs : List Byte), h.length = 8 → (shaBlocks n h bs).length = 8 := by
    intro n
    induction n with
    | zero => exact fun h _ n => n
    | succ n ih =>
      intro h bs k
      rw [shaBlocks]
      split
      · exact k
      · exact ih _ _ (length_shaBlock _ _ k)
  have q : ∀ l : List (BitVec 32), (l.flatMap fun w => beBytes w.toNat 4).length = 4 * l.length := by
    intro l
    induction l with
    | nil => rfl
    | cons w l ih => simp only [List.flatMap_cons, List.length_append, length_beBytes, ih, List.length_cons]; omega
  rw [sha256, q, r _ _ _ rfl]

/-- A capsule of 20 columns, the counter 0 at 1, no page. -/
def capHead (d : List Byte) : List Byte :=
  (leBytes 0xCA950CE1 4 ++ leBytes 0x0100 2 ++ leBytes 0 2) ++ (d ++ (beBytes 0 32 ++ leBytes 0 2 ++ leBytes 0 6 ++ leBytes 1 8 ++
    leBytes (128 + 1006632960 + 16 * 15360) 8 ++ leBytes 20 4 ++ leBytes 0 4 ++ leBytes 0 16 ++ leBytes 0 8))

theorem capHead_before (d : List Byte) (k n : Nat) (h : k + n ≤ 8) :
    ((capHead d).drop k).take n = ((leBytes 0xCA950CE1 4 ++ leBytes 0x0100 2 ++ leBytes 0 2).drop k).take n := by
  rw [capHead, List.drop_append_of_le_length (by simp [length_leBytes]; omega),
    List.take_append_of_le_length (by simp [length_leBytes]; omega)]

theorem capHead_after (d : List Byte) (n : d.length = 32) (k : Nat) :
    (capHead d).drop (40 + k) = (capHead (List.replicate 32 0)).drop (40 + k) := by
  have e : ∀ a b c : List Byte, a.length = 8 → b.length = 32 → (a ++ (b ++ c)).drop (40 + k) = c.drop k := by
    intro a b c ha hb
    rw [List.drop_append, List.drop_append, List.drop_eq_nil_of_le (by omega), List.drop_eq_nil_of_le (by omega), ha, hb]
    simp only [List.nil_append]
    congr 1
    omega
  rw [capHead, capHead, e _ _ _ rfl n, e _ _ _ rfl (by simp)]

/-- The small machine with that capsule at ADDR and a key for slot 33. -/
def restoreOn (m : Memory) : State := { capDemo ⟨1, 0⟩ [] with mem := m, sealKeys := [(33, ⟨7, 0⟩)] }
def restoreDemo (d : List Byte) : State := restoreOn (writeBytes [] 0x200000000 (capHead d))

theorem capHead_read (d : List Byte) (n : d.length = 32) : readBytes (restoreDemo d).mem 0x200000000 128 = capHead d := by
  have l : (capHead d).length = 128 := by simp [capHead, n, length_leBytes, length_beBytes]
  have q := readBytes_writeBytes (m := []) rfl 0x200000000 (capHead d)
  rw [l] at q
  exact q

theorem capHead_header (d : List Byte) (n : d.length = 32) : headerOk (capHead d) 20 = true := by
  have b : ∀ k n, k + n ≤ 8 → fieldAt (capHead d) k n = fieldAt (capHead (List.replicate 32 0)) k n := fun k n q => by
    rw [fieldAt, fieldAt, capHead_before _ _ _ q, capHead_before _ _ _ q]
  have a : ∀ k n, fieldAt (capHead d) (40 + k) n = fieldAt (capHead (List.replicate 32 0)) (40 + k) n := fun k m => by
    rw [fieldAt, fieldAt, capHead_after _ n]
  rw [headerOk, b 0 4 (by omega), b 4 2 (by omega), b 6 2 (by omega), show (74 : Nat) = 40 + 34 from rfl,
    show (120 : Nat) = 40 + 80 from rfl, show (96 : Nat) = 40 + 56 from rfl, show (88 : Nat) = 40 + 48 from rfl,
    show (100 : Nat) = 40 + 60 from rfl]
  simp only [a]
  decide +kernel

theorem capHead_device (d : List Byte) (n : d.length = 32) : ((capHead d).drop 8).take 32 = d := by
  have e : ∀ x y z : List Byte, x.length = 8 → y.length = 32 → ((x ++ (y ++ z)).drop 8).take 32 = y := by
    intro x y z hx hy
    rw [List.drop_append_of_le_length (by omega), List.drop_eq_nil_of_le (by omega), List.nil_append,
      List.take_append_of_le_length (by omega), List.take_of_length_le (by omega)]
  exact e _ _ _ rfl n

theorem capHead_fields (d : List Byte) (n : d.length = 32) (k m : Nat) :
    fieldAt (capHead d) (40 + k) m = fieldAt (capHead (List.replicate 32 0)) (40 + k) m := by
  rw [fieldAt, fieldAt, capHead_after _ n]

theorem capHead_meas (d : List Byte) (n : d.length = 32) : beNat (((capHead d).drop 40).take 32) = 0 := by
  rw [show (capHead d).drop 40 = (capHead (List.replicate 32 0)).drop 40 from capHead_after _ n 0]
  decide +kernel

theorem capHead_counter (d : List Byte) (n : d.length = 32) : fieldAt (capHead d) 80 8 = 1 :=
  (capHead_fields d n 40 8).trans (by decide +kernel)

theorem capHead_cidx (d : List Byte) (n : d.length = 32) : fieldAt (capHead d) 72 2 = 0 :=
  (capHead_fields d n 32 2).trans (by decide +kernel)

/-- Capsules: a capsule of this device: the digest of the identity key has the 32 bytes that the lemmas on `capHead` ask
for; they say that the header is read back, accepted, of this device, of counter 0 at 1, and of measurement 0. -/
theorem witness_Capsules_restore : ∃ d, d = sha256 (beBytes Config.idkModulus.toNat 384) ∧ d.length = 32 :=
  ⟨_, rfl, length_sha256 _⟩

/-- Capsules: the slot, area, number, key and counter of that RESTORE, with a counter that it has passed and one that it has
not. -/
theorem witness_Capsules_restore_slot (m : Memory) :
    (restoreOn m).reg 1 0x608 = 0x200000000 ∧ (restoreOn m).saveFree ((restoreOn m).ctxOfRegs 1 0).save (saveSize 20) = true ∧
      (restoreOn m).numberFree ((restoreOn m).ctxOfRegs 1 0).num = true ∧
      mget (restoreOn m).sealKeys (64 * 0 + 33) = some ⟨7, ((restoreOn m).ctxOfRegs 1 0).meas⟩ ∧ (restoreOn m).reg 1 0x628 = 0 ∧
      ((restoreOn m).counter 0).val = 1 ∧ ((capDemo ⟨2, 0⟩ []).counter 0).val = 2 := by
  refine ⟨rfl, ?_, rfl, rfl, rfl, rfl, rfl⟩
  have e : (restoreOn m).ctxOfRegs 1 0 = (restoreOn []).ctxOfRegs 1 0 := rfl
  have f : ∀ b n, (restoreOn m).saveFree b n = (restoreOn []).saveFree b n := fun _ _ => rfl
  rw [e, f]
  decide +kernel

/-- Capsules: commands that wait for the store; its answers, whose tag is an HMAC of a small key, and one with another nonce. -/
theorem witness_Capsules_store :
    ∀ op ∈ [3, 6], let b : CapBusy := { op := op, fn := 1, part := 0, slot := 2, cidx := 0, addr := 0, aux := 0, store := true, nonce := 9 };
      let s : State := { capDemo ⟨1, 0⟩ [b] with storeWrites := 5, storeKey := 7 };
      let r : StoreAnswer := ⟨9, 6, beBytes 0x0394adf6aa4146494c11aa65d06a17a5398299f3d26f92a32c53f1cee6593093 32⟩;
      Tables s ∧ (mget s.parts 0).isSome = true ∧ s.capBusy.find? (fun b => b.part = 0 && b.store) = some b ∧
        mget s.sealKeys (64 * 0 + b.slot) = some ⟨7, 0⟩ ∧ r.nonce = b.nonce ∧ r.count = s.storeWrites + 1 ∧
        r.tag = hmac256 (beBytes s.storeKey.toNat 32) (leBytes r.nonce 16 ++ leBytes r.count 8) ∧ 0 ≠ b.nonce := by
  simp only [tables_iff]; decide +kernel

/-- The SEAL of slot 2 whose counter has moved on. -/
def sealing : CapBusy := { op := 3, fn := 1, part := 0, slot := 2, cidx := 0, addr := 0x200000000, aux := 0, ctr := 2 }

/-- Capsules: a SEAL whose counter has moved on, with an empty page list. Of its area, `witness_clean` says that no line is lost. -/
theorem witness_Capsules_seal :
    let s := capDemo ⟨1, 0⟩ [sealing]; let p := slotsPart .running .empty 2 .parked none;
    s.capBusy.find? (fun b => b.part = 0 && b.op = 3 && !b.store) = some sealing ∧
      mget s.ctxs (p.slot sealing.slot).ctx = some { num := 3, save := 0x100000000 } ∧
      mget s.sealKeys (64 * 0 + sealing.slot) = some ⟨7, 0⟩ ∧ s.poison = [] ∧
      (listEntries sealing.text (sealing.text.length / 16)).map (s.pageEntry { num := 3, save := 0x100000000 } false) = ([] : List Page).map some ∧
      s.sealPages sealing { num := 3, save := 0x100000000 } = [] ∧ s.capLinked [sealing.addr] = true ∧ s.linesAsked 3 [] = true ∧ s.capAsks 3 = [] ∧
      s.capGot 3 .refused = false ∧ s.peerOf (s.localPa sealing.addr) = none ∧
      ({ s with asks := [{ ctx := 3, cell := 0, who := .capsule, va := 0, pa := peerBase + 2 ^ 40, n := 64, ans := some .refused }] } : State).capGot 3 .refused = true ∧
      s.linesAsked 3 [(peerBase + 2 ^ 40) / 64] = false ∧ ({ s with ports := [] } : State).capLinked [hostBase + 64] = false := by decide +kernel

/-- Capsules: the save area that is sealed, with its first line lost. -/
theorem witness_Capsules_lost (p : Part) (h : p.cols = List.range 20) :
    ¬ ({ capDemo ⟨1, 0⟩ [sealing] with poison := [0x100000000 / 64] } : State).Whole 0x100000000 (saveSize p.cols.length) := by
  intro c
  refine c.1 (0x100000000 / 64) ?_ List.mem_cons_self
  rw [h]
  simp [unitsOf, saveSize, mib]

/-- A capsule's header that gives it one byte after the header, and the memory that holds it with that byte. -/
def shortHead : List Byte := List.replicate 88 0 ++ leBytes 129 8 ++ List.replicate 32 0
def shortMem (b : Byte) : Memory := writeBytes [] 0x200000000 (shortHead ++ [b])

/-- The RESTORE of slot 33 whose copy runs. -/
def restoring (h : List Byte) : CapBusy :=
  { op := 4, fn := 1, part := 0, slot := 33, cidx := 0, addr := 0x200000000, aux := 0, target := some { num := 5 }, text := h }

/-- Capsules: a RESTORE whose body is empty, of a partition without columns. -/
theorem witness_Capsules_restored :
    let b := restoring (List.replicate 128 0);
    let s : State := { capDemo ⟨1, 0⟩ [b] with parts := [(0, { cols := [] })], sealKeys := [(33, ⟨7, 0⟩)] };
    let len := fieldAt b.text 88 8 - 128;
    s.capBusy.find? (fun b => b.part = 0 && b.op = 4) = some b ∧ b.slot < 34 ∧
      mget s.sealKeys (64 * 0 + b.slot) = some ⟨7, 0⟩ ∧ s.poison = [] ∧
      openBody (capKey ⟨7, 0⟩ b.text) b.text (chunkCount len) 0 (readBytes s.mem (s.localPa b.addr + 128) len) = some [] ∧
      fieldAt b.text 100 4 = 0 ∧ saveSize 0 = 0 ∧ 0 ≠ saveSize 1 ∧ s.capLinked [b.addr] = true ∧ s.peerOf (s.localPa b.addr + 128) = none ∧
      s.capAsks 5 = [] ∧ ((listEntries [] 1).filterMap (fun e => s.pageEntry { num := 5 } true e)).length ≠ 1 := by
  decide +kernel

/-- Capsules: a RESTORE, of the header `shortHead`, whose one chunk is a byte that is not its tag. -/
theorem witness_Capsules_unverified (k : List (List Byte)) : ∃ b, (restoring shortHead).text = shortHead ∧
    openBody k shortHead (chunkCount 1) 0 (readBytes (shortMem b) (0x200000000 + 128) 1) = none ∧
      readBytes (shortMem b) 0x200000000 128 = shortHead ∧ fieldAt shortHead 88 8 - 128 = 1 := by
  have m : ∀ n ∈ [1, 2], readBytes (shortMem (BitVec.ofNat 8 n)) (0x200000000 + 128) 1 = [BitVec.ofNat 8 n] ∧
      readBytes (shortMem (BitVec.ofNat 8 n)) 0x200000000 128 = shortHead := by decide +kernel
  have o : ∀ b : Byte, gcmTag k (chunkIv 0) shortHead [] ≠ [b] → openBody k shortHead (chunkCount 1) 0 [b] = none := by
    intro b h
    rw [show chunkCount 1 = 1 from rfl, openBody, if_neg (by simp), if_neg]
    exact fun e => h (eq_of_beq e)
  by_cases h : gcmTag k (chunkIv 0) shortHead [] = [1]
  · refine ⟨BitVec.ofNat 8 2, rfl, ?_, (m 2 (by simp)).2, by decide +kernel⟩
    rw [(m 2 (by simp)).1]
    exact o _ (by rw [h]; decide)
  · refine ⟨BitVec.ofNat 8 1, rfl, ?_, (m 1 (by simp)).2, by decide +kernel⟩
    rw [(m 1 (by simp)).1]
    exact o _ h


/-- LinkEvents: the first and the last port in each state, with seven failures and none. -/
theorem witness_LinkEvents :
    (∀ n ∈ [0, 23, 24, 26], ∀ st ∈ [0, 1, 2, 3, 4], ∀ f ∈ [0, 7], let p : Port := { st := st, fails := f };
      let s := ({ demo (cellOf id) with flows := [(8192, { unacked := [{ seq := 0, body := .refusal }] })] } : State).putPort n p;
      s.boot = .ready ∧ s.port n = p ∧ n < 27) ∧ 23 < 24 ∧ 24 ≤ 24 := by decide +kernel

/-- A flow of class 2 with bridge 1,024 that has received up to `x`, with an unacknowledged packet; a bridge port carries. -/
def flowDemo (x : Nat) (held : List Packet) : State :=
  { demo (cellOf id) with
    flows := [(17408, { unacked := [{ seq := 4, body := .refusal, tries := 63, lost := true }] })]
    inflows := [(17408, { expect := x, held := held })]
    ports := [(25, { st := 3 })] }

/-- LinkEvents: lanes at which the CXL port and a UALink port train and at which they do not. A lost packet at its last try with a path, one after
10 µs and one before; the next number, one 4,095 ahead and one further, one behind; a flow without a path. -/
theorem witness_LinkEvents_flows :
    (∀ n ∈ [2, 4, 8, 16], decide (n ∈ [4, 8, 16]) = decide (n ≠ 2)) ∧
      (∀ n ∈ [0, 1, 4, 5], decide (n ∈ [1, 2, 3, 4]) = decide (1 ≤ n ∧ n ≤ 4)) ∧
      (let p : Packet := { seq := 4, body := .refusal, tries := 63, lost := true }; let s := flowDemo 0 [];
      (mget s.flows 17408).map Flow.unacked = some [p] ∧ p.tries < 64 ∧ p.lost = true ∧ flowEnd 17408 = 1024 ∧ s.path 1024 = true ∧
        s.boot = .ready ∧ ({ s with ports := [] } : State).path 1024 = false) ∧
      (let s : State := { flowDemo 0 [] with cycle := 18000 }; 0 + 18000 ≤ s.cycle) ∧
      (∀ x ∈ [0, 2 ^ 32 - 1], ((flowDemo x []).inflow 17408).expect = x ∧ x < 2 ^ 32) ∧
      (let q : Packet := { seq := 4095, body := .refusal }; ((flowDemo 0 [q]).inflow 17408).held = [q] ∧ 4095 < 0 + 4096 ∧ q.seq ≠ 4094 ∧
        ¬4096 < 0 + 4096) ∧
      4 < 5 ∧ 5 < 4 + 2 ^ 31 ∧ ∀ k m, Payload.refusal ≠ .ack k m := by
  refine ⟨?_, ?_, ?_, ?_, ?_, ?_, ?_, ?_, fun _ _ => by simp⟩ <;> decide +kernel

/-- A device of a domain of two, whose entry 15 opens its first 2 MiB, for writes with `w`; port 23 leads to device 1. -/
def peerDemo (w : Bool) : State :=
  { demo (cellOf id) with
    blob := { domain := [0, 1] }, regs := [(0x2908, 1), (0x2AF0, if w then 3 else 1)]
    ports := [(23, { st := 2, peer := 1 }), (26, { st := 2 })] }

/-- LinkEvents: a request of 64 bytes at the start and of one at the end of an entry's range; one past it; a write that an
entry does not allow; a request of a device outside the domain; a sound line and a lost one; the first and the last window byte. -/
theorem witness_LinkEvents_peers :
    (let s := peerDemo true; s.boot = .ready ∧ Memory.wf s.mem = true ∧ s.path 1 = true ∧ s.poison = [] ∧
      s.peerMay 1 0 true = true ∧ s.peerMay 1 0x1FFFFF true = true ∧ s.peerMay 1 0x200000 true = false ∧ s.peerMay 2 0 true = false ∧
      (peerDemo false).peerMay 1 0 true = false ∧ (peerDemo false).peerMay 1 0 false = true ∧
      (∀ r ∈ [PeerOp.read 64, .write (List.replicate 64 1), .line 1 0, .check], 0 < peerSize r ∧ 0 % 64 + peerSize r ≤ 64) ∧
      0x1FFFFF % 64 + peerSize (.write [9]) ≤ 64 ∧ [(9 : Byte)].length < 64 ∧
      (∀ w ∈ [false, true], 0x1FFFF8 % 64 + peerSize (.atomic none w 1 0) ≤ 64 ∧ (amoWrite none 64 0 1 0).isSome = true ∧ (amoWrite none 32 0 1 0).isSome = true) ∧
      (let s : State := { s with poison := [0] }; s.peerMay 1 0 true = true ∧ 8 / 64 ∈ s.poison ∧ Memory.wf s.mem = true) ∧
      (s.port 26).carries = true ∧
      s.windowPa 0 64 = some 0 ∧ s.windowPa (2 ^ 30 - 1) 1 = some (2 ^ 30 - 1) ∧ s.windowPa (2 ^ 30) 1 = none) := by decide +kernel

/-- A request of a word to device 1. -/
def askOne (w : Asker) (d : Bool) : Ask := { ctx := 0, cell := 0, who := w, va := 0, pa := peerBase + 2 ^ 40, n := 8, dead := d }

/-- An access to a word of device 1. -/
def rPeer : MemRef := ⟨0, peerBase + 2 ^ 40, 8, 3, false, false⟩

/-- The oldest open request of cell 0 with a number. -/
def isAsk (n : Nat) (a : Ask) : Bool := a.ctx = 0 && a.cell = 0 && a.isOpen && a.who.number = n

/-- LinkEvents: the request of a load in motion, with a word that waits for it and one that is gone; of an atomic at its slot, of a copy, of
a reduction, of `bksel` and of a refetch, of a published line; no request. -/
theorem witness_LinkEvents_refused :
    (∀ d ∈ [false, true], let a := askOne (.word 5) d; let f : Fly := { loadFly with op := .load rPeer [] .d };
      let c : Cell := { cellOf id with fly := [f] }; let s : State := { demo c with asks := [a] };
      s.asks.find? (isAsk 5) = some a ∧ s.asks.find? (isAsk 6) = none ∧ a.dead = d ∧
        ({ s with asks := s.asks.erase a } : State).flyOf 0 0 5 = some (c, k0, f) ∧ f.op.ref = some rPeer) ∧
      (let op : ScAtomic := ⟨rPeer, none, 0, 0, amoX, .none, 0⟩; let a := askOne (.word 0) false;
        let c : Cell := { cellOf id with scWait := some ⟨t0, 1, some op, none⟩ }; let s : State := { demo c with asks := [a] };
        s.asks.find? (isAsk 0) = some a ∧ s.flyOf 0 0 0 = none ∧ (s.goTo 0 0).here = some (c, k0) ∧
          c.scWait.bind ScWait.op = some op ∧ c.nextFly = 0) ∧
      (let a := askOne (.word 7) false; let c : Cell := { cellOf id with copies := [⟨7, 9, .spad 0, .virt 0, 64, 0, 3, 1, false, 0⟩] };
        let s : State := { demo c with asks := [a] };
        s.asks.find? (isAsk 7) = some a ∧ s.flyOf 0 0 7 = none ∧ (s.goTo 0 0).here = some (c, k0) ∧ c.scWait = none ∧ c.movePc 7 = some 9) ∧
      (let a := askOne (.red 5) false; let q : Red := ⟨0, 0, 1, 5, 0, rPeer, .add, 7, amoX, none⟩; let s : State := { demo (cellOf id) with asks := [a], reds := [q] };
        s.asks.find? (isAsk 5) = some a ∧ s.reds.find? (fun r => r.ctx = 0 && r.cell = 0 && r.id = 5) = some q) ∧
      (∀ d ∈ [false, true], let c := { cellOf id with refetch := d }; let a := askOne .issue false; let s := { demo c with asks := [a] };
        s.asks.find? (isAsk (2 ^ 32)) = some a ∧ (s.goTo 0 0).here = some (c, k0) ∧ c.refetch = d) ∧
      (let a : Ask := { askOne (.line 3) false with inst := 1 }; let s := { demo (cellOf id) with asks := [a] };
        s.asks.find? (isAsk (2 ^ 33 + 3)) = some a ∧ (s.tasksOf 0 a.inst).find? s.atPour = some k0) := by
  refine ⟨?_, ?_, ?_, ?_, ?_, ?_⟩ <;> decide +kernel

/-- LinkEvents: a device without and with a path; a machine with nothing outstanding, and one with a request of a word. -/
theorem witness_LinkEvents_lost :
    (let s : State := { peerDemo true with ports := [(23, { st := 1, peer := 1 })] };
        s.boot = .ready ∧ 1 ∈ s.blob.domain ∧ 1 ≠ s.blob.device ∧ 1 ∉ s.peerDown ∧
        s.path 1 = false ∧ s.flows = [] ∧ s.asks = [] ∧
        (let a := askOne (.word 5) false; s.peerOf a.pa = some 1 ∧ a.ans = none ∧ ∀ l ∈ [a], (match l.who with | .line _ => false | _ => true) = true)) ∧
      (peerDemo true).path 1 = true ∧ (({ peerDemo true with ports := [(0, { st := 3, peer := 65535 })] } : State).path 1 = true) := by
  decide +kernel

/-- LinkEvents: an episode whose one participant has arrived; one of a context that is out; a complete one of one and of two cells, with
a checkpoint before and after the arrival; a cell that its group has left; a context that a filter works for, that runs and that does not. -/
theorem witness_LinkEvents_episodes :
    (let e : Episode := { ctx := 0, inst := 1, key := 0, bar := 31, scope := .dev, unit := 0, gen := 3, cells := [0] };
      let s := { demo (cellOf id) with episodes := [e] };
      s.episodes[0]? = some e ∧ s.collects e = true ∧ e.complete = false ∧ s.localArrived e = true ∧ e.scope ≠ .dom ∧
        (ctxDemo (slotsPart .running .shadow 2 .parked none)).collects { e with ctx := 2 } = false ∧
        (ctxDemo (slotsPart .running .shadow 2 .parked none)).collects { e with ctx := 1 } = true) ∧
      (∀ l ∈ [[0], [0, 320]], ∀ g ∈ [2, 3], let e : Episode := { ctx := 0, inst := 1, key := 0, bar := 31, scope := .dev, unit := 0, gen := 3, cells := l, complete := true };
        let k (g : Nat) := { (cellOf id).core with bars := (cellOf id).core.bars.set 31 { st := .arrived, gen := g, scope := .dev } };
        let c := { cellOf (fun _ => k 3) with ckpts := [(0, k g)] }; let s := { demo c with episodes := [e] };
        s.episodes[0]? = some e ∧ s.cellOf 0 1 0 = true ∧ s.cellOf 0 2 0 = false ∧ e.gen ≠ 0 ∧ 0 ∈ e.cells ∧ 0 ∉ e.released ∧ s.getCell 0 0 = some c ∧
          c.core.bars[(31 : Fin 32)] = { st := .arrived, gen := 3, scope := .dev } ∧
          decide (∃ m ∈ e.cells, m ≠ 0 ∧ m ∉ e.released) = decide (l = [0, 320]) ∧
          decide ((k g).bars[(31 : Fin 32)].gen < e.gen) = decide (g = 2)) ∧
      (let s := ctxDemo (slotsPart .running .empty 2 .empty none); (mget s.ctxs 1).isSome = true ∧ s.ctxRuns 1 = true ∧
        s.filters.find? (fun f => f.ctx = 1 && f.id = 0) = none) ∧
      (let s := ctxDemo (slotsPart .halted .empty 2 .empty none); (mget s.ctxs 1).isSome = true ∧ s.ctxRuns 1 = false) ∧
      (let s := peerDemo true; 1 ∈ s.blob.domain ∧ 1 ≠ s.blob.device) := by decide +kernel

/-- LinkEvents: an episode of a gang of two devices: at the device above, which sends its arrival; where both instances are here; at
the root, which has heard the other device, and which has not, and while a bridge's contribution is on its way. -/
theorem witness_LinkEvents_gang :
    let e : Episode := { ctx := 0, inst := 1, key := 5, bar := 31, scope := .dom, unit := 0, gen := 3, gang := 7, width := 2, cells := [0] };
    let i : Inst := { part := 0, ctx := 0, id := 1, handle := 1, st := .running, gangKey := 5, gangWidth := 2 };
    let d (b : Nat) (h : List Heard) : State := { demo (cellOf id) with
      ctxs := [(0, { num := 0, gang := 7 })], insts := [i], episodes := [e], heard := h, blob := { device := b, domain := [0, 1] }, ports := [(0, { st := 2, peer := 1 - b })] };
    (let s := d 1 []; s.episodes[0]? = some e ∧ s.collects e = true ∧ e.complete = false ∧ e.gen ≠ 0 ∧ s.localArrived e = true ∧ e.sent = false ∧
      0 ∈ s.blob.domain ∧ 0 < s.blob.device ∧
      (s.joinedHere e).length + (s.localRetired e).length + (s.knownFar e).length < e.width ∧ ∀ h ∈ s.heard, h.key = e.key → h.gang = e.gang → 0 ≤ h.dev) ∧
      (let s : State := { d 1 [] with insts := [i, { i with id := 2 }] };
        e.width ≤ (s.joinedHere e).length + (s.localRetired e).length + (s.knownFar e).length) ∧
      (let s := d 0 []; s.localArrived e = true ∧ s.farGangs e = [] ∧ s.gangArrived e = false) ∧
      (let s := d 0 [⟨5, 7, 31, 3, 1, 0⟩]; s.localArrived e = true ∧ (∀ h ∈ s.heard, h.key = e.key → h.gang = e.gang → s.blob.device ≤ h.dev) ∧
        s.farGangs e = [] ∧ s.gangArrived e = true ∧ s.bridging 7 = false ∧
        ({ s with asks := [askOne .router false] } : State).bridging 7 = true) := by
  decide +kernel

/-- BoardEvents: each boot state; an hour that is not over, and one that is. -/
theorem witness_BoardEvents :
    (∀ b ∈ [BootSt.off, .boot, .verify, .blob, .ready], ({ State.reset with boot := b } : State).boot = b) ∧
      State.reset.capBusy = [] ∧ (∀ b ∈ (capDemo ⟨1, 0⟩ [{ sealing with store := true }]).capBusy, b.op = 3 → b.store = true) ∧
      (let s : State := { State.reset with boot := .ready, lifeFrac := 1, cycle := 3600 * 1800000000 - 2 }; s.lifeFrac + (s.cycle - s.lastLife) < 3600 * 1800000000) ∧
      (∀ b ∈ [BootSt.blob, .ready], let s : State := { State.reset with boot := b, lifeFrac := 1, cycle := 3600 * 1800000000 - 1 }; s.boot = b ∧ 3600 * 1800000000 ≤ s.lifeFrac + (s.cycle - s.lastLife)) := by
  decide +kernel

/-- A blob at the bounds of its settings. -/
def blobDemo (plim : Nat) : BlobData :=
  { plim := plim, device := 1023, domain := 1024, disabled := [639], parts := [(0, [0], 1024), (1, [19], 262144)]
    bindings := [(1, 0), (384, 1)], bytes := [] }

/-- An RSA key of 3,072 bits, made for these tests, and its PSS signature of an empty message. -/
def testKey : Nat :=
  0xd125b6d5c79c2b433024d60a631a3ed012946e489dd064c7f672514b45907fc51018406ef2dbcd0fa3715239efd70a59 * 2 ^ 2688 +
  0xd70986534a1f6e8b55c450acf244d17c187fe4ae8df46b15e6d4ba5c8c2860fbd28f799c1a9890d1fa0976017472d60b * 2 ^ 2304 +
  0x915b252270142a66bc36e9d4baa3b8af5939fe64142382e8ea2d28308c15880b601f12d9e6147949e4a96fb3ae25a3fe * 2 ^ 1920 +
  0xac572215dc5cf829efa866177824d873f813dd3141f37cfa04126e446a2b0439ffcb53fbc1c809016e811aec73b7343e * 2 ^ 1536 +
  0x13fc140be54be945bf4f5192832b6ebe5da0c682c81b8a9e7c3b843531c5255b7fa7a8169673f1ba0561499cdd8c789a * 2 ^ 1152 +
  0x505e478aefd62d001a2c8209de4d42fdef90c7372afb78815de8e91cdff1319533ca7a66cf1018887caa2d5f4effe156 * 2 ^ 768 +
  0xc0a65b8cdd5c163364bd33c0675f1361f07bdb8bd7e0daf408e2d105326ef7bfcb680810680d9f413413b4c2cdc34474 * 2 ^ 384 +
  0x2bd4e5c198f140729e4fbb9a297b6b1ad604b0c6867c55d1ec743c4839cfbd5b706fa25e22131cfa29b168bc8aae117f * 2 ^ 0

def testSig : Nat :=
  0x6d49b8b5cef13904bac720bc31c19d7235a729e7e6f0d3b5fed2b5a49456640053ec328da8425852102f1a0229439048 * 2 ^ 2688 +
  0x8cb08830d627915eaedcdfa0916ce51a928f54f50244abb47926443d30cfc11f0e22ba83cf57caeadf0ffadfecef0a86 * 2 ^ 2304 +
  0x049b69918bac765aeb83a304b31601697affd39bf65f4efc703c49c9d08fc4258a205ee090be9472f8746fc7a16f6314 * 2 ^ 1920 +
  0x0f69244bce8363b39d77e8d5574165474350e75086c2e680e53fae848f705923e6480bf1273f2283972f8f07eaae13a6 * 2 ^ 1536 +
  0x13783dbfc33206cbcd5c57345ae5e4a507a572b3a989293944e02989d785ded12b109dba73e7d6592615dc5e8eedf7d5 * 2 ^ 1152 +
  0x567c162611e60d4c35d81eaea8a71589d1c9c9446bdb086cb0f00e582e8abbf53b9c3bd861c2add68dd6875805b821d6 * 2 ^ 768 +
  0x5a1786ffd94ef4a54e82235d72120104a978c542910951d76e56b7036ed482f0fd732de9cc4b5aed85d36398fa7d0364 * 2 ^ 384 +
  0x47e6969fcb18f2f7261d55406976c1862a558f5fbf7fc65f11176fc4aded67f40b739ceb2ed4d3ef3aa9daeb7b1cfdf0 * 2 ^ 0

/-- Its PSS signature of the settings of `blobDemo 3600`. -/
def blobSig : Nat :=
  0x54126df1058bfb93430290b0fdef1dc13583691aea330576d549320c39c883ea887541024886b78d648a17c666936591 * 2 ^ 2688 +
  0x66a757dd0bfe507c0228766201ae08070546bcf4d25f5818440631c08d88fa0c48e581fd2cea50b580abd71420968d54 * 2 ^ 2304 +
  0x35f5eaac275ec5f3f014ddd072cfbdb88945694158f7acb13e0d6021a3c2e6cfda19ccfb34d7d59d1649a8ce462d5d8b * 2 ^ 1920 +
  0xb1aa5a6177569bb968b4550507b56ce2f616d6e2ed00684ae15d1874786c8b511a933316948237622f48123cae2a4f47 * 2 ^ 1536 +
  0x91e826599a0082f3dc96341c33fbb608a8769671b34ecd300a10d605a07ddb588d0b24122992850a52f88306f65f59e2 * 2 ^ 1152 +
  0x5abdf46b08b3894505ab50536aca7d4fc42b0310a133855869875d4b89c1afeef79080f027988d9051bfd229f60c7f30 * 2 ^ 768 +
  0x75d16b082871bfeeb702d16880efe258a00d3eae33e6af492aac6ddcf01d064df4058ddb2c10c1f78da1044df225917e * 2 ^ 384 +
  0x99de52ea02a32311dd980270d16b99e771bbed7c87f3fe867410f288c6b5f5dd5e2840a3b94e1a5442ce7fd5275c66b2 * 2 ^ 0

def testSigned : Signature := ⟨beBytes testKey 384, beBytes testSig 384⟩
def blobSigned : Signature := ⟨beBytes testKey 384, beBytes blobSig 384⟩

/-- BoardEvents: an image without a byte and the settings of a blob whose signatures are valid under the ROM's key, other settings beside
that signature, and one that is too short. -/
theorem witness_BoardEvents_signed :
    let s : State := { State.reset with boot := .verify, romHash := 0xcf3a022e55614f1bcfc322ec9a4b43aca5bd72591010c9c197d24b8ad48499ee };
    s.firmware = [] ∧ testSigned.key.length = 384 ∧ testSigned.sig.length = 384 ∧
      sha256 testSigned.key = beBytes s.romHash.toNat 32 ∧ pssVerify (beNat testSigned.key) s.firmware testSigned.sig = true ∧
      s.romSigned (blobText (blobDemo 3600)) blobSigned = true ∧ s.romSigned (blobText (blobDemo 1200)) blobSigned = false ∧
      s.romSigned (blobText (blobDemo 3600)) ⟨[], []⟩ = false := by decide +kernel

/-- BoardEvents: blobs at both ends of PLIM, one past it, and one that changes an enabled binding. -/
theorem witness_BoardEvents_blob :
    blobFits (blobDemo 1200) = true ∧ blobFits (blobDemo 3600) = true ∧ blobFits (blobDemo 3601) = false ∧
      ({ State.reset with boot := .blob } : State).boot = .blob ∧
      (let s := hostDemo []; s.boot = .ready ∧ ∃ fn ∈ s.fnOn, mget s.blob.bindings fn ≠ blobBinding (blobDemo 3600) fn) ∧
      (let s := hostDemo []; ∃ c < 20, s.columnHalted c = false ∧ (s.partOfColumn c).map Prod.fst ≠ blobColumn (blobDemo 3600) c) ∧
      (let s : State := { State.reset with boot := .ready }; s.blobRefused (blobDemo 3600) = false) ∧
      (let s : State := { State.reset with boot := .blob, timeFound := some (1, 9), ports := [(23, { st := 2, peer := 1 })] };
        s.timeFound = some (1, 9) ∧ 1 < (blobDemo 3600).domain ∧ 1 ≠ (blobDemo 3600).device ∧ s.path 1 = true) ∧
      ((0, [0], 1024) ∈ [(0, [0], 1024), (1, [0, 1], 1024)] ∧ (∃ c ∈ [0], c ∈ [0, 1])) := by
  decide +kernel

/-- BoardEvents: temperatures at the thresholds; a level that may fall and one that may not; the arbiter's microsecond. -/
theorem witness_BoardEvents_heat :
    (∀ t ∈ [(94, 0), (95, 1), (104, 1), (105, 2), (114, 2), (115, 2)], heatLevel t.1 = t.2) ∧
      (∀ l ∈ [(1, 90), (2, 100)], let c : Cluster := { lvl := l.1, temp := l.2, coolCyc := 1800000 };
        let s : State := { hostDemo [] with clusters := [(39, c)] };
        s.cluster 39 = c ∧ s.boot ≠ .off ∧ 39 < 40 ∧ 0 < c.lvl ∧ 1800000 ≤ c.coolCyc ∧ c.temp ≤ (if c.lvl = 2 then 100 else 90) ∧ c.lvl ≤ 2) ∧
      ((hostDemo []).cluster 0).lvl = 0 ∧
      (let s : State := { hostDemo [] with cycle := 1799 }; s.boot = .ready ∧ s.cycle < s.lastGrant + 1800) ∧
      (∀ l ∈ [0, 1, 2], let s : State := { demo { cellOf id with lic := { claim := true } } with cycle := 1800, blob := { plim := 3600 }, clusters := [(0, { lvl := l })] };
        s.boot = .ready ∧ s.lastGrant + 1800 ≤ s.cycle ∧ (s.cluster 0).lvl = l ∧
          ((clusterCells 0).filter fun c => s.cellEnabled c && (s.arrayRuns c || s.arrayWants c)).length = 1) ∧
      1 ≤ arraySlots 3600 40 ∧ arraySlots 1799 40 = 0 := by decide +kernel

/-- BoardEvents: a device that follows a reference with a path and without; the lowest device that is left, itself, and one above; one that
is a reference, and one without, which reaches another device and which does not; a lower number and another; an error that is corrected and
one that poisons, each place at its bounds; the refresh window at its last cycle and before. -/
theorem witness_BoardEvents_time :
    (∀ n ∈ [1, 2], let s : State := { hostDemo [] with synced := true, timeRef := some 1, blob := { device := 3, domain := List.range 5 }, ports := [(23, { st := 2, peer := n })] };
      s.boot = .ready ∧ s.synced = true ∧ s.timeRef = some 1 ∧ 1 ≠ s.blob.device ∧ s.path 1 = decide (n = 1) ∧ 2 ≠ 1 ∧ s.path 2 = decide (n = 2) ∧
        (∀ m ∈ [2, 3, 4], m ∈ s.blob.domain) ∧ 2 < s.blob.device ∧ 3 = s.blob.device ∧ s.blob.device < 4 ∧ s.reachesDomain = true ∧ 0 < 1 ∧ 1 ≤ 1) ∧
      (let s := hostDemo []; s.synced = false ∧ s.timeRef = none ∧ s.reachesDomain = false) ∧
      (let s : State := { hostDemo [] with boot := .blob, ports := [(23, { st := 3, peer := 1 })] }; s.boot = .blob ∧ s.upLink = true) ∧
      (let s := hostDemo []; s.getCell 0 0 = some (cellOf id) ∧ 0x1FFFF < 0x20000 ∧ 0xFFFF < 0x10000 ∧ 64 * 0 < s.hbmCap ∧ 64 * (704 * 2 ^ 24 - 1) < s.hbmCap ∧ 0 ∉ s.poison) ∧
      (∀ w ∈ [(wsBase + 0x400000) / 8, (wsBase + 40 * 0x4000000) / 8 - 1], wsBase ≤ 8 * w ∧ 8 * w < wsBase + 40 * 0x4000000 ∧ (hostDemo []).steep (8 * w) = false) ∧
      RegFile.areg ≠ .window ∧
      ({ hostDemo [] with wrefLeft := 0 } : State).wrefLeft = 0 ∧ 0 < ({ hostDemo [] with wrefLeft := 1 } : State).wrefLeft ∧
      (hostDemo []).boot ≠ .off ∧ ({ hostDemo [] with boot := .off } : State).boot = .off ∧
      ∀ e, (hostDemo []).errNow = some e → e.cycle ≠ (hostDemo []).cycle := by decide +kernel


/-- The small machine with another task before its own one, which is then speculative. -/
def k1 : Task := { k0 with key := [1, 0] }
def specDemo (c : Cell) : State := { demo c with tasks := [(1, k1), (2, { k0 with id := 2, key := [0, 0], group := none })] }

/-- A floor cell and its twin, both before a `twset`. -/
def twsetDemo : State :=
  { twinDemo (cellXY 7 0 0) (cellXY 7 0 0) with kernels := [{ ctx := 0, handle := 1, stages := [{ num := 0, text := encode (.twset t0 7 (.r 1)) }] }] }

/-- StepEvent: one turn; two of one cycle in the wrong order, and two of two cycles; a load of a later task before a commit. -/
theorem witness_StepEvent_order :
    (let a : Act := .issue 0 320 .c; let b : Act := .issue 0 0 .c;
      twsetDemo.standsBefore 0 320 = some (.twset t0 7 (.r 1)) ∧ twsetDemo.comesFirst b a = true ∧ twsetDemo.comesFirst a b = false ∧
        twsetDemo.nextTurn [⟨1, 2, a⟩, ⟨0, 3, b⟩, ⟨1, 0, .idle⟩] = some (⟨1, 2, b⟩, [⟨0, 3, a⟩, ⟨1, 0, .idle⟩]) ∧
        twsetDemo.nextTurn [⟨1, 2, a⟩, ⟨1, 3, b⟩] = some (⟨1, 2, a⟩, [⟨1, 3, b⟩])) ∧
      (let s := specDemo (cellOf id); s.getTask 2 = some { k0 with id := 2, key := [0, 0], group := none } ∧ (s.goTo 0 0).here = some (cellOf id, k1) ∧
        keyLt [0, 0] k1.key = true) := by
  decide +kernel

/-- A cell with `x` in its first registers, an address past the text in s15, one call and a rotation of two. -/
def awayCell (x : Word64) : Cell := cellOf fun c =>
  { c with sregs := (c.sregs.set 1 { val := x }).set 15 { val := 77 }, aregs := c.aregs.set 1 { val := x }, callDepth := 1, vrb := { c.vrb with count := 2 } }

/-- BadTargets: a word after the text for each transfer that is taken, with the least and a greater count. -/
theorem witness_BadTargets_taken : ∀ n ∈ [0, 1, 2], let x := BitVec.ofNat 64 n; let c := awayCell x; let s := demo c;
    Ready .c t0 s c k0 ∧ Ready .a t0 s c k0 ∧ Ready .v t0 s c k0 ∧ srcVals .c c [.r 1] = [x] ∧ srcVals .a c [.r 1] = [x] ∧
      s.mirrorWait k0 0 c (some 15) = .ok () ∧ c.core.callDepth ≠ 0 ∧ isHead (s.textOf k0) 77 = false ∧ isHead (s.textOf k0) 100 = false ∧
      (c.core.vrb.stepDown.count == 0) = false ∧ (c.core.masks.toList.all fun m => m.bad == 0 && m.bits == 0) = true := by
  simp only [ready_iff, ok_unit]; decide +kernel

theorem witness_BadTargets_present : ∀ n ∈ [0, 1, 2], let c := awayCell (BitVec.ofNat 64 n); let s := demo c;
    Present .c s c k0 [.r 1] 0 none ∧ Present .a s c k0 [.r 1] 0 none ∧ Present .c s c k0 [.r 1] 0 (srcReg (.r 1)) ∧
      Present .a s c k0 [.r 1] 0 (srcReg (.r 1)) ∧ Present .c s c k0 [.r 15] 0 none := by
  simp only [present_iff]; decide +kernel

/-- StateRegisters: a cell of a partition, with a twin and with an error of its place. -/
theorem witness_StateRegisters_reads :
    let c := cellXY 7 0 0; let s := { twinDemo c c with phys := [(0, { errst := 0x35 })] };
    Ready .c t0 s c k0 ∧ Present .c s c k0 [.r 1] 0 none ∧ (s.partOfCtx 0).isSome = true ∧ s.getCell 0 (twinOf 0) = some c ∧
      mget s.phys 0 = some { errst := 0x35 } := by
  simp only [present_iff, clock_iff, ready_iff, reads_iff, ok_unit]; decide +kernel

/-- Barriers: an arrival of a gang whose task has published a line to a peer that has accepted it, and one that has not. -/
theorem witness_Barriers_peer :
    ∀ l ∈ [[], [askOne (.line 3) false]], let i : Inst := { part := 0, ctx := 0, id := 1, handle := 1, st := .running, gangKey := 5, gangWidth := 2 };
      let s := { demo (cellOf id) with insts := [i], ctxs := [(0, { num := 0, gang := 3 })], asks := l };
      Ready .c t0 s (cellOf id) k0 ∧ BarvReady s (cellOf id) k0 .dom ∧ s.crossGroup k0 .dom (unitOf .dom 0) = true ∧ s.getInst 0 1 = some i ∧
        (match s.publishFirst k0 with | .ok u => u.putsOpen 0 == !l.isEmpty | .error _ => false) = true := by
  simp only [ready_iff, barv_iff]; decide +kernel

/-- StreamsCopies: a unit in a cell with a stream's word in motion and a page of memory. -/
def streamDemo (u : StreamUnit) (es : List QEntry) : State :=
  withPage (demo { queueCell es with streams := [u], fly := [{ id := 5, pc := 0, op := .stream, tok := t0 }] }) 0xF

/-- StreamsCopies: the element of a gather and of a scatter at the last index of the page; a scatter's end; an element of a loading and of a
storing pattern, scalar and vector, and their ends. -/
theorem witness_StreamsCopies_elements :
    (let u : StreamUnit := { id := 5, pc := 0, kind := .gth 0 8 3, q := 0, cls := 0, clk := 0, idx := some 8191 }; let s := streamDemo u [];
      s.mayMove 0 0 { queueCell [] with streams := [u], fly := [{ id := 5, pc := 0, op := .stream, tok := t0 }] } 5 0 (s.nextPlaces 0 0 u) = true ∧
        (BitVec.ofNat 64 0 + 8191 * BitVec.ofNat 64 8).toNat % 8 = 0 ∧
        isOk (((s.goTo 0 0).readVirtOver k0 0 (.word 5) [] 65528 8).bind fun p => p.1.pushRoom k0 0 0 16) = true) ∧
      (∀ d ∈ [false, true], let u : StreamUnit := { id := 5, pc := 0, kind := .sct 0 8 3, q := 6, cls := 0, clk := 0, idx := if d then none else some 8191, ended := d };
        let e : QEntry := { entryOn 0 with endm := d }; let s := streamDemo u [e]; let g := s.goTo 0 0;
        (s.moving 0 0).isSome = true ∧ s.mayMove 0 0 { queueCell [e] with streams := [u], fly := [{ id := 5, pc := 0, op := .stream, tok := t0 }] } 5 0 (s.nextPlaces 0 0 u) = true ∧
          isOk (popConvert 0 e) = true ∧ isOk (g.moveOutAll k0 0 5 (some u) 0 (g.popBytes k0 e) [(65528, bytesFrom e.val 0 8)]) = true) ∧
      ∀ es ∈ [0, 4], ∀ st ∈ [false, true], ∀ oc ∈ [0, 1], let u : StreamUnit := { id := 5, pc := 0, kind := .pat 0 1 oc 0 0 es st, q := if st then 6 else 0, cls := 0, clk := 0 };
        let e : QEntry := { entryOn 0 with endm := oc == 0, vec := es == 4, fmt := if es = 4 then .raw else .int64 }; let n := if es = 4 then 256 else 2 ^ es;
        let s := streamDemo u (if st then [e] else []); let g := s.goTo 0 0;
        (s.moving 0 0).isSome = true ∧ s.mayMove 0 0 { queueCell (if st then [e] else []) with streams := [u], fly := [{ id := 5, pc := 0, op := .stream, tok := t0 }] } 5 0 (s.nextPlaces 0 0 u) = true ∧
          (BitVec.ofInt 64 0).toNat % Nat.min n 64 = 0 ∧ isOk (popConvert 0 e) = true ∧
          isOk ((g.readVirtOver k0 0 (.word 5) [] 0 n).bind fun p => p.1.pushRoom k0 0 0 (if es = 4 then 272 else 16)) = true ∧
          isOk (g.moveOutAll k0 0 5 (some u) 0 (g.popBytes k0 e) (linePieces 0 (bytesFrom e.val 0 n) 5)) = true := by
  refine ⟨?_, ?_, ?_⟩ <;> decide +kernel

/-- StreamsCopies: a unit of a copy from memory, of one to memory from both, and of a weight-store write from memory; bytes that move into
a buffer and directly. -/
theorem witness_StreamsCopies_memory :
    (∀ p ∈ [0, 64], let y : Copy := { id := 5, pc := 0, dst := .spad 0x80000, src := .virt 0, len := 100, pos := p, cls := 3, task := 1, phase := false, ord := 0 };
      let c := { cellOf id with copies := [y] }; let s := withPage (demo c) 0xF; let g := s.goTo 0 0; let n := Nat.min (64 - (0 + p) % 64) (100 - p);
      s.moving 0 0 = some (c, k0) ∧ s.mayMove 0 0 c 5 y.cls [] = true ∧ n = (if p = 0 then 64 else 36) ∧
        isOk ((g.readVirt k0 0 (.word 5) (BitVec.ofNat 64 (0 + p)) n).bind fun q => q.1.spadClaim 0 k0.inst k0.stage 0 k0.id (unitsOf (0x80000 + p) n)) = true) ∧
      (∀ e ∈ [CopyEnd.spad 0, .virt 0], let y : Copy := { id := 5, pc := 0, dst := .virt 4096, src := e, len := 100, pos := 0, cls := 3, task := 1, phase := false, ord := 0 };
        let c := { cellOf id with copies := [y] }; let s := withPage (demo c) 0xF; let g := s.goTo 0 0;
        s.moving 0 0 = some (c, k0) ∧ s.mayMove 0 0 c 5 y.cls [] = true ∧ c.badWords 0 64 = [] ∧ isOk (g.readVirt k0 0 (.word 5) 0 64) = true ∧
          isOk (g.moveOutAll k0 0 5 none 3 0 (linePieces 4096 (List.replicate 64 7) 2)) = true) ∧
      (let w : Wst := { id := 5, pc := 0, off := 0x400000, src := .virt 0, len := 128, pos := 64 };
        let c := { cellOf id with wsts := [w], fly := [{ id := 5, pc := 0, op := .wst, tok := t0 }] }; let s := withPage (demo c) 0xF;
        s.moving 0 0 = some (c, k0) ∧ (∀ f ∈ c.fly, f.op.unsettled = false) ∧ isOk ((s.goTo 0 0).readVirtOver k0 0 (.word 5) [] 64 64) = true) ∧
      ∀ d ∈ [false, true], let k := { k0 with direct := d }; let c := cellOf id; let s := withPage (demo c) 0xF; let bs : List Byte := List.replicate 64 7;
        Allowed (s.goTo 0 0) k 0 65472 bs.length 3 .write page0 (place0 65472 64 3) ∧ Allowed (s.goTo 0 0) k 0 65472 64 3 .read page0 (place0 65472 64 3) ∧
          65472 % 64 + bs.length ≤ 64 ∧ bs ≠ [] ∧ StreamUnit.overAt none 1023 = 0 ∧ (s.goTo 0 0).backing 0 65472 ≠ .host ∧
          RecordRoom c (0 + c.lineBytes k (storeLine (place0 65472 64 3) bs)) ∧ Sound (s.goTo 0 0) (place0 65472 64 3) ∧ s.linked 65472 = true ∧
          Memory.wf s.mem = true := by
  simp only [allowed_iff, sound_iff, RecordRoom]
  refine ⟨?_, ?_, ?_, ?_⟩ <;> decide +kernel

/-- VectorMemory: the first row of the output half for a speculative task, with room; the last one of the input half; a row of the output half
that an open batch holds. -/
theorem witness_VectorMemory_stores :
    (let c := vcell .fp32 0 false; let s := specDemo c;
      Ready .v t0 s c k1 ∧ s.specOf k1.id = true ∧ s.laterWriters 0 1 0 0 (s.getTask 1) (unitsOf 0x80000 256) = [] ∧
        c.bufRoom (72 * (c.unrecorded k1.id (unitsOf 0x80000 256)).length) = true ∧ inHalf c.core.phase true 0x80000 256 = true ∧
        isOk (s.spadClaim 0 1 0 0 1 (unitsOf 0x7FF00 256)) = true ∧ inHalf c.core.phase true 0x7FF00 256 = false) ∧
      (let c := { vcell .fp32 0 false with batches := Vector.replicate 16 { st := .gathering, members := [⟨1, 0, [⟨8192, 8196, false⟩]⟩] } };
        Ready .v t0 (demo c) c k0 ∧ isOk ((demo c).spadClaim 0 1 0 0 1 (unitsOf 0x80000 256)) = true ∧ inHalf c.core.phase true 0x80000 256 = true ∧
          c.lentOut true 0x80000 256 = true) := by
  simp only [ready_iff]; decide +kernel

/-- A descriptor with formats and two buffers. -/
def descOf (op fmt k a b : Nat) : BitVec 256 := BitVec.ofNat 256 (op + fmt * 2 ^ 6 + fmt * 2 ^ 10 + a * 2 ^ 32 + b * 2 ^ 48 + k * 2 ^ 80)

/-- Matrix: mscale, msave, mrest and mpeek of one bank, mxpose of bytes and of words of 16 bits, each in its halves. -/
theorem witness_Matrix_effects :
    (∀ op ∈ [4, 5, 6, 7, 8], ∀ f ∈ [8, 10], let d := descOf op f 1 (if op = 5 ∨ op = 7 then 8192 else 0) 8192; let c := { mcell d .idle with lic := { held := true } }; let s := { demo c with clusters := [(0, { grant := 1 })] };
      Ready .m t0 s c k0 ∧ commandOk d = true ∧ mWaits s c k0 d = .ok () ∧ isPaired d = false ∧ c.lic.held = true ∧ c.holdsBanks d = true ∧
        c.bankPoison d = false ∧ s.atPour k0 = true ∧ c.undoImgs = [] ∧ s.getTask k0.id = some k0 ∧ Memory.wf c.spad = true ∧ dKsteps d ≠ 0 ∧
        dOp d = op ∧ fmtWidth (fmtOf (dAfmt d)) ≠ 4) ∧
      (let d := descOf 4 10 1 0 0; (mcell d .idle).readable k0 false (scaleOperand d) = .ok ()) ∧
      (let d := descOf 6 10 1 0 0; (mcell d .idle).readable k0 false (bankBuffer d) = .ok ()) ∧
      (let d := descOf 5 10 1 8192 0; inHalf false true (64 * dAbuf d) (2048 * dKsteps d) = true ∧
        (demo (mcell d .idle)).laterWriters 0 1 0 0 (some k0) (unitsOf (64 * dAbuf d) (2048 * dKsteps d)) = []) ∧
      (let d := descOf 8 8 1 0 8192; let o := mDest d; (mcell d .idle).readable k0 false (mSource d) = .ok () ∧
        inHalf false true o.base (o.last - o.base) = true ∧
        (demo (mcell d .idle)).laterWriters 0 1 0 0 (some k0) (unitsOf o.base (o.last - o.base)) = []) := by
  simp only [ready_iff, ok_unit]
  refine ⟨?_, ?_, ?_, ?_, ?_⟩ <;> decide +kernel

/-- Matrix: pairs whose first copy R53 refuses, whose second copy it refuses, and without the licence. -/
theorem witness_Matrix_refused :
    ∀ p ∈ [(9 + 16, 1, false, true), (9, 1 + 16, true, false), (9, 1, true, true)], let d := desc 1 p.1 0 1 0; let d' := desc 1 p.2.1 0 1 0;
      let c := { mcell d .idle with pair := some ⟨t0, 1, d, 0⟩ }; let c' := { mcell d' .idle with pair := some ⟨t0, 1, d', 0⟩ }; let s := twinDemo c c';
      s.sideOf 0 0 .m = some (c, k0) ∧ s.sideOf 0 (twinOf 0) .m = some (c', k0) ∧ s.pairWaits 0 0 c k0 ⟨t0, 1, d, 0⟩ c' k0 ⟨t0, 1, d', 0⟩ = false ∧
        pairMatches d d' = true ∧ copyOk d = p.2.2.1 ∧ copyOk d' = p.2.2.2 ∧ c.lic.held = false ∧ c'.lic.held = false := by
  decide +kernel

/-- TaskEvents: a task that has ended, with a line of a peer that has not yet been checked. -/
theorem witness_TaskEvents_checks :
    let t := { k0 with ended := [0] };
    let s := { peerDemo true with cells := [(0, { cellOf id with bufs := [{ task := 1, lines := [⟨(peerBase + 2 ^ 40) / 64, 64, false, 0, 1, 9⟩] }] })], tasks := [(1, t)] };
    s.getTask 1 = some t ∧ s.mayCommit 0 = true ∧ s.atPour t = true ∧ t.fault = none ∧ s.taskEnded t = true ∧
      ((s.getInst 0 1).map s.digestHeld) = some false ∧ ((s.getInst 0 1).map Inst.st) = some .running ∧
      (match s.publish t with | .error .checks => true | _ => false) = true := by decide +kernel

/-- HostRegisters: an invalidation and a repair in progress. -/
theorem witness_HostRegisters_busy :
    let s : State := { hostDemo [] with invBusy := [(1, ⟨0, [0], false⟩)], repairBusy := some (2, 0) };
    Tables s ∧ s.fnPart 1 = some 0 ∧ mget s.invBusy 1 = some ⟨0, [0], false⟩ ∧ s.boot = .ready ∧ s.repairBusy = some (2, 0) := by
  simp only [tables_iff]; decide +kernel


/-! ## Words written out from the encoding tables of the spec -/

theorem test_decode_c1 : ([
    [0x08004A3E],
    [0x0400CA3E],
    [0x02014A3E],
    [0x0001CA3E],
    [0x10024A3E],
    [0x0802CA3E],
    [0x04034A3E],
    [0x0203CA3E],
    [0x00044A3E],
    [0x1004CA3E],
    [0x08054A3E],
    [0x0405CA3E],
    [0x02064A3E],
    [0x0006CA3E],
    [0x10084A3E],
    [0x0808CA3E],
    [0x04094A3E],
    [0x0209CA3E]] : List (List Word32)).map decode = [
    .add ⟨false, true, false, false⟩ (.reg 2) (.r 1) (.r 14),
    .sub ⟨false, false, true, false⟩ (.reg 2) (.r 1) (.r 14),
    .and ⟨false, false, false, true⟩ (.reg 2) (.r 1) (.r 14),
    .or ⟨false, false, false, false⟩ (.reg 2) (.r 1) (.r 14),
    .xor ⟨true, false, false, false⟩ (.reg 2) (.r 1) (.r 14),
    .andn ⟨false, true, false, false⟩ (.reg 2) (.r 1) (.r 14),
    .shl ⟨false, false, true, false⟩ (.reg 2) (.r 1) (.r 14),
    .shr ⟨false, false, false, true⟩ (.reg 2) (.r 1) (.r 14),
    .sar ⟨false, false, false, false⟩ (.reg 2) (.r 1) (.r 14),
    .rotl ⟨true, false, false, false⟩ (.reg 2) (.r 1) (.r 14),
    .min ⟨false, true, false, false⟩ (.reg 2) (.r 1) (.r 14),
    .minu ⟨false, false, true, false⟩ (.reg 2) (.r 1) (.r 14),
    .max ⟨false, false, false, true⟩ (.reg 2) (.r 1) (.r 14),
    .maxu ⟨false, false, false, false⟩ (.reg 2) (.r 1) (.r 14),
    .mul ⟨true, false, false, false⟩ (.reg 2) (.r 1) (.r 14),
    .mulhs ⟨false, true, false, false⟩ (.reg 2) (.r 1) (.r 14),
    .mulhu ⟨false, false, true, false⟩ (.reg 2) (.r 1) (.r 14),
    .div ⟨false, false, false, true⟩ (.reg 2) (.r 1) (.r 14)].map some := by
  decide +kernel

theorem test_decode_c2 : ([
    [0x000A4A3E],
    [0x100ACA3E],
    [0x080B4A3E],
    [0x040BCA20],
    [0x020C4A20],
    [0x000CCA20],
    [0x100D4A21],
    [0x080DCA21],
    [0x041183C9],
    [0x0224A2B4],
    [0x002CB4B4],
    [0x10386D60],
    [0x08388360],
    [0x0444B4B4],
    [0x0248F4B4],
    [0x0050F4B4],
    [0x105CB4B4],
    [0x08600060]] : List (List Word32)).map decode = [
    .divu ⟨false, false, false, false⟩ (.reg 2) (.r 1) (.r 14),
    .rem ⟨true, false, false, false⟩ (.reg 2) (.r 1) (.r 14),
    .remu ⟨false, true, false, false⟩ (.reg 2) (.r 1) (.r 14),
    .clz ⟨false, false, true, false⟩ (.reg 2) (.r 1),
    .ctz ⟨false, false, false, true⟩ (.reg 2) (.r 1),
    .popc ⟨false, false, false, false⟩ (.reg 2) (.r 1),
    .sext ⟨true, false, false, false⟩ (.reg 2) (.r 1) .w16,
    .zext ⟨false, true, false, false⟩ (.reg 2) (.r 1) .w16,
    .cmp ⟨false, false, true, false⟩ .ltu .drop (.r 14) (.b 9),
    .addi ⟨false, false, false, true⟩ (.reg 2) (.r 1) 0xB4,
    .li ⟨false, false, false, false⟩ (.reg 2) 0x34B4,
    .keep ⟨true, false, false, false⟩ 11 11,
    .take ⟨false, true, false, false⟩ 11,
    .br ⟨false, false, true, false⟩ 0x4B4B4,
    .bz ⟨false, false, false, true⟩ (.b 3) 0x34B4,
    .bnz ⟨false, false, false, false⟩ (.b 3) 0x34B4,
    .call ⟨true, false, false, false⟩ 0x4B4B4,
    .jr ⟨false, true, false, false⟩ (.b 3)].map some := by
  decide +kernel

theorem test_decode_c3 : ([
    [0x04608000],
    [0x0268F4B4],
    [0x0070E840],
    [0x107CB4B4],
    [0x088031F8],
    [0x0480B1F8],
    [0x028148C0],
    [0x00884A2C],
    [0x1088CA3E],
    [0x0889522C],
    [0x0494A348],
    [0x02980000],
    [0x00A04800],
    [0x10A08D9E],
    [0x08A14A21],
    [0x04A18060],
    [0x02A20000],
    [0x00A80238]] : List (List Word32)).map decode = [
    .ret ⟨false, false, true, false⟩ ,
    .loop ⟨false, false, false, true⟩ (.b 3) 0x34B4,
    .bksel ⟨false, false, false, false⟩ (.b 3) 161,
    .xbrk ⟨true, false, false, false⟩ 0x4B4B4,
    .clkon ⟨false, true, false, false⟩ 6 3 (.r 14),
    .clkoff ⟨false, false, true, false⟩ 6 3 (.r 14),
    .clkrd ⟨false, false, false, true⟩ (.reg 2) 3,
    .when_ ⟨false, false, false, false⟩ (.reg 2) (.r 1) 6,
    .merge ⟨true, false, false, false⟩ (.reg 2) (.r 1) (.r 14),
    .cur ⟨false, true, false, false⟩ (.reg 4) (.r 1) 6,
    .dly ⟨false, false, true, false⟩ (.reg 2) (.r 1) 41,
    .iend ⟨false, false, false, true⟩ ,
    .tsrd ⟨false, false, false, false⟩ (.reg 2),
    .lrpat ⟨true, false, false, false⟩ (.b 3) 12 (.r 14),
    .lrarm ⟨false, true, false, false⟩ (.reg 2) (.r 1) true,
    .lrdrop ⟨false, false, true, false⟩ (.b 3),
    .texit ⟨false, false, false, true⟩ ,
    .twset ⟨false, false, false, false⟩ 6 (.r 1)].map some := by
  decide +kernel

theorem test_decode_c4 : ([
    [0x10A8C818],
    [0x08A94BD8],
    [0x04B00000],
    [0x02B08000],
    [0x00B802AC],
    [0x10B882A0],
    [0x08B94AA0],
    [0x04C04A20],
    [0x02C08071],
    [0x00C85310],
    [0x10D04904],
    [0x08D0C504],
    [0x04D80000],
    [0x02D880B4],
    [0x00D90000],
    [0x24074A25, 0x00000018],
    [0x22252755, 0x01234567],
    [0x202D49AB, 0x048D159E]] : List (List Word32)).map decode = [
    .twget ⟨true, false, false, false⟩ (.reg 2) 6,
    .twxchg ⟨false, true, false, false⟩ (.reg 2) 6 (.r 14),
    .licacq ⟨false, false, true, false⟩ ,
    .licrel ⟨false, false, false, true⟩ ,
    .barv ⟨false, false, false, false⟩ 21 .clu,
    .bwait ⟨true, false, false, false⟩ 21,
    .bpoll ⟨false, true, false, false⟩ (.reg 2) 21,
    .bkal ⟨false, false, true, false⟩ (.reg 2) (.r 1),
    .bkfr ⟨false, false, false, true⟩ (.b 3) (.r 1),
    .tmpl ⟨false, false, false, false⟩ 41 (.r 1),
    .srd ⟨true, false, false, false⟩ (.reg 2) 260,
    .swr ⟨false, true, false, false⟩ 260 (.r 1),
    .nop ⟨false, false, true, false⟩ ,
    .trap ⟨false, false, false, true⟩ 0xB4,
    .brkp ⟨false, false, false, false⟩ ,
    .sel ⟨false, false, true, false⟩ (.reg 2) (.r 1) (.b 5) (.r 8),
    .addiExt ⟨false, false, false, true⟩ (.reg 4) (.r 3) 0x2468ACF55,
    .liExt ⟨false, false, false, false⟩ (.reg 5) 0x0123456789AB].map some := by
  decide +kernel

theorem test_decode_c5 : ([
    [0x30358200, 0x001ABCDE]] : List (List Word32)).map decode = [
    .lih ⟨true, false, false, false⟩ (.reg 6) (.b 1) 0x1ABCDE].map some := by
  decide +kernel

theorem test_decode_a1 : ([
    [0x50004A3E],
    [0x4800CA3E],
    [0x44014A3E],
    [0x4224A2B4],
    [0x402CB4B4],
    [0x50386D60],
    [0x48388360],
    [0x4444B4B4],
    [0x4248F4B4],
    [0x4050F4B4],
    [0x5068F4B4],
    [0x488283D6],
    [0x448947D6],
    [0x429113D6],
    [0x409913D6],
    [0x50A01236],
    [0x48BD8E3E],
    [0x44C58000]] : List (List Word32)).map decode = [
    .aadd ⟨true, false, false, false⟩ (.reg 2) (.r 1) (.r 14),
    .asub ⟨false, true, false, false⟩ (.reg 2) (.r 1) (.r 14),
    .ashl ⟨false, false, true, false⟩ (.reg 2) (.r 1) (.r 14),
    .aaddi ⟨false, false, false, true⟩ (.reg 2) (.r 1) 0xB4,
    .ali ⟨false, false, false, false⟩ (.reg 2) 0x34B4,
    .aKeep ⟨true, false, false, false⟩ 11 11,
    .aTake ⟨false, true, false, false⟩ 11,
    .abr ⟨false, false, true, false⟩ 0x4B4B4,
    .abz ⟨false, false, false, true⟩ (.b 3) 0x34B4,
    .abnz ⟨false, false, false, false⟩ (.b 3) 0x34B4,
    .aloop ⟨true, false, false, false⟩ (.b 3) 0x34B4,
    .ld ⟨false, true, false, false⟩ .hs .drop (.r 14) 11,
    .st ⟨false, false, true, false⟩ .w (.r 1) (.r 14) 11,
    .qld ⟨false, false, false, true⟩ .w 4 (.r 14) 11,
    .qst ⟨false, false, false, false⟩ .w 4 (.r 14) 11,
    .pat ⟨true, false, false, false⟩ 4 (.r 1) 11,
    .cpy ⟨false, true, false, false⟩ (.b 3) (.r 1) (.r 14) 11,
    .cpyw ⟨false, false, true, false⟩ 11].map some := by
  decide +kernel

theorem test_decode_a2 : ([
    [0x42C80E3E],
    [0x40D00060],
    [0x50DDA5A3],
    [0x48E00000],
    [0x45101220],
    [0x4318488C],
    [0x6801CA25, 0x40000018],
    [0x64252755, 0x41234567],
    [0x622D49AB, 0x448D159E],
    [0x6081CA32, 0x50000040],
    [0x70889232, 0x50000040],
    [0x68900A32, 0x50000040],
    [0x64998632, 0x50000040],
    [0x62A90A32, 0x40000003],
    [0x60B08632, 0x40000003],
    [0x70D00220, 0x50000040],
    [0x69034A25, 0x400004D5],
    [0x6504CA25, 0x4000C4D5]] : List (List Word32)).map decode = [
    .wst ⟨false, false, false, true⟩ (.b 3) (.r 1) (.r 14),
    .pref ⟨false, false, false, false⟩ (.b 3),
    .fcls ⟨true, false, false, false⟩ 0xB4B4 .clu,
    .fsc ⟨false, true, false, false⟩ ,
    .qpush ⟨false, false, true, false⟩ 4 (.r 1),
    .qpop ⟨false, false, false, true⟩ (.reg 2) 4 6,
    .amadd ⟨false, true, false, false⟩ (.reg 2) (.r 1) (.b 5) (.r 8),
    .aaddiExt ⟨false, false, true, false⟩ (.reg 4) (.r 3) 0x2468ACF55,
    .aliExt ⟨false, false, false, true⟩ (.reg 5) 0x0123456789AB,
    .ldExt ⟨false, false, false, false⟩ .d (.reg 2) (.r 1) 9 0x10000040,
    .stExt ⟨true, false, false, false⟩ .h (.b 4) (.r 1) 9 0x10000040,
    .qldExt ⟨false, true, false, false⟩ .b 2 (.r 1) 9 0x10000040,
    .qstExt ⟨false, false, true, false⟩ .d 1 (.r 1) 9 0x10000040,
    .gth ⟨false, false, false, true⟩ .w 2 (.r 1) 9 3,
    .sct ⟨false, false, false, false⟩ .h 1 (.r 1) 9 3,
    .prefExt ⟨true, false, false, false⟩ (.r 1) 0x10000040,
    .amo ⟨false, true, false, false⟩ .minu (.reg 2) (.r 1) (.b 5) ⟨.dev, false, true, false, true, 9⟩,
    .amoCas ⟨false, false, true, false⟩ (.reg 2) (.r 1) (.b 5) (.r 8) ⟨.dev, false, true, false, true, 9⟩].map some := by
  decide +kernel

theorem test_decode_a3 : ([
    [0x630A0225, 0x400004D5]] : List (List Word32)).map decode = [
    .ared ⟨false, false, false, true⟩ .minu (.r 1) (.b 5) ⟨.dev, false, true, false, true, 9⟩].map some := by
  decide +kernel

theorem test_decode_v1 : ([
    [0x80001FCC],
    [0x90009FCC],
    [0x88011FCC],
    [0x84019FCC],
    [0x82021FCC],
    [0x80029FC0],
    [0x90031FC0],
    [0x88081FCC],
    [0x84089FCC],
    [0x82091FCC],
    [0x80101FC0],
    [0x90109FC0],
    [0x88111FC0],
    [0x84119FC0],
    [0x82121FC0],
    [0x80192187],
    [0x90201FCC],
    [0x88209FCC]] : List (List Word32)).map decode = [
    .vadd ⟨false, false, false, false⟩ 7 30 12,
    .vsub ⟨true, false, false, false⟩ 7 30 12,
    .vmul ⟨false, true, false, false⟩ 7 30 12,
    .vmin ⟨false, false, true, false⟩ 7 30 12,
    .vmax ⟨false, false, false, true⟩ 7 30 12,
    .vabs ⟨false, false, false, false⟩ 7 30,
    .vneg ⟨true, false, false, false⟩ 7 30,
    .vfma ⟨false, true, false, false⟩ 7 30 12,
    .vfms ⟨false, false, true, false⟩ 7 30 12,
    .vfnma ⟨false, false, false, true⟩ 7 30 12,
    .vrcp ⟨false, false, false, false⟩ 7 30,
    .vrsq ⟨true, false, false, false⟩ 7 30,
    .vexp2 ⟨false, true, false, false⟩ 7 30,
    .vlog2 ⟨false, false, true, false⟩ 7 30,
    .vtanh ⟨false, false, false, true⟩ 7 30,
    .vcmp ⟨false, false, false, false⟩ .lt 2 12 7,
    .vand ⟨true, false, false, false⟩ 7 30 12,
    .vor ⟨false, true, false, false⟩ 7 30 12].map some := by
  decide +kernel

theorem test_decode_v2 : ([
    [0x84211FCC],
    [0x82219FC0],
    [0x80221FCC],
    [0x90229FCC],
    [0x88231FCC],
    [0x842D7987],
    [0x82301FCC],
    [0x80309FCC],
    [0x9038F980],
    [0x88401FC0],
    [0x8450F980],
    [0x8269C4B4],
    [0x8071C4B4],
    [0x90781C8C],
    [0x888013C0],
    [0x84881FC0],
    [0x829055C0],
    [0x8090D5C0]] : List (List Word32)).map decode = [
    .vxor ⟨false, false, true, false⟩ 7 30 12,
    .vnot ⟨false, false, false, true⟩ 7 30,
    .vshl ⟨false, false, false, false⟩ 7 30 12,
    .vshr ⟨true, false, false, false⟩ 7 30 12,
    .vsar ⟨false, true, false, false⟩ 7 30 12,
    .vsel ⟨false, false, true, false⟩ 5 30 12 7,
    .vshuf ⟨false, false, false, true⟩ 7 30 12,
    .vperm ⟨false, false, false, false⟩ 7 30 12,
    .vred ⟨true, false, false, false⟩ .max 30 12,
    .vscan ⟨false, true, false, false⟩ 7 30,
    .vsort ⟨false, false, true, false⟩ true 30 12,
    .vld ⟨false, false, false, true⟩ 7 0x4B4,
    .vst ⟨false, false, false, false⟩ 7 0x4B4,
    .vpop ⟨true, false, false, false⟩ 7 4 6,
    .vpush ⟨false, true, false, false⟩ 4 30,
    .vmov ⟨false, false, true, false⟩ 7 30,
    .mand ⟨false, false, false, true⟩ 5 2 7,
    .mor ⟨false, false, false, false⟩ 5 2 7].map some := by
  decide +kernel

theorem test_decode_v3 : ([
    [0x90915400],
    [0x88919100],
    [0x84925040],
    [0x8298010F],
    [0x80A034B4],
    [0x90A81C0B],
    [0x88B01FCC],
    [0x84B09FCC],
    [0x82B81E8E],
    [0x80C01E8E],
    [0x90CDB4B4],
    [0xA00027C4, 0x800000DD],
    [0xB000A7C4, 0x800000DD],
    [0xA80127C4, 0x800000DD],
    [0xA401A7C4, 0x800000DD],
    [0xA20227C4, 0x800000DD],
    [0xA002A7C0, 0x800000DD],
    [0xB00327C0, 0x800000DD]] : List (List Word32)).map decode = [
    .mnot ⟨true, false, false, false⟩ 5 2,
    .mpop ⟨false, true, false, false⟩ 4 2,
    .mset ⟨false, false, true, false⟩ 5 64,
    .vrb ⟨false, false, false, true⟩ 8 15,
    .vloop ⟨false, false, false, false⟩ 0x34B4,
    .vfmt ⟨true, false, false, false⟩ 7 .fp16,
    .vwhen ⟨false, true, false, false⟩ 7 30 6,
    .vmerge ⟨false, false, true, false⟩ 7 30 12,
    .vacc ⟨false, false, false, true⟩ 7 81 6,
    .vaccw ⟨false, false, false, false⟩ 7 81 6,
    .vbr ⟨true, false, false, false⟩ 5 true 0x34B4,
    .vaddExt ⟨false, false, false, false⟩ 9 30 4 ⟨5, true, true, .dn, true, 0, .raw⟩,
    .vsubExt ⟨true, false, false, false⟩ 9 30 4 ⟨5, true, true, .dn, true, 0, .raw⟩,
    .vmulExt ⟨false, true, false, false⟩ 9 30 4 ⟨5, true, true, .dn, true, 0, .raw⟩,
    .vminExt ⟨false, false, true, false⟩ 9 30 4 ⟨5, true, true, .dn, true, 0, .raw⟩,
    .vmaxExt ⟨false, false, false, true⟩ 9 30 4 ⟨5, true, true, .dn, true, 0, .raw⟩,
    .vabsExt ⟨false, false, false, false⟩ 9 30 ⟨5, true, true, .dn, true, 0, .raw⟩,
    .vnegExt ⟨true, false, false, false⟩ 9 30 ⟨5, true, true, .dn, true, 0, .raw⟩].map some := by
  decide +kernel

theorem test_decode_v4 : ([
    [0xA80827C4, 0x800000DD],
    [0xA408A7C4, 0x800000DD],
    [0xA20927C4, 0x800000DD],
    [0xA01027C0, 0x8000006D],
    [0xB010A7C0, 0x8000006D],
    [0xA81127C0, 0x8000006D],
    [0xA411A7C0, 0x8000006D],
    [0xA21227C0, 0x8000006D],
    [0xA02027C4, 0x8000001B],
    [0xB020A7C4, 0x8000001B],
    [0xA82127C4, 0x8000001B],
    [0xA42227C4, 0x8000001B],
    [0xA222A7C4, 0x8000001B],
    [0xA02327C4, 0x8000001B],
    [0xB021A7C0, 0x8000001B],
    [0xA83027C4, 0x8000001B],
    [0xA430A7C4, 0x8000001B],
    [0xA24027C0, 0x800000DD]] : List (List Word32)).map decode = [
    .vfmaExt ⟨false, true, false, false⟩ 9 30 4 ⟨5, true, true, .dn, true, 0, .raw⟩,
    .vfmsExt ⟨false, false, true, false⟩ 9 30 4 ⟨5, true, true, .dn, true, 0, .raw⟩,
    .vfnmaExt ⟨false, false, false, true⟩ 9 30 4 ⟨5, true, true, .dn, true, 0, .raw⟩,
    .vrcpExt ⟨false, false, false, false⟩ 9 30 ⟨5, true, false, .up, false, 0, .raw⟩,
    .vrsqExt ⟨true, false, false, false⟩ 9 30 ⟨5, true, false, .up, false, 0, .raw⟩,
    .vexp2Ext ⟨false, true, false, false⟩ 9 30 ⟨5, true, false, .up, false, 0, .raw⟩,
    .vlog2Ext ⟨false, false, true, false⟩ 9 30 ⟨5, true, false, .up, false, 0, .raw⟩,
    .vtanhExt ⟨false, false, false, true⟩ 9 30 ⟨5, true, false, .up, false, 0, .raw⟩,
    .vandExt ⟨false, false, false, false⟩ 9 30 4 ⟨3, true, true, .ne, false, 0, .raw⟩,
    .vorExt ⟨true, false, false, false⟩ 9 30 4 ⟨3, true, true, .ne, false, 0, .raw⟩,
    .vxorExt ⟨false, true, false, false⟩ 9 30 4 ⟨3, true, true, .ne, false, 0, .raw⟩,
    .vshlExt ⟨false, false, true, false⟩ 9 30 4 ⟨3, true, true, .ne, false, 0, .raw⟩,
    .vshrExt ⟨false, false, false, true⟩ 9 30 4 ⟨3, true, true, .ne, false, 0, .raw⟩,
    .vsarExt ⟨false, false, false, false⟩ 9 30 4 ⟨3, true, true, .ne, false, 0, .raw⟩,
    .vnotExt ⟨true, false, false, false⟩ 9 30 ⟨3, true, true, .ne, false, 0, .raw⟩,
    .vshufExt ⟨false, true, false, false⟩ 9 30 4 ⟨3, true, true, .ne, false, 0, .raw⟩,
    .vpermExt ⟨false, false, true, false⟩ 9 30 4 ⟨3, true, true, .ne, false, 0, .raw⟩,
    .vscanExt ⟨false, false, false, true⟩ 9 30 ⟨5, true, true, .dn, true, 0, .raw⟩].map some := by
  decide +kernel

theorem test_decode_v5 : ([
    [0xA08827C0, 0x8000001B],
    [0xB018E3C4, 0x8000001B],
    [0xA83127C0, 0x80002D0A],
    [0xA431A7C0, 0x80002D0A],
    [0xA23927C0, 0x800000DD],
    [0xA0482BC0, 0x80002D0A],
    [0xB050A7C0, 0x8000001B],
    [0xA85827C0, 0x800200BD],
    [0xA46027C4, 0x800200BD],
    [0xA260A7C0, 0x8002C12D],
    [0xA06127C0, 0x8002C32D],
    [0xB061A7C0, 0x8000C00D],
    [0xA888A480, 0x80002500],
    [0xA4890FC0, 0x80002500],
    [0xA2B127C0, 0x80002500]] : List (List Word32)).map decode = [
    .vmovExt ⟨false, false, false, false⟩ 9 30 ⟨3, true, true, .ne, false, 0, .raw⟩,
    .vcmpExt ⟨true, false, false, false⟩ .ne 6 30 4 ⟨3, true, true, .ne, false, 0, .raw⟩,
    .vrot ⟨false, true, false, false⟩ 9 30 ⟨2, true, false, .ne, false, 45, .raw⟩,
    .vbcast ⟨false, false, true, false⟩ 9 30 ⟨2, true, false, .ne, false, 45, .raw⟩,
    .vredExt ⟨false, false, false, true⟩ .min 9 30 ⟨5, true, true, .dn, true, 0, .raw⟩,
    .vtopk ⟨false, false, false, false⟩ 10 30 ⟨2, true, false, .ne, false, 45, .raw⟩,
    .vsortExt ⟨true, false, false, false⟩ true 9 30 ⟨3, true, true, .ne, false, 0, .raw⟩,
    .vcvt ⟨false, true, false, false⟩ 9 30 ⟨5, true, true, .tz, true, 0, .e4m3⟩,
    .vpack ⟨false, false, true, false⟩ 9 30 4 ⟨5, true, true, .tz, true, 0, .e4m3⟩,
    .vunpk ⟨false, false, false, true⟩ 9 30 ⟨5, true, false, .tz, false, 1, .fp16⟩,
    .vunpk4 ⟨false, false, false, false⟩ 9 30 ⟨5, true, false, .tz, false, 3, .fp16⟩,
    .vsat ⟨true, false, false, false⟩ 9 30 ⟨5, true, false, .ne, false, 0, .int8⟩,
    .vmovs ⟨false, true, false, false⟩ 9 4 37,
    .vext ⟨false, false, true, false⟩ 3 30 37,
    .vdly ⟨false, false, false, true⟩ 9 30 37].map some := by
  decide +kernel

theorem test_decode_m1 : ([
    [0xC94EB4B4],
    [0xE10ABEEF, 0xC0061234]] : List (List Word32)).map decode = [
    .mexec ⟨false, true, false, false⟩ 41 6 0xB4B4,
    .mexecExt ⟨false, false, false, false⟩ 33 2 0xBEEF 6 0x1234].map some := by
  decide +kernel



/-! ## Ill-formed terms

One term for each check of WellFormed, refused, beside one at the limit, accepted. -/

theorem test_ill_formed_c :
    [Instr.clkon t0 0 1 (.r 1), .clkoff t0 0 1 (.r 1), .cur t0 .drop (.r 1) 2, .lrpat t0 (.r 1) 13 (.r 1), .barv t0 0 .eng,
      .barv t0 0 .sys, .tmpl t0 0 (.r 1), .srd t0 .drop 0x005, .srd t0 .drop 0x106, .swr t0 0x000 (.r 1), .swr t0 0x12D (.r 1)].map wellFormed =
        List.replicate 11 false ∧
      [Instr.clkon t0 1 0 (.r 1), .clkoff t0 15 1 (.r 1), .cur t0 (.reg 0) (.r 1) 2, .lrpat t0 (.r 1) 12 (.r 1), .barv t0 31 .dom,
        .tmpl t0 1 (.r 1), .srd t0 .drop 0x13F, .swr t0 0x010 (.r 1), .swr t0 0x13F (.r 1)].map wellFormed = List.replicate 9 true := by
  decide +kernel

theorem test_ill_formed_a :
    [Instr.qld t0 .b 6 (.r 1) 0, .qldExt t0 .b 7 (.r 1) 0 0, .qst t0 .b 13 (.r 1) 0, .qstExt t0 .b 15 (.r 1) 0 0, .pat t0 6 (.r 1) 0,
      .qpush t0 14 (.r 1), .qpop t0 .drop 7 0, .fcls t0 0 .dev, .amo t0 .add (.reg 1) (.r 1) (.r 2) { amoX with sc := true, acq := true },
      .amo t0 .fadd (.reg 1) (.r 1) (.r 2) amoX, .ared t0 .add (.r 1) (.r 2) { amoX with acq := true },
      .ared t0 .fadd (.r 1) (.r 2) amoX].map wellFormed = List.replicate 12 false ∧
      [Instr.qld t0 .b 5 (.r 1) 0, .qst t0 .b 12 (.r 1) 0, .pat t0 16 (.r 1) 0, .qpush t0 31 (.r 1), .qpop t0 .drop 8 0, .fcls t0 1 .dev,
        .amo t0 .add (.reg 1) (.r 1) (.r 2) { amoX with sc := true }, .amo t0 .fadd (.reg 1) (.r 1) (.r 2) { amoX with wide := false },
        .ared t0 .add (.r 1) (.r 2) { amoX with rel := true }].map wellFormed = List.replicate 9 true := by
  decide +kernel

theorem test_ill_formed_v :
    [Instr.vaddExt t0 0 1 2 { noVX with idx := 1 }, .vaddExt t0 0 1 2 { noVX with fmt := .fp32 }, .vaddExt t0 0 1 2 { noVX with m := 1 },
      .vaddExt t0 0 1 2 { noVX with z := true }, .vandExt t0 0 1 2 { noVX with rm := .tz }, .vrcpExt t0 0 1 { noVX with ns := true },
      .vtopk t0 1 2 noVX, .vcvt t0 1 2 { noVX with fmt := .fp4 }, .vcvt t0 0 2 { noVX with fmt := .fp4, msk := true },
      .vcvt t0 0 2 { noVX with fmt := .int64 }, .vunpk t0 0 1 { noVX with idx := 2 }, .vunpk4 t0 0 1 { noVX with idx := 4 },
      .vsat t0 0 1 noVX, .vsat t0 0 1 { noVX with fmt := .bool }, .mset t0 0 65, .vrb t0 1 31, .vfmt t0 0 .int64].map wellFormed =
        List.replicate 17 false ∧
      [Instr.vaddExt t0 0 1 2 { noVX with m := 1, msk := true, z := true, rm := .up, ns := true }, .vtopk t0 2 2 { noVX with idx := 63 },
        .vcvt t0 2 2 { noVX with fmt := .fp4 }, .vunpk t0 0 1 { noVX with idx := 1, fmt := .fp32 }, .vsat t0 0 1 { noVX with fmt := .int8 },
        .mset t0 0 64, .vrb t0 0 31, .vfmt t0 0 .bool].map wellFormed = List.replicate 8 true := by
  decide +kernel

theorem test_ill_formed_m :
    [Instr.mexec t0 0 1 0, .mexec t0 1 0 1, .mexecExt t0 1 2 0 2 0, .mexecExt t0 1 2 0 0 0, .mexecExt t0 0 0 0 1 0].map wellFormed =
      List.replicate 5 false ∧
    [Instr.mexec t0 0 0 0, .mexec t0 63 7 0xFFFF, .mexecExt t0 1 0 0 2 0].map wellFormed = List.replicate 3 true := by decide +kernel

/-! ## Single steps

Each result is worked out by hand from the rule that the comment names. -/

/-- The value of a named register of C after a word. -/
def sAfter (i : Instr) (s : State) (n : Fin 16) : Option Word64 :=
  match exec i s with
  | .next u => (u.getCell 0 0).map fun c => c.core.sregs[n].val
  | _ => none

/-- The value of a named register of A after a word. -/
def aAfter (i : Instr) (s : State) (n : Fin 16) : Option Word64 :=
  match exec i s with
  | .next u => (u.getCell 0 0).map fun c => c.core.aregs[n].val
  | _ => none

/-- The code of the fault that the task holds after a word. -/
def faultAfter (i : Instr) (s : State) : Option FaultCode :=
  match exec i s with
  | .next u => ((u.getTask 1).bind fun t => t.fault).map HeldFault.code
  | _ => none

/-- The lanes of a vector register after a word, lane 0 of it. -/
def vAfter (i : Instr) (s : State) (n : Fin 32) (lane : Nat) : Option Nat :=
  match exec i s with
  | .next u => (u.getCell 0 0).map fun c => laneAt c.core.vregs[n].bits lane
  | _ => none

/-- s1 = a1 = x, s14 = a14 = y. -/
def xy (x y : Word64) : State := demo (cellXY x y 0)

/-- R116: the difference wraps. -/
theorem test_sub_wraps : sAfter (.sub t0 (.reg 2) (.r 1) (.r 14)) (xy 0 1) 2 = some 0xFFFFFFFFFFFFFFFF := by decide +kernel
/-- R116: sar keeps the sign, and counts modulo 64. -/
theorem test_sar_count : sAfter (.sar t0 (.reg 2) (.r 1) (.r 14)) (xy 0x8000000000000000 65) 2 = some 0xC000000000000000 := by decide +kernel
/-- R116: a source is also the destination. -/
theorem test_rotl_self : sAfter (.rotl t0 (.reg 1) (.r 1) (.r 14)) (xy 0x8000000000000001 1) 1 = some 3 := by decide +kernel
theorem test_min_signed : sAfter (.min t0 (.reg 2) (.r 1) (.r 14)) (xy (-1) 1) 2 = some (-1) := by decide +kernel
theorem test_minu_unsigned : sAfter (.minu t0 (.reg 2) (.r 1) (.r 14)) (xy (-1) 1) 2 = some 1 := by decide +kernel
/-- R117: the high half of (-1) times (-1) is 0 signed, and 2^64 - 2 unsigned. -/
theorem test_mulhs : sAfter (.mulhs t0 (.reg 2) (.r 1) (.r 14)) (xy (-1) (-1)) 2 = some 0 := by decide +kernel
theorem test_mulhu : sAfter (.mulhu t0 (.reg 2) (.r 1) (.r 14)) (xy (-1) (-1)) 2 = some 0xFFFFFFFFFFFFFFFE := by decide +kernel
/-- R118: truncation toward zero, and division by zero. -/
theorem test_div_truncates : sAfter (.div t0 (.reg 2) (.r 1) (.r 14)) (xy (-7) 2) 2 = some (-3) := by decide +kernel
theorem test_div_zero : sAfter (.div t0 (.reg 2) (.r 1) (.r 14)) (xy 5 0) 2 = some (-1) := by decide +kernel
theorem test_rem_sign : sAfter (.rem t0 (.reg 2) (.r 1) (.r 14)) (xy (-7) 2) 2 = some (-1) := by decide +kernel
/-- R119: zero has 64 leading zeros. -/
theorem test_clz_zero : sAfter (.clz t0 (.reg 2) (.r 1)) (xy 0 0) 2 = some 64 := by decide +kernel
theorem test_ctz : sAfter (.ctz t0 (.reg 2) (.r 1)) (xy 8 0) 2 = some 3 := by decide +kernel
theorem test_sext_byte : sAfter (.sext t0 (.reg 2) (.r 1) .w8) (xy 0x180 0) 2 = some 0xFFFFFFFFFFFFFF80 := by decide +kernel
theorem test_zext_byte : sAfter (.zext t0 (.reg 2) (.r 1) .w8) (xy 0x180 0) 2 = some 0x80 := by decide +kernel
/-- R120: signed and unsigned order differ. -/
theorem test_cmp_lt : sAfter (.cmp t0 .lt (.reg 2) (.r 1) (.r 14)) (xy (-1) 0) 2 = some 1 := by decide +kernel
theorem test_cmp_ltu : sAfter (.cmp t0 .ltu (.reg 2) (.r 1) (.r 14)) (xy (-1) 0) 2 = some 0 := by decide +kernel
/-- R123: the product and the sum of amadd. -/
theorem test_amadd : aAfter (.amadd t0 (.reg 2) (.r 1) (.r 14) (.r 1)) (xy 3 5) 2 = some 18 := by decide +kernel
theorem test_ashl : aAfter (.ashl t0 (.reg 2) (.r 1) (.r 14)) (xy 1 63) 2 = some 0x8000000000000000 := by decide +kernel
/-- R121: unequal clocks fault. -/
theorem test_clock_mismatch :
    faultAfter (.add t0 .drop (.r 1) (.r 14)) (demo (cellOf fun c => { c with sregs := c.sregs.set 1 { tag := 1 }
                                                                              clks := c.clks.set 1 { dfn := true, val := true } })) =
      some .clockMismatch := by decide +kernel
/-- R362: trap and brk. -/
theorem test_trap : faultAfter (.trap t0 5) (xy 0 0) = some .trap := by decide +kernel
/-- R126: a transfer below the text. -/
theorem test_jr_outside : faultAfter (.jr t0 (.r 1)) (xy 4 0) = some .illegalWord := by decide +kernel
/-- R192: FP32, 1 + 1 = 2. -/
theorem test_vadd_fp32 : vAfter (.vadd t0 2 0 1) (demo (vcell .fp32 0 false)) 2 0 = some 0x40000000 := by decide +kernel
/-- R192: 1 * 1 + 1 = 2, the destination as addend. -/
theorem test_vfma_fp32 : vAfter (.vfma t0 2 0 1) (demo (vcell .fp32 0 false)) 2 0 = some 0x40000000 := by decide +kernel
/-- R193: the sign of a float is flipped. -/
theorem test_vneg_fp32 : vAfter (.vneg t0 2 0) (demo (vcell .fp32 0 false)) 2 0 = some 0xBF800000 := by decide +kernel
/-- R192 and R76: the INT8 elements 0x80 and 0x3F of both sources: sums -256 and 126: -256 saturates to
-128, and with NS wraps to 0. -/
theorem test_vadd_int8 : vAfter (.vadd t0 2 0 1) (demo (vcell .int8 0 false)) 2 0 = some 0x7E800000 := by decide +kernel
theorem test_vadd_int8_ns :
    vAfter (.vaddExt t0 2 0 1 { noVX with ns := true }) (demo (vcell .int8 0 false)) 2 0 = some 0x7E000000 := by decide +kernel
/-- R209: a bitwise complement. -/
theorem test_vnot : vAfter (.vnot t0 2 0) (demo (vcell .raw 0 false)) 2 0 = some 0xC07FFFFF := by decide +kernel
/-- R205: FP32 1 becomes BF16 1, in the low half of lane 0. -/
theorem test_vcvt_bf16 : vAfter (.vcvt t0 2 0 { noVX with fmt := .bf16 }) (demo (vcell .fp32 0 false)) 2 0 = some 0x3F80 := by decide +kernel
/-- R181: sources of two formats fault; so does a clock of its own. -/
theorem test_vadd_format :
    faultAfter (.vadd t0 2 0 1) (demo (cellOf fun c => { c with vregs := c.vregs.set 0 { fmt := .fp32 } })) = some .formatMismatch := by
  decide +kernel
/-- R362: a poisoned source. -/
theorem test_vadd_poison : faultAfter (.vadd t0 2 0 1) (demo (vcell .fp32 0 true)) = some .uncorrectable := by decide +kernel

end Sys2Proof.Tests
end

/-! PROOFS. The words of R118 and R122: where the fields of a head word stand, what the division operations are, and what
div, divu, rem, remu and nop do. -/

namespace Sys2Proof.Machine

open Sys2Proof

/-! ## The fields of a head word of C (R30, R38) -/

theorem tokNat_lt (t : Tok) : tokNat t < 16 := by
  obtain ⟨pp, pn, hp, hn⟩ := t
  cases pp <;> cases pn <;> cases hp <;> cases hn <;> decide

theorem srcNat_lt (a : Src) : srcNat a < 32 := by
  cases a <;> simp only [srcNat] <;> omega

theorem dstNat_lt (d : Dst) : dstNat d < 32 := by
  cases d <;> simp only [dstNat] <;> omega

/-- A C head word whose operand fields are a func `n` over 15 further bits shows its tag, major and func. -/
theorem headNat_c_fields {t : Tok} {m n : Nat} {ops : List (Nat × Nat)} (hm : m < 64) (hn : n < 16)
    (ho : packFields ops / 2 ^ 15 = n) :
    (BitVec.ofNat 32 (headNat 0 0 t m ops)).toNat / 2 ^ 30 = 0 ∧
      (BitVec.ofNat 32 (headNat 0 0 t m ops)).toNat / 2 ^ 19 % 64 = m ∧
      (BitVec.ofNat 32 (headNat 0 0 t m ops)).toNat / 2 ^ 15 % 16 = n := by
  have ht := tokNat_lt t
  simp only [BitVec.toNat_ofNat, headNat]
  omega

/-- The operand fields of a word with a func, a destination and two sources: the func stands over the other three. -/
theorem packFields_func (n : Nat) (d : Dst) (a b : Src) :
    packFields [(n, 15), (dstNat d, 10), (srcNat a, 5), (srcNat b, 0)] / 2 ^ 15 = n := by
  have hd := dstNat_lt d
  have ha := srcNat_lt a
  have hb := srcNat_lt b
  simp only [packFields]
  omega

/-! ## Division (R118) -/

theorem divS_zero (x : Word64) : divS x 0 = 0xFFFFFFFFFFFFFFFF := rfl
theorem divU_zero (x : Word64) : divU x 0 = 0xFFFFFFFFFFFFFFFF := rfl
theorem remS_zero (x : Word64) : remS x 0 = x := rfl
theorem remU_zero (x : Word64) : remU x 0 = x := rfl

theorem divS_eq_sdiv (x : Word64) {y : Word64} (hy : y ≠ 0) : divS x y = x.sdiv y :=
  BitVec.eq_of_toInt_eq (by rw [divS, if_neg hy, BitVec.toInt_ofInt, BitVec.toInt_sdiv])

theorem remS_eq_srem (x : Word64) {y : Word64} (hy : y ≠ 0) : remS x y = x.srem y := by
  rw [remS, if_neg hy, ← BitVec.toInt_srem, BitVec.ofInt_toInt]

theorem divU_eq_udiv (x : Word64) {y : Word64} (hy : y ≠ 0) : divU x y = x / y := by
  rw [divU, if_neg hy, ← BitVec.toNat_udiv, BitVec.ofNat_toNat, BitVec.setWidth_eq]

theorem remU_eq_umod (x : Word64) {y : Word64} (hy : y ≠ 0) : remU x y = x % y := by
  rw [remU, if_neg hy, ← BitVec.toNat_umod, BitVec.ofNat_toNat, BitVec.setWidth_eq]

/-- The quotient truncates toward zero on every pair but the one whose quotient does not fit. -/
theorem toInt_divS {x y : Word64} (hy : y ≠ 0) (h : ¬(x = 0x8000000000000000 ∧ y = 0xFFFFFFFFFFFFFFFF)) :
    (divS x y).toInt = x.toInt.tdiv y.toInt := by
  rw [divS_eq_sdiv x hy]
  exact BitVec.toInt_sdiv_of_ne_or_ne x y (Decidable.not_and_iff_or_not.1 h)

theorem toInt_remS (x : Word64) {y : Word64} (hy : y ≠ 0) :
    (remS x y).toInt = x.toInt - y.toInt * x.toInt.tdiv y.toInt := by
  rw [remS_eq_srem x hy, BitVec.toInt_srem, Int.tmod_def]

theorem toNat_divU (x : Word64) {y : Word64} (hy : y ≠ 0) : (divU x y).toNat = x.toNat / y.toNat := by
  rw [divU_eq_udiv x hy, BitVec.toNat_udiv]

theorem toNat_remU (x : Word64) {y : Word64} (hy : y ≠ 0) :
    (remU x y).toNat = x.toNat - y.toNat * (x.toNat / y.toNat) := by
  rw [remU_eq_umod x hy, BitVec.toNat_umod, Nat.mod_eq_sub_mul_div]

theorem exec_div (t : Tok) (d : Dst) (a b : Src) (s : State) :
    exec (.div t d a b) s = scalarWord .c t s 1 d [a, b] fun v => divS (v0 v) (v1 v) := rfl

theorem exec_divu (t : Tok) (d : Dst) (a b : Src) (s : State) :
    exec (.divu t d a b) s = scalarWord .c t s 1 d [a, b] fun v => divU (v0 v) (v1 v) := rfl

theorem exec_rem (t : Tok) (d : Dst) (a b : Src) (s : State) :
    exec (.rem t d a b) s = scalarWord .c t s 1 d [a, b] fun v => remS (v0 v) (v1 v) := rfl

theorem exec_remu (t : Tok) (d : Dst) (a b : Src) (s : State) :
    exec (.remu t d a b) s = scalarWord .c t s 1 d [a, b] fun v => remU (v0 v) (v1 v) := rfl

/-- A present C word of one head word over two sources finishes with its operation on their values. -/
theorem scalarWord_two_present {t : Tok} {s : State} {c : Cell} {k : Task} {d : Dst} {a b : Src} {q : Clk} {x y : Word64}
    (hr : Ready .c t s c k) (hp : Present .c s c k [a, b] q (dstNamed d)) (hv : srcVals .c c [a, b] = [x, y])
    (f : Word64 → Word64 → Word64) :
    scalarWord .c t s 1 d [a, b] (fun v => f (v0 v) (v1 v)) =
      .next (finish .c s c k t (c.core.pc.c + 1) (resultOf d q true (f x y))) := by
  rw [scalarWord_present hr hp, hv]
  rfl

/-- The division word of func `n` is that func over its destination and sources, at major 1. -/
theorem encode_division {t : Tok} {d : Dst} {a b : Src} {n : Nat} {i : Instr}
    (h : [(3, Instr.div t d a b), (4, .divu t d a b), (5, .rem t d a b), (6, .remu t d a b)].lookup n = some i) :
    n < 16 ∧ encode i =
      [BitVec.ofNat 32 (headNat 0 0 t 1 [(n, 15), (dstNat d, 10), (srcNat a, 5), (srcNat b, 0)])] := by
  have hmem : (n, i) ∈ [(3, Instr.div t d a b), (4, .divu t d a b), (5, .rem t d a b), (6, .remu t d a b)] := by
    obtain ⟨l₁, l₂, hl, -⟩ := List.lookup_eq_some_iff.1 h
    rw [hl]
    exact List.mem_append_cons_self
  simp only [List.mem_cons, Prod.mk.injEq, List.not_mem_nil, or_false] at hmem
  obtain ⟨rfl, rfl⟩ | ⟨rfl, rfl⟩ | ⟨rfl, rfl⟩ | ⟨rfl, rfl⟩ := hmem <;> exact ⟨by decide, rfl⟩

/-- Settles O17: the words are scalar words of divS, divU, remS and remU, which are the library's truncating division and
its remainder wherever the quotient fits. -/
theorem division : Obligations.Division := by
  refine ⟨fun t d a b n i h => ?_, fun t d a b s c k q x y hr hp hv => ⟨divS x y, divU x y, remS x y, remU x y, ?_⟩⟩
  · obtain ⟨hn, he⟩ := encode_division h
    exact ⟨_, he, headNat_c_fields (by decide) hn (packFields_func n d a b)⟩
  · have word := scalarWord_two_present hr hp hv
    refine ⟨exec_div t d a b s ▸ word divS, exec_divu t d a b s ▸ word divU, exec_rem t d a b s ▸ word remS,
      exec_remu t d a b s ▸ word remU, ?zero, ?overflow, ?signed, ?unsigned⟩
    case zero =>
      rintro rfl
      exact ⟨divS_zero x, divU_zero x, remS_zero x, remU_zero x⟩
    case overflow =>
      rintro ⟨rfl, rfl⟩
      decide
    case signed => exact fun hy h => ⟨toInt_divS hy h, toInt_remS x hy⟩
    case unsigned => exact fun hy => ⟨toNat_divU x hy, toNat_remU x hy⟩

/-! ## nop (R122) -/

/-- A ready nop ends with no result. -/
theorem exec_nop_ready {t : Tok} {s : State} {c : Cell} {k : Task} (h : Ready .c t s c k) :
    exec (.nop t) s = .next (finish .c s c k t (c.core.pc.c + 1) {}) :=
  runWord_ready h _

/-- Settles O28: a nop ends alone, with nothing dropped and nothing written, so that its cell alone is retired. -/
theorem nopWord : Obligations.NopWord := by
  refine ⟨fun t => ?_, fun t s c k h => ?_⟩
  · obtain ⟨-, hmajor, hfunc⟩ := headNat_c_fields (t := t) (m := 0x1B) (n := 0) (ops := []) (by decide) (by decide) rfl
    exact ⟨_, rfl, hmajor, hfunc⟩
  · have hf := finish_alone (t := t) (k := k) (old := c) (pc := c.core.pc.c + 1) (r := {})
      (here_cell h.here) (.inl rfl) nofun nofun
    exact ⟨_, (exec_nop_ready h).trans (congrArg _ hf), scalarStep_retire .c t _ {} c (.inl rfl), fun _ => rfl⟩

end Sys2Proof.Machine
